-- ==== Sys2Proof/Word.lean ====
section
/-! DEFINITION. The words of the core: bytes, the 32-bit words of the register port, and memories as plain lists. -/

namespace Sys2Proof

/-- An element of IN, CLEAN and PIX, an entry of HOFF and HSYM, a sample (spec R70). -/
abbrev Byte := BitVec 8

/-- A word of the register port (spec R30, REG_WIDTH of R7). -/
abbrev Word := BitVec 32

/-- A memory of elements of one width, indexed by element (spec R75, R76): pairs of index and value,
indexes strictly rising, only the entries something has written. `Memory Byte` is a list of `Host.Cell`. -/
abbrev Memory (α : Type) := List (Nat × α)

end Sys2Proof
end

