-- ==== Sys2Proof/Syntax.lean ====
section
/-! DEFINITION. The instructions of the core: one constructor per row of spec/opcode_table.json. -/

namespace Sys2Proof

/-- Class of a Huffman table: `c` = 0 (DC), 1 (AC) (spec R51). -/
inductive HClass where
  | dc
  | ac
deriving DecidableEq, Repr

/-- The 51 rows of the opcode table: the commands of format CMD, the tokens of the entropy-coded segment
(formats B1 and M2), the Huffman code word HC, the DC and AC symbols, the extra bits XB, and the operations
without an encoding, each with the operands its rule names. -/
inductive Instr where
  /-- `CMD` <- 1 (spec R142). -/
  | start
  /-- `CMD` <- 2 (spec R146). -/
  | clear
  /-- `CMD` <- `v`, any other value (spec R147). -/
  | cmdReserved (v : Word)
  /-- A byte of IN that is not 0xFF (spec R162). -/
  | data (b : Byte)
  /-- Bytes FF 00 (spec R163). -/
  | stuff
  /-- Bytes FF D0+n (spec R164). -/
  | rstN (n : BitVec 3)
  /-- Bytes FF D9 (spec R166). -/
  | eoi
  /-- Bytes FF FF, of which the first is consumed (spec R165). -/
  | fill
  /-- Bytes FF m for any other m (spec R167). -/
  | badmark (m : Byte)
  /-- IN has no byte where a token needs one (spec R168). -/
  | endin
  /-- A code word of `len` bits and value `code`, in the table the sequencer selects (spec R104, R192). -/
  | hc (len : BitVec 5) (code : BitVec 16)
  /-- DC symbols 0x00 to 0x0B: the magnitude category (spec R221). -/
  | dc0
  | dc1
  | dc2
  | dc3
  | dc4
  | dc5
  | dc6
  | dc7
  | dc8
  | dc9
  | dc10
  | dc11
  /-- DC symbol 0x0C to 0xFF (spec R222). -/
  | dcbad (s : Byte)
  /-- AC symbol 0x00 (spec R224). -/
  | eob
  /-- AC symbol 0xF0 (spec R225). -/
  | zrl
  /-- AC symbol with run `r` and size `s`, `s` not 0 (spec R226). -/
  | acrs (r s : BitVec 4)
  /-- AC symbol with size 0 and run `r` in 1..14 (spec R227). -/
  | acr0 (r : BitVec 4)
  /-- `s` extra bits of value `x` (spec R109, R223). -/
  | xb (s : BitVec 4) (x : BitVec 15)
  /-- Host register write of `v` to the word with index `a`, byte offset `4*a` (spec R140). -/
  | write (a : Fin 3072) (v : Word)
  /-- Host register read of the word with index `a` (spec R145). -/
  | read (a : Fin 3072)
  /-- The SCAN phase (spec R160). -/
  | scan
  /-- One bit of CLEAN (spec R170). -/
  | nextbit
  /-- `n` bits as an unsigned number (spec R171). -/
  | receive (n : BitVec 4)
  /-- Move the bit cursor to a byte boundary (spec R172). -/
  | align
  /-- Decode one symbol with table `t` of class `c` (spec R192). -/
  | huffdec (c : HClass) (t : BitVec 2)
  /-- The signed value of `s` extra bits `b` (spec R223). -/
  | extend (b : BitVec 15) (s : BitVec 4)
  /-- The block of slot `j` of MCU `m` (spec R220). -/
  | decodeBlock (m : Word) (j : Fin 3)
  /-- The DC coefficient of that block (spec R221). -/
  | decodeDc (m : Word) (j : Fin 3)
  /-- The AC coefficients of that block (spec R229). -/
  | decodeAc (m : Word) (j : Fin 3)
  /-- The action at a restart boundary (spec R230). -/
  | restart
  /-- All blocks of MCU `m` (spec R231). -/
  | decodeMcu (m : Word)
  /-- The ENTROPY phase (spec R232). -/
  | entropy
  /-- Dequantize and un-zigzag channel `ch` of MCU `m` with table `tq` (spec R252). -/
  | dequant (m : Word) (ch : Fin 3) (tq : BitVec 2)
  /-- Inverse DCT of DQ into SAMP[ch] (spec R270). -/
  | idct (ch : Fin 3)
  /-- Level shift and clamp of `out` into SAMP[ch] (spec R271). -/
  | levelshift (ch : Fin 3)
  /-- Colour conversion of one pixel (spec R291). -/
  | ycc2rgb (y cb cr : Byte)
  /-- Gray pixel (spec R292). -/
  | gray (y : Byte)
  /-- Place pixel `i` of MCU `m` (spec R295). -/
  | storepix (m : Word) (i : Fin 64) (r g b : Byte)
  /-- Stages four to seven of MCU `m` (spec R299). -/
  | reconMcu (m : Word)
  /-- The RECON phase (spec R300). -/
  | recon
deriving DecidableEq, Repr

end Sys2Proof
end

