-- ==== Sys2Proof/Config.lean ====
section
/-! DEFINITION. What the spec leaves to an implementation (spec R7) and the free values: constants with no body, so that
nothing in Lean can evaluate one or prove a value of it. Each free value is applied to the counter `draws` of State and to the
place in the operation that reads it, so that two reads of one unwritten entry need not agree (spec R60). -/

namespace Sys2Proof

/-- How much of a run one step performs: the spec leaves it to the model (spec R392). `unit`: one token, code word, symbol,
block stage or pixel; `part`: the DC part or the AC part of a block; `block`; `mcu`; `phase`. -/
inductive Grain where
  | unit
  | part
  | block
  | mcu
  | phase
deriving DecidableEq, Repr

/-- The parameters of an implementation: `none` is the unbounded capacity of spec R7. -/
structure Params where
  /-- CLEAN_CAP in bytes. -/
  cleanCap : Option Nat
  /-- COEF_CAP in MCUs. -/
  coefCap : Option Nat
  grain : Grain
deriving DecidableEq, Repr

/-- What an unwritten entry of QTAB reads as at one read (spec R60, U1). -/
opaque Config.freeQtab : Nat → Nat → BitVec 16
/-- The same for HOFF. -/
opaque Config.freeHoff : Nat → Nat → BitVec 8
/-- The same for HSYM. -/
opaque Config.freeHsym : Nat → Nat → BitVec 8
/-- The same for CLEAN. -/
opaque Config.freeClean : Nat → Nat → BitVec 8
/-- The same for COEF. -/
opaque Config.freeCoef : Nat → Nat → BitVec 16
/-- The same for DQ (spec U1). -/
opaque Config.freeDq : Nat → Nat → BitVec 32
/-- The same for `out`. -/
opaque Config.freeOut : Nat → Nat → Int
/-- The same for SAMP (spec U1). -/
opaque Config.freeSamp : Nat → Nat → BitVec 8
/-- The same for RGB (spec U1). -/
opaque Config.freeRgb : Nat → Nat → BitVec 8
/-- Whether a byte of PIX has already got its new value when a reset ends a run in its RECON phase: at one reset, by its offset
(spec R371, U4). -/
opaque Config.freePixDone : Nat → Nat → Bool

end Sys2Proof
end

