-- ==== Sys2Proof/Machine/State.lean ====
section
/-! DEFINITION. The state of the core and its environment as plain data, and the state after reset. -/

namespace Sys2Proof.Machine

/-- `STATE` (spec R21). -/
inductive RunState where
  | idle
  | busy
  | done
  | error
deriving DecidableEq, Repr

/-- `phase` (spec R23). -/
inductive Phase where
  | none
  | scan
  | entropy
  | recon
deriving DecidableEq, Repr

/-- Where the core stands in the pseudocode of its phase. The spec leaves it implicit; it is the model's own field (log 7). -/
inductive Upc where
  /-- No run in progress. -/
  | idle
  /-- SCAN, before a token. -/
  | token
  /-- ENTROPY, before the restart action of MCU `mcu` (spec R232). -/
  | restartDue
  /-- ENTROPY, before a code word: of the DC unit if `k` = 0, of an AC unit otherwise. -/
  | code
  /-- ENTROPY, the code word is decoded and `sym` holds its symbol. -/
  | symbol
  /-- ENTROPY, EOB has left the AC loop of the block (spec R224). -/
  | blockEnd
  /-- RECON, before DEQUANT of channel `ch` (spec R299). -/
  | dequant (ch : Fin 3)
  /-- RECON, before IDCT of channel `ch`. -/
  | idct (ch : Fin 3)
  /-- RECON, before the colour conversion of pixel `i`. -/
  | colour (i : Fin 64)
  /-- RECON, before pixel `i` is stored. -/
  | store (i : Fin 64)
deriving DecidableEq, Repr

/-- What the world outside the core can do to it (spec R30, R54, R370). -/
inductive HostEvent where
  /-- A write of `v` to the word with index `a` of the register port. -/
  | write (a : Fin 3072) (v : Word)
  /-- A read of the word with index `a`. -/
  | read (a : Fin 3072)
  /-- The input port is attached to a new sequence, of which the bytes given are there; `last` says that the port has signalled
  the end behind them (spec R54, R375 step 7). -/
  | attach (bytes : List Byte) (last : Bool)
  /-- The port delivers further bytes of the sequence, and with `last` the end indication behind them (spec R385). -/
  | deliver (bytes : List Byte) (last : Bool)
  /-- The reset input is asserted and released (spec R370). -/
  | reset
deriving DecidableEq, Repr

/-- One colour triple (spec R291). -/
structure Rgb where
  r : Byte
  g : Byte
  b : Byte
deriving DecidableEq, Repr

/-- Why a step stops the model. Each is raised only in a state no run reaches, and is safe: the model stops where the spec
gives no behaviour. -/
inductive Fault where
  /-- A slot above 2 is selected: there is no SCANCOMP3 (spec R42). Raised by `slotOf`, from DECODE_MCU, RECON_MCU and the
  sequencer, when NCOMP is above 3, which START refuses (spec R143 check 1). Safe. -/
  | noSlot
  /-- The component id of the selected slot is 0, so that there is no channel CID - 1, or no slot feeds the channel (spec
  R42, R253). Raised by the block operations and the sequencer when the ids are not 1..NCOMP, which START refuses (spec R143
  check 3). Safe. -/
  | noChannel
  /-- `phase` and the position in its pseudocode do not belong together, or STATE is BUSY with phase NONE (spec R23). Raised
  by the sequencer. Safe. -/
  | lostSequencer
deriving DecidableEq, Repr

/-- Why an instruction or a host action has no meaning. -/
inductive Refusal where
  /-- An instruction that has no meaning yet, by its mnemonic: raised by arms of `exec` only; safe. -/
  | notModelled (mnemonic : String)
  /-- The run would move the input cursor past 2^32 - 1: "the behaviour is outside this spec" (spec R24, U9). Raised by the
  token operations; safe. -/
  | inputCursorOverflow
  /-- The host changes the input sequence during a run, outside the contract of spec R385 (U6: "Refuse"). Raised by the host
  action `attach`; safe. -/
  | inputChangedDuringRun
  /-- The port delivers behind the end indication, outside the contract of spec R385 ("one finite byte sequence and then the end
  indication"; U6: "Refuse"). Raised by the host action `deliver`; safe. -/
  | inputAfterEnd
deriving DecidableEq, Repr

/-- The state: the core's (spec R20, R27 to R29), the environment's (IN, PIX, what the host will do next), the parameters
of spec R7, and the fields the model adds. INVENTORY.md lists each with its width, rule and reset value. -/
structure State where
  /-- `STATE` (spec R21). -/
  state : RunState
  /-- `WIGN` (spec R22). -/
  wign : Bool
  /-- `IRQEN` (spec R34). -/
  irqen : Word
  /-- `phase` (spec R23). -/
  phase : Phase
  /-- Input cursor (spec R24); read as `INPOS` (spec R44). -/
  ip : Word
  /-- Bit cursor, byte index (spec R25); read as `BYTEPOS`. -/
  bp : Word
  /-- Bit cursor, bits consumed of that byte (spec R25); read as `BITIDX`. -/
  bi : BitVec 3
  /-- Sequencer registers (spec R26). -/
  mcu : Word
  slot : Fin 3
  k : BitVec 7
  /-- DC predictors (spec R27); read as `DCPRED0..2`. -/
  dcpred : Vector (BitVec 16) 3
  /-- Transients of one Huffman decode (spec R28). -/
  code : BitVec 16
  first : BitVec 25
  len : BitVec 5
  /-- Error registers (spec R35 to R39). -/
  errcode : BitVec 8
  errpos : Word
  errval : BitVec 16
  errmcu : Word
  errblk : Word
  /-- Configuration registers (spec R40 to R43). -/
  framedim : Word
  framecfg : Word
  scancomp : Vector Word 3
  tabset : Word
  /-- Counters (spec R45, R46). -/
  cleanlen : Word
  mcucnt : Word
  /-- Table memories, by the word index within their port window (spec R50 to R53). -/
  qtab : Memory (BitVec 16)
  hoff : Memory Byte
  hsym : Memory Byte
  /-- Clean bytes (spec R55). -/
  clean : Memory Byte
  /-- Coefficients; entry `[m][ch][k]` has index `(3*m + ch)*64 + k` (spec R56). -/
  coef : Memory (BitVec 16)
  /-- Block buffers of RECON (spec R29); `samp` and `rgb` entry `[ch][i]` has index `64*ch + i`. -/
  dq : Memory (BitVec 32)
  t : Memory (BitVec 47)
  acc : BitVec 61
  out : Memory Int
  samp : Memory Byte
  rgb : Memory Byte
  /-- Pixel memory of the host: the bytes the core has written (spec R57). -/
  pix : Memory Byte
  /-- PIX as it stood when the RECON phase last began: the old bytes of spec U4 (log 8). -/
  pixOld : Memory Byte
  /-- IN: the bytes of the sequence at the input port, as far as the port has delivered them (spec R54, R385). -/
  input : List Byte
  /-- The port has signalled the end of the sequence: INLEN is the length of `input` (spec R54). -/
  inputEnd : Bool
  /-- No run has begun with the sequence at the port, so that the next START takes it (spec R142, R345; log 19). -/
  inputFresh : Bool
  /-- What the host does next: each action with the number of steps that pass before it lands (log 6). -/
  hostq : List (Nat × HostEvent)
  /-- Parameters (spec R7, R392). -/
  params : Params
  /-- Position in the pseudocode (log 7). -/
  upc : Upc
  /-- What the operations of the pseudocode return (log 4): the symbol of HUFFDEC, the bits of RECEIVE, the value of EXTEND,
  the bit of NEXTBIT, the triple of YCC2RGB and GRAY, the word of READ. -/
  sym : Byte
  raw : BitVec 15
  ext : BitVec 16
  bitOut : Bool
  pixel : Rgb
  rdata : Word
  /-- Counter of the free values (log 5). -/
  draws : Nat
deriving DecidableEq, Repr

/-- The state after hardware reset (spec R59, R370): every register 0, STATE IDLE, phase NONE, no memory entry written
(spec R60). The transients, the model's own fields and the environment at values named in log 3 to log 7, log 12 and
log 19. -/
def State.reset : State where
  state := .idle
  wign := false
  irqen := 0
  phase := .none
  ip := 0
  bp := 0
  bi := 0
  mcu := 0
  slot := 0
  k := 0
  dcpred := #v[0, 0, 0]
  code := 0
  first := 0
  len := 0
  errcode := 0
  errpos := 0
  errval := 0
  errmcu := 0
  errblk := 0
  framedim := 0
  framecfg := 0
  scancomp := #v[0, 0, 0]
  tabset := 0
  cleanlen := 0
  mcucnt := 0
  qtab := []
  hoff := []
  hsym := []
  clean := []
  coef := []
  dq := []
  t := []
  acc := 0
  out := []
  samp := []
  rgb := []
  pix := []
  pixOld := []
  input := []
  inputEnd := false
  inputFresh := true
  hostq := []
  params := { cleanCap := none, coefCap := none, grain := .unit }
  upc := .idle
  sym := 0
  raw := 0
  ext := 0
  bitOut := false
  pixel := { r := 0, g := 0, b := 0 }
  rdata := 0
  draws := 0

end Sys2Proof.Machine
end

