-- ==== Sys2Proof/Machine/Arith.lean ====
section
/-! DEFINITION. The number helpers of spec R9 and the wired constant tables ZZ (R251) and M (R267). -/

namespace Sys2Proof.Machine

/-- `fdiv(a, b)`, rounding toward minus infinity, for `b > 0` (spec R9): Lean's `/` on `Int` is the floor for such `b`. -/
def fdiv (a b : Int) : Int := a / b

/-- `clamp(x, lo, hi)` (spec R9). -/
def clamp (x lo hi : Int) : Int := if x < lo then lo else if hi < x then hi else x

/-- `ceil8(n)`: the number of 8-wide blocks that cover `n` (spec R9). -/
def ceil8 (n : Nat) : Nat := (n + 7) / 8

/-- `wrap16(x)` as the 16-bit register that holds it (spec R9). -/
def wrap16 (x : Int) : BitVec 16 := BitVec.ofInt 16 x

/-- An integer clamped to 0..255, as a byte. -/
def clampByte (x : Int) : Byte := BitVec.ofInt 8 (clamp x 0 255)

/-- A sum over 0..7. -/
def sum8 (f : Nat → Int) : Int := f 0 + f 1 + f 2 + f 3 + f 4 + f 5 + f 6 + f 7

/-- The zigzag table (spec R251): `zz k` is the natural-order index of the `k`-th coefficient in transmission order. -/
def zzTable : List Nat :=
  [ 0,  1,  8, 16,  9,  2,  3, 10, 17, 24, 32, 25, 18, 11,  4,  5] ++
  [12, 19, 26, 33, 40, 48, 41, 34, 27, 20, 13,  6,  7, 14, 21, 28] ++
  [35, 42, 49, 56, 57, 50, 43, 36, 29, 22, 15, 23, 30, 37, 44, 51] ++
  [58, 59, 52, 45, 38, 31, 39, 46, 53, 60, 61, 54, 47, 55, 62, 63]

def zz (k : Nat) : Nat := zzTable.getD k 0

/-- The IDCT constants with 13 fraction bits (spec R267), one row per sample position. -/
def idctTable : List (List Int) :=
  [[2896,  4017,  3784,  3406,  2896,  2276,  1567,   799],
   [2896,  3406,  1567,  -799, -2896, -4017, -3784, -2276],
   [2896,  2276, -1567, -4017, -2896,   799,  3784,  3406],
   [2896,   799, -3784, -2276,  2896,  3406, -1567, -4017],
   [2896,  -799, -3784,  2276,  2896, -3406, -1567,  4017],
   [2896, -2276, -1567,  4017, -2896,  -799,  3784, -3406],
   [2896, -3406,  1567,   799, -2896,  4017, -3784,  2276],
   [2896, -4017,  3784, -3406,  2896, -2276,  1567,  -799]]

/-- `M[n][k]` (spec R267). -/
def idctM (n k : Nat) : Int := (idctTable.getD n []).getD k 0

end Sys2Proof.Machine
end

