-- ==== Sys2Proof/Machine/Flags.lean ====
section
/-! DEFINITION. The status word, the interrupt output, WIGN, and the cause codes of the faults. -/

namespace Sys2Proof.Machine

/-- The causes of a fault (spec R321). -/
inductive Cause where
  | cfgNcomp
  | cfgDim
  | cfgCompid
  | cfgQunset
  | cfgDcunset
  | cfgAcunset
  | cfgHtable
  | unsupCmyk
  | trunc
  | underrun
  | badMarker
  | huffCode
  | dcCat
  | acOverrun
  | capClean
  | capCoef
deriving DecidableEq, Repr

/-- The codes of spec R321; bits 7:4 are the class. -/
def causeCode : Cause → BitVec 8
  | .cfgNcomp => 0x10
  | .cfgDim => 0x11
  | .cfgCompid => 0x12
  | .cfgQunset => 0x13
  | .cfgDcunset => 0x14
  | .cfgAcunset => 0x15
  | .cfgHtable => 0x16
  | .unsupCmyk => 0x20
  | .trunc => 0x30
  | .underrun => 0x31
  | .badMarker => 0x40
  | .huffCode => 0x41
  | .dcCat => 0x42
  | .acOverrun => 0x43
  | .capClean => 0x50
  | .capCoef => 0x51

/-- The two bits of `STATE` (spec R21). -/
def runStateCode : RunState → Nat
  | .idle => 0
  | .busy => 1
  | .done => 2
  | .error => 3

/-- `IE_DONE` (spec R34). -/
def ieDone (s : State) : Bool := s.irqen.getLsbD 0

/-- `IE_ERR` (spec R34). -/
def ieErr (s : State) : Bool := s.irqen.getLsbD 1

/-- The level of the interrupt output (spec R340). -/
def irq (s : State) : Bool :=
  (s.state == .done && ieDone s) || (s.state == .error && ieErr s)

/-- `STATUS` (spec R33): STATE in bits 1:0, WIGN in bit 4, IRQ in bit 8. -/
def statusWord (s : State) : Word :=
  BitVec.ofNat 32 (runStateCode s.state + 16 * s.wign.toNat + 256 * (irq s).toNat)

/-- The core ignores a host write: the sticky flag is set and nothing else changes (spec R22, R141). -/
def ignoreWrite (s : State) : State := { s with wign := true }

end Sys2Proof.Machine
end

