-- ==== Sys2Proof/Machine/Ops.lean ====
section
/-! DEFINITION. Operations over memories and registers shared by the meanings, taking an exception (fault entry) and
leaving it. -/

namespace Sys2Proof.Machine

/-! Memories. -/

/-- Store `v` at index `a`, keeping the indexes strictly rising. -/
def Memory.set {α : Type} : Memory α → Nat → α → Memory α
  | [], a, v => [(a, v)]
  | (b, w) :: m, a, v =>
    if a < b then (a, v) :: (b, w) :: m
    else if a = b then (a, v) :: m
    else (b, w) :: Memory.set m a v

/-- The value stored at index `a`, if something has written it. -/
def Memory.get? {α : Type} : Memory α → Nat → Option α
  | [], _ => none
  | (b, w) :: m, a => if a = b then some w else Memory.get? m a

/-- The value at index `a`; where nothing has written it, the free value given (spec R60; log 1). -/
def Memory.read {α : Type} (m : Memory α) (free : α) (a : Nat) : α := (Memory.get? m a).getD free

/-- The canonical form: indexes strictly rising. -/
def Memory.wf {α : Type} : Memory α → Bool
  | [] => true
  | [_] => true
  | (a, _) :: (b, w) :: m => a < b && Memory.wf ((b, w) :: m)

/-- Store a list of values, first to last. -/
def Memory.setAll {α : Type} (m : Memory α) (l : List (Nat × α)) : Memory α :=
  l.foldl (fun m p => Memory.set m p.1 p.2) m

/-- Store `f i` at `base + i` for every `i` below `n`. -/
def Memory.setRange {α : Type} (m : Memory α) (base n : Nat) (f : Nat → α) : Memory α :=
  Memory.setAll m ((List.range n).map fun i => (base + i, f i))

/-! The outcome of an operation inside a run. -/

/-- How an operation ends: it goes on with a value, nothing more is done (`raise` has ended the run, spec R11, or SCAN waits for
a byte, spec R385), or the model stops. -/
inductive Flow (α : Type) where
  | cont (a : α) (s : State)
  | ended (s : State)
  | stop (f : Fault)
  | refuse (r : Refusal)

/-- Go on with the next operation; nothing after a `raise` is executed (spec R11). -/
def Flow.bind {α β : Type} (x : Flow α) (f : α → State → Flow β) : Flow β :=
  match x with
  | .cont a s => f a s
  | .ended s => .ended s
  | .stop e => .stop e
  | .refuse r => .refuse r

/-- The outcome of an instruction that performs the operation. -/
def Flow.toOutcome {α : Type} (x : Flow α) : Host.Outcome State Fault Refusal :=
  match x with
  | .cont _ s => .next s
  | .ended s => .next s
  | .stop e => .fault e
  | .refuse r => .refused r

/-- Go on from a next state. -/
def thenDo (x : Host.Outcome State Fault Refusal) (f : State → Host.Outcome State Fault Refusal) :
    Host.Outcome State Fault Refusal :=
  match x with
  | .next s => f s
  | .fault e => .fault e
  | .refused r => .refused r

/-- Perform an operation for each element of a list, in order. -/
def Flow.forEach {α : Type} (l : List α) (f : α → State → Flow Unit) (s : State) : Flow Unit :=
  match l with
  | [] => .cont () s
  | a :: rest => (f a s).bind fun _ s => Flow.forEach rest f s

/-! Taking an exception and leaving it. -/

/-- `ERRBLK`: BI in bits 18:16, K in bits 14:8, SLOT in bits 1:0 (spec R39). -/
def errblkWord (s : State) : Word :=
  BitVec.ofNat 32 (s.bi.toNat * 65536 + s.k.toNat * 256 + s.slot.val)

/-- Fault entry (spec R330): the five error registers are written, `phase` <- NONE, `STATE` <- ERROR, and nothing else of the
core changes; the run has no position any more, and what the faulting operation has read of unwritten entries is not read again
(log 5). -/
def faultEntry (c : Cause) (pos : Word) (val : BitVec 16) (s : State) : State :=
  { s with
    errcode := causeCode c
    errpos := pos
    errval := val
    errmcu := if s.phase = .entropy then s.mcu else 0
    errblk := if s.phase = .entropy then errblkWord s else 0
    phase := .none
    state := .error
    upc := .idle
    draws := s.draws + 1 }

/-- `raise Fault(code, pos, val)` (spec R11). -/
def raise {α : Type} (c : Cause) (pos : Word) (val : BitVec 16) (s : State) : Flow α :=
  .ended (faultEntry c pos val s)

/-- A run begins with a new input sequence (spec R142, R345): the one the host has attached since the last run began, or, where
it has attached none, one of which the port has delivered nothing yet. No byte of the sequence of an earlier run is read again
(spec R77, R371, R379; log 19). -/
def takeInput (s : State) : State :=
  { s with
    input := if s.inputFresh then s.input else []
    inputEnd := s.inputFresh && s.inputEnd
    inputFresh := false }

/-- What an accepted START and an accepted CLEAR both clear: error registers, cursors, sequencer, counters and predictors
(spec R142, R146). -/
def clearRun (s : State) : State :=
  { s with
    errcode := 0
    errpos := 0
    errval := 0
    errmcu := 0
    errblk := 0
    ip := 0
    bp := 0
    bi := 0
    mcu := 0
    slot := 0
    k := 0
    cleanlen := 0
    mcucnt := 0
    dcpred := #v[0, 0, 0] }

/-- The way out of ERROR (and of DONE) without a new run: CLEAR, the "trap return" of spec R345 (R146). -/
def leaveToIdle (s : State) : State :=
  { clearRun s with state := .idle, phase := .none, wign := false, upc := .idle, draws := s.draws + 1 }

/-- Hardware reset (spec R370, R59): every register takes its reset value and a run in progress is abandoned without fault
entry. The table and data memories hold unspecified contents afterwards (spec R60): no entry counts as written (log 2).
PIX, the input port, the host's queue and the parameters are not the core's and stay. What a reset in the RECON phase leaves in
PIX is `pixAfterReset`. -/
def hardwareReset (s : State) : State :=
  { State.reset with
    pix := s.pix
    input := s.input
    inputEnd := s.inputEnd
    inputFresh := s.inputFresh
    hostq := s.hostq
    params := s.params
    draws := s.draws + 1 }

/-! Register updates. -/

/-- A free value may have been drawn (log 5). -/
def bumpDraws (s : State) : State := { s with draws := s.draws + 1 }

/-- The index of `COEF[m][ch][k]` (spec R56). -/
def coefIndex (m ch k : Nat) : Nat := (3 * m + ch) * 64 + k

/-- `COEF[m][ch][k] <- v`. -/
def setCoef (m ch k : Nat) (v : BitVec 16) (s : State) : State :=
  { s with coef := Memory.set s.coef (coefIndex m ch k) v }

/-- `DCPRED[ch] <- v`. -/
def setPred (ch : Fin 3) (v : BitVec 16) (s : State) : State :=
  { s with dcpred := s.dcpred.set ch v }

/-- Move the bit cursor past one bit, whose value is `b` (spec R25, R170). -/
def advanceBit (b : Bool) (s : State) : State :=
  if s.bi = 7 then { s with bp := s.bp + 1, bi := 0, bitOut := b } else { s with bi := s.bi + 1, bitOut := b }

/-- `ip <- ip + n`, unless that passes 2^32 - 1 (spec R24; log 13). -/
def advanceIp (n : Nat) (s : State) : Flow Unit :=
  if 2 ^ 32 ≤ s.ip.toNat + n then .refuse .inputCursorOverflow
  else .cont () { s with ip := s.ip + BitVec.ofNat 32 n }

end Sys2Proof.Machine
end

