-- ==== Sys2Proof/Machine/Operands.lean ====
section
/-! DEFINITION. The operands: fields of the configuration registers, the register port, the selected tables and channels,
the geometry, and reads of the memories. -/

namespace Sys2Proof.Machine

/-! Fields of the configuration (spec R40 to R43). -/

def width (s : State) : Nat := (s.framedim.extractLsb' 0 16).toNat

def height (s : State) : Nat := (s.framedim.extractLsb' 16 16).toNat

def ncomp (s : State) : Nat := (s.framecfg.extractLsb' 0 3).toNat

/-- `RI`, the restart interval. -/
def restartInterval (s : State) : Nat := (s.framecfg.extractLsb' 16 16).toNat

/-- `SCANCOMPj`. -/
def scancompOf (s : State) (j : Fin 3) : Word := s.scancomp[j]

def cid (s : State) (j : Fin 3) : Nat := ((scancompOf s j).extractLsb' 0 2).toNat

def tqSel (s : State) (j : Fin 3) : BitVec 2 := (scancompOf s j).extractLsb' 4 2

def tdSel (s : State) (j : Fin 3) : BitVec 2 := (scancompOf s j).extractLsb' 8 2

def taSel (s : State) (j : Fin 3) : BitVec 2 := (scancompOf s j).extractLsb' 12 2

/-- `TABSET.QSET[t]`. -/
def qset (s : State) (t : BitVec 2) : Bool := s.tabset.getLsbD t.toNat

/-- `TABSET.DCSET[t]`. -/
def dcset (s : State) (t : BitVec 2) : Bool := s.tabset.getLsbD (8 + t.toNat)

/-- `TABSET.ACSET[t]`. -/
def acset (s : State) (t : BitVec 2) : Bool := s.tabset.getLsbD (16 + t.toNat)

/-! Geometry (spec R58). -/

def mcuCols (s : State) : Nat := ceil8 (width s)

def mcuRows (s : State) : Nat := ceil8 (height s)

def nMcu (s : State) : Nat := mcuCols s * mcuRows s

/-! Slots and channels. -/

/-- The slot with number `j`; there are three (spec R42; log 15). -/
def slotOf (j : Nat) : Option (Fin 3) := if h : j < 3 then some ⟨j, h⟩ else none

/-- The channel that slot `j` feeds, `CIDj - 1` (spec R42, R220); none where the id is 0 (log 15). -/
def channelOf (s : State) (j : Fin 3) : Option (Fin 3) :=
  match cid s j with
  | 0 => none
  | c + 1 => slotOf c

/-- The slots a run uses, in scan-header order: `SCANCOMP0 .. SCANCOMP(NCOMP-1)` (spec R42). -/
def usedSlots (s : State) : List (Fin 3) := (List.range (ncomp s)).filterMap slotOf

/-- The quantization table of channel `ch` (spec R253): `TQ` of the slot whose `CID - 1` is `ch`. -/
def tqOf (s : State) (ch : Fin 3) : Option (BitVec 2) :=
  ((usedSlots s).find? fun j => channelOf s j == some ch).map (tqSel s)

/-! Reads of the memories. `site` names the read within its operation (log 1). -/

/-- `HClass` as the number `c` of spec R51. -/
def classIndex : HClass → Nat
  | .dc => 0
  | .ac => 1

/-- `QTAB[t][i]`, at word `64*t + i` of its window (spec R53). -/
def qtabAt (s : State) (site : Nat) (t : BitVec 2) (i : Nat) : BitVec 16 :=
  Memory.read s.qtab (Config.freeQtab s.draws site) (64 * t.toNat + i)

/-- The word of `HOFF[c][t][i]` in its window (spec R53). -/
def hoffIndex (c : HClass) (t : BitVec 2) (i : Nat) : Nat := 32 * (4 * classIndex c + t.toNat) + i

/-- `HOFF[c][t][i]` as a number. -/
def hoffAt (s : State) (site : Nat) (c : HClass) (t : BitVec 2) (i : Nat) : Int :=
  (Memory.read s.hoff (Config.freeHoff s.draws (256 * site + hoffIndex c t i)) (hoffIndex c t i)).toNat

/-- The word of `HSYM[c][t][j]` in its window (spec R53). -/
def hsymIndex (c : HClass) (t : BitVec 2) (j : Nat) : Nat := 256 * (4 * classIndex c + t.toNat) + j

/-- `HSYM[c][t][j]`; outside 0..161 there is no entry, and what is read is a free value (log 16). -/
def hsymAt (s : State) (site : Nat) (c : HClass) (t : BitVec 2) (j : Int) : Byte :=
  if 0 ≤ j ∧ j < 162 then Memory.read s.hsym (Config.freeHsym s.draws site) (hsymIndex c t j.toNat)
  else Config.freeHsym s.draws site

/-- The number of code words of length `len` of a table (spec R104): `HOFF[len] - HOFF[len-1]`. -/
def codeCount (s : State) (c : HClass) (t : BitVec 2) (len : Nat) : Int :=
  hoffAt s (2 * len) c t len - hoffAt s (2 * len + 1) c t (len - 1)

/-- The first code word of length `len` (spec R104): `first[1] = 0`, `first[L+1] = (first[L] + cnt[L]) << 1`. -/
def firstCode (cnt : Nat → Int) : Nat → Int
  | 0 => 0
  | 1 => 0
  | len + 2 => (firstCode cnt (len + 1) + cnt (len + 1)) * 2

/-- The symbol of the code word `code` of length `len` (spec R104, R192): `HSYM[HOFF[len-1] + (code - first)]`. -/
def symbolAt (s : State) (c : HClass) (t : BitVec 2) (len : Nat) (offset : Int) : Byte :=
  hsymAt s 0 c t (hoffAt s (64 + len) c t (len - 1) + offset)

/-- `CLEAN[bp][7 - bi]` (spec R25, R170). -/
def cleanBit (s : State) : Bool :=
  (Memory.read s.clean (Config.freeClean s.draws (8 * s.bp.toNat + s.bi.toNat)) s.bp.toNat).getLsbD (7 - s.bi.toNat)

/-- `COEF[m][ch][k]`. -/
def coefAt (s : State) (m ch k : Nat) : BitVec 16 :=
  Memory.read s.coef (Config.freeCoef s.draws k) (coefIndex m ch k)

/-- `DQ[i]` as a signed number, as it is read for column `x` of the first pass. -/
def dqAt (s : State) (x i : Nat) : Int := (Memory.read s.dq (Config.freeDq s.draws (64 * x + i)) i).toInt

/-- `out[i]`. -/
def outAt (s : State) (i : Nat) : Int := Memory.read s.out (Config.freeOut s.draws i) i

/-- `SAMP[ch][i]`. -/
def sampAt (s : State) (ch i : Nat) : Byte := Memory.read s.samp (Config.freeSamp s.draws (64 * ch + i)) (64 * ch + i)

/-- `RGB[ch][i]`. -/
def rgbAt (s : State) (ch i : Nat) : Byte := Memory.read s.rgb (Config.freeRgb s.draws (64 * ch + i)) (64 * ch + i)

/-- The next bits of the clean stream, at most `n`, without moving the cursor. -/
def peekBits : Nat → State → List Bool
  | 0, _ => []
  | n + 1, s =>
    if s.cleanlen.toNat ≤ s.bp.toNat then []
    else cleanBit s :: peekBits n (advanceBit (cleanBit s) s)

/-- The table a code word at the cursor belongs to: the DC table of the slot while `k` = 0, its AC table after (spec R190). -/
def selectedTable (s : State) : HClass × BitVec 2 :=
  if s.k = 0 then (.dc, tdSel s s.slot) else (.ac, taSel s s.slot)

/-! The register port (spec R30, R53). -/

/-- What stands at a word of the port: the registers of spec R30, the windows by their own word index. -/
inductive PortWord where
  | id
  | cmd
  | status
  | irqen
  | errcode
  | errpos
  | errval
  | errmcu
  | errblk
  | framedim
  | framecfg
  | scancomp (j : Fin 3)
  | tabset
  | inpos
  | cleanlen
  | mcucnt
  | bytepos
  | bitidx
  | dcpred (c : Fin 3)
  | qtab (w : Nat)
  | hoff (w : Nat)
  | hsym (w : Nat)
  | reserved
deriving DecidableEq, Repr

/-- The register map by word index, a quarter of the byte offset (spec R30, R49, R53). -/
def portWord (a : Fin 3072) : PortWord :=
  match a.val with
  | 0 => .id
  | 1 => .cmd
  | 2 => .status
  | 3 => .irqen
  | 4 => .errcode
  | 5 => .errpos
  | 6 => .errval
  | 7 => .errmcu
  | 8 => .errblk
  | 9 => .framedim
  | 10 => .framecfg
  | 11 => .scancomp 0
  | 12 => .scancomp 1
  | 13 => .scancomp 2
  | 14 => .tabset
  | 15 => .inpos
  | 16 => .cleanlen
  | 17 => .mcucnt
  | 18 => .bytepos
  | 19 => .bitidx
  | 20 => .dcpred 0
  | 21 => .dcpred 1
  | 22 => .dcpred 2
  | n =>
    if n < 256 then .reserved
    else if n < 512 then .qtab (n - 256)
    else if n < 768 then (if (n - 512) % 32 < 17 then .hoff (n - 512) else .reserved)
    else if n < 1024 then .reserved
    else if (n - 1024) % 256 < 162 then .hsym (n - 1024)
    else .reserved

/-- Bits of IRQEN, FRAMECFG, SCANCOMPj and TABSET that exist (spec R34, R41, R42, R43). -/
def irqenMask : Word := 0x00000003
def framecfgMask : Word := 0xFFFF0007
def scancompMask : Word := 0x00003333
def tabsetMask : Word := 0x000F0F0F

/-- The value of a word of the port (spec R31 to R53): reserved bits and words read 0, CMD reads 0. -/
def portValue (s : State) : PortWord → Word
  | .id => 0x4A444331
  | .cmd => 0
  | .status => statusWord s
  | .irqen => s.irqen &&& irqenMask
  | .errcode => s.errcode.setWidth 32
  | .errpos => s.errpos
  | .errval => s.errval.setWidth 32
  | .errmcu => s.errmcu
  | .errblk => s.errblk
  | .framedim => s.framedim
  | .framecfg => s.framecfg &&& framecfgMask
  | .scancomp j => scancompOf s j &&& scancompMask
  | .tabset => s.tabset &&& tabsetMask
  | .inpos => s.ip
  | .cleanlen => s.cleanlen
  | .mcucnt => s.mcucnt
  | .bytepos => s.bp
  | .bitidx => s.bi.setWidth 32
  | .dcpred c => s.dcpred[c].signExtend 32
  | .qtab w => (Memory.read s.qtab (Config.freeQtab s.draws w) w).setWidth 32
  | .hoff w => (Memory.read s.hoff (Config.freeHoff s.draws w) w).setWidth 32
  | .hsym w => (Memory.read s.hsym (Config.freeHsym s.draws w) w).setWidth 32
  | .reserved => 0

/-- Whether a word holds a writable register or table entry (spec R30: RW). CMD is a case of its own (spec R140). -/
def portWritable : PortWord → Bool
  | .irqen => true
  | .framedim => true
  | .framecfg => true
  | .scancomp _ => true
  | .tabset => true
  | .qtab _ => true
  | .hoff _ => true
  | .hsym _ => true
  | .id => false
  | .cmd => false
  | .status => false
  | .errcode => false
  | .errpos => false
  | .errval => false
  | .errmcu => false
  | .errblk => false
  | .inpos => false
  | .cleanlen => false
  | .mcucnt => false
  | .bytepos => false
  | .bitidx => false
  | .dcpred _ => false
  | .reserved => false

/-- Store the named fields of `v`; reserved bits are dropped (spec R140, R53). -/
def portStore (p : PortWord) (v : Word) (s : State) : State :=
  match p with
  | .irqen => { s with irqen := v &&& irqenMask }
  | .framedim => { s with framedim := v }
  | .framecfg => { s with framecfg := v &&& framecfgMask }
  | .scancomp j => { s with scancomp := s.scancomp.set j (v &&& scancompMask) }
  | .tabset => { s with tabset := v &&& tabsetMask }
  | .qtab w => { s with qtab := Memory.set s.qtab w (v.setWidth 16) }
  | .hoff w => { s with hoff := Memory.set s.hoff w (v.setWidth 8) }
  | .hsym w => { s with hsym := Memory.set s.hsym w (v.setWidth 8) }
  | .id => s
  | .cmd => s
  | .status => s
  | .errcode => s
  | .errpos => s
  | .errval => s
  | .errmcu => s
  | .errblk => s
  | .inpos => s
  | .cleanlen => s
  | .mcucnt => s
  | .bytepos => s
  | .bitidx => s
  | .dcpred _ => s
  | .reserved => s

end Sys2Proof.Machine
end

