-- ==== Sys2Proof/Machine/Command.lean ====
section
/-! DEFINITION. Host operations and commands (spec/40_commands.md): START with its validation, CLEAR, reserved commands,
register writes and reads, and the host actions that are no instruction. -/

namespace Sys2Proof.Machine

/-! The six checks of START (spec R143), each giving the cause and the value it records (spec R322). -/

/-- Check 1: the component count. -/
def checkCount (s : State) : Option (Cause × BitVec 16) :=
  if ncomp s = 4 then some (.unsupCmyk, 4)
  else if ncomp s ≠ 1 ∧ ncomp s ≠ 3 then some (.cfgNcomp, BitVec.ofNat 16 (ncomp s))
  else none

/-- Check 2: the dimensions. -/
def checkDims (s : State) : Option (Cause × BitVec 16) :=
  if width s = 0 then some (.cfgDim, 0) else if height s = 0 then some (.cfgDim, 1) else none

/-- Check 3 for slot `j`: its id is 1..NCOMP and no earlier slot has it. -/
def idOk (s : State) (j : Fin 3) : Bool :=
  cid s j != 0 && cid s j ≤ ncomp s && (usedSlots s).all fun i => !(i.val < j.val && cid s i == cid s j)

def checkIds (s : State) : Option (Cause × BitVec 16) :=
  (usedSlots s).findSome? fun j => if idOk s j then none else some (.cfgCompid, BitVec.ofNat 16 j.val)

/-- Check 4 for slot `j`: the three tables it names are marked set. -/
def unsetTable (s : State) (j : Fin 3) : Option (Cause × BitVec 16) :=
  if !qset s (tqSel s j) then some (.cfgQunset, BitVec.ofNat 16 (256 * j.val + (tqSel s j).toNat))
  else if !dcset s (tdSel s j) then some (.cfgDcunset, BitVec.ofNat 16 (256 * j.val + (tdSel s j).toNat))
  else if !acset s (taSel s j) then some (.cfgAcunset, BitVec.ofNat 16 (256 * j.val + (taSel s j).toNat))
  else none

def checkSet (s : State) : Option (Cause × BitVec 16) := (usedSlots s).findSome? (unsetTable s)

/-- `wellformed(off)` (spec R143): starts at 0, never decreases, ends at 162 at most. `base` numbers the reads of this use of
the table (log 1). -/
def offsetsOk (s : State) (base : Nat) (c : HClass) (t : BitVec 2) : Bool :=
  hoffAt s base c t 0 == 0 &&
  ((List.range 16).all fun i => hoffAt s (base + 2 * i + 1) c t i ≤ hoffAt s (base + 2 * i + 2) c t (i + 1)) &&
  hoffAt s (base + 33) c t 16 ≤ 162

/-- Check 5 for slot `j`: the offsets of its two Huffman tables. -/
def badTable (s : State) (j : Fin 3) : Option (Cause × BitVec 16) :=
  if !offsetsOk s (34 * j.val) .dc (tdSel s j) then some (.cfgHtable, BitVec.ofNat 16 (256 * j.val + (tdSel s j).toNat))
  else if !offsetsOk s (34 * j.val) .ac (taSel s j) then some (.cfgHtable, BitVec.ofNat 16 (256 * j.val + 16 + (taSel s j).toNat))
  else none

def checkTables (s : State) : Option (Cause × BitVec 16) := (usedSlots s).findSome? (badTable s)

/-- Check 6: the capacity of COEF. -/
def checkCapacity (s : State) : Option (Cause × BitVec 16) :=
  match s.params.coefCap with
  | none => none
  | some cap => if cap < nMcu s then some (.capCoef, 0) else none

/-- `validate()` (spec R143): the first check that fails decides. -/
def validate (s : State) : Option (Cause × BitVec 16) :=
  (checkCount s).or ((checkDims s).or ((checkIds s).or ((checkSet s).or ((checkTables s).or (checkCapacity s)))))

/-- START (spec R142, R144), which leaves the input port alone unless a run begins; while BUSY it is refused with WIGN (spec R148). -/
def startCommand (s : State) : State :=
  if s.state = .busy then ignoreWrite s
  else
    match validate (clearRun s) with
    | some (c, v) => faultEntry c 0 v (clearRun s)
    | none => { takeInput (bumpDraws (clearRun s)) with state := .busy, phase := .scan, upc := .token }

/-- CLEAR (spec R146); while BUSY it is refused with WIGN (spec R148). -/
def clearCommand (s : State) : State :=
  if s.state = .busy then ignoreWrite s else leaveToIdle s

/-- A write of `v` to CMD (spec R32, R147). -/
def command (v : Word) (s : State) : State :=
  if v = 1 then startCommand s else if v = 2 then clearCommand s else ignoreWrite s

/-- A register write (spec R140): the tests in its order. -/
def portWrite (a : Fin 3072) (v : Word) (s : State) : State :=
  if portWord a = .cmd then command v s
  else if !portWritable (portWord a) then ignoreWrite s
  else if s.state = .busy then ignoreWrite s
  else portStore (portWord a) v s

/-! The meanings. -/

/-- START (spec R142). -/
def execStart (s : State) : Host.Outcome State Fault Refusal := .next (startCommand s)

/-- CLEAR (spec R146). -/
def execClear (s : State) : Host.Outcome State Fault Refusal := .next (clearCommand s)

/-- A reserved command changes nothing but WIGN, in every state (spec R147). -/
def execCmdReserved (_v : Word) (s : State) : Host.Outcome State Fault Refusal := .next (ignoreWrite s)

/-- WRITE off, v (spec R140). -/
def execWrite (a : Fin 3072) (v : Word) (s : State) : Host.Outcome State Fault Refusal := .next (portWrite a v s)

/-- READ off (spec R145): the word is latched for the host; no state of the core changes. -/
def execRead (a : Fin 3072) (s : State) : Host.Outcome State Fault Refusal :=
  .next { bumpDraws s with rdata := portValue s (portWord a) }

/-- The host attaches the input port to a sequence (spec R375 step 7), which must not happen during a run (spec R385;
log 14). -/
def attachInput (bytes : List Byte) (last : Bool) (s : State) : Host.Outcome State Fault Refusal :=
  if s.state = .busy then .refused .inputChangedDuringRun
  else .next { s with input := bytes, inputEnd := last, inputFresh := true }

/-- The port delivers further bytes of the sequence, at any time until it has signalled the end (spec R385; log 14). -/
def deliverInput (bytes : List Byte) (last : Bool) (s : State) : Host.Outcome State Fault Refusal :=
  if s.inputEnd then .refused .inputAfterEnd else .next { s with input := s.input ++ bytes, inputEnd := last }

end Sys2Proof.Machine
end

