-- ==== Sys2Proof/Machine/Bits.lean ====
section
/-! DEFINITION. The bit primitives (spec R170 to R172) and receive-and-extend (spec R109, R223). -/

namespace Sys2Proof.Machine

/-- `NEXTBIT()` (spec R170). -/
def nextBit (s : State) : Flow Bool :=
  if s.cleanlen.toNat ≤ s.bp.toNat then raise .underrun s.bp 0 s
  else .cont (cleanBit s) (advanceBit (cleanBit s) s)

/-- The next `n` bits, shifted into `v` from the right (the loop of spec R171). -/
def takeBits : Nat → Nat → State → Flow Nat
  | 0, v, s => .cont v s
  | n + 1, v, s => (nextBit s).bind fun b s => takeBits n (2 * v + b.toNat) s

/-- `RECEIVE(n)` (spec R171). -/
def receiveBits (n : Nat) (s : State) : Flow Nat :=
  (takeBits n 0 s).bind fun v s => .cont v { s with raw := BitVec.ofNat 15 v }

/-- `EXTEND(b, s)` (spec R223). -/
def extendValue (b s : Nat) : Int :=
  if s = 0 then 0 else if 2 ^ (s - 1) ≤ b then b else b - (2 ^ s - 1)

/-- `EXTEND(RECEIVE(n), n)`: the signed value of the next `n` bits (spec R109). -/
def receiveExtend (n : Nat) (s : State) : Flow Int :=
  (receiveBits n s).bind fun b s => .cont (extendValue b n) { s with ext := BitVec.ofInt 16 (extendValue b n) }

/-- `ALIGN()` (spec R172). -/
def alignCursor (s : State) : State := if s.bi ≠ 0 then { s with bp := s.bp + 1, bi := 0 } else s

/-! The meanings. -/

/-- NEXTBIT (spec R170); `advanceBit` latches the bit. -/
def execNextbit (s : State) : Host.Outcome State Fault Refusal := (nextBit s).toOutcome

/-- RECEIVE (spec R171). -/
def execReceive (n : BitVec 4) (s : State) : Host.Outcome State Fault Refusal := (receiveBits n.toNat s).toOutcome

/-- ALIGN (spec R172). -/
def execAlign (s : State) : Host.Outcome State Fault Refusal := .next (alignCursor s)

/-- EXTEND (spec R223): a pure function, whose value is latched. -/
def execExtend (b : BitVec 15) (n : BitVec 4) (s : State) : Host.Outcome State Fault Refusal :=
  .next { s with ext := BitVec.ofInt 16 (extendValue b.toNat n.toNat) }

/-- XB (spec R109): the `n` extra bits, of value `x`, are consumed and extended (log 18). -/
def execXb (n : BitVec 4) (x : BitVec 15) (s : State) : Host.Outcome State Fault Refusal :=
  ((takeBits n.toNat 0 s).bind fun _ s =>
    .cont () { s with raw := x, ext := BitVec.ofInt 16 (extendValue x.toNat n.toNat) }).toOutcome

end Sys2Proof.Machine
end

