-- ==== Sys2Proof/Machine/Huffman.lean ====
section
/-! DEFINITION. Canonical Huffman symbol decode (spec/42_huffman_decoder.md). -/

namespace Sys2Proof.Machine

/-- Rounds `len` to 16 of the loop of spec R192, `n` rounds being left; `code` and `first` are the exact values, the
registers of spec R28 hold them in their widths. A round that finds no code word ends with the shift of `first`, the sixteenth
too (spec R194 (b)). -/
def huffRounds (c : HClass) (t : BitVec 2) : Nat → Nat → Nat → Int → State → Flow Byte
  | 0, _, code, _, s => raise .huffCode s.bp (BitVec.ofNat 16 code) s
  | n + 1, len, code, first, s =>
    (nextBit { s with len := BitVec.ofNat 5 len, first := BitVec.ofInt 25 first }).bind fun b s =>
      if ((2 * code + b.toNat : Nat) : Int) - first < codeCount s c t len then
        .cont (symbolAt s c t len (((2 * code + b.toNat : Nat) : Int) - first))
          { s with code := BitVec.ofNat 16 (2 * code + b.toNat) }
      else
        huffRounds c t n (len + 1) (2 * code + b.toNat) ((first + codeCount s c t len) * 2)
          { s with
            code := BitVec.ofNat 16 (2 * code + b.toNat)
            first := BitVec.ofInt 25 ((first + codeCount s c t len) * 2) }

/-- `HUFFDEC(c, t)` (spec R192, R193). -/
def huffDecode (c : HClass) (t : BitVec 2) (s : State) : Flow Byte :=
  (huffRounds c t 16 1 0 0 { s with code := 0 }).bind fun y s => .cont y { bumpDraws s with sym := y }

/-- Whether `code` is a code word of length `len` of the table (spec R104). -/
def isCodeWord (s : State) (c : HClass) (t : BitVec 2) (len code : Nat) : Bool :=
  1 ≤ len && len ≤ 16 && firstCode (codeCount s c t) len ≤ code &&
  code < firstCode (codeCount s c t) len + codeCount s c t len

/-- A code word of the table stands at the cursor: its bits are consumed and its symbol is the one spec R104 assigns. Bits
that are no code word of the table are left to `HUFFDEC` (spec R105; log 17). -/
def codeWord (c : HClass) (t : BitVec 2) (len code : Nat) (s : State) : Flow Byte :=
  if isCodeWord s c t len code then
    (takeBits len 0 s).bind fun _ s =>
      .cont (symbolAt s c t len (code - firstCode (codeCount s c t) len))
        { bumpDraws s with
          len := BitVec.ofNat 5 len
          code := BitVec.ofNat 16 code
          first := BitVec.ofInt 25 (firstCode (codeCount s c t) len)
          sym := symbolAt s c t len (code - firstCode (codeCount s c t) len) }
  else huffDecode c t s

/-! The meanings. -/

/-- HUFFDEC (spec R192). -/
def execHuffdec (c : HClass) (t : BitVec 2) (s : State) : Host.Outcome State Fault Refusal := (huffDecode c t s).toOutcome

/-- HC (spec R104): a code word of the table the sequencer selects (spec R190). -/
def execHc (len : BitVec 5) (code : BitVec 16) (s : State) : Host.Outcome State Fault Refusal :=
  (codeWord (selectedTable s).1 (selectedTable s).2 len.toNat code.toNat s).toOutcome

end Sys2Proof.Machine
end

