-- ==== Sys2Proof/Machine/Mcu.lean ====
section
/-! DEFINITION. The MCU coefficient decoder (spec/43_mcu_decoder.md): DC and AC symbols, blocks, restart, MCUs, ENTROPY. -/

namespace Sys2Proof.Machine

/-! DC units. -/

/-- A DC symbol of category `n` (spec R221, after HUFFDEC): the difference is received and added to the predictor of the
channel of slot `j`, modulo 2^16, and the sum is coefficient 0. -/
def dcCategory (m : Nat) (j : Fin 3) (n : Nat) (s : State) : Flow Unit :=
  match channelOf s j with
  | none => .stop .noChannel
  | some ch =>
    (receiveExtend n s).bind fun diff s =>
      .cont () (setCoef m ch.val 0 (wrap16 (s.dcpred[ch].toInt + diff)) (setPred ch (wrap16 (s.dcpred[ch].toInt + diff)) s))

/-- DCBAD (spec R222). -/
def dcBad (y : Byte) (s : State) : Flow Unit := raise .dcCat s.bp (y.setWidth 16) s

/-- `DECODE_DC(m, j)` (spec R221). -/
def decodeDcUnit (m : Nat) (j : Fin 3) (s : State) : Flow Unit :=
  (huffDecode .dc (tdSel s j) s).bind fun y s =>
    if 11 < y.toNat then dcBad y s else dcCategory m j y.toNat s

/-! AC units. -/

/-- A run of `r` zeros and then a coefficient of size `n` (spec R226; with `n` = 0 spec R227). The overrun test comes before
the extra bits (spec R228). -/
def acRunSize (m : Nat) (j : Fin 3) (r n : Nat) (s : State) : Flow Unit :=
  if 63 < s.k.toNat + r then raise .acOverrun s.bp (BitVec.ofNat 16 (16 * r + n)) s
  else
    match channelOf s j with
    | none => .stop .noChannel
    | some ch =>
      (receiveExtend n { s with k := s.k + BitVec.ofNat 7 r }).bind fun v s =>
        .cont () { setCoef m ch.val s.k.toNat (BitVec.ofInt 16 v) s with k := s.k + 1 }

/-- ZRL (spec R225, R228). -/
def acZrl (s : State) : Flow Unit :=
  if 63 < s.k.toNat + 15 then raise .acOverrun s.bp 0xF0 s else .cont () { s with k := s.k + 16 }

/-- EOB (spec R224): the AC loop is left; `k` is not advanced. -/
def acEob (s : State) : Flow Unit := .cont () { s with upc := .blockEnd }

/-- The loop of `DECODE_AC(m, j)` (spec R229), with as many passes left as positions: every pass that goes on fills one. -/
def acLoop (m : Nat) (j : Fin 3) : Nat → State → Flow Unit
  | 0, s => .cont () s
  | n + 1, s =>
    if 63 < s.k.toNat then .cont () s
    else
      (huffDecode .ac (taSel s j) s).bind fun rs s =>
        if rs = 0x00 then acEob s
        else if rs = 0xF0 then (acZrl s).bind fun _ s => acLoop m j n s
        else
          (acRunSize m j (rs.extractLsb' 4 4).toNat (rs.extractLsb' 0 4).toNat s).bind fun _ s => acLoop m j n s

/-- `DECODE_AC(m, j)` (spec R229), from the present `k`. -/
def decodeAcUnits (m : Nat) (j : Fin 3) (s : State) : Flow Unit := acLoop m j (64 - s.k.toNat) s

/-! Blocks, restart, MCUs. -/

/-- All 64 entries of `COEF[m][ch]` <- 0 (spec R220). -/
def zeroBlock (m ch : Nat) (s : State) : State :=
  { s with coef := Memory.setRange s.coef (coefIndex m ch 0) 64 fun _ => 0 }

/-- `DECODE_BLOCK(m, j)` (spec R220). -/
def decodeBlockOf (m : Nat) (j : Fin 3) (s : State) : Flow Unit :=
  match channelOf s j with
  | none => .stop .noChannel
  | some ch =>
    (decodeDcUnit m j { zeroBlock m ch.val s with k := 0 }).bind fun _ s => decodeAcUnits m j { s with k := 1 }

/-- `RESTART()` (spec R230): all three predictors are reset. -/
def restartAction (s : State) : State := { alignCursor s with dcpred := #v[0, 0, 0] }

/-- Whether the restart action comes before MCU `m` (spec R230, R232). -/
def restartBefore (s : State) (m : Nat) : Bool :=
  0 < restartInterval s && 0 < m && m % restartInterval s == 0

/-- `DECODE_MCU(m)` (spec R231): one block per slot, in slot order. -/
def decodeMcuOf (m : Nat) (s : State) : Flow Unit :=
  (Flow.forEach (List.range (ncomp s))
      (fun n s =>
        match slotOf n with
        | none => .stop .noSlot
        | some j => decodeBlockOf m j { s with slot := j }) s).bind
    fun _ s => .cont () { s with mcucnt := s.mcucnt + 1 }

/-- One MCU of the ENTROPY phase (the body of the loop of spec R232). -/
def entropyMcu (m : Nat) (s : State) : Flow Unit :=
  decodeMcuOf m
    (if restartBefore s m then restartAction { s with mcu := BitVec.ofNat 32 m } else { s with mcu := BitVec.ofNat 32 m })

/-- `ENTROPY()` (spec R232): MCUs in raster order. -/
def entropyPhase (s : State) : Flow Unit :=
  (Flow.forEach (List.range (nMcu s)) entropyMcu s).bind fun _ s => .cont () { s with phase := .recon }

/-! The meanings. A symbol belongs to the block of `slot` in `mcu` (spec R26). -/

/-- DC0 (spec R221). -/
def execDc0 (s : State) : Host.Outcome State Fault Refusal := (dcCategory s.mcu.toNat s.slot 0 s).toOutcome

/-- DC1 (spec R221). -/
def execDc1 (s : State) : Host.Outcome State Fault Refusal := (dcCategory s.mcu.toNat s.slot 1 s).toOutcome

/-- DC2 (spec R221). -/
def execDc2 (s : State) : Host.Outcome State Fault Refusal := (dcCategory s.mcu.toNat s.slot 2 s).toOutcome

/-- DC3 (spec R221). -/
def execDc3 (s : State) : Host.Outcome State Fault Refusal := (dcCategory s.mcu.toNat s.slot 3 s).toOutcome

/-- DC4 (spec R221). -/
def execDc4 (s : State) : Host.Outcome State Fault Refusal := (dcCategory s.mcu.toNat s.slot 4 s).toOutcome

/-- DC5 (spec R221). -/
def execDc5 (s : State) : Host.Outcome State Fault Refusal := (dcCategory s.mcu.toNat s.slot 5 s).toOutcome

/-- DC6 (spec R221). -/
def execDc6 (s : State) : Host.Outcome State Fault Refusal := (dcCategory s.mcu.toNat s.slot 6 s).toOutcome

/-- DC7 (spec R221). -/
def execDc7 (s : State) : Host.Outcome State Fault Refusal := (dcCategory s.mcu.toNat s.slot 7 s).toOutcome

/-- DC8 (spec R221). -/
def execDc8 (s : State) : Host.Outcome State Fault Refusal := (dcCategory s.mcu.toNat s.slot 8 s).toOutcome

/-- DC9 (spec R221). -/
def execDc9 (s : State) : Host.Outcome State Fault Refusal := (dcCategory s.mcu.toNat s.slot 9 s).toOutcome

/-- DC10 (spec R221). -/
def execDc10 (s : State) : Host.Outcome State Fault Refusal := (dcCategory s.mcu.toNat s.slot 10 s).toOutcome

/-- DC11 (spec R221). -/
def execDc11 (s : State) : Host.Outcome State Fault Refusal := (dcCategory s.mcu.toNat s.slot 11 s).toOutcome

/-- DCBAD (spec R222): no extra bits are read. -/
def execDcbad (y : Byte) (s : State) : Host.Outcome State Fault Refusal := (dcBad y s).toOutcome

/-- EOB (spec R224). -/
def execEob (s : State) : Host.Outcome State Fault Refusal := (acEob s).toOutcome

/-- ZRL (spec R225). -/
def execZrl (s : State) : Host.Outcome State Fault Refusal := (acZrl s).toOutcome

/-- ACRS (spec R226). -/
def execAcrs (r n : BitVec 4) (s : State) : Host.Outcome State Fault Refusal :=
  (acRunSize s.mcu.toNat s.slot r.toNat n.toNat s).toOutcome

/-- ACR0 (spec R227): as ACRS with size 0. -/
def execAcr0 (r : BitVec 4) (s : State) : Host.Outcome State Fault Refusal :=
  (acRunSize s.mcu.toNat s.slot r.toNat 0 s).toOutcome

/-- DECODE_BLOCK (spec R220). -/
def execDecodeBlock (m : Word) (j : Fin 3) (s : State) : Host.Outcome State Fault Refusal :=
  (decodeBlockOf m.toNat j s).toOutcome

/-- DECODE_DC (spec R221). -/
def execDecodeDc (m : Word) (j : Fin 3) (s : State) : Host.Outcome State Fault Refusal :=
  (decodeDcUnit m.toNat j s).toOutcome

/-- DECODE_AC (spec R229). -/
def execDecodeAc (m : Word) (j : Fin 3) (s : State) : Host.Outcome State Fault Refusal :=
  (decodeAcUnits m.toNat j s).toOutcome

/-- RESTART (spec R230). -/
def execRestart (s : State) : Host.Outcome State Fault Refusal := .next (restartAction s)

/-- DECODE_MCU (spec R231). -/
def execDecodeMcu (m : Word) (s : State) : Host.Outcome State Fault Refusal := (decodeMcuOf m.toNat s).toOutcome

/-- ENTROPY (spec R232). -/
def execEntropy (s : State) : Host.Outcome State Fault Refusal := (entropyPhase s).toOutcome

end Sys2Proof.Machine
end

