-- ==== Sys2Proof/Machine/Recon.lean ====
section
/-! DEFINITION. The RECON phase: dequantizer (spec/44_dequantizer.md), inverse DCT, level shift and clamp (spec/45_idct.md),
colour conversion and pixel placement (spec/46_color_and_output.md). -/

namespace Sys2Proof.Machine

/-! Dequantizer and inverse DCT. -/

/-- The dequantized coefficient `k` (spec R252), exact in 32 bits. -/
def dequantized (m ch : Nat) (tq : BitVec 2) (s : State) (k : Nat) : BitVec 32 :=
  BitVec.ofInt 32 ((coefAt s m ch k).toInt * (qtabAt s k tq (zz k)).toNat)

/-- `DEQUANT(m, ch, tq)` (spec R252). -/
def dequantBlock (m ch : Nat) (tq : BitVec 2) (s : State) : State :=
  { bumpDraws s with dq := Memory.setAll s.dq ((List.range 64).map fun k => (zz k, dequantized m ch tq s k)) }

/-- `T[v][x]`, pass 1 along a row of coefficients (spec R268), exact in 47 bits. -/
def passOne (dq : Nat → Int) (v x : Nat) : BitVec 47 :=
  BitVec.ofInt 47 (sum8 fun u => idctM x u * dq (8 * v + u))

/-- `S` at row `y`, column `x`, pass 2 down a column (spec R269), exact in 61 bits. -/
def passTwo (dq : Nat → Int) (y x : Nat) : BitVec 61 :=
  BitVec.ofInt 61 (sum8 fun v => idctM y v * (passOne dq v x).toInt)

/-- The one rounding (spec R269): to nearest, a tie towards plus infinity. -/
def roundOut (acc : BitVec 61) : Int := fdiv (acc.toInt + 2 ^ 25) (2 ^ 26)

/-- `out[8*y + x]` (spec R269). -/
def outValue (dq : Nat → Int) (y x : Nat) : Int := roundOut (passTwo dq y x)

/-- Both passes (spec R268, R269). -/
def idctPasses (s : State) : State :=
  { bumpDraws s with
    t := Memory.setRange s.t 0 64 fun i => passOne (dqAt s (i % 8)) (i / 8) (i % 8)
    acc := passTwo (dqAt s 7) 7 7
    out := Memory.setRange s.out 0 64 fun i => outValue (dqAt s (i % 8)) (i / 8) (i % 8) }

/-- Level shift and clamp into `SAMP[ch]` (spec R271). -/
def levelShift (ch : Nat) (s : State) : State :=
  { bumpDraws s with samp := Memory.setRange s.samp (64 * ch) 64 fun i => clampByte (outAt s i + 128) }

/-- `IDCT(ch)` (spec R270): the passes, then the level shift. -/
def idctBlock (ch : Nat) (s : State) : State := levelShift ch (idctPasses s)

/-! Colour conversion. -/

/-- A sum of millionths rounded to the nearest integer, a tie towards plus infinity, then clamped (spec R291, R293). -/
def roundMillionths (x : Int) : Byte := clampByte (fdiv (x + 500000) 1000000)

/-- `YCC2RGB(Y, Cb, Cr)` (spec R291). -/
def yccToRgb (y cb cr : Byte) : Rgb where
  r := roundMillionths (1000000 * (y.toNat : Int) + 1402000 * ((cr.toNat : Int) - 128))
  g := roundMillionths
    (1000000 * (y.toNat : Int) - 344136 * ((cb.toNat : Int) - 128) - 714136 * ((cr.toNat : Int) - 128))
  b := roundMillionths (1000000 * (y.toNat : Int) + 1772000 * ((cb.toNat : Int) - 128))

/-- `GRAY(Y)` (spec R292). -/
def grayToRgb (y : Byte) : Rgb := { r := y, g := y, b := y }

/-- The latched triple becomes pixel `i` of the buffer RGB (spec R299). -/
def keepPixel (i : Nat) (s : State) : State :=
  { s with
    rgb := Memory.setAll s.rgb [(i, s.pixel.r), (64 + i, s.pixel.g), (128 + i, s.pixel.b)] }

/-- Colour conversion of pixel `i` (the first pixel loop of spec R299). -/
def convertPixel (i : Nat) (s : State) : State :=
  keepPixel i
    { s with
      pixel := if ncomp s = 3 then yccToRgb (sampAt s 0 i) (sampAt s 1 i) (sampAt s 2 i) else grayToRgb (sampAt s 0 i) }

/-! Pixel placement. -/

/-- Image row of pixel `i` of MCU `m` (spec R295). -/
def pixelRow (s : State) (m i : Nat) : Nat := 8 * (m / mcuCols s) + i / 8

/-- Image column of pixel `i` of MCU `m` (spec R295). -/
def pixelCol (s : State) (m i : Nat) : Nat := 8 * (m % mcuCols s) + i % 8

/-- The offset in PIX of the pixel in row `y`, column `x` (spec R57). -/
def pixOffset (s : State) (y x : Nat) : Nat := 3 * (y * width s + x)

/-- The offset in PIX where pixel `i` of MCU `m` is stored; none where the crop drops it (spec R295). -/
def pixelTarget (s : State) (m i : Nat) : Option Nat :=
  if pixelRow s m i < height s ∧ pixelCol s m i < width s then some (pixOffset s (pixelRow s m i) (pixelCol s m i))
  else none

/-- `STOREPIX(m, i, R, G, B)` (spec R295). -/
def storePixel (m i : Nat) (p : Rgb) (s : State) : State :=
  match pixelTarget s m i with
  | none => s
  | some a => { s with pix := Memory.setAll s.pix [(a, p.r), (a + 1, p.g), (a + 2, p.b)] }

/-- Pixel `i` of the buffer RGB. -/
def rgbPixel (s : State) (i : Nat) : Rgb := { r := rgbAt s 0 i, g := rgbAt s 1 i, b := rgbAt s 2 i }

/-! One MCU and the phase. -/

/-- DEQUANT and IDCT of channel `n` of MCU `m` (the channel loop of spec R299). -/
def reconChannel (m n : Nat) (s : State) : Flow Unit :=
  match slotOf n with
  | none => .stop .noSlot
  | some ch =>
    match tqOf s ch with
    | none => .stop .noChannel
    | some tq => .cont () (idctBlock ch.val (dequantBlock m ch.val tq s))

/-- `RECON_MCU(m)` (spec R299). -/
def reconMcuOf (m : Nat) (s : State) : Flow Unit :=
  (Flow.forEach (List.range (ncomp s)) (reconChannel m) s).bind fun _ s =>
    (Flow.forEach (List.range 64) (fun i s => .cont () (convertPixel i s)) s).bind fun _ s =>
      Flow.forEach (List.range 64) (fun i s => .cont () (storePixel m i (rgbPixel s i) s)) (bumpDraws s)

/-- The end of a successful run (spec R300). -/
def finishRun (s : State) : State := { s with phase := .none, state := .done, upc := .idle }

/-- `RECON()` (spec R300), MCUs in raster order (spec R301; log 8). -/
def reconPhase (s : State) : Flow Unit :=
  (Flow.forEach (List.range (nMcu s)) (fun m s => reconMcuOf m { s with mcu := BitVec.ofNat 32 m }) s).bind
    fun _ s => .cont () (finishRun s)

/-! Reset in the RECON phase. -/

/-- The state the whole phase would leave, whatever of it is done already. -/
def reconDone (s : State) : State :=
  match reconPhase s with
  | .cont _ u => u
  | .ended _ => s
  | .stop _ => s
  | .refuse _ => s

/-- The bytes of PIX the whole phase would store. -/
def pixFinal (s : State) : Memory Byte := (reconDone s).pix

/-- Below offset `n` the entries of `new` where `done` says so and those of `old` elsewhere; from `n` on those of `m`. -/
def mixPix (done : Nat → Bool) (old new m : Memory Byte) (n : Nat) : Memory Byte :=
  ((List.range n).filterMap fun a => (Memory.get? (if done a then new else old) a).map fun b => (a, b)) ++
    m.filter fun p => n ≤ p.1

/-- PIX after a reset: in the RECON phase of a run each byte of the image has its new value or still its old one, and which is
free; otherwise PIX is as it was (spec R371, U4). -/
def pixAfterReset (s : State) : Memory Byte :=
  if s.state = .busy ∧ s.phase = .recon then
    mixPix (Config.freePixDone s.draws) s.pixOld (pixFinal s) s.pix (3 * width s * height s)
  else s.pix

/-- The counter of the free values after a reset: past every draw that `pixAfterReset` has made (log 5). -/
def drawsAfterReset (s : State) : Nat :=
  if s.state = .busy ∧ s.phase = .recon then max s.draws (reconDone s).draws + 1 else s.draws + 1

/-- The reset input (spec R370, R371). -/
def resetInput (s : State) : State := { hardwareReset s with pix := pixAfterReset s, draws := drawsAfterReset s }

/-! The meanings. -/

/-- DEQUANT (spec R252). -/
def execDequant (m : Word) (ch : Fin 3) (tq : BitVec 2) (s : State) : Host.Outcome State Fault Refusal :=
  .next (dequantBlock m.toNat ch.val tq s)

/-- IDCT (spec R270). -/
def execIdct (ch : Fin 3) (s : State) : Host.Outcome State Fault Refusal := .next (idctBlock ch.val s)

/-- LEVELSHIFT (spec R271). -/
def execLevelshift (ch : Fin 3) (s : State) : Host.Outcome State Fault Refusal := .next (levelShift ch.val s)

/-- YCC2RGB (spec R291): a pure function, whose triple is latched. -/
def execYcc2rgb (y cb cr : Byte) (s : State) : Host.Outcome State Fault Refusal := .next { s with pixel := yccToRgb y cb cr }

/-- GRAY (spec R292). -/
def execGray (y : Byte) (s : State) : Host.Outcome State Fault Refusal := .next { s with pixel := grayToRgb y }

/-- STOREPIX (spec R295). -/
def execStorepix (m : Word) (i : Fin 64) (r g b : Byte) (s : State) : Host.Outcome State Fault Refusal :=
  .next (storePixel m.toNat i.val { r := r, g := g, b := b } s)

/-- RECON_MCU (spec R299). -/
def execReconMcu (m : Word) (s : State) : Host.Outcome State Fault Refusal := (reconMcuOf m.toNat s).toOutcome

/-- RECON (spec R300). -/
def execRecon (s : State) : Host.Outcome State Fault Refusal := (reconPhase s).toOutcome

end Sys2Proof.Machine
end

