-- ==== Sys2Proof/WellFormed.lean ====
section
/-! DEFINITION. Which terms of `Instr` are instructions: the operand ranges the encodings of the spec give. -/

namespace Sys2Proof

/-- The second byte of BADMARK: none of the values that select another token (spec R102). -/
abbrev isBadMarker (m : Byte) : Bool :=
  m != 0x00 && !(0xD0 ≤ m.toNat && m.toNat ≤ 0xD7) && m != 0xD9 && m != 0xFF

/-- Operand ranges by the format of each row: CMD (spec R100), B1 and M2 (R101, R102), HC (R104), DCSYM (R107),
ACSYM (R108), XB (R109), EXTEND (R223). The operands of every other row fill their type. -/
def Instr.wellFormed : Instr → Bool
  | .cmdReserved v => v != 1 && v != 2
  | .data b => b != 0xFF
  | .badmark m => isBadMarker m
  | .hc len code => 1 ≤ len.toNat && len.toNat ≤ 16 && code.toNat < 2 ^ len.toNat
  | .dcbad s => 0x0C ≤ s.toNat
  | .acrs _ s => s != 0
  | .acr0 r => r != 0 && r != 15
  | .xb s x => x.toNat < 2 ^ s.toNat
  | .extend b s => b.toNat < 2 ^ s.toNat
  | .start => true
  | .clear => true
  | .stuff => true
  | .rstN _ => true
  | .eoi => true
  | .fill => true
  | .endin => true
  | .dc0 => true
  | .dc1 => true
  | .dc2 => true
  | .dc3 => true
  | .dc4 => true
  | .dc5 => true
  | .dc6 => true
  | .dc7 => true
  | .dc8 => true
  | .dc9 => true
  | .dc10 => true
  | .dc11 => true
  | .eob => true
  | .zrl => true
  | .write _ _ => true
  | .read _ => true
  | .scan => true
  | .nextbit => true
  | .receive _ => true
  | .align => true
  | .huffdec _ _ => true
  | .decodeBlock _ _ => true
  | .decodeDc _ _ => true
  | .decodeAc _ _ => true
  | .restart => true
  | .decodeMcu _ => true
  | .entropy => true
  | .dequant _ _ _ => true
  | .idct _ => true
  | .levelshift _ => true
  | .ycc2rgb _ _ _ => true
  | .gray _ => true
  | .storepix _ _ _ _ _ => true
  | .reconMcu _ => true
  | .recon => true

end Sys2Proof
end

