-- ==== Sys2Proof/Decode.lean ====
section
/-! DEFINITION. Decoding of every format of spec/30_encoding.md, total, with named rejections; then the encoder. -/

namespace Sys2Proof

/-- The formats of spec/30_encoding.md. The format is chosen by where the bits stand, never by the bits themselves: `CMD` by
a port write, `token` (B1 and M2) by the SCAN phase, `hc` by a code position of the ENTROPY phase, `dcSym` and `acSym` by the
table class of the code word just decoded, `xb` by the symbol before it. -/
inductive Format where
  | cmd
  | token
  | hc
  | dcSym
  | acSym
  | xb
deriving DecidableEq, Repr

/-- Why bits are no instruction of a format. -/
inductive Reject where
  /-- Sixteen bits of which no prefix is a code word of the table (spec R105). -/
  | noCodeWord
  /-- The bits end before a code word is complete. -/
  | bitsExhausted
  /-- No unit of the format has this many bits. -/
  | unsupportedWidth
deriving DecidableEq, Repr

/-- What the decoder answers. -/
inductive Decoded where
  | instr (i : Instr)
  | reject (r : Reject)
deriving DecidableEq, Repr

def Decoded.toOption : Decoded → Option Instr
  | .instr i => some i
  | .reject _ => none

/-- Format CMD (spec R100): the whole word is the opcode. -/
def decodeCmd (v : Word) : Instr :=
  if v = 1 then .start else if v = 2 then .clear else .cmdReserved v

/-- The index of the word `CMD`, byte offset 0x0004 (spec R32). -/
def cmdIndex : Fin 3072 := 1

/-- A write on the register port: a write to `CMD` is a command word (spec R140). -/
def decodeWrite (a : Fin 3072) (v : Word) : Instr :=
  if a = cmdIndex then decodeCmd v else .write a v

/-- Format M2 by its second byte, tested in the order of spec R103. -/
def decodeMarker (m : Byte) : Instr :=
  if m = 0x00 then .stuff
  else if 0xD0 ≤ m.toNat ∧ m.toNat ≤ 0xD7 then .rstN (m.extractLsb' 0 3)
  else if m = 0xD9 then .eoi
  else if m = 0xFF then .fill
  else .badmark m

/-- A token of the entropy-coded segment, from the bytes that are left (spec R103). -/
def decodeToken : List Byte → Instr
  | [] => .endin
  | b :: rest =>
    if b = 0xFF then
      match rest with
      | [] => .endin
      | m :: _ => decodeMarker m
    else .data b

/-- Format DCSYM (spec R107). -/
def decodeDcSym (s : Byte) : Instr :=
  match s.toNat with
  | 0 => .dc0
  | 1 => .dc1
  | 2 => .dc2
  | 3 => .dc3
  | 4 => .dc4
  | 5 => .dc5
  | 6 => .dc6
  | 7 => .dc7
  | 8 => .dc8
  | 9 => .dc9
  | 10 => .dc10
  | 11 => .dc11
  | _ => .dcbad s

/-- Format ACSYM (spec R108): run in bits 7:4, size in bits 3:0. -/
def decodeAcSym (rs : Byte) : Instr :=
  let r := rs.extractLsb' 4 4
  let s := rs.extractLsb' 0 4
  if rs = 0x00 then .eob
  else if rs = 0xF0 then .zrl
  else if s ≠ 0 then .acrs r s
  else .acr0 r

/-- One round of recognising a code word (spec R105): `code` is the value of the bits taken so far, `first` the first code
word of length `len` (spec R104), `cnt` the number of code words of each length. -/
def decodeCodeFrom (cnt : Nat → Int) : List Bool → Nat → Nat → Int → Decoded
  | [], len, _, _ => .reject (if 16 < len then .noCodeWord else .bitsExhausted)
  | b :: bits, len, code, first =>
    if 16 < len then .reject .noCodeWord
    else if ((2 * code + b.toNat : Nat) : Int) - first < cnt len then
      .instr (.hc (BitVec.ofNat 5 len) (BitVec.ofNat 16 (2 * code + b.toNat)))
    else decodeCodeFrom cnt bits (len + 1) (2 * code + b.toNat) ((first + cnt len) * 2)

/-- Format HC: the shortest prefix of the bits that is a code word of a table with `cnt len` code words of length `len`
(spec R104, R105). -/
def decodeCode (cnt : Nat → Int) (bits : List Bool) : Decoded :=
  decodeCodeFrom cnt bits 1 0 0

/-- Format XB (spec R109): all the bits are the field; there are at most 15. -/
def decodeXb (nbits w : Nat) : Decoded :=
  if nbits ≤ 15 then .instr (.xb (BitVec.ofNat 4 nbits) (BitVec.ofNat 15 w)) else .reject .unsupportedWidth

/-- The low `n` bits of `w`, most significant first: stream order (spec R71). -/
def bitsOf : Nat → Nat → List Bool
  | 0, _ => []
  | n + 1, w => w.testBit n :: bitsOf n w

/-- The decoder of every format, on the number `w` of `nbits` bits whose most significant bit comes first in stream order;
the first byte of a two-byte token is its bits 15:8, as the table writes it (spec R102). -/
def decode (cnt : Nat → Int) (f : Format) (nbits w : Nat) : Decoded :=
  match f with
  | .cmd => if nbits = 32 then .instr (decodeCmd (BitVec.ofNat 32 w)) else .reject .unsupportedWidth
  | .token =>
    match nbits with
    | 0 => .instr (decodeToken [])
    | 8 => .instr (decodeToken [BitVec.ofNat 8 w])
    | 16 => .instr (decodeToken [BitVec.ofNat 8 (w / 256), BitVec.ofNat 8 w])
    | _ => .reject .unsupportedWidth
  | .hc => decodeCode cnt (bitsOf nbits w)
  | .dcSym => if nbits = 8 then .instr (decodeDcSym (BitVec.ofNat 8 w)) else .reject .unsupportedWidth
  | .acSym => if nbits = 8 then .instr (decodeAcSym (BitVec.ofNat 8 w)) else .reject .unsupportedWidth
  | .xb => decodeXb nbits w

/-- The format of a row of the opcode table by its width alone: 32 bits CMD, 16 bits a token, no bits the end of IN. The
table has three formats of 8 bits (DATA, DCSYM, ACSYM) over the same values; an 8-bit number is read as a DC symbol up to 11
and as an AC symbol above, so that as many rows as can be are told apart (log 9). -/
def tableFormat (nbits w : Nat) : Option Format :=
  match nbits with
  | 32 => some .cmd
  | 16 => some .token
  | 8 => some (if w % 256 ≤ 11 then .dcSym else .acSym)
  | 0 => some .token
  | _ => none

/-- The instruction the decoder reads from a word of the opcode table. -/
def decodeTableWord (nbits w : Nat) : Option Instr :=
  (tableFormat nbits w).bind fun f => (decode (fun _ => 0) f nbits w).toOption

/-! The encoder, from the tables of spec/30_encoding.md. -/

/-- The format an instruction is written in; `none` for the operations without an encoding. -/
def Instr.format : Instr → Option Format
  | .start => some .cmd
  | .clear => some .cmd
  | .cmdReserved _ => some .cmd
  | .data _ => some .token
  | .stuff => some .token
  | .rstN _ => some .token
  | .eoi => some .token
  | .fill => some .token
  | .badmark _ => some .token
  | .endin => some .token
  | .hc _ _ => some .hc
  | .dc0 => some .dcSym
  | .dc1 => some .dcSym
  | .dc2 => some .dcSym
  | .dc3 => some .dcSym
  | .dc4 => some .dcSym
  | .dc5 => some .dcSym
  | .dc6 => some .dcSym
  | .dc7 => some .dcSym
  | .dc8 => some .dcSym
  | .dc9 => some .dcSym
  | .dc10 => some .dcSym
  | .dc11 => some .dcSym
  | .dcbad _ => some .dcSym
  | .eob => some .acSym
  | .zrl => some .acSym
  | .acrs _ _ => some .acSym
  | .acr0 _ => some .acSym
  | .xb _ _ => some .xb
  | .write _ _ => none
  | .read _ => none
  | .scan => none
  | .nextbit => none
  | .receive _ => none
  | .align => none
  | .huffdec _ _ => none
  | .extend _ _ => none
  | .decodeBlock _ _ => none
  | .decodeDc _ _ => none
  | .decodeAc _ _ => none
  | .restart => none
  | .decodeMcu _ => none
  | .entropy => none
  | .dequant _ _ _ => none
  | .idct _ => none
  | .levelshift _ => none
  | .ycc2rgb _ _ _ => none
  | .gray _ => none
  | .storepix _ _ _ _ _ => none
  | .reconMcu _ => none
  | .recon => none

/-- The width and the bits of an instruction, numbered as the opcode table numbers them; `none` for the operations without an
encoding. -/
def encode : Instr → Option (Nat × Nat)
  | .start => some (32, 1)
  | .clear => some (32, 2)
  | .cmdReserved v => some (32, v.toNat)
  | .data b => some (8, b.toNat)
  | .stuff => some (16, 0xFF00)
  | .rstN n => some (16, 0xFFD0 + n.toNat)
  | .eoi => some (16, 0xFFD9)
  | .fill => some (16, 0xFFFF)
  | .badmark m => some (16, 0xFF00 + m.toNat)
  | .endin => some (0, 0)
  | .hc len code => some (len.toNat, code.toNat)
  | .dc0 => some (8, 0x00)
  | .dc1 => some (8, 0x01)
  | .dc2 => some (8, 0x02)
  | .dc3 => some (8, 0x03)
  | .dc4 => some (8, 0x04)
  | .dc5 => some (8, 0x05)
  | .dc6 => some (8, 0x06)
  | .dc7 => some (8, 0x07)
  | .dc8 => some (8, 0x08)
  | .dc9 => some (8, 0x09)
  | .dc10 => some (8, 0x0A)
  | .dc11 => some (8, 0x0B)
  | .dcbad s => some (8, s.toNat)
  | .eob => some (8, 0x00)
  | .zrl => some (8, 0xF0)
  | .acrs r s => some (8, 16 * r.toNat + s.toNat)
  | .acr0 r => some (8, 16 * r.toNat)
  | .xb s x => some (s.toNat, x.toNat)
  | .write _ _ => none
  | .read _ => none
  | .scan => none
  | .nextbit => none
  | .receive _ => none
  | .align => none
  | .huffdec _ _ => none
  | .extend _ _ => none
  | .decodeBlock _ _ => none
  | .decodeDc _ _ => none
  | .decodeAc _ _ => none
  | .restart => none
  | .decodeMcu _ => none
  | .entropy => none
  | .dequant _ _ _ => none
  | .idct _ => none
  | .levelshift _ => none
  | .ycc2rgb _ _ _ => none
  | .gray _ => none
  | .storepix _ _ _ _ _ => none
  | .reconMcu _ => none
  | .recon => none

end Sys2Proof
end

