-- ==== Sys2Proof/Machine/Scan.lean ====
section
/-! DEFINITION. The SCAN phase and its tokens (spec/41_entropy_bit_reader.md section 1). -/

namespace Sys2Proof.Machine

/-- `append(v)` (spec R161): with an unbounded CLEAN it never faults. -/
def appendClean (v : Byte) (s : State) : Flow Unit :=
  if (match s.params.cleanCap with
      | none => false
      | some cap => decide (cap ≤ s.cleanlen.toNat)) then raise .capClean s.ip 0 s
  else .cont () { s with clean := Memory.set s.clean s.cleanlen.toNat v, cleanlen := s.cleanlen + 1 }

/-- DATA (spec R162). -/
def tokenData (b : Byte) (s : State) : Flow Unit :=
  (appendClean b s).bind fun _ s => advanceIp 1 s

/-- STUFF (spec R163). -/
def tokenStuff (s : State) : Flow Unit :=
  (appendClean 0xFF s).bind fun _ s => advanceIp 2 s

/-- RSTn (spec R164): both bytes are dropped and nothing else happens; `n` is not examined. -/
def tokenRst (s : State) : Flow Unit := advanceIp 2 s

/-- FILL (spec R165): only the first 0xFF is consumed. -/
def tokenFill (s : State) : Flow Unit := advanceIp 1 s

/-- EOI (spec R166) ends the SCAN phase, so ENTROPY follows (spec R160; log 26). -/
def tokenEoi (s : State) : Flow Unit :=
  (advanceIp 2 s).bind fun _ s => .cont () { s with phase := .entropy }

/-- BADMARK (spec R167): the position is that of the second byte; `ip` stays. -/
def tokenBadmark (m : Byte) (s : State) : Flow Unit :=
  if 2 ^ 32 ≤ s.ip.toNat + 1 then .refuse .inputCursorOverflow
  else raise .badMarker (s.ip + 1) (m.setWidth 16) s

/-- ENDIN (spec R168): the position is the length of IN; `ip` stays. -/
def tokenEndin (s : State) : Flow Unit :=
  if 2 ^ 32 ≤ s.input.length then .refuse .inputCursorOverflow
  else raise .trunc (BitVec.ofNat 32 s.input.length) 0 s

/-- A token needs a byte that the port has not delivered: the input has ended, or SCAN waits, which changes nothing (spec R168,
R355, R385). -/
def byteMissing (s : State) : Flow Unit := if s.inputEnd then tokenEndin s else .ended s

/-- The bytes of the token at `ip` are there, or the input has ended. -/
def tokenThere (s : State) : Bool :=
  s.inputEnd ||
    match s.input.drop s.ip.toNat with
    | [] => false
    | [b] => b != 0xFF
    | _ :: _ :: _ => true

/-- The loop of `SCAN()` (spec R160), with as many passes left as bytes of IN: when none is left a byte is missing. -/
def scanLoop : Nat → State → Flow Unit
  | 0, s => byteMissing s
  | n + 1, s =>
    match s.input.drop s.ip.toNat with
    | [] => byteMissing s
    | b :: rest =>
      if b ≠ 0xFF then (tokenData b s).bind fun _ s => scanLoop n s
      else
        match rest with
        | [] => byteMissing s
        | m :: _ =>
          if m = 0x00 then (tokenStuff s).bind fun _ s => scanLoop n s
          else if 0xD0 ≤ m.toNat ∧ m.toNat ≤ 0xD7 then (tokenRst s).bind fun _ s => scanLoop n s
          else if m = 0xD9 then tokenEoi s
          else if m = 0xFF then (tokenFill s).bind fun _ s => scanLoop n s
          else tokenBadmark m s

/-- `SCAN()` (spec R160), from the present `ip`: every pass consumes a byte, so that the bytes left bound the passes. -/
def scanPhase (s : State) : Flow Unit := scanLoop (s.input.length - s.ip.toNat) s

/-! The meanings. -/

/-- DATA (spec R162). -/
def execData (b : Byte) (s : State) : Host.Outcome State Fault Refusal := (tokenData b s).toOutcome

/-- STUFF (spec R163). -/
def execStuff (s : State) : Host.Outcome State Fault Refusal := (tokenStuff s).toOutcome

/-- RSTn (spec R164). -/
def execRstN (_n : BitVec 3) (s : State) : Host.Outcome State Fault Refusal := (tokenRst s).toOutcome

/-- EOI (spec R166). -/
def execEoi (s : State) : Host.Outcome State Fault Refusal := (tokenEoi s).toOutcome

/-- FILL (spec R165). -/
def execFill (s : State) : Host.Outcome State Fault Refusal := (tokenFill s).toOutcome

/-- BADMARK (spec R167). -/
def execBadmark (m : Byte) (s : State) : Host.Outcome State Fault Refusal := (tokenBadmark m s).toOutcome

/-- ENDIN (spec R168). -/
def execEndin (s : State) : Host.Outcome State Fault Refusal := (tokenEndin s).toOutcome

/-- SCAN (spec R160). -/
def execScan (s : State) : Host.Outcome State Fault Refusal := (scanPhase s).toOutcome

end Sys2Proof.Machine
end

