-- ==== Sys2Proof/Machine/Dispatch.lean ====
section
/-! DEFINITION. One arm per instruction, each one call of its meaning. -/

namespace Sys2Proof.Machine

def exec (i : Instr) (s : State) : Host.Outcome State Fault Refusal :=
  match i with
  | .start => Sys2Proof.Machine.execStart s
  | .clear => Sys2Proof.Machine.execClear s
  | .cmdReserved v => Sys2Proof.Machine.execCmdReserved v s
  | .data b => Sys2Proof.Machine.execData b s
  | .stuff => Sys2Proof.Machine.execStuff s
  | .rstN n => Sys2Proof.Machine.execRstN n s
  | .eoi => Sys2Proof.Machine.execEoi s
  | .fill => Sys2Proof.Machine.execFill s
  | .badmark m => Sys2Proof.Machine.execBadmark m s
  | .endin => Sys2Proof.Machine.execEndin s
  | .hc len code => Sys2Proof.Machine.execHc len code s
  | .dc0 => Sys2Proof.Machine.execDc0 s
  | .dc1 => Sys2Proof.Machine.execDc1 s
  | .dc2 => Sys2Proof.Machine.execDc2 s
  | .dc3 => Sys2Proof.Machine.execDc3 s
  | .dc4 => Sys2Proof.Machine.execDc4 s
  | .dc5 => Sys2Proof.Machine.execDc5 s
  | .dc6 => Sys2Proof.Machine.execDc6 s
  | .dc7 => Sys2Proof.Machine.execDc7 s
  | .dc8 => Sys2Proof.Machine.execDc8 s
  | .dc9 => Sys2Proof.Machine.execDc9 s
  | .dc10 => Sys2Proof.Machine.execDc10 s
  | .dc11 => Sys2Proof.Machine.execDc11 s
  | .dcbad y => Sys2Proof.Machine.execDcbad y s
  | .eob => Sys2Proof.Machine.execEob s
  | .zrl => Sys2Proof.Machine.execZrl s
  | .acrs r n => Sys2Proof.Machine.execAcrs r n s
  | .acr0 r => Sys2Proof.Machine.execAcr0 r s
  | .xb n x => Sys2Proof.Machine.execXb n x s
  | .write a v => Sys2Proof.Machine.execWrite a v s
  | .read a => Sys2Proof.Machine.execRead a s
  | .scan => Sys2Proof.Machine.execScan s
  | .nextbit => Sys2Proof.Machine.execNextbit s
  | .receive n => Sys2Proof.Machine.execReceive n s
  | .align => Sys2Proof.Machine.execAlign s
  | .huffdec c t => Sys2Proof.Machine.execHuffdec c t s
  | .extend b n => Sys2Proof.Machine.execExtend b n s
  | .decodeBlock m j => Sys2Proof.Machine.execDecodeBlock m j s
  | .decodeDc m j => Sys2Proof.Machine.execDecodeDc m j s
  | .decodeAc m j => Sys2Proof.Machine.execDecodeAc m j s
  | .restart => Sys2Proof.Machine.execRestart s
  | .decodeMcu m => Sys2Proof.Machine.execDecodeMcu m s
  | .entropy => Sys2Proof.Machine.execEntropy s
  | .dequant m ch tq => Sys2Proof.Machine.execDequant m ch tq s
  | .idct ch => Sys2Proof.Machine.execIdct ch s
  | .levelshift ch => Sys2Proof.Machine.execLevelshift ch s
  | .ycc2rgb y cb cr => Sys2Proof.Machine.execYcc2rgb y cb cr s
  | .gray y => Sys2Proof.Machine.execGray y s
  | .storepix m n r g b => Sys2Proof.Machine.execStorepix m n r g b s
  | .reconMcu m => Sys2Proof.Machine.execReconMcu m s
  | .recon => Sys2Proof.Machine.execRecon s

end Sys2Proof.Machine
end

