-- ==== Sys2Proof/Machine/Sequencer.lean ====
section
/-! DEFINITION. The sequencer: which instruction the core performs next, and how the loops of the pseudocode of a run go on
after it (spec R149, R160, R220, R229, R231, R232, R299, R300). The step of the model is one such instruction (log 7). -/

namespace Sys2Proof.Machine

/-! Which instruction stands next. -/

/-- What the sequencer finds: an instruction, a token that the input port has not delivered yet, or a position no run
reaches. -/
inductive Fetched where
  | instr (i : Instr)
  | wait
  | stop (f : Fault)
deriving DecidableEq, Repr

/-- SCAN (spec R160): the token at `ip`, or the whole phase. Where the port has delivered no token and has not signalled the end
the core waits (spec R385). -/
def fetchScan (s : State) : Fetched :=
  if !tokenThere s then .wait
  else
    match s.params.grain with
    | .phase => .instr .scan
    | .mcu => .instr (decodeToken (s.input.drop s.ip.toNat))
    | .block => .instr (decodeToken (s.input.drop s.ip.toNat))
    | .part => .instr (decodeToken (s.input.drop s.ip.toNat))
    | .unit => .instr (decodeToken (s.input.drop s.ip.toNat))

/-- The code word at the cursor, or HUFFDEC where none stands, which then raises the fault (spec R105, R193). -/
def fetchCode (s : State) : Instr :=
  match decodeCode (codeCount s (selectedTable s).1 (selectedTable s).2) (peekBits 16 s) with
  | .instr i => i
  | .reject _ => .huffdec (selectedTable s).1 (selectedTable s).2

/-- A code position of the ENTROPY phase: the code word, or as much of the phase as one step performs and the position
allows. -/
def fetchAtCode (s : State) : Instr :=
  match s.params.grain with
  | .unit => fetchCode s
  | .part => if s.k = 0 then .decodeDc s.mcu s.slot else .decodeAc s.mcu s.slot
  | .block => if s.k = 0 then .decodeBlock s.mcu s.slot else .decodeAc s.mcu s.slot
  | .mcu =>
    if s.k = 0 then
      if s.slot = 0 then .decodeMcu s.mcu else .decodeBlock s.mcu s.slot
    else .decodeAc s.mcu s.slot
  | .phase =>
    if s.k = 0 then
      if s.slot = 0 then
        if s.mcu = 0 then .entropy else .decodeMcu s.mcu
      else .decodeBlock s.mcu s.slot
    else .decodeAc s.mcu s.slot

/-- ENTROPY (spec R232). -/
def fetchEntropy (s : State) : Fetched :=
  match s.upc with
  | .restartDue => .instr .restart
  | .code => .instr (fetchAtCode s)
  | .symbol => .instr (if s.k = 0 then decodeDcSym s.sym else decodeAcSym s.sym)
  | .idle => .stop .lostSequencer
  | .token => .stop .lostSequencer
  | .blockEnd => .stop .lostSequencer
  | .dequant _ => .stop .lostSequencer
  | .idct _ => .stop .lostSequencer
  | .colour _ => .stop .lostSequencer
  | .store _ => .stop .lostSequencer

/-- The DEQUANT of a channel, with the table of its slot (spec R253, R298). -/
def fetchDequant (s : State) (ch : Fin 3) : Fetched :=
  match tqOf s ch with
  | none => .stop .noChannel
  | some tq => .instr (.dequant s.mcu ch tq)

/-- RECON (spec R299, R300). -/
def fetchRecon (s : State) : Fetched :=
  match s.upc with
  | .dequant ch =>
    match s.params.grain with
    | .unit => fetchDequant s ch
    | .part => if ch = 0 then .instr (.reconMcu s.mcu) else fetchDequant s ch
    | .block => if ch = 0 then .instr (.reconMcu s.mcu) else fetchDequant s ch
    | .mcu => if ch = 0 then .instr (.reconMcu s.mcu) else fetchDequant s ch
    | .phase =>
      if ch = 0 then .instr (if s.mcu = 0 then .recon else .reconMcu s.mcu) else fetchDequant s ch
  | .idct ch => .instr (.idct ch)
  | .colour i =>
    .instr (if ncomp s = 3 then .ycc2rgb (sampAt s 0 i.val) (sampAt s 1 i.val) (sampAt s 2 i.val)
      else .gray (sampAt s 0 i.val))
  | .store i => .instr (.storepix s.mcu i (rgbAt s 0 i.val) (rgbAt s 1 i.val) (rgbAt s 2 i.val))
  | .idle => .stop .lostSequencer
  | .token => .stop .lostSequencer
  | .restartDue => .stop .lostSequencer
  | .code => .stop .lostSequencer
  | .symbol => .stop .lostSequencer
  | .blockEnd => .stop .lostSequencer

/-- The next instruction of a run (spec R149). -/
def fetch (s : State) : Fetched :=
  match s.phase with
  | .scan => fetchScan s
  | .entropy => fetchEntropy s
  | .recon => fetchRecon s
  | .none => .stop .lostSequencer

/-! How the run goes on. -/

/-- RECON begins at MCU 0, or ends at once where there is no MCU (spec R300). PIX as it is now is what a reset may leave (spec
R371). -/
def beginRecon (s : State) : State :=
  if nMcu s = 0 then finishRun s else { s with phase := .recon, mcu := 0, upc := .dequant 0, pixOld := s.pix }

/-- The block of slot number `j` begins: its coefficients are zeroed and `k` <- 0 (spec R220). -/
def beginBlock (j : Nat) (s : State) : Host.Outcome State Fault Refusal :=
  match slotOf j with
  | none => .fault .noSlot
  | some slot =>
    match channelOf s slot with
    | none => .fault .noChannel
    | some ch => .next { zeroBlock s.mcu.toNat ch.val s with slot := slot, k := 0, upc := .code }

/-- MCU `m` begins, with the restart action first where it is due (spec R232). -/
def beginMcu (m : Nat) (s : State) : Host.Outcome State Fault Refusal :=
  if restartBefore s m then .next { s with mcu := BitVec.ofNat 32 m, upc := .restartDue }
  else beginBlock 0 { s with mcu := BitVec.ofNat 32 m }

/-- MCU `m` is next, or the phase ends (the loop of spec R232). -/
def nextMcu (m : Nat) (s : State) : Host.Outcome State Fault Refusal :=
  if m < nMcu s then beginMcu m s else .next (beginRecon s)

/-- A block is complete: the next slot, or the end of the MCU (spec R231). -/
def finishBlock (s : State) : Host.Outcome State Fault Refusal :=
  if s.slot.val + 1 < ncomp s then beginBlock (s.slot.val + 1) s
  else nextMcu (s.mcu.toNat + 1) { s with mcucnt := s.mcucnt + 1 }

/-- An AC symbol is done: the loop of spec R229 goes on, or has ended. -/
def afterAc (s : State) : Host.Outcome State Fault Refusal :=
  if s.upc = .blockEnd ∨ 63 < s.k.toNat then finishBlock s else .next { s with upc := .code }

/-- The DC part of a block is done (spec R220). -/
def afterDc (s : State) : Host.Outcome State Fault Refusal := .next { s with k := 1, upc := .code }

/-- An MCU is reconstructed (the loop of spec R300). -/
def afterReconMcu (s : State) : State :=
  if s.mcu.toNat + 1 < nMcu s then { s with mcu := s.mcu + 1, upc := .dequant 0 } else finishRun s

/-- A channel is transformed: the next channel, or the pixels (spec R299). -/
def afterIdct (ch : Fin 3) (s : State) : State :=
  match slotOf (ch.val + 1) with
  | some next => if next.val < ncomp s then { s with upc := .dequant next } else { s with upc := .colour 0 }
  | none => { s with upc := .colour 0 }

/-- A pixel is converted: it is kept, and the next one follows, or the stores (spec R299). -/
def afterColour (s : State) : State :=
  match s.upc with
  | .colour i =>
    if i = 63 then { bumpDraws (keepPixel i.val s) with upc := .store 0 } else { keepPixel i.val s with upc := .colour (i + 1) }
  | .idle => s
  | .token => s
  | .restartDue => s
  | .code => s
  | .symbol => s
  | .blockEnd => s
  | .dequant _ => s
  | .idct _ => s
  | .store _ => s

/-- A pixel is stored: the next one, or the end of the MCU (spec R299). -/
def afterStore (i : Fin 64) (s : State) : State :=
  if i = 63 then afterReconMcu s else { s with upc := .store (i + 1) }

/-- The loops of the pseudocode after instruction `i`, while the run goes on; a fault has ended it (spec R11). -/
def sequence (i : Instr) (s : State) : Host.Outcome State Fault Refusal :=
  if s.state ≠ .busy then .next s
  else
    match i with
    | .data _ => .next s
    | .stuff => .next s
    | .rstN _ => .next s
    | .fill => .next s
    | .eoi => nextMcu 0 s
    | .scan => if s.phase = .entropy then nextMcu 0 s else .next s
    | .badmark _ => .next s
    | .endin => .next s
    | .hc _ _ => .next { s with upc := .symbol }
    | .huffdec _ _ => .next { s with upc := .symbol }
    | .dc0 => afterDc s
    | .dc1 => afterDc s
    | .dc2 => afterDc s
    | .dc3 => afterDc s
    | .dc4 => afterDc s
    | .dc5 => afterDc s
    | .dc6 => afterDc s
    | .dc7 => afterDc s
    | .dc8 => afterDc s
    | .dc9 => afterDc s
    | .dc10 => afterDc s
    | .dc11 => afterDc s
    | .decodeDc _ _ => afterDc s
    | .dcbad _ => .next s
    | .eob => afterAc s
    | .zrl => afterAc s
    | .acrs _ _ => afterAc s
    | .acr0 _ => afterAc s
    | .decodeAc _ _ => finishBlock s
    | .decodeBlock _ _ => finishBlock s
    | .restart => beginBlock 0 s
    | .decodeMcu _ => nextMcu (s.mcu.toNat + 1) s
    | .entropy => .next (beginRecon s)
    | .dequant _ ch _ => .next { s with upc := .idct ch }
    | .idct ch => .next (afterIdct ch s)
    | .ycc2rgb _ _ _ => .next (afterColour s)
    | .gray _ => .next (afterColour s)
    | .storepix _ i _ _ _ => .next (afterStore i s)
    | .reconMcu _ => .next (afterReconMcu s)
    | .recon => .next s
    | .start => .next s
    | .clear => .next s
    | .cmdReserved _ => .next s
    | .write _ _ => .next s
    | .read _ => .next s
    | .xb _ _ => .next s
    | .nextbit => .next s
    | .receive _ => .next s
    | .align => .next s
    | .extend _ _ => .next s
    | .levelshift _ => .next s

/-! Placing an instruction where the next step fetches it (log 11). -/

/-- A port write of the word to CMD is the host's next action. -/
def placeCommand (w : Nat) (s : State) : State :=
  { s with hostq := (0, .write cmdIndex (BitVec.ofNat 32 w)) :: s.hostq }

/-- A run of the configuration of one 8x8 gray block is in progress, its sequencer at the beginning. -/
def placeRun (phase : Phase) (upc : Upc) (s : State) : State :=
  { s with
    hostq := []
    state := .busy
    phase := phase
    upc := upc
    mcu := 0
    slot := 0
    framedim := 0x00080008
    framecfg := 1
    scancomp := s.scancomp.set 0 1
    inputFresh := false
    params := { s.params with grain := .unit } }

/-- The bytes stand at the input cursor of a run in its SCAN phase. -/
def placeToken (bytes : List Byte) (s : State) : State :=
  { placeRun .scan .token s with ip := 0, input := bytes, inputEnd := true }

/-- The symbol has just been decoded, in the ENTROPY phase of a run whose two clean bytes are 0: of the DC unit (`k` = 0) or of
the first AC unit (`k` = 1). -/
def placeSymbol (y : Byte) (k : BitVec 7) (s : State) : State :=
  { placeRun .entropy .symbol s with
    sym := y
    k := k
    bp := 0
    bi := 0
    clean := Memory.setAll s.clean [(0, 0), (1, 0)]
    cleanlen := 2 }

/-- The word placed by its format (`tableFormat`). -/
def placeWord (s : State) (nbits w : Nat) : State :=
  match tableFormat nbits w with
  | some .cmd => placeCommand w s
  | some .token => placeToken (if nbits = 0 then [] else [BitVec.ofNat 8 (w / 256), BitVec.ofNat 8 w]) s
  | some .dcSym => placeSymbol (BitVec.ofNat 8 w) 0 s
  | some .acSym => placeSymbol (BitVec.ofNat 8 w) 1 s
  | some .hc => s
  | some .xb => s
  | none => s

end Sys2Proof.Machine
end

