-- ==== Sys2Proof/Machine/Step.lean ====
section
/-! DEFINITION. One step: the host's next action when it is due, otherwise one instruction of the run, otherwise nothing. -/

namespace Sys2Proof.Machine

/-- The core's own step: while BUSY the next instruction of the run and how its loops go on, or, while the input port makes it
wait, nothing; otherwise nothing happens until the host acts (spec R355, R370, R385). -/
def runStep (s : State) : Host.Outcome State Fault Refusal :=
  match s.state with
  | .busy =>
    match fetch s with
    | .instr i => thenDo (exec i s) (sequence i)
    | .wait => .next s
    | .stop f => .fault f
  | .idle => .next s
  | .done => .next s
  | .error => .next s

/-- One action of the host. Port accesses are instructions, in every state of the core (spec R140, R145). -/
def hostStep (e : HostEvent) (s : State) : Host.Outcome State Fault Refusal :=
  match e with
  | .write a v => exec (decodeWrite a v) s
  | .read a => exec (.read a) s
  | .attach bytes last => attachInput bytes last s
  | .deliver bytes last => deliverInput bytes last s
  | .reset => .next (resetInput s)

/-- One step. A host action lands between two instructions of the core, after as many steps as its entry in the queue
says (log 6). -/
def step (s : State) : Host.Outcome State Fault Refusal :=
  match s.hostq with
  | [] => runStep s
  | (0, e) :: rest => hostStep e { s with hostq := rest }
  | (n + 1, e) :: rest => runStep { s with hostq := (n, e) :: rest }

/-- The state with an instruction of the opcode table stored where the next step fetches it (log 11). -/
def State.withFetchWord (s : State) (nbits w : Nat) : State := placeWord s nbits w

end Sys2Proof.Machine
end

