-- ==== Sys2Proof/Safety.lean ====
section
/-! DEFINITION. The terms claims are stated in: what stands in the clean stream and the tables, when a launch is valid, what a
coded image is, the reference for pixels, and the invariants of a run. Nothing here is read by the model. -/

namespace Sys2Proof.Machine

/-! The clean stream (spec R25, R71). -/

/-- The bit position counted from the start of CLEAN (spec R25). -/
def bitPos (s : State) : Nat := 8 * s.bp.toNat + s.bi.toNat

/-- Bit `p` of the clean sequence, bit 7 of a byte first, where there is one and it has been written. -/
def streamBit (s : State) (p : Nat) : Option Bool :=
  if p / 8 < s.cleanlen.toNat then (Memory.get? s.clean (p / 8)).map fun b => b.getLsbD (7 - p % 8) else none

/-- The bits `w` stand in the clean sequence from position `p` on. -/
abbrev BitsAt (s : State) (p : Nat) (w : List Bool) : Prop := ∀ n, n < w.length → streamBit s (p + n) = w[n]?

/-- The number a group of bits stands for, first bit most significant (spec R71). -/
def bitsValue (w : List Bool) : Nat := w.foldl (fun v b => 2 * v + b.toNat) 0

/-- The state once the bits `w` at the cursor have been taken one by one: the cursor is behind them, and the latch of NEXTBIT
holds the last (log 4). -/
def consume (w : List Bool) (s : State) : State :=
  { s with
    bp := BitVec.ofNat 32 ((bitPos s + w.length) / 8)
    bi := BitVec.ofNat 3 ((bitPos s + w.length) % 8)
    bitOut := w.getLastD s.bitOut }

/-! Faults (spec R330). -/

/-- The state after fault entry with a code of spec R321; `upc` and `draws` are the model's (log 5, log 7). -/
def faulted (code : BitVec 8) (pos : Word) (val : BitVec 16) (s : State) : State :=
  { s with
    errcode := code
    errpos := pos
    errval := val
    errmcu := if s.phase = .entropy then s.mcu else 0
    errblk :=
      if s.phase = .entropy then BitVec.ofNat 32 (2 ^ 16 * s.bi.toNat + 2 ^ 8 * s.k.toNat + s.slot.val) else 0
    phase := .none
    state := .error
    upc := .idle
    draws := s.draws + 1 }

/-! Huffman tables and code words (spec R104, R143). -/

/-- The offsets of a table are written, with the values `off`, and are well formed (spec R143 check 5). -/
structure OffsetsAre (s : State) (c : HClass) (t : BitVec 2) (off : Nat → Nat) : Prop where
  listed : ∀ n, n ≤ 16 → Memory.get? s.hoff (hoffIndex c t n) = some (BitVec.ofNat 8 (off n))
  start : off 0 = 0
  rising : ∀ n, n < 16 → off n ≤ off (n + 1)
  bound : off 16 ≤ 162

/-- The offsets of a table are written, with the values `off`, and are not well formed. -/
structure OffsetsBad (s : State) (c : HClass) (t : BitVec 2) (off : Nat → Nat) : Prop where
  listed : ∀ n, n ≤ 16 → off n < 256 ∧ Memory.get? s.hoff (hoffIndex c t n) = some (BitVec.ofNat 8 (off n))
  bad : off 0 ≠ 0 ∨ (∃ n, n < 16 ∧ off (n + 1) < off n) ∨ 162 < off 16

/-- The first code word of each length (spec R104). -/
def firstWord (off : Nat → Nat) : Nat → Nat
  | 0 => 0
  | 1 => 0
  | len + 2 => (firstWord off (len + 1) + (off (len + 1) - off len)) * 2

/-- In the table of class `c` and id `t` the symbol `y` has the code word of `len` bits and value `code`; `first` is the first
code word of that length (spec R104). -/
def CodeWord (s : State) (c : HClass) (t : BitVec 2) (y : Byte) (len first code : Nat) : Prop :=
  ∃ off j, OffsetsAre s c t off ∧ 1 ≤ len ∧ len ≤ 16 ∧ off (len - 1) ≤ j ∧ j < off len ∧
    Memory.get? s.hsym (hsymIndex c t j) = some y ∧ first = firstWord off len ∧
    code = first + (j - off (len - 1)) ∧ code < 2 ^ len

/-- No code word of a table with offsets `off` is a prefix of the bits `w` (spec R105). -/
def NoPrefix (off : Nat → Nat) (w : List Bool) : Prop :=
  ∀ len j, 1 ≤ len → len ≤ w.length → off (len - 1) ≤ j → j < off len →
    firstWord off len + (j - off (len - 1)) ≠ bitsValue (w.take len)

/-- The registers a decode of symbol `y` writes besides the cursor: the transients of spec R28, the latch of the symbol
(log 4) and the counter of the free values (log 5). -/
def decodedAs (y : Byte) (len first code : Nat) (s : State) : State :=
  { s with
    len := BitVec.ofNat 5 len
    first := BitVec.ofNat 25 first
    code := BitVec.ofNat 16 code
    sym := y
    draws := s.draws + 1 }

/-- The registers `EXTEND(RECEIVE(n), n)` writes besides the cursor, for extra bits of value `x`: the latches of log 4. -/
def receivedAs (n x : Nat) (s : State) : State :=
  { s with raw := BitVec.ofNat 15 x, ext := BitVec.ofInt 16 (extendValue x n) }

/-- DC symbol DCn. -/
def dcSymbol : Fin 12 → Instr
  | 0 => .dc0
  | 1 => .dc1
  | 2 => .dc2
  | 3 => .dc3
  | 4 => .dc4
  | 5 => .dc5
  | 6 => .dc6
  | 7 => .dc7
  | 8 => .dc8
  | 9 => .dc9
  | 10 => .dc10
  | 11 => .dc11

/-! Coded blocks (spec R110, R111): what an encoder may write. -/

/-- One AC unit that is not EOB: a run, a size, and the value of the extra bits. -/
structure AcUnit where
  run : Nat
  size : Nat
  value : Nat
deriving DecidableEq, Repr

/-- One block: size and extra bits of its DC unit, and its AC units before EOB. -/
structure Block where
  size : Nat
  value : Nat
  ac : List AcUnit
deriving DecidableEq, Repr

/-- The units fit a block from position `k` on: no field out of range, no EOB among them, no run past position 63. -/
def acFits : Nat → List AcUnit → Bool
  | _, [] => true
  | k, u :: us =>
    u.run ≤ 15 && u.size ≤ 15 && u.value < 2 ^ u.size && !(u.run == 0 && u.size == 0) && k + u.run ≤ 63 &&
      acFits (k + u.run + 1) us

def Block.fits (b : Block) : Bool := b.size ≤ 11 && b.value < 2 ^ b.size && acFits 1 b.ac

/-- The position after the units. -/
def acEnd : Nat → List AcUnit → Nat
  | k, [] => k
  | k, u :: us => acEnd (k + u.run + 1) us

/-- The coefficient a unit stores at position `n`: none where it stores none, as in a run, after ZRL and after EOB. -/
def acStored : Nat → List AcUnit → Nat → Option Int
  | _, [], _ => none
  | k, u :: us, n =>
    if n = k + u.run ∧ ¬(u.run = 15 ∧ u.size = 0) then some (extendValue u.value u.size)
    else acStored (k + u.run + 1) us n

/-- The DC difference of a block, modulo 2^16. -/
def Block.diff (b : Block) : BitVec 16 := BitVec.ofInt 16 (extendValue b.value b.size)

/-- The 64 coefficients of a block whose DC coefficient is `dc`. -/
def Block.coefficient (b : Block) (dc : BitVec 16) (n : Nat) : BitVec 16 :=
  if n = 0 then dc else BitVec.ofInt 16 ((acStored 1 b.ac n).getD 0)

/-- A coded unit stands from `p` to `q`: the code word of `y` in the table, then `n` extra bits of value `x` (spec R110). -/
def UnitAt (s : State) (c : HClass) (t : BitVec 2) (y : Byte) (n x p q : Nat) : Prop :=
  ∃ len first code, CodeWord s c t y len first code ∧ BitsAt s p (bitsOf len code ++ bitsOf n x) ∧ q = p + len + n

/-- The AC units of a block stand from `p` to `q`, followed by EOB unless position 63 is filled (spec R111, R229). -/
def AcAt (s : State) (t : BitVec 2) : Nat → List AcUnit → Nat → Nat → Prop
  | k, [], p, q => if k ≤ 63 then UnitAt s .ac t 0x00 0 0 p q else q = p
  | k, u :: us, p, q =>
    ∃ r, UnitAt s .ac t (BitVec.ofNat 8 (16 * u.run + u.size)) u.size u.value p r ∧ AcAt s t (k + u.run + 1) us r q

/-- The block `b` of slot `j` stands from `p` to `q`. -/
def BlockAt (s : State) (j : Fin 3) (b : Block) (p q : Nat) : Prop :=
  ∃ r, UnitAt s .dc (tdSel s j) (BitVec.ofNat 8 b.size) b.size b.value p r ∧ AcAt s (taSel s j) 1 b.ac r q

/-- The blocks of an MCU stand from `p` to `q`, one for each slot from number `n` on (spec R111, R231). -/
def BlocksAt (s : State) : Nat → List Block → Nat → Nat → Prop
  | _, [], p, q => q = p
  | n, b :: bs, p, q => ∃ j : Fin 3, ∃ r, j.val = n ∧ BlockAt s j b p r ∧ BlocksAt s (n + 1) bs r q

/-- The restart action is due before MCU `m` (spec R230). -/
abbrev RestartDue (s : State) (m : Nat) : Prop := 0 < restartInterval s ∧ 0 < m ∧ m % restartInterval s = 0

/-- The MCUs from number `m` on stand from `p` to `q`, each interval from a byte boundary on (spec R111). -/
def McusAt (s : State) : Nat → List (List Block) → Nat → Nat → Prop
  | _, [], p, q => q = p
  | m, bs :: rest, p, q =>
    ∃ r, BlocksAt s 0 bs (if RestartDue s m then (p + 7) / 8 * 8 else p) r ∧ McusAt s (m + 1) rest r q

/-- The blocks of an MCU: one for each component, each of them codable. -/
def mcuFits (s : State) (bs : List Block) : Bool := bs.length == ncomp s && bs.all Block.fits

/-- The predictor of slot number `j` before MCU `m`: it starts at `p`, each block adds its difference, and a restart resets it
(spec R221, R230). -/
def predBefore (s : State) (mcus : List (List Block)) (j : Nat) (p : BitVec 16) : Nat → BitVec 16
  | 0 => p
  | m + 1 =>
    if RestartDue s (m + 1) then 0
    else predBefore s mcus j p m + ((mcus[m]?.bind fun bs => bs[j]?).map Block.diff).getD 0

/-! Launch (spec R143). -/

abbrev CountOk (s : State) : Prop := ncomp s = 1 ∨ ncomp s = 3

abbrev DimsOk (s : State) : Prop := width s ≠ 0 ∧ height s ≠ 0

/-- Check 3 fails at slot `j`. -/
abbrev BadId (s : State) (j : Fin 3) : Prop := cid s j = 0 ∨ ncomp s < cid s j ∨ ∃ i : Fin 3, i < j ∧ cid s i = cid s j

/-- Check 3 fails at no slot of the scan. -/
abbrev IdsOk (s : State) : Prop := ∀ j : Fin 3, j.val < ncomp s → ¬BadId s j

/-- Check 4 passes at slot `j`. -/
abbrev SetOk (s : State) (j : Fin 3) : Prop :=
  qset s (tqSel s j) = true ∧ dcset s (tdSel s j) = true ∧ acset s (taSel s j) = true

/-- Check 5 passes at slot `j`. -/
def TablesOk (s : State) (j : Fin 3) : Prop :=
  (∃ off, OffsetsAre s .dc (tdSel s j) off) ∧ ∃ off, OffsetsAre s .ac (taSel s j) off

abbrev CapacityOk (s : State) : Prop := ∀ cap, s.params.coefCap = some cap → nMcu s ≤ cap

/-- Every check of START passes. -/
structure LaunchOk (s : State) : Prop where
  count : CountOk s
  dims : DimsOk s
  ids : IdsOk s
  set : ∀ j : Fin 3, j.val < ncomp s → SetOk s j
  tables : ∀ j : Fin 3, j.val < ncomp s → TablesOk s j
  capacity : CapacityOk s

/-- The first check of START that fails, with the code and the value it records (spec R143, R321). -/
inductive LaunchFault (s : State) : BitVec 8 → BitVec 16 → Prop
  | cmyk : ncomp s = 4 → LaunchFault s 0x20 4
  | count : ncomp s ≠ 1 → ncomp s ≠ 3 → ncomp s ≠ 4 → LaunchFault s 0x10 (BitVec.ofNat 16 (ncomp s))
  | width : CountOk s → width s = 0 → LaunchFault s 0x11 0
  | height : CountOk s → width s ≠ 0 → height s = 0 → LaunchFault s 0x11 1
  | ids (j : Fin 3) : CountOk s → DimsOk s → j.val < ncomp s → (∀ i : Fin 3, i < j → ¬BadId s i) → BadId s j →
      LaunchFault s 0x12 (BitVec.ofNat 16 j.val)
  | quant (j : Fin 3) : CountOk s → DimsOk s → IdsOk s → j.val < ncomp s → (∀ i : Fin 3, i < j → SetOk s i) →
      qset s (tqSel s j) = false → LaunchFault s 0x13 (BitVec.ofNat 16 (j.val <<< 8 ||| (tqSel s j).toNat))
  | dc (j : Fin 3) : CountOk s → DimsOk s → IdsOk s → j.val < ncomp s → (∀ i : Fin 3, i < j → SetOk s i) →
      qset s (tqSel s j) = true → dcset s (tdSel s j) = false →
      LaunchFault s 0x14 (BitVec.ofNat 16 (j.val <<< 8 ||| (tdSel s j).toNat))
  | ac (j : Fin 3) : CountOk s → DimsOk s → IdsOk s → j.val < ncomp s → (∀ i : Fin 3, i < j → SetOk s i) →
      qset s (tqSel s j) = true → dcset s (tdSel s j) = true → acset s (taSel s j) = false →
      LaunchFault s 0x15 (BitVec.ofNat 16 (j.val <<< 8 ||| (taSel s j).toNat))
  | dcTable (j : Fin 3) (off : Nat → Nat) : CountOk s → DimsOk s → IdsOk s →
      (∀ i : Fin 3, i.val < ncomp s → SetOk s i) → j.val < ncomp s → (∀ i : Fin 3, i < j → TablesOk s i) →
      OffsetsBad s .dc (tdSel s j) off → LaunchFault s 0x16 (BitVec.ofNat 16 (j.val <<< 8 ||| (tdSel s j).toNat))
  | acTable (j : Fin 3) (good off : Nat → Nat) : CountOk s → DimsOk s → IdsOk s →
      (∀ i : Fin 3, i.val < ncomp s → SetOk s i) → j.val < ncomp s → (∀ i : Fin 3, i < j → TablesOk s i) →
      OffsetsAre s .dc (tdSel s j) good → OffsetsBad s .ac (taSel s j) off →
      LaunchFault s 0x16 (BitVec.ofNat 16 (j.val <<< 8 ||| 0x10 ||| (taSel s j).toNat))
  | capacity (cap : Nat) : CountOk s → DimsOk s → IdsOk s → (∀ i : Fin 3, i.val < ncomp s → SetOk s i) →
      (∀ i : Fin 3, i.val < ncomp s → TablesOk s i) → s.params.coefCap = some cap → cap < nMcu s →
      LaunchFault s 0x51 0

/-! Reference for RECON (spec R252, R253, R269, R271, R291, R292): direct formulas over what the memories list. -/

abbrev Listed {α : Type} (m : Memory α) (a : Nat) : Prop := (Memory.get? m a).isSome = true

abbrev CoefListed (s : State) (m ch : Nat) : Prop := ∀ n, n < 64 → Listed s.coef (coefIndex m ch n)

abbrev QuantListed (s : State) (t : BitVec 2) : Prop := ∀ n, n < 64 → Listed s.qtab (64 * t.toNat + n)

/-- The coefficient listed, as a signed number. -/
def coefInt (s : State) (m ch n : Nat) : Int := ((Memory.get? s.coef (coefIndex m ch n)).getD 0).toInt

/-- The quantization entry listed, as an unsigned number. -/
def quantNat (s : State) (t : BitVec 2) (n : Nat) : Nat := ((Memory.get? s.qtab (64 * t.toNat + n)).getD 0).toNat

/-- The dequantized coefficient listed, as a signed number. -/
def dqInt (s : State) (n : Nat) : Int := ((Memory.get? s.dq n).getD 0).toInt

/-- The 64-term sum of the inverse transform at row `y`, column `x`, one rounding, level shift and clamp (spec R269, R271). -/
def sampleOf (dq : Nat → Int) (y x : Nat) : Byte :=
  BitVec.ofInt 8 (clamp
    (fdiv (sum8 (fun v => sum8 fun u => idctM y v * idctM x u * dq (8 * v + u)) + 2 ^ 25) (2 ^ 26) + 128) 0 255)

/-- The quantization table of channel `ch` (spec R253). -/
def channelTable (s : State) (ch : Nat) : BitVec 2 :=
  if cid s 0 = ch + 1 then tqSel s 0 else if cid s 1 = ch + 1 then tqSel s 1 else tqSel s 2

/-- The sample of channel `ch` of MCU `m` at row `y`, column `x`. -/
def referenceSample (s : State) (m ch y x : Nat) : Byte :=
  sampleOf (fun n => coefInt s m ch (zzTable.idxOf n) * quantNat s (channelTable s ch) n) y x

/-- Pixel `n` of MCU `m`. -/
def referencePixel (s : State) (m n : Nat) : Rgb :=
  if ncomp s = 3 then
    yccToRgb (referenceSample s m 0 (n / 8) (n % 8)) (referenceSample s m 1 (n / 8) (n % 8))
      (referenceSample s m 2 (n / 8) (n % 8))
  else grayToRgb (referenceSample s m 0 (n / 8) (n % 8))

/-! Runs. -/

/-- `n` steps of the machine. -/
def steps (n : Nat) (s : State) : Host.Outcome State Fault Refusal := Host.Core.run Sys2Proof.core n s

/-- The host's next action is due and is `e`. -/
def Due (s : State) (e : HostEvent) : Prop := ∃ rest, s.hostq = (0, e) :: rest

/-- Rank of a phase in the order of a run (spec R23). -/
def phaseRank : Phase → Nat
  | .scan => 1
  | .entropy => 2
  | .recon => 3
  | .none => 4

/-! Invariants: what every step keeps, from every state that has it. -/

/-- Every memory is in its canonical form, and reserved register bits are 0 (spec R30). -/
structure Canonical (s : State) : Prop where
  qtab : Memory.wf s.qtab = true
  hoff : Memory.wf s.hoff = true
  hsym : Memory.wf s.hsym = true
  clean : Memory.wf s.clean = true
  coef : Memory.wf s.coef = true
  dq : Memory.wf s.dq = true
  t : Memory.wf s.t = true
  out : Memory.wf s.out = true
  samp : Memory.wf s.samp = true
  rgb : Memory.wf s.rgb = true
  pix : Memory.wf s.pix = true
  pixOld : Memory.wf s.pixOld = true
  irqen : s.irqen &&& irqenMask = s.irqen
  framecfg : s.framecfg &&& framecfgMask = s.framecfg
  scancomp : ∀ j : Fin 3, scancompOf s j &&& scancompMask = scancompOf s j
  tabset : s.tabset &&& tabsetMask = s.tabset

/-- The position belongs to the phase and the counters are in range (spec R23, R26, R58). -/
def PositionOk (s : State) : Prop :=
  match s.phase with
  | .none => s.upc = .idle
  | .scan => s.upc = .token ∧ s.cleanlen.toNat ≤ s.ip.toNat
  | .entropy =>
    s.mcu.toNat < nMcu s ∧ s.slot.val < ncomp s ∧
      (s.upc = .restartDue ∨ (s.upc = .code ∨ s.upc = .symbol) ∧ s.k.toNat ≤ 63)
  | .recon =>
    s.mcu.toNat < nMcu s ∧
      ((∃ ch : Fin 3, ch.val < ncomp s ∧ (s.upc = .dequant ch ∨ s.upc = .idct ch)) ∨
        ∃ i : Fin 64, s.upc = .colour i ∨ s.upc = .store i)

/-- The run invariant: `phase` is NONE exactly when STATE is not BUSY (spec R23), a run in progress has a launch that passed
the checks on count, dimensions and ids (spec R143) and has taken the sequence at the input port (log 19), its position is legal, and the
bit cursor is not past the clean bytes (spec R170). -/
structure RunInv (s : State) : Prop where
  phase : s.state = .busy ↔ s.phase ≠ .none
  launch : s.state = .busy → CountOk s ∧ DimsOk s ∧ IdsOk s
  input : s.state = .busy → s.inputFresh = false
  position : PositionOk s
  cursor : bitPos s ≤ 8 * s.cleanlen.toNat

/-- All 64 coefficients of the block of slot `j` of MCU `m` are written. -/
abbrev BlockWritten (s : State) (m : Nat) (j : Fin 3) : Prop := CoefListed s m (cid s j - 1)

/-- What a run has written before it reads it (spec R60, U1). -/
structure Written (s : State) : Prop where
  clean : ∀ a, a < s.cleanlen.toNat → Listed s.clean a
  entropy : s.phase = .entropy → ∀ m j, j.val < ncomp s →
    (m < s.mcu.toNat ∨ m = s.mcu.toNat ∧ s.upc ≠ .restartDue ∧ j ≤ s.slot) → BlockWritten s m j
  recon : s.phase = .recon → ∀ m j, j.val < ncomp s → m < nMcu s → BlockWritten s m j
  dq : ∀ ch, s.upc = .idct ch → ∀ n, n < 64 → Listed s.dq n
  samp : ∀ ch c : Fin 3, s.upc = .dequant ch ∨ s.upc = .idct ch → c < ch → ∀ n, n < 64 → Listed s.samp (64 * c.val + n)
  pixels : ∀ i : Fin 64, s.upc = .colour i → ∀ c n, c < ncomp s → n < 64 → Listed s.samp (64 * c + n)
  rgb : ∀ i : Fin 64, s.upc = .colour i → ∀ c n, c < 3 → n < i.val → Listed s.rgb (64 * c + n)
  stores : ∀ i : Fin 64, s.upc = .store i → ∀ c n, c < 3 → n < 64 → Listed s.rgb (64 * c + n)

end Sys2Proof.Machine
end

