-- ==== Sys2Proof/Certificates/Slice0/Obligations.lean ====
section
/-! DEFINITION. The statements about the model, for the provers. A statement's docstring names the rules it formalises; where a
clause rests on the model's own choice it names the log entry. -/

open Sys2Proof Sys2Proof.Machine

/-! ## Encoding and the step -/

/-- Decoding the encoding of a well-formed instruction gives it back, for every format but HC (spec R100 to R103, R107 to
R109). -/
def Obligations.DecodeEncode : Prop :=
  ∀ (i : Instr) (f : Format) (cnt : Nat → Int) (nbits w : Nat),
    i.wellFormed = true → i.format = some f → f ≠ .hc → encode i = some (nbits, w) → decode cnt f nbits w = .instr i

/-- The same for format HC: the bits of a code word of a table with `cnt len` code words of each length decode to it, whatever
bits follow (spec R104, R105). -/
def Obligations.DecodeEncodeCode : Prop :=
  ∀ (cnt : Nat → Int) (len : BitVec 5) (code : BitVec 16) (rest : List Bool) (nbits w : Nat),
    (∀ n, 0 ≤ cnt n) → (Instr.hc len code).wellFormed = true →
    firstCode cnt len.toNat ≤ code.toNat → (code.toNat : Int) < firstCode cnt len.toNat + cnt len.toNat →
    encode (.hc len code) = some (nbits, w) →
      decode cnt .hc nbits w = .instr (.hc len code) ∧ decodeCode cnt (bitsOf nbits w ++ rest) = .instr (.hc len code)

/-- The other direction: what is decoded is well formed, belongs to the format it was read in, and its encoding is the first
bits of what was read (spec R100 to R109). -/
def Obligations.EncodeDecode : Prop :=
  ∀ (f : Format) (cnt : Nat → Int) (nbits w : Nat) (i : Instr),
    w < 2 ^ nbits → decode cnt f nbits w = .instr i →
      i.wellFormed = true ∧ i.format = some f ∧
        ∃ n v, encode i = some (n, v) ∧ n ≤ nbits ∧ w / 2 ^ (nbits - n) = v

/-- Words written out from the spec's tables decode to what they stand for (spec R100 to R103, R106 to R109). -/
def Obligations.HandWrittenWords : Prop :=
  decodeCmd 0b00000000000000000000000000000001 = .start ∧
  decodeCmd 0b00000000000000000000000000000010 = .clear ∧
  decodeToken [0b10100000, 0b00011111] = .data 0xA0 ∧
  decodeToken [0b11111111, 0b00000000] = .stuff ∧
  decodeToken [0b11111111, 0b11010011] = .rstN 3 ∧
  decodeToken [0b11111111, 0b11011001] = .eoi ∧
  decodeToken [0b11111111, 0b11111111] = .fill ∧
  decodeToken [0b11111111, 0b11000100] = .badmark 0xC4 ∧
  decodeToken [0b11111111] = .endin ∧
  decodeCode (fun n => if 1 ≤ n ∧ n ≤ 4 then 1 else 0) [true, true, true, false] = .instr (.hc 4 0b1110) ∧
  decodeDcSym 0b00001000 = .dc8 ∧
  decodeDcSym 0b00001100 = .dcbad 0x0C ∧
  decodeAcSym 0b00000000 = .eob ∧
  decodeAcSym 0b11110000 = .zrl ∧
  decodeAcSym 0b00010010 = .acrs 1 2 ∧
  decodeAcSym 0b00110000 = .acr0 3 ∧
  decodeXb 3 0b010 = .instr (.xb 3 2)

/-- While BUSY, with no host action due, a step performs the instruction that stands at the position of the run, and then the
loops of the pseudocode go on (`sequence`); where the input port has not delivered the token and has not signalled the end, a
step changes nothing; a host action that is not due only comes one step nearer (spec R103, R105, R149, R229, R232, R299, R385;
step granularity and host queue: log 6, log 7). -/
def Obligations.StepRunsInstruction : Prop :=
  (∀ (s : State) (n : Nat) (e : HostEvent) (rest : List (Nat × HostEvent)), s.hostq = (n + 1, e) :: rest →
    step s = runStep { s with hostq := (n, e) :: rest }) ∧
  (∀ s : State, s.hostq = [] → step s = runStep s) ∧
  ∀ s : State, s.state = .busy →
    (s.phase = .scan → s.inputEnd = false →
      s.input.drop s.ip.toNat = [] ∨ s.input.drop s.ip.toNat = [0xFF] → runStep s = .next s) ∧
    (s.phase = .scan → s.inputEnd = true ∨ s.input.drop s.ip.toNat ≠ [] ∧ s.input.drop s.ip.toNat ≠ [0xFF] →
      s.params.grain ≠ .phase →
      runStep s = thenDo (exec (decodeToken (s.input.drop s.ip.toNat)) s)
        (sequence (decodeToken (s.input.drop s.ip.toNat)))) ∧
    (s.phase = .scan → s.inputEnd = true ∨ s.input.drop s.ip.toNat ≠ [] ∧ s.input.drop s.ip.toNat ≠ [0xFF] →
      s.params.grain = .phase → runStep s = thenDo (exec .scan s) (sequence .scan)) ∧
    (s.phase = .entropy → s.upc = .restartDue → runStep s = thenDo (exec .restart s) (sequence .restart)) ∧
    (∀ i, s.phase = .entropy → s.upc = .code → s.params.grain = .unit →
      decodeCode (codeCount s (selectedTable s).1 (selectedTable s).2) (peekBits 16 s) = .instr i →
        runStep s = thenDo (exec i s) (sequence i)) ∧
    (∀ r, s.phase = .entropy → s.upc = .code → s.params.grain = .unit →
      decodeCode (codeCount s (selectedTable s).1 (selectedTable s).2) (peekBits 16 s) = .reject r →
        runStep s = thenDo (exec (.huffdec (selectedTable s).1 (selectedTable s).2) s)
          (sequence (.huffdec (selectedTable s).1 (selectedTable s).2))) ∧
    (s.phase = .entropy → s.upc = .symbol → s.k = 0 →
      runStep s = thenDo (exec (decodeDcSym s.sym) s) (sequence (decodeDcSym s.sym))) ∧
    (s.phase = .entropy → s.upc = .symbol → s.k ≠ 0 →
      runStep s = thenDo (exec (decodeAcSym s.sym) s) (sequence (decodeAcSym s.sym))) ∧
    (∀ ch tq, s.phase = .recon → s.upc = .dequant ch → s.params.grain = .unit → tqOf s ch = some tq →
      runStep s = thenDo (exec (.dequant s.mcu ch tq) s) (sequence (.dequant s.mcu ch tq))) ∧
    (∀ ch, s.phase = .recon → s.upc = .idct ch → runStep s = thenDo (exec (.idct ch) s) (sequence (.idct ch))) ∧
    (∀ i : Fin 64, s.phase = .recon → s.upc = .colour i → ncomp s ≠ 3 →
      runStep s = thenDo (exec (.gray (sampAt s 0 i.val)) s) (sequence (.gray (sampAt s 0 i.val)))) ∧
    (∀ i : Fin 64, s.phase = .recon → s.upc = .colour i → ncomp s = 3 →
      runStep s = thenDo (exec (.ycc2rgb (sampAt s 0 i.val) (sampAt s 1 i.val) (sampAt s 2 i.val)) s)
        (sequence (.ycc2rgb (sampAt s 0 i.val) (sampAt s 1 i.val) (sampAt s 2 i.val)))) ∧
    (∀ i : Fin 64, s.phase = .recon → s.upc = .store i →
      runStep s = thenDo (exec (.storepix s.mcu i (rgbAt s 0 i.val) (rgbAt s 1 i.val) (rgbAt s 2 i.val)) s)
        (sequence (.storepix s.mcu i (rgbAt s 0 i.val) (rgbAt s 1 i.val) (rgbAt s 2 i.val))))

/-- What the host can do: a port write is the command word where it goes to CMD, a port read, attaching the input outside a
run, delivering more of it until the end is signalled; and without a host action a core that is not BUSY does nothing (spec R32,
R140, R145, R355, R375, R385; log 6, log 14, log 19). -/
def Obligations.HostActions : Prop :=
  (∀ (s : State) (rest : List (Nat × HostEvent)) (v : Word),
    step { s with hostq := (0, .write 1 v) :: rest } = exec (decodeCmd v) { s with hostq := rest }) ∧
  (∀ (s : State) (rest : List (Nat × HostEvent)) (a : Fin 3072) (v : Word), a ≠ 1 →
    step { s with hostq := (0, .write a v) :: rest } = exec (.write a v) { s with hostq := rest }) ∧
  (∀ (s : State) (rest : List (Nat × HostEvent)) (a : Fin 3072),
    step { s with hostq := (0, .read a) :: rest } = exec (.read a) { s with hostq := rest }) ∧
  (∀ (s : State) (rest : List (Nat × HostEvent)) (bytes : List Byte) (last : Bool), s.state ≠ .busy →
    step { s with hostq := (0, .attach bytes last) :: rest } =
      .next { s with hostq := rest, input := bytes, inputEnd := last, inputFresh := true }) ∧
  (∀ (s : State) (rest : List (Nat × HostEvent)) (bytes : List Byte) (last : Bool), s.state = .busy →
    step { s with hostq := (0, .attach bytes last) :: rest } = .refused .inputChangedDuringRun) ∧
  (∀ (s : State) (rest : List (Nat × HostEvent)) (bytes : List Byte) (last : Bool), s.inputEnd = false →
    step { s with hostq := (0, .deliver bytes last) :: rest } =
      .next { s with hostq := rest, input := s.input ++ bytes, inputEnd := last }) ∧
  (∀ (s : State) (rest : List (Nat × HostEvent)) (bytes : List Byte) (last : Bool), s.inputEnd = true →
    step { s with hostq := (0, .deliver bytes last) :: rest } = .refused .inputAfterEnd) ∧
  (∀ s : State, s.state ≠ .busy → s.hostq = [] → step s = .next s) ∧
  (∀ (s : State) (rest : List (Nat × HostEvent)) (n : Nat) (e : HostEvent), s.state ≠ .busy →
    step { s with hostq := (n + 1, e) :: rest } = .next { s with hostq := (n, e) :: rest })

/-! ## Commands, the register port, reset -/

/-- START outside a run, when every check passes: cursors, counters, predictors and error registers are cleared and the run
begins in SCAN with the sequence attached since the last run began, or, where none was, with one of which nothing is delivered
yet: no byte of an earlier input is read; nothing else changes (spec R77, R142, R143, R345, R371, R379; the counter `draws` and
the position are the model's, log 5, log 7; input port: log 19). -/
def Obligations.StartAccepted : Prop :=
  ∀ s : State, s.state ≠ .busy → LaunchOk s →
    exec .start s = .next
      { s with
        errcode := 0
        errpos := 0
        errval := 0
        errmcu := 0
        errblk := 0
        ip := 0
        bp := 0
        bi := 0
        mcu := 0
        slot := 0
        k := 0
        cleanlen := 0
        mcucnt := 0
        dcpred := #v[0, 0, 0]
        input := if s.inputFresh then s.input else []
        inputEnd := s.inputFresh && s.inputEnd
        inputFresh := false
        state := .busy
        phase := .scan
        upc := .token
        draws := s.draws + 1 }

/-- START outside a run, when a check fails: the first that fails decides code and value, STATE goes to ERROR without a run,
and nothing but the registers START clears, the error registers and STATE changes; and whatever the tables hold, START ends in
BUSY or in ERROR (spec R142 to R144, R321, R322, R324; the counter `draws` and the position: log 5, log 7; the input port is left
alone, log 19). -/
def Obligations.StartRefused : Prop :=
  (∀ (s : State) (code : BitVec 8) (val : BitVec 16), s.state ≠ .busy → LaunchFault s code val →
    exec .start s = .next
      { s with
        errcode := code
        errpos := 0
        errval := val
        errmcu := 0
        errblk := 0
        ip := 0
        bp := 0
        bi := 0
        mcu := 0
        slot := 0
        k := 0
        cleanlen := 0
        mcucnt := 0
        dcpred := #v[0, 0, 0]
        state := .error
        phase := .none
        upc := .idle
        draws := s.draws + 1 }) ∧
  ∀ s : State, s.state ≠ .busy → ∃ u, exec .start s = .next u ∧ (u.state = .busy ∨ u.state = .error) ∧
    u.ip = 0 ∧ u.pix = s.pix ∧ u.wign = s.wign ∧ u.irqen = s.irqen

/-- CLEAR (spec R146): outside a run it writes STATE, phase, WIGN, error registers, cursors, counters and predictors and
nothing else, and the interrupt output falls; while BUSY it is refused. The fields `upc` and `draws` of the model's own are left
open. -/
def Obligations.ClearCommand : Prop :=
  (∀ s : State, s.state = .busy → exec .clear s = .next { s with wign := true }) ∧
  ∀ s : State, s.state ≠ .busy →
    ∃ u, exec .clear s = .next u ∧ irq u = false ∧
      u = { s with
        state := .idle
        phase := .none
        wign := false
        errcode := 0
        errpos := 0
        errval := 0
        errmcu := 0
        errblk := 0
        ip := 0
        bp := 0
        bi := 0
        mcu := 0
        slot := 0
        k := 0
        cleanlen := 0
        mcucnt := 0
        dcpred := #v[0, 0, 0]
        upc := u.upc
        draws := u.draws }

/-- A reserved command in every state, and START while BUSY, change nothing but WIGN (spec R147, R148). -/
def Obligations.CommandsIgnored : Prop :=
  (∀ (v : Word) (s : State), exec (.cmdReserved v) s = .next { s with wign := true }) ∧
  (∀ s : State, s.state = .busy → exec .start s = .next { s with wign := true }) ∧
  ∀ v : Word, v ≠ 1 → v ≠ 2 → decodeCmd v = .cmdReserved v

/-- A port write, register by register, by word index (a quarter of the byte offset): read-only and reserved words and every
word but CMD while BUSY only set WIGN; a writable word takes the bits that exist (spec R30, R34, R40 to R43, R49, R53, R140,
R141). -/
def Obligations.WriteRegister : Prop :=
  ∀ (a : Fin 3072) (v : Word) (s : State),
    ((a.val = 0 ∨ a.val = 2 ∨ 4 ≤ a.val ∧ a.val ≤ 8 ∨ 15 ≤ a.val ∧ a.val < 256 ∨ 768 ≤ a.val ∧ a.val < 1024 ∨
        512 ≤ a.val ∧ a.val < 768 ∧ 17 ≤ (a.val - 512) % 32 ∨ 1024 ≤ a.val ∧ 162 ≤ (a.val - 1024) % 256) →
      exec (.write a v) s = .next { s with wign := true }) ∧
    (a.val = 1 → exec (.write a v) s = exec (decodeCmd v) s) ∧
    (a.val ≠ 1 → s.state = .busy → exec (.write a v) s = .next { s with wign := true }) ∧
    (s.state ≠ .busy →
      (a.val = 3 → exec (.write a v) s = .next { s with irqen := v &&& 0x00000003 }) ∧
      (a.val = 9 → exec (.write a v) s = .next { s with framedim := v }) ∧
      (a.val = 10 → exec (.write a v) s = .next { s with framecfg := v &&& 0xFFFF0007 }) ∧
      (∀ j : Fin 3, a.val = 11 + j.val →
        exec (.write a v) s = .next { s with scancomp := s.scancomp.set j (v &&& 0x00003333) }) ∧
      (a.val = 14 → exec (.write a v) s = .next { s with tabset := v &&& 0x000F0F0F }) ∧
      (256 ≤ a.val → a.val < 512 →
        exec (.write a v) s = .next { s with qtab := Memory.set s.qtab (a.val - 256) (v.setWidth 16) }) ∧
      (512 ≤ a.val → a.val < 768 → (a.val - 512) % 32 < 17 →
        exec (.write a v) s = .next { s with hoff := Memory.set s.hoff (a.val - 512) (v.setWidth 8) }) ∧
      (1024 ≤ a.val → (a.val - 1024) % 256 < 162 →
        exec (.write a v) s = .next { s with hsym := Memory.set s.hsym (a.val - 1024) (v.setWidth 8) }))

/-- A port read latches the word and changes nothing of the core (spec R31 to R53, R145; the latch and the counter `draws` are
the model's, log 4, log 5). Reserved words and CMD read 0; an entry of a table reads as written. -/
def Obligations.ReadRegister : Prop :=
  ∀ (a : Fin 3072) (s : State),
    ∃ v : Word, exec (.read a) s = .next { s with rdata := v, draws := s.draws + 1 } ∧
      (a.val = 0 → v = 0x4A444331) ∧
      (a.val = 1 → v = 0) ∧
      (a.val = 3 → v = s.irqen &&& 0x00000003) ∧
      (a.val = 4 → v = s.errcode.setWidth 32) ∧
      (a.val = 5 → v = s.errpos) ∧
      (a.val = 6 → v = s.errval.setWidth 32) ∧
      (a.val = 7 → v = s.errmcu) ∧
      (a.val = 8 → v = s.errblk) ∧
      (a.val = 9 → v = s.framedim) ∧
      (a.val = 10 → v = s.framecfg &&& 0xFFFF0007) ∧
      (∀ j : Fin 3, a.val = 11 + j.val → v = s.scancomp[j] &&& 0x00003333) ∧
      (a.val = 14 → v = s.tabset &&& 0x000F0F0F) ∧
      (a.val = 15 → v = s.ip) ∧
      (a.val = 16 → v = s.cleanlen) ∧
      (a.val = 17 → v = s.mcucnt) ∧
      (a.val = 18 → v = s.bp) ∧
      (a.val = 19 → v = s.bi.setWidth 32) ∧
      (∀ c : Fin 3, a.val = 20 + c.val → v = s.dcpred[c].signExtend 32) ∧
      (23 ≤ a.val ∧ a.val < 256 ∨ 768 ≤ a.val ∧ a.val < 1024 → v = 0) ∧
      (∀ x, 256 ≤ a.val → a.val < 512 → Memory.get? s.qtab (a.val - 256) = some x → v = x.setWidth 32) ∧
      (∀ x, 512 ≤ a.val → a.val < 768 → (a.val - 512) % 32 < 17 → Memory.get? s.hoff (a.val - 512) = some x →
        v = x.setWidth 32) ∧
      (512 ≤ a.val → a.val < 768 → 17 ≤ (a.val - 512) % 32 → v = 0) ∧
      (∀ x, 1024 ≤ a.val → (a.val - 1024) % 256 < 162 → Memory.get? s.hsym (a.val - 1024) = some x →
        v = x.setWidth 32) ∧
      (1024 ≤ a.val → 162 ≤ (a.val - 1024) % 256 → v = 0)

/-- The interrupt output is high exactly in DONE with IE_DONE set and in ERROR with IE_ERR set (spec R340). -/
def Obligations.InterruptLevel : Prop :=
  ∀ s : State, irq s = true ↔
    s.state = .done ∧ s.irqen.getLsbD 0 = true ∨ s.state = .error ∧ s.irqen.getLsbD 1 = true

/-- STATUS: STATE in bits 1:0, WIGN in bit 4, the interrupt output in bit 8, every other bit 0 (spec R21, R33). -/
def Obligations.StatusRegister : Prop :=
  ∀ s : State, ∃ v : Word, exec (.read 2) s = .next { s with rdata := v, draws := s.draws + 1 } ∧
    (s.state = .idle → v.extractLsb' 0 2 = 0) ∧ (s.state = .busy → v.extractLsb' 0 2 = 1) ∧
    (s.state = .done → v.extractLsb' 0 2 = 2) ∧ (s.state = .error → v.extractLsb' 0 2 = 3) ∧
    v.getLsbD 4 = s.wign ∧ v.getLsbD 8 = irq s ∧
    ∀ n, n = 2 ∨ n = 3 ∨ 5 ≤ n ∧ n ≤ 7 ∨ 9 ≤ n → v.getLsbD n = false

/-- The registers after reset (spec R59), and the reset input in any state: every register takes its reset value, a run is
abandoned without fault entry, the input port is not touched, and PIX is not written but in the RECON phase, where each byte of
the image has its old value or the one RECON stores (spec R370, R371, U4). The transients, `acc`, the latches and `draws` are
left open. That the table and data memories count as unwritten afterwards is the model's reading of R60 (log 2); which byte is
old is a free value (log 8); the input port: log 19. -/
def Obligations.ResetValues : Prop :=
  (State.reset.state = .idle ∧ State.reset.wign = false ∧ State.reset.irqen = 0 ∧ State.reset.phase = .none ∧
    State.reset.ip = 0 ∧ State.reset.bp = 0 ∧ State.reset.bi = 0 ∧ State.reset.mcu = 0 ∧ State.reset.slot = 0 ∧
    State.reset.k = 0 ∧ State.reset.dcpred = #v[0, 0, 0] ∧ State.reset.errcode = 0 ∧ State.reset.errpos = 0 ∧
    State.reset.errval = 0 ∧ State.reset.errmcu = 0 ∧ State.reset.errblk = 0 ∧ State.reset.framedim = 0 ∧
    State.reset.framecfg = 0 ∧ State.reset.scancomp = #v[0, 0, 0] ∧ State.reset.tabset = 0 ∧
    State.reset.cleanlen = 0 ∧ State.reset.mcucnt = 0) ∧
  ∀ (s : State) (rest : List (Nat × HostEvent)),
    ∃ u, step { s with hostq := (0, .reset) :: rest } = .next u ∧
      u = { State.reset with
        pix := u.pix
        input := s.input
        inputEnd := s.inputEnd
        inputFresh := s.inputFresh
        params := s.params
        hostq := rest
        code := u.code
        first := u.first
        len := u.len
        acc := u.acc
        sym := u.sym
        raw := u.raw
        ext := u.ext
        bitOut := u.bitOut
        pixel := u.pixel
        rdata := u.rdata
        draws := u.draws } ∧
      (s.state ≠ .busy ∨ s.phase ≠ .recon → u.pix = s.pix) ∧
      (∀ a, 3 * width s * height s ≤ a → Memory.get? u.pix a = Memory.get? s.pix a) ∧
      ∀ v, s.state = .busy → s.phase = .recon → exec .recon { s with hostq := rest } = .next v →
        ∀ a, a < 3 * width s * height s →
          Memory.get? u.pix a = Memory.get? s.pixOld a ∨ Memory.get? u.pix a = Memory.get? v.pix a

/-! ## Faults -/

/-- Fault entry (spec R330) with the codes of spec R321: the error registers, `phase` and STATE are written, and nothing else
of the core. The fields `upc` and `draws` of the model's own are left open. -/
def Obligations.FaultEntry : Prop :=
  (∀ (c : Cause) (pos : Word) (val : BitVec 16) (s : State),
    ∃ u, (raise c pos val s : Flow Unit) = .ended u ∧
      u = { s with
        errcode := causeCode c
        errpos := pos
        errval := val
        errmcu := if s.phase = .entropy then s.mcu else 0
        errblk :=
          if s.phase = .entropy then
            (s.bi.setWidth 32 <<< 16) ||| (s.k.setWidth 32 <<< 8) ||| BitVec.ofNat 32 s.slot.val
          else 0
        phase := .none
        state := .error
        upc := u.upc
        draws := u.draws }) ∧
  causeCode .cfgNcomp = 0x10 ∧ causeCode .cfgDim = 0x11 ∧ causeCode .cfgCompid = 0x12 ∧ causeCode .cfgQunset = 0x13 ∧
  causeCode .cfgDcunset = 0x14 ∧ causeCode .cfgAcunset = 0x15 ∧ causeCode .cfgHtable = 0x16 ∧
  causeCode .unsupCmyk = 0x20 ∧ causeCode .trunc = 0x30 ∧ causeCode .underrun = 0x31 ∧ causeCode .badMarker = 0x40 ∧
  causeCode .huffCode = 0x41 ∧ causeCode .dcCat = 0x42 ∧ causeCode .acOverrun = 0x43 ∧ causeCode .capClean = 0x50 ∧
  causeCode .capCoef = 0x51

/-- The instructions whose effect is a fault: BADMARK, ENDIN, DCBAD (spec R167, R168, R222); and where the model refuses
BADMARK and ENDIN instead, the position being past 32 bits (spec R24, U9; log 13). What a fault does to `upc` and `draws`: log 5,
log 7. -/
def Obligations.FaultingUnits : Prop :=
  (∀ (m : Byte) (s : State), s.ip.toNat + 1 < 2 ^ 32 →
    exec (.badmark m) s = .next (faulted 0x40 (s.ip + 1) (m.setWidth 16) s)) ∧
  (∀ s : State, s.input.length < 2 ^ 32 →
    exec .endin s = .next (faulted 0x30 (BitVec.ofNat 32 s.input.length) 0 s)) ∧
  (∀ (y : Byte) (s : State), exec (.dcbad y) s = .next (faulted 0x42 s.bp (y.setWidth 16) s)) ∧
  (∀ (m : Byte) (s : State), 2 ^ 32 ≤ s.ip.toNat + 1 → exec (.badmark m) s = .refused .inputCursorOverflow) ∧
  ∀ s : State, 2 ^ 32 ≤ s.input.length → exec .endin s = .refused .inputCursorOverflow

/-- Data that ends where a bit is needed: NEXTBIT, RECEIVE and HUFFDEC fault with E_UNDERRUN at the end of the clean bytes, the
bits taken before it stay taken (spec R170, R171, R192, R325, R331; the latch, `draws` and `upc`: log 4, log 5, log 7). -/
def Obligations.Underrun : Prop :=
  (∀ s : State, s.cleanlen.toNat ≤ s.bp.toNat → exec .nextbit s = .next (faulted 0x31 s.bp 0 s)) ∧
  (∀ (s : State) (n : BitVec 4) (w : List Bool), w.length < n.toNat → BitsAt s (bitPos s) w →
    bitPos s + w.length = 8 * s.cleanlen.toNat →
      exec (.receive n) s = .next (faulted 0x31 s.cleanlen 0 (consume w s))) ∧
  ∀ (s : State) (c : HClass) (t : BitVec 2) (off : Nat → Nat) (w : List Bool), OffsetsAre s c t off →
    w.length < 16 → BitsAt s (bitPos s) w → bitPos s + w.length = 8 * s.cleanlen.toNat → NoPrefix off w →
      exec (.huffdec c t) s = .next (faulted 0x31 s.cleanlen 0
        { consume w s with
          len := BitVec.ofNat 5 (w.length + 1)
          first := BitVec.ofNat 25 (firstWord off (w.length + 1))
          code := BitVec.ofNat 16 (bitsValue w) })

/-- Sixteen bits of which no prefix is a code word: HUFFDEC faults with E_HUFF_CODE after the sixteenth, the last shift of `first`
done (spec R192, R193, R194 (b), R331; the latch, `draws` and `upc`: log 4, log 5, log 7). -/
def Obligations.InvalidCode : Prop :=
  ∀ (s : State) (c : HClass) (t : BitVec 2) (off : Nat → Nat) (w : List Bool), OffsetsAre s c t off →
    w.length = 16 → BitsAt s (bitPos s) w → NoPrefix off w →
      exec (.huffdec c t) s = .next (faulted 0x41 (BitVec.ofNat 32 ((bitPos s + 16) / 8)) (BitVec.ofNat 16 (bitsValue w))
        { consume w s with
          len := 16
          first := BitVec.ofNat 25 (firstWord off 17)
          code := BitVec.ofNat 16 (bitsValue w) })

/-- A run that would leave the block: ZRL, ACRS and ACR0 fault with E_AC_OVERRUN before any extra bit is taken (spec R228;
`draws` and `upc`: log 5, log 7). -/
def Obligations.AcOverrun : Prop :=
  ∀ s : State,
    (63 < s.k.toNat + 15 → exec .zrl s = .next (faulted 0x43 s.bp 0x00F0 s)) ∧
    (∀ r n : BitVec 4, 63 < s.k.toNat + r.toNat →
      exec (.acrs r n) s = .next (faulted 0x43 s.bp ((r ++ n).setWidth 16) s)) ∧
    ∀ r : BitVec 4, 63 < s.k.toNat + r.toNat →
      exec (.acr0 r) s = .next (faulted 0x43 s.bp ((r ++ 0#4).setWidth 16) s)

/-- Where the model stops: a DC symbol, an AC coefficient or a block of a slot whose component id is 0, which no launch has (the
model's stop `noChannel`, log 15; spec R42, R143 check 3). -/
def Obligations.NoChannelStops : Prop :=
  ∀ s : State,
    (cid s s.slot = 0 →
      (∀ n, exec (dcSymbol n) s = .fault .noChannel) ∧
      (∀ r n : BitVec 4, s.k.toNat + r.toNat ≤ 63 → exec (.acrs r n) s = .fault .noChannel) ∧
      ∀ r : BitVec 4, s.k.toNat + r.toNat ≤ 63 → exec (.acr0 r) s = .fault .noChannel) ∧
    ∀ (m : Word) (j : Fin 3), cid s j = 0 → exec (.decodeBlock m j) s = .fault .noChannel

/-! ## SCAN -/

/-- DATA and STUFF: the clean byte is appended and the token consumed, or the capacity is exceeded and nothing is (spec R161 to
R163; what the fault does to `draws` and `upc`: log 5, log 7). -/
def Obligations.AppendingTokens : Prop :=
  ∀ s : State,
    ((∀ cap, s.params.cleanCap = some cap → s.cleanlen.toNat < cap) →
      (∀ b : Byte, s.ip.toNat + 1 < 2 ^ 32 →
        exec (.data b) s = .next
          { s with clean := Memory.set s.clean s.cleanlen.toNat b, cleanlen := s.cleanlen + 1, ip := s.ip + 1 }) ∧
      (s.ip.toNat + 2 < 2 ^ 32 →
        exec .stuff s = .next
          { s with clean := Memory.set s.clean s.cleanlen.toNat 0xFF, cleanlen := s.cleanlen + 1, ip := s.ip + 2 })) ∧
    ∀ cap, s.params.cleanCap = some cap → cap ≤ s.cleanlen.toNat →
      (∀ b : Byte, exec (.data b) s = .next (faulted 0x50 s.ip 0 s)) ∧ exec .stuff s = .next (faulted 0x50 s.ip 0 s)

/-- RSTn and FILL: only the cursor moves, by two bytes whatever the number of the marker, by one byte of padding (spec R164,
R165). -/
def Obligations.MarkersDropped : Prop :=
  ∀ s : State,
    (∀ n, s.ip.toNat + 2 < 2 ^ 32 → exec (.rstN n) s = .next { s with ip := s.ip + 2 }) ∧
    (s.ip.toNat + 1 < 2 ^ 32 → exec .fill s = .next { s with ip := s.ip + 1 })

/-- EOI: the cursor moves by two bytes and the phase ends (spec R160, R166; the change of phase is counted to EOI, log 26). -/
def Obligations.EoiEndsScan : Prop :=
  ∀ s : State, s.ip.toNat + 2 < 2 ^ 32 → exec .eoi s = .next { s with ip := s.ip + 2, phase := .entropy }

/-- SCAN as a function of a whole sequence: it ends in its result or in a fault; and any bytes, stuffed and followed by EOI, come
out as they were, what follows EOI is not read, and the phase ends (spec R160, R162, R163, R166, R169). -/
def Obligations.ScanDestuffs : Prop :=
  (∀ s : State, s.input.length < 2 ^ 32 → s.inputEnd = true →
    ∃ u, exec .scan s = .next u ∧
      (u.phase = .entropy ∧ u.state = s.state ∨ u.phase = .none ∧ u.state = .error)) ∧
  ∀ (s : State) (bytes rest : List Byte),
    s.input.drop s.ip.toNat = (bytes.flatMap fun b => if b = 0xFF then [0xFF, 0x00] else [b]) ++ [0xFF, 0xD9] ++ rest →
    s.input.length < 2 ^ 32 → s.cleanlen.toNat + bytes.length < 2 ^ 32 →
    (∀ cap, s.params.cleanCap = some cap → s.cleanlen.toNat + bytes.length ≤ cap) →
      exec .scan s = .next
        { s with
          clean := Memory.setRange s.clean s.cleanlen.toNat bytes.length fun n => bytes.getD n 0
          cleanlen := s.cleanlen + BitVec.ofNat 32 bytes.length
          ip := s.ip +
            BitVec.ofNat 32 ((bytes.flatMap fun b => if b = 0xFF then [(0xFF : Byte), 0x00] else [b]).length + 2)
          phase := .entropy }

/-- SCAN as one instruction is the run of its tokens, one step each (spec R160, R392). -/
def Obligations.ScanIsItsTokens : Prop :=
  ∀ s : State, s.state = .busy → s.phase = .scan → s.hostq = [] → s.params.grain ≠ .phase →
    ∃ n, n ≤ s.input.length - s.ip.toNat + 1 ∧ steps n s = thenDo (exec .scan s) (sequence .scan)

/-- SCAN looks at nothing but IN: with other configuration and tables it does the same (spec R160). -/
def Obligations.ScanReadsOnlyInput : Prop :=
  ∀ (s : State) (fd fc ts : Word) (sc : Vector Word 3) (q : Memory (BitVec 16)) (ho hs : Memory Byte),
    exec .scan { s with framedim := fd, framecfg := fc, tabset := ts, scancomp := sc, qtab := q, hoff := ho, hsym := hs } =
      thenDo (exec .scan s) fun u =>
        .next { u with framedim := fd, framecfg := fc, tabset := ts, scancomp := sc, qtab := q, hoff := ho, hsym := hs }

/-! ## Bits and code words -/

/-- The bit primitives on bits that are there: NEXTBIT takes one, RECEIVE and XB take as many as they name, first bit most
significant, and XB extends them (spec R109, R170, R171; the values returned are latched, log 4; XB: log 18). -/
def Obligations.BitPrimitives : Prop :=
  (∀ (s : State) (b : Bool), BitsAt s (bitPos s) [b] → exec .nextbit s = .next (consume [b] s)) ∧
  (∀ (s : State) (n : BitVec 4) (w : List Bool), w.length = n.toNat → BitsAt s (bitPos s) w →
    exec (.receive n) s = .next { consume w s with raw := BitVec.ofNat 15 (bitsValue w) }) ∧
  ∀ (s : State) (n : BitVec 4) (x : BitVec 15), (Instr.xb n x).wellFormed = true →
    BitsAt s (bitPos s) (bitsOf n.toNat x.toNat) →
      exec (.xb n x) s = .next (receivedAs n.toNat x.toNat (consume (bitsOf n.toNat x.toNat) s))

/-- ALIGN moves the cursor to the next byte boundary, does nothing at one, and changes nothing else (spec R172). -/
def Obligations.AlignCursor : Prop :=
  ∀ s : State,
    (s.bi = 0 → exec .align s = .next s) ∧
    (s.bi ≠ 0 → exec .align s = .next { s with bp := s.bp + 1, bi := 0 })

/-- EXTEND (spec R223): its value for every size and field; it fits 16 bits, is not 0 for a size above 0, has exactly `n` bits
of magnitude, and different fields give different values. The value returned is latched (log 4). -/
def Obligations.ExtendValue : Prop :=
  (∀ (s : State) (b : BitVec 15) (n : BitVec 4), (Instr.extend b n).wellFormed = true →
    ∃ v : Int, exec (.extend b n) s = .next { s with ext := BitVec.ofInt 16 v } ∧ (BitVec.ofInt 16 v).toInt = v ∧
      (n = 0 → v = 0) ∧
      (n ≠ 0 → 2 ^ (n.toNat - 1) ≤ b.toNat → v = b.toNat) ∧
      (n ≠ 0 → b.toNat < 2 ^ (n.toNat - 1) → v = b.toNat - (2 ^ n.toNat - 1)) ∧
      (n ≠ 0 → 2 ^ (n.toNat - 1) ≤ v.natAbs ∧ v.natAbs < 2 ^ n.toNat)) ∧
  ∀ (b c : BitVec 15) (n : BitVec 4) (s : State), (Instr.extend b n).wellFormed = true →
    (Instr.extend c n).wellFormed = true → exec (.extend b n) s = exec (.extend c n) s → b = c

/-- HUFFDEC, and HC in the table the sequencer selects, on the canonical code word of a symbol: the symbol comes out and exactly
the code word is consumed (spec R104, R190, R192, R194 (d)). No condition on the other code words of the table is needed. -/
def Obligations.CodeWordDecodes : Prop :=
  (∀ (s : State) (c : HClass) (t : BitVec 2) (y : Byte) (len first code : Nat), CodeWord s c t y len first code →
    BitsAt s (bitPos s) (bitsOf len code) →
      exec (.huffdec c t) s = .next (decodedAs y len first code (consume (bitsOf len code) s))) ∧
  ∀ (s : State) (y : Byte) (len first code : Nat),
    (if s.k = 0 then CodeWord s .dc (tdSel s s.slot) y len first code
      else CodeWord s .ac (taSel s s.slot) y len first code) →
    BitsAt s (bitPos s) (bitsOf len code) →
      exec (.hc (BitVec.ofNat 5 len) (BitVec.ofNat 16 code)) s =
        .next (decodedAs y len first code (consume (bitsOf len code) s))

/-- Where the decoder of format HC finds a code word at the cursor, performing it is HUFFDEC with the table the sequencer
selects, whatever the table holds (spec R104, R105, R192). -/
def Obligations.CodeWordIsHuffdec : Prop :=
  ∀ (s : State) (len : BitVec 5) (code : BitVec 16),
    decodeCode (codeCount s (selectedTable s).1 (selectedTable s).2) (peekBits 16 s) = .instr (.hc len code) →
      exec (.hc len code) s = exec (.huffdec (selectedTable s).1 (selectedTable s).2) s

/-! ## Symbols, blocks, MCUs -/

/-- DC0 to DC11: the extra bits are taken, the predictor of the slot's channel gets their signed value added modulo 2^16, and
the sum is coefficient 0 of the block (spec R27, R221, R223). -/
def Obligations.DcSymbols : Prop :=
  ∀ (s : State) (n : Fin 12) (ch : Fin 3) (w : List Bool), cid s s.slot = ch.val + 1 → w.length = n.val →
    BitsAt s (bitPos s) w →
      exec (dcSymbol n) s = .next
        { receivedAs n.val (bitsValue w) (consume w s) with
          dcpred := s.dcpred.set ch (s.dcpred[ch] + BitVec.ofInt 16 (extendValue (bitsValue w) n.val))
          coef := Memory.set s.coef ((3 * s.mcu.toNat + ch.val) * 64)
            (s.dcpred[ch] + BitVec.ofInt 16 (extendValue (bitsValue w) n.val)) }

/-- EOB, ZRL, ACRS and ACR0 where they fit the block: EOB stores nothing and only leaves the loop (the position is the model's,
log 7), ZRL moves on by 16, ACRS and ACR0 skip the run and store one coefficient (spec R224 to R227). -/
def Obligations.AcSymbols : Prop :=
  ∀ s : State,
    exec .eob s = .next { s with upc := .blockEnd } ∧
    (s.k.toNat ≤ 48 → exec .zrl s = .next { s with k := s.k + 16 }) ∧
    (∀ (r n : BitVec 4) (ch : Fin 3) (w : List Bool), s.k.toNat + r.toNat ≤ 63 → cid s s.slot = ch.val + 1 →
      w.length = n.toNat → BitsAt s (bitPos s) w →
        exec (.acrs r n) s = .next
          { receivedAs n.toNat (bitsValue w) (consume w s) with
            k := BitVec.ofNat 7 (s.k.toNat + r.toNat + 1)
            coef := Memory.set s.coef ((3 * s.mcu.toNat + ch.val) * 64 + s.k.toNat + r.toNat)
              (BitVec.ofInt 16 (extendValue (bitsValue w) n.toNat)) }) ∧
    ∀ (r : BitVec 4) (ch : Fin 3), s.k.toNat + r.toNat ≤ 63 → cid s s.slot = ch.val + 1 →
      exec (.acr0 r) s = .next
        { s with
          raw := 0
          ext := 0
          k := BitVec.ofNat 7 (s.k.toNat + r.toNat + 1)
          coef := Memory.set s.coef ((3 * s.mcu.toNat + ch.val) * 64 + s.k.toNat + r.toNat) 0 }

/-- DECODE_DC on a coded DC unit: code word and extra bits are consumed, the predictor of the channel gets the difference added,
and the sum is coefficient 0 (spec R110, R192, R221; latches: log 4). -/
def Obligations.DecodeDcUnit : Prop :=
  ∀ (s : State) (m : Word) (j ch : Fin 3) (y : Byte) (len first code x : Nat), cid s j = ch.val + 1 →
    CodeWord s .dc (tdSel s j) y len first code → y.toNat ≤ 11 → x < 2 ^ y.toNat →
    BitsAt s (bitPos s) (bitsOf len code ++ bitsOf y.toNat x) →
      exec (.decodeDc m j) s = .next
        { receivedAs y.toNat x (decodedAs y len first code (consume (bitsOf len code ++ bitsOf y.toNat x) s)) with
          dcpred := s.dcpred.set ch (s.dcpred[ch] + BitVec.ofInt 16 (extendValue x y.toNat))
          coef := Memory.set s.coef (coefIndex m.toNat ch.val 0)
            (s.dcpred[ch] + BitVec.ofInt 16 (extendValue x y.toNat)) }

/-- DECODE_AC on coded AC units that fit the block: it consumes exactly their bits, stores the coefficients they stand for and
no other, and leaves `k` where they end (spec R224 to R229). -/
def Obligations.DecodeAcUnits : Prop :=
  ∀ (s : State) (m : Word) (j ch : Fin 3) (us : List AcUnit) (q : Nat), cid s j = ch.val + 1 →
    acFits s.k.toNat us = true → s.k.toNat ≤ 64 → AcAt s (taSel s j) s.k.toNat us (bitPos s) q →
      ∃ u, exec (.decodeAc m j) s = .next u ∧
        bitPos u = q ∧ u.k.toNat = acEnd s.k.toNat us ∧
        (∀ n, n < 64 → Memory.get? u.coef (coefIndex m.toNat ch.val n) =
          match acStored s.k.toNat us n with
          | some v => some (BitVec.ofInt 16 v)
          | none => Memory.get? s.coef (coefIndex m.toNat ch.val n)) ∧
        (∀ a, a < coefIndex m.toNat ch.val 0 ∨ coefIndex m.toNat ch.val 64 ≤ a →
          Memory.get? u.coef a = Memory.get? s.coef a) ∧
        u = { s with
          coef := u.coef, bp := u.bp, bi := u.bi, k := u.k, code := u.code, first := u.first, len := u.len, sym := u.sym
          raw := u.raw, ext := u.ext, bitOut := u.bitOut, upc := u.upc, draws := u.draws }

/-- DECODE_BLOCK on a coded block: all 64 coefficients of the block are written, the DC one on top of the predictor, the others
as the AC units say and 0 elsewhere (spec R220 to R229). -/
def Obligations.DecodeCodedBlock : Prop :=
  ∀ (s : State) (m : Word) (j ch : Fin 3) (b : Block) (q : Nat), cid s j = ch.val + 1 → b.fits = true →
    BlockAt s j b (bitPos s) q →
      ∃ u, exec (.decodeBlock m j) s = .next u ∧
        bitPos u = q ∧ u.k.toNat = acEnd 1 b.ac ∧
        u.dcpred = s.dcpred.set ch (s.dcpred[ch] + b.diff) ∧
        (∀ n, n < 64 → Memory.get? u.coef (coefIndex m.toNat ch.val n) = some (b.coefficient (s.dcpred[ch] + b.diff) n)) ∧
        (∀ a, a < coefIndex m.toNat ch.val 0 ∨ coefIndex m.toNat ch.val 64 ≤ a →
          Memory.get? u.coef a = Memory.get? s.coef a) ∧
        u = { s with
          coef := u.coef, dcpred := u.dcpred, bp := u.bp, bi := u.bi, k := u.k, code := u.code, first := u.first
          len := u.len, sym := u.sym, raw := u.raw, ext := u.ext, bitOut := u.bitOut, upc := u.upc, draws := u.draws }

/-- DECODE_MCU on the coded blocks of an MCU: one block for each slot, in slot order, and MCUCNT counts it (spec R231). -/
def Obligations.DecodeCodedMcu : Prop :=
  ∀ (s : State) (m : Word) (bs : List Block) (q : Nat), CountOk s → IdsOk s → mcuFits s bs = true →
    BlocksAt s 0 bs (bitPos s) q →
      ∃ u, exec (.decodeMcu m) s = .next u ∧
        bitPos u = q ∧ u.mcucnt = s.mcucnt + 1 ∧
        (∀ (j ch : Fin 3) (b : Block), bs[j.val]? = some b → cid s j = ch.val + 1 →
          u.dcpred[ch] = s.dcpred[ch] + b.diff ∧
          ∀ n, n < 64 → Memory.get? u.coef (coefIndex m.toNat ch.val n) =
            some (b.coefficient (s.dcpred[ch] + b.diff) n)) ∧
        (∀ ch : Fin 3, ncomp s ≤ ch.val → u.dcpred[ch] = s.dcpred[ch]) ∧
        (∀ a, a < coefIndex m.toNat 0 0 ∨ coefIndex m.toNat (ncomp s) 0 ≤ a →
          Memory.get? u.coef a = Memory.get? s.coef a) ∧
        u = { s with
          coef := u.coef, dcpred := u.dcpred, bp := u.bp, bi := u.bi, k := u.k, slot := u.slot, mcucnt := u.mcucnt
          code := u.code, first := u.first, len := u.len, sym := u.sym, raw := u.raw, ext := u.ext, bitOut := u.bitOut
          upc := u.upc, draws := u.draws }

/-- RESTART, and when it is performed: before MCU `m` exactly when RI > 0, m > 0 and m mod RI = 0; otherwise the first block of
the MCU begins at once (spec R230, R232). -/
def Obligations.RestartAction : Prop :=
  (∀ s : State,
    (s.bi = 0 → exec .restart s = .next { s with dcpred := #v[0, 0, 0] }) ∧
    (s.bi ≠ 0 → exec .restart s = .next { s with bp := s.bp + 1, bi := 0, dcpred := #v[0, 0, 0] })) ∧
  ∀ (s : State) (m : Nat), m < nMcu s →
    (RestartDue s m → nextMcu m s = .next { s with mcu := BitVec.ofNat 32 m, upc := .restartDue }) ∧
    (¬RestartDue s m → nextMcu m s = beginBlock 0 { s with mcu := BitVec.ofNat 32 m })

/-- ENTROPY on a coded image: the coefficients of every MCU come out as coded, in raster order, with one predictor for each
component that starts where it stood, adds every difference and is reset at each restart, where the stream goes on at a byte
boundary (spec R111, R220, R221, R230 to R232). -/
def Obligations.EntropyDecodesImage : Prop :=
  ∀ (s : State) (mcus : List (List Block)) (q : Nat), CountOk s → IdsOk s → mcus.length = nMcu s →
    (∀ bs, bs ∈ mcus → mcuFits s bs = true) → McusAt s 0 mcus (bitPos s) q →
      ∃ u, exec .entropy s = .next u ∧
        u.phase = .recon ∧ bitPos u = q ∧ u.mcucnt = s.mcucnt + BitVec.ofNat 32 (nMcu s) ∧
        (∀ (m : Nat) (bs : List Block) (j ch : Fin 3) (b : Block), mcus[m]? = some bs → bs[j.val]? = some b →
          cid s j = ch.val + 1 → ∀ n, n < 64 →
            Memory.get? u.coef (coefIndex m ch.val n) =
              some (b.coefficient (predBefore s mcus j.val s.dcpred[ch] m + b.diff) n)) ∧
        (∀ (m : Nat) (bs : List Block) (j ch : Fin 3) (b : Block), m + 1 = nMcu s → mcus[m]? = some bs →
          bs[j.val]? = some b → cid s j = ch.val + 1 →
            u.dcpred[ch] = predBefore s mcus j.val s.dcpred[ch] m + b.diff) ∧
        (∀ ch : Fin 3, ncomp s ≤ ch.val →
          u.dcpred[ch] = if 0 < restartInterval s ∧ restartInterval s < nMcu s then 0 else s.dcpred[ch]) ∧
        (∀ a, coefIndex (nMcu s) 0 0 ≤ a → Memory.get? u.coef a = Memory.get? s.coef a) ∧
        (∀ m ch n, ncomp s ≤ ch → ch < 3 → n < 64 →
          Memory.get? u.coef (coefIndex m ch n) = Memory.get? s.coef (coefIndex m ch n)) ∧
        u = { s with
          phase := u.phase, coef := u.coef, dcpred := u.dcpred, bp := u.bp, bi := u.bi, mcu := u.mcu, slot := u.slot
          k := u.k, mcucnt := u.mcucnt, code := u.code, first := u.first, len := u.len, sym := u.sym, raw := u.raw
          ext := u.ext, bitOut := u.bitOut, upc := u.upc, draws := u.draws }

/-- A block consumes at most 27 + 63*31 = 1980 bits, on any tables and any data, and the cursor never moves back (spec R25,
R229, R233 (c)). -/
def Obligations.BlockBitBound : Prop :=
  ∀ (s u : State) (m : Word) (j : Fin 3), exec (.decodeBlock m j) s = .next u →
    bitPos s ≤ bitPos u ∧ bitPos u ≤ bitPos s + 1980

/-- DECODE_BLOCK as one instruction is the run of its code words and symbols, one step each (spec R220 to R229, R392). -/
def Obligations.BlockIsItsUnits : Prop :=
  ∀ (s b : State) (j : Fin 3), s.state = .busy → s.phase = .entropy → s.hostq = [] → s.params.grain = .unit →
    beginBlock j.val s = .next b →
      ∃ n, steps n b = thenDo (exec (.decodeBlock s.mcu j) { s with slot := j }) (sequence (.decodeBlock s.mcu j))

/-! ## RECON -/

/-- DEQUANT: every one of the 64 entries of DQ is written, entry ZZ[k] with the exact product of coefficient `k` and table entry
ZZ[k] where both are written; nothing else changes (spec R251, R252; the counter `draws`: log 5). -/
def Obligations.DequantBlock : Prop :=
  (∀ n, n < 64 → ∃ k, k < 64 ∧ zz k = n) ∧
  ∀ (s : State) (m : Word) (ch : Fin 3) (tq : BitVec 2),
    ∃ u, exec (.dequant m ch tq) s = .next u ∧
      u = { s with dq := u.dq, draws := s.draws + 1 } ∧
      (∀ n, n < 64 → Listed u.dq n) ∧
      (∀ a, 64 ≤ a → Memory.get? u.dq a = Memory.get? s.dq a) ∧
      (CoefListed s m.toNat ch.val → QuantListed s tq → ∀ k, k < 64 →
        dqInt u (zz k) = coefInt s m.toNat ch.val k * quantNat s tq (zz k))

/-- IDCT: the samples of the channel are the direct 64-term sum, rounded once, shifted and clamped; the two passes lose
nothing (spec R268 to R271; the counter `draws`: log 5). -/
def Obligations.InverseTransform : Prop :=
  ∀ (s : State) (ch : Fin 3),
    ∃ u, exec (.idct ch) s = .next u ∧
      u = { s with t := u.t, acc := u.acc, out := u.out, samp := u.samp, draws := s.draws + 2 } ∧
      (∀ n, n < 64 → Listed u.samp (64 * ch.val + n)) ∧
      (∀ a, a < 64 * ch.val ∨ 64 * ch.val + 64 ≤ a → Memory.get? u.samp a = Memory.get? s.samp a) ∧
      ((∀ n, n < 64 → Listed s.dq n) → ∀ y x, y < 8 → x < 8 →
        Memory.get? u.samp (64 * ch.val + (8 * y + x)) = some (sampleOf (dqInt s) y x))

/-- LEVELSHIFT: the 64 samples of the channel are written, each the output plus 128 clamped to 0..255 where that output is
written, and nothing else changes (spec
R271). The counter `draws`, a field of the model's own, is left open. -/
def Obligations.LevelShiftClamp : Prop :=
  ∀ (s : State) (ch : Fin 3),
    ∃ u, exec (.levelshift ch) s = .next u ∧
      u = { s with samp := u.samp, draws := u.draws } ∧
      (∀ n, n < 64 → Listed u.samp (64 * ch.val + n)) ∧
      (∀ a, a < 64 * ch.val ∨ 64 * ch.val + 64 ≤ a → Memory.get? u.samp a = Memory.get? s.samp a) ∧
      ∀ n v, n < 64 → Memory.get? s.out n = some v →
        ((v + 128 < 0 → Memory.get? u.samp (64 * ch.val + n) = some 0) ∧
          (255 < v + 128 → Memory.get? u.samp (64 * ch.val + n) = some 255) ∧
          (0 ≤ v + 128 → v + 128 ≤ 255 → Memory.get? u.samp (64 * ch.val + n) = some (BitVec.ofInt 8 (v + 128))))

/-- YCC2RGB and GRAY, and the table form of the conversion: the chroma terms are rounded apart from Y (spec R291, R292, R294;
the triple returned is latched, log 4). -/
def Obligations.ColourConversion : Prop :=
  (∀ (s : State) (y cb cr : Byte),
    exec (.ycc2rgb y cb cr) s = .next
      { s with
        pixel :=
          { r := BitVec.ofInt 8 (clamp (fdiv (1000000 * y.toNat + 1402000 * (cr.toNat - 128) + 500000) 1000000) 0 255)
            g := BitVec.ofInt 8 (clamp
              (fdiv (1000000 * y.toNat - 344136 * (cb.toNat - 128) - 714136 * (cr.toNat - 128) + 500000) 1000000) 0 255)
            b := BitVec.ofInt 8 (clamp
              (fdiv (1000000 * y.toNat + 1772000 * (cb.toNat - 128) + 500000) 1000000) 0 255) } }) ∧
  (∀ (s : State) (y : Byte), exec (.gray y) s = .next { s with pixel := { r := y, g := y, b := y } }) ∧
  ∀ (s u : State) (y cb cr : Byte), exec (.ycc2rgb y cb cr) s = .next u →
    (u.pixel.r.toNat : Int) = clamp (y.toNat + fdiv (1402000 * (cr.toNat - 128) + 500000) 1000000) 0 255 ∧
    (u.pixel.g.toNat : Int) =
      clamp (y.toNat + fdiv (-344136 * (cb.toNat - 128) - 714136 * (cr.toNat - 128) + 500000) 1000000) 0 255 ∧
    (u.pixel.b.toNat : Int) = clamp (y.toNat + fdiv (1772000 * (cb.toNat - 128) + 500000) 1000000) 0 255

/-- STOREPIX: three bytes of PIX for a pixel inside the image, nothing for one outside (spec R295). -/
def Obligations.StorePixel : Prop :=
  ∀ (s : State) (m : Word) (i : Fin 64) (r g b : Byte) (y x : Nat),
    y = 8 * (m.toNat / mcuCols s) + i.val / 8 → x = 8 * (m.toNat % mcuCols s) + i.val % 8 →
      (y < height s → x < width s →
        exec (.storepix m i r g b) s = .next
          { s with
            pix := Memory.set (Memory.set (Memory.set s.pix (3 * (y * width s + x)) r)
              (3 * (y * width s + x) + 1) g) (3 * (y * width s + x) + 2) b }) ∧
      (height s ≤ y ∨ width s ≤ x → exec (.storepix m i r g b) s = .next s)

/-- Placement is a bijection from the pixels of the MCUs onto the padded grid, which covers the image (spec R297). -/
def Obligations.PlacementBijection : Prop :=
  ∀ s : State,
    height s ≤ 8 * mcuRows s ∧ width s ≤ 8 * mcuCols s ∧
    (∀ m i, m < nMcu s → i < 64 → pixelRow s m i < 8 * mcuRows s ∧ pixelCol s m i < 8 * mcuCols s) ∧
    ∀ y x, y < 8 * mcuRows s → x < 8 * mcuCols s →
      ∃ p : Nat × Nat, (p.1 < nMcu s ∧ p.2 < 64 ∧ pixelRow s p.1 p.2 = y ∧ pixelCol s p.1 p.2 = x) ∧
        ∀ p' : Nat × Nat, p'.1 < nMcu s → p'.2 < 64 → pixelRow s p'.1 p'.2 = y → pixelCol s p'.1 p'.2 = x → p' = p

/-- RECON_MCU: the pixels of the MCU that lie in the image are the reference pixels, and no other byte of PIX changes (spec R252,
R253, R270, R291, R292, R295, R298, R299). -/
def Obligations.ReconMcuPixels : Prop :=
  ∀ (s : State) (m : Word), CountOk s → IdsOk s →
    (∀ ch, ch < ncomp s → CoefListed s m.toNat ch ∧ QuantListed s (channelTable s ch)) →
      ∃ u, exec (.reconMcu m) s = .next u ∧
        (∀ i, i < 64 → pixelRow s m.toNat i < height s → pixelCol s m.toNat i < width s →
          Memory.get? u.pix (3 * (pixelRow s m.toNat i * width s + pixelCol s m.toNat i)) =
              some (referencePixel s m.toNat i).r ∧
          Memory.get? u.pix (3 * (pixelRow s m.toNat i * width s + pixelCol s m.toNat i) + 1) =
              some (referencePixel s m.toNat i).g ∧
          Memory.get? u.pix (3 * (pixelRow s m.toNat i * width s + pixelCol s m.toNat i) + 2) =
              some (referencePixel s m.toNat i).b) ∧
        (∀ a, (∀ i, i < 64 → pixelRow s m.toNat i < height s → pixelCol s m.toNat i < width s →
            a / 3 ≠ pixelRow s m.toNat i * width s + pixelCol s m.toNat i) →
          Memory.get? u.pix a = Memory.get? s.pix a) ∧
        u = { s with
          dq := u.dq, t := u.t, acc := u.acc, out := u.out, samp := u.samp, rgb := u.rgb, pixel := u.pixel, pix := u.pix
          draws := u.draws }

/-- RECON: afterwards STATE is DONE, every pixel of the image is the reference pixel, and no byte of PIX outside the image has
changed (spec R57, R295, R297 to R300). -/
def Obligations.ReconFillsImage : Prop :=
  ∀ s : State, CountOk s → IdsOk s →
    (∀ m ch, m < nMcu s → ch < ncomp s → CoefListed s m ch ∧ QuantListed s (channelTable s ch)) →
      ∃ u, exec .recon s = .next u ∧
        u.state = .done ∧ u.phase = .none ∧
        (∀ y x, y < height s → x < width s →
          Memory.get? u.pix (3 * (y * width s + x)) =
              some (referencePixel s (y / 8 * mcuCols s + x / 8) (8 * (y % 8) + x % 8)).r ∧
          Memory.get? u.pix (3 * (y * width s + x) + 1) =
              some (referencePixel s (y / 8 * mcuCols s + x / 8) (8 * (y % 8) + x % 8)).g ∧
          Memory.get? u.pix (3 * (y * width s + x) + 2) =
              some (referencePixel s (y / 8 * mcuCols s + x / 8) (8 * (y % 8) + x % 8)).b) ∧
        (∀ a, 3 * width s * height s ≤ a → Memory.get? u.pix a = Memory.get? s.pix a) ∧
        u = { s with
          state := u.state, phase := u.phase, upc := .idle, mcu := u.mcu, dq := u.dq, t := u.t, acc := u.acc, out := u.out
          samp := u.samp, rgb := u.rgb, pixel := u.pixel, pix := u.pix, draws := u.draws }

/-! ## The whole machine -/

/-- Every step keeps every memory in its canonical form and the reserved register bits 0 (spec R30, R49). -/
def Obligations.StepKeepsCanonical : Prop :=
  ∀ s u : State, Canonical s → step s = .next u → Canonical u

/-- The state after reset has the invariants. -/
def Obligations.ResetHasInvariants : Prop :=
  Canonical State.reset ∧ RunInv State.reset ∧ Written State.reset

/-- Every step keeps the run invariant, at every granularity and whatever the host does (spec R23, R26, R58, R143, R170). -/
def Obligations.StepKeepsRunInv : Prop :=
  ∀ s u : State, RunInv s → step s = .next u → RunInv u

/-- Under the run invariant no step stops: every instruction of a run has an effect, on any data. The input is shorter than 2^32
bytes (spec R24, U9) and the host keeps to one sequence, which ends with the end indication (spec R385, U6). -/
def Obligations.RunNeverStops : Prop :=
  ∀ s : State, RunInv s → s.input.length < 2 ^ 32 → (∀ bytes last, Due s (.attach bytes last) → s.state ≠ .busy) →
    (∀ bytes last, Due s (.deliver bytes last) → s.inputEnd = false) →
    ∃ u, step s = .next u

/-- Every step keeps the invariant `Written`: the clean bytes, and the coefficients and buffer entries that the position of the
run is about to read, are written (spec R60, U1). -/
def Obligations.StepKeepsWritten : Prop :=
  ∀ s u : State, RunInv s → Written s → step s = .next u → Written u

/-- During a run nothing but reset changes the configuration, the tables or the interrupt enables, and of the input the bytes that
are there stay, the port only adds to them (spec R30, R54, R82, R84, R140, R385). -/
def Obligations.RunKeepsLaunchState : Prop :=
  ∀ s u : State, s.state = .busy → ¬Due s .reset → step s = .next u →
    u.framedim = s.framedim ∧ u.framecfg = s.framecfg ∧ u.scancomp = s.scancomp ∧ u.tabset = s.tabset ∧
    u.irqen = s.irqen ∧ u.qtab = s.qtab ∧ u.hoff = s.hoff ∧ u.hsym = s.hsym ∧ u.params = s.params ∧
    (∃ more, u.input = s.input ++ more) ∧
    ((∀ bytes last, ¬Due s (.deliver bytes last)) → u.input = s.input ∧ u.inputEnd = s.inputEnd)

/-- In a step PIX changes only in RECON and only inside the image, and no step of RECON raises a fault (spec R57, R80, R299,
R321). -/
def Obligations.PixelsOnlyInRecon : Prop :=
  ∀ s u : State, step s = .next u →
    (¬(s.state = .busy ∧ s.phase = .recon) → u.pix = s.pix) ∧
    (∀ a, 3 * width s * height s ≤ a → Memory.get? u.pix a = Memory.get? s.pix a) ∧
    (s.state = .busy → s.phase = .recon → u.state ≠ .error)

/-- A run only goes forward: the phases come in their order, DONE comes only out of RECON and ERROR never out of it, and the
input cursor, the bit cursor and CLEANLEN never go back (spec R21, R23 to R25, R45, R149). -/
def Obligations.RunGoesForward : Prop :=
  ∀ s u : State, RunInv s → s.state = .busy → ¬Due s .reset → step s = .next u →
    u.state ≠ .idle ∧ (u.state = .done → s.phase = .recon) ∧ (u.state = .error → s.phase ≠ .recon) ∧
    phaseRank s.phase ≤ phaseRank u.phase ∧ (u.state = .busy → phaseRank u.phase ≤ phaseRank s.phase + 1) ∧
    s.ip.toNat ≤ u.ip.toNat ∧ bitPos s ≤ bitPos u ∧ s.cleanlen.toNat ≤ u.cleanlen.toNat

/-- WIGN is set only by a host write, and once set is cleared only by CLEAR or reset; a fault record in ERROR is changed only by
START, CLEAR or reset, and no second fault occurs (spec R22, R141, R332, R345). -/
def Obligations.StickyRecords : Prop :=
  ∀ s u : State, step s = .next u →
    (s.wign = false → u.wign = true → ∃ a v, Due s (.write a v)) ∧
    (s.wign = true → u.wign = false → Due s .reset ∨ s.state ≠ .busy ∧ Due s (.write 1 2)) ∧
    (s.state = .error → ¬Due s .reset → ¬Due s (.write 1 1) → ¬Due s (.write 1 2) →
      u.state = .error ∧ u.errcode = s.errcode ∧ u.errpos = s.errpos ∧ u.errval = s.errval ∧ u.errmcu = s.errmcu ∧
        u.errblk = s.errblk)

/-- Every run ends in DONE or ERROR (spec R391), from every state of a run, at every granularity, the host leaving the core
alone, once the port has delivered the input and signalled its end; while SCAN lacks a byte and no end is signalled, the core
stays BUSY for ever (spec R385). -/
def Obligations.EveryRunEnds : Prop :=
  (∀ s : State, RunInv s → s.state = .busy → s.hostq = [] → s.input.length < 2 ^ 32 →
    (s.phase = .scan → s.inputEnd = true) →
      ∃ n u, steps n s = .next u ∧ (u.state = .done ∨ u.state = .error)) ∧
  ∀ (s : State) (n : Nat), s.state = .busy → s.phase = .scan → s.hostq = [] → s.inputEnd = false →
    s.input.drop s.ip.toNat = [] ∨ s.input.drop s.ip.toNat = [0xFF] → steps n s = .next s
end

