-- ==== Sys2Proof/Laws/Flow.lean ====
section
/-! SUPPORT. Laws of `Flow`: how operations compose, and that what every step of an operation keeps, the operation keeps. -/

namespace Sys2Proof.Machine

variable {α β γ : Type}

@[simp] theorem Flow.bind_cont (a : α) (s : State) (f : α → State → Flow β) : (Flow.cont a s).bind f = f a s := rfl
@[simp] theorem Flow.bind_ended (s : State) (f : α → State → Flow β) : (Flow.ended s : Flow α).bind f = .ended s := rfl
@[simp] theorem Flow.bind_stop (e : Fault) (f : α → State → Flow β) : (Flow.stop e : Flow α).bind f = .stop e := rfl
@[simp] theorem Flow.bind_refuse (r : Refusal) (f : α → State → Flow β) : (Flow.refuse r : Flow α).bind f = .refuse r := rfl
@[simp] theorem Flow.bind_raise (c : Cause) (pos : Word) (val : BitVec 16) (s : State) (f : α → State → Flow β) :
    (raise c pos val s : Flow α).bind f = raise c pos val s := rfl

theorem Flow.bind_assoc (x : Flow α) (f : α → State → Flow β) (g : β → State → Flow γ) :
    (x.bind f).bind g = x.bind fun a s => (f a s).bind g := by
  cases x <;> rfl

@[simp] theorem Flow.toOutcome_cont (a : α) (s : State) : (Flow.cont a s).toOutcome = .next s := rfl
@[simp] theorem Flow.toOutcome_ended (s : State) : (Flow.ended s : Flow α).toOutcome = .next s := rfl
@[simp] theorem Flow.toOutcome_stop (e : Fault) : (Flow.stop e : Flow α).toOutcome = .fault e := rfl
@[simp] theorem Flow.toOutcome_refuse (r : Refusal) : (Flow.refuse r : Flow α).toOutcome = .refused r := rfl
@[simp] theorem Flow.toOutcome_raise (c : Cause) (pos : Word) (val : BitVec 16) (s : State) :
    (raise c pos val s : Flow α).toOutcome = .next (faultEntry c pos val s) := rfl

@[simp] theorem thenDo_next (s : State) (f : State → Host.Outcome State Fault Refusal) : thenDo (.next s) f = f s := rfl
@[simp] theorem thenDo_fault (e : Fault) (f : State → Host.Outcome State Fault Refusal) :
    thenDo (.fault e) f = .fault e := rfl
@[simp] theorem thenDo_refused (r : Refusal) (f : State → Host.Outcome State Fault Refusal) :
    thenDo (.refused r) f = .refused r := rfl

theorem thenDo_eq_next {x : Host.Outcome State Fault Refusal} {f : State → Host.Outcome State Fault Refusal} {u : State} :
    thenDo x f = .next u ↔ ∃ s, x = .next s ∧ f s = .next u := by
  cases x <;> simp

@[simp] theorem Flow.forEach_nil (f : α → State → Flow Unit) (s : State) : Flow.forEach [] f s = .cont () s := rfl
@[simp] theorem Flow.forEach_cons (a : α) (l : List α) (f : α → State → Flow Unit) (s : State) :
    Flow.forEach (a :: l) f s = (f a s).bind fun _ s => Flow.forEach l f s := rfl

theorem Flow.forEach_append (l l' : List α) (f : α → State → Flow Unit) (s : State) :
    Flow.forEach (l ++ l') f s = (Flow.forEach l f s).bind fun _ s => Flow.forEach l' f s := by
  induction l generalizing s with
  | nil => rfl
  | cons a l ih =>
    rw [List.cons_append, Flow.forEach_cons, Flow.forEach_cons, Flow.bind_assoc]
    cases f a s <;> simp [ih]

/-- Loops whose bodies agree agree. -/
theorem Flow.forEach_congr {l : List α} {f g : α → State → Flow Unit} (h : ∀ a, a ∈ l → ∀ s, f a s = g a s) (s : State) :
    Flow.forEach l f s = Flow.forEach l g s := by
  induction l generalizing s with
  | nil => rfl
  | cons a l ih =>
    rw [Flow.forEach_cons, Flow.forEach_cons, h a (List.mem_cons_self ..)]
    cases g a s with
    | cont _ u => exact ih (fun b hb => h b (List.mem_cons_of_mem _ hb)) u
    | ended _ => rfl
    | stop _ => rfl
    | refuse _ => rfl

/-- A loop of operations that always go on is a fold. -/
theorem Flow.forEach_cont (l : List α) (f : α → State → State) (s : State) :
    Flow.forEach l (fun a s => .cont () (f a s)) s = .cont () (l.foldl (fun s a => f a s) s) := by
  induction l generalizing s with
  | nil => rfl
  | cons a l ih => exact ih (f a s)

/-- Wherever the operation ends with a state, going on or by a fault of the core, the state satisfies `P`. -/
def Flow.All (P : State → Prop) : Flow α → Prop
  | .cont _ s => P s
  | .ended s => P s
  | .stop _ => True
  | .refuse _ => True

theorem Flow.All.bind {P Q : State → Prop} {x : Flow α} {f : α → State → Flow β} (hx : Flow.All P x)
    (hended : ∀ s, x = .ended s → Q s) (hf : ∀ a s, x = .cont a s → P s → Flow.All Q (f a s)) :
    Flow.All Q (x.bind f) := by
  cases x with
  | cont a s => exact hf a s rfl hx
  | ended s => exact hended s rfl
  | stop _ => exact trivial
  | refuse _ => exact trivial

/-- The usual case: one property kept by both operations. -/
theorem Flow.All.bind_same {P : State → Prop} {x : Flow α} {f : α → State → Flow β} (hx : Flow.All P x)
    (hf : ∀ a s, P s → Flow.All P (f a s)) : Flow.All P (x.bind f) := by
  cases x with
  | cont a s => exact hf a s hx
  | ended s => exact hx
  | stop _ => exact trivial
  | refuse _ => exact trivial

theorem Flow.All.forEach {P : State → Prop} {l : List α} {f : α → State → Flow Unit}
    (hf : ∀ a, a ∈ l → ∀ s, P s → Flow.All P (f a s)) {s : State} (hs : P s) : Flow.All P (Flow.forEach l f s) := by
  induction l generalizing s with
  | nil => exact hs
  | cons a l ih =>
    exact (hf a (List.mem_cons_self ..) s hs).bind_same fun _ u hu =>
      ih (fun b hb => hf b (List.mem_cons_of_mem _ hb)) hu

theorem Flow.All.mono {P Q : State → Prop} (h : ∀ s, P s → Q s) {x : Flow α} (hx : Flow.All P x) : Flow.All Q x := by
  cases x <;> first | exact h _ hx | exact trivial

/-- What an operation keeps, the instruction that performs it keeps. -/
theorem Flow.All.of_toOutcome {P : State → Prop} {x : Flow α} (hx : Flow.All P x) {u : State} (h : x.toOutcome = .next u) :
    P u := by
  cases x with
  | cont _ s =>
    cases h
    exact hx
  | ended s =>
    cases h
    exact hx
  | stop _ => cases h
  | refuse _ => cases h

end Sys2Proof.Machine
end

