-- ==== Sys2Proof/Laws/State.lean ====
section
/-! SUPPORT. Every field of the state that a named update leaves alone: one lemma for each update and field. -/

namespace Sys2Proof.Machine

variable (m ch k n : Nat) (v : BitVec 16) (c : Fin 3) (tq : BitVec 2) (b : Bool) (p : Rgb)
  (e : Cause) (pos : Word) (val : BitVec 16) (s : State)

/-! `bumpDraws` writes draws only. -/

@[simp] theorem bumpDraws_state : (bumpDraws s).state = s.state := by dsimp only [bumpDraws]
@[simp] theorem bumpDraws_wign : (bumpDraws s).wign = s.wign := by dsimp only [bumpDraws]
@[simp] theorem bumpDraws_irqen : (bumpDraws s).irqen = s.irqen := by dsimp only [bumpDraws]
@[simp] theorem bumpDraws_phase : (bumpDraws s).phase = s.phase := by dsimp only [bumpDraws]
@[simp] theorem bumpDraws_ip : (bumpDraws s).ip = s.ip := by dsimp only [bumpDraws]
@[simp] theorem bumpDraws_bp : (bumpDraws s).bp = s.bp := by dsimp only [bumpDraws]
@[simp] theorem bumpDraws_bi : (bumpDraws s).bi = s.bi := by dsimp only [bumpDraws]
@[simp] theorem bumpDraws_mcu : (bumpDraws s).mcu = s.mcu := by dsimp only [bumpDraws]
@[simp] theorem bumpDraws_slot : (bumpDraws s).slot = s.slot := by dsimp only [bumpDraws]
@[simp] theorem bumpDraws_k : (bumpDraws s).k = s.k := by dsimp only [bumpDraws]
@[simp] theorem bumpDraws_dcpred : (bumpDraws s).dcpred = s.dcpred := by dsimp only [bumpDraws]
@[simp] theorem bumpDraws_code : (bumpDraws s).code = s.code := by dsimp only [bumpDraws]
@[simp] theorem bumpDraws_first : (bumpDraws s).first = s.first := by dsimp only [bumpDraws]
@[simp] theorem bumpDraws_len : (bumpDraws s).len = s.len := by dsimp only [bumpDraws]
@[simp] theorem bumpDraws_errcode : (bumpDraws s).errcode = s.errcode := by dsimp only [bumpDraws]
@[simp] theorem bumpDraws_errpos : (bumpDraws s).errpos = s.errpos := by dsimp only [bumpDraws]
@[simp] theorem bumpDraws_errval : (bumpDraws s).errval = s.errval := by dsimp only [bumpDraws]
@[simp] theorem bumpDraws_errmcu : (bumpDraws s).errmcu = s.errmcu := by dsimp only [bumpDraws]
@[simp] theorem bumpDraws_errblk : (bumpDraws s).errblk = s.errblk := by dsimp only [bumpDraws]
@[simp] theorem bumpDraws_framedim : (bumpDraws s).framedim = s.framedim := by dsimp only [bumpDraws]
@[simp] theorem bumpDraws_framecfg : (bumpDraws s).framecfg = s.framecfg := by dsimp only [bumpDraws]
@[simp] theorem bumpDraws_scancomp : (bumpDraws s).scancomp = s.scancomp := by dsimp only [bumpDraws]
@[simp] theorem bumpDraws_tabset : (bumpDraws s).tabset = s.tabset := by dsimp only [bumpDraws]
@[simp] theorem bumpDraws_cleanlen : (bumpDraws s).cleanlen = s.cleanlen := by dsimp only [bumpDraws]
@[simp] theorem bumpDraws_mcucnt : (bumpDraws s).mcucnt = s.mcucnt := by dsimp only [bumpDraws]
@[simp] theorem bumpDraws_qtab : (bumpDraws s).qtab = s.qtab := by dsimp only [bumpDraws]
@[simp] theorem bumpDraws_hoff : (bumpDraws s).hoff = s.hoff := by dsimp only [bumpDraws]
@[simp] theorem bumpDraws_hsym : (bumpDraws s).hsym = s.hsym := by dsimp only [bumpDraws]
@[simp] theorem bumpDraws_clean : (bumpDraws s).clean = s.clean := by dsimp only [bumpDraws]
@[simp] theorem bumpDraws_coef : (bumpDraws s).coef = s.coef := by dsimp only [bumpDraws]
@[simp] theorem bumpDraws_dq : (bumpDraws s).dq = s.dq := by dsimp only [bumpDraws]
@[simp] theorem bumpDraws_t : (bumpDraws s).t = s.t := by dsimp only [bumpDraws]
@[simp] theorem bumpDraws_acc : (bumpDraws s).acc = s.acc := by dsimp only [bumpDraws]
@[simp] theorem bumpDraws_out : (bumpDraws s).out = s.out := by dsimp only [bumpDraws]
@[simp] theorem bumpDraws_samp : (bumpDraws s).samp = s.samp := by dsimp only [bumpDraws]
@[simp] theorem bumpDraws_rgb : (bumpDraws s).rgb = s.rgb := by dsimp only [bumpDraws]
@[simp] theorem bumpDraws_pix : (bumpDraws s).pix = s.pix := by dsimp only [bumpDraws]
@[simp] theorem bumpDraws_pixOld : (bumpDraws s).pixOld = s.pixOld := by dsimp only [bumpDraws]
@[simp] theorem bumpDraws_input : (bumpDraws s).input = s.input := by dsimp only [bumpDraws]
@[simp] theorem bumpDraws_inputEnd : (bumpDraws s).inputEnd = s.inputEnd := by dsimp only [bumpDraws]
@[simp] theorem bumpDraws_inputFresh : (bumpDraws s).inputFresh = s.inputFresh := by dsimp only [bumpDraws]
@[simp] theorem bumpDraws_hostq : (bumpDraws s).hostq = s.hostq := by dsimp only [bumpDraws]
@[simp] theorem bumpDraws_params : (bumpDraws s).params = s.params := by dsimp only [bumpDraws]
@[simp] theorem bumpDraws_upc : (bumpDraws s).upc = s.upc := by dsimp only [bumpDraws]
@[simp] theorem bumpDraws_sym : (bumpDraws s).sym = s.sym := by dsimp only [bumpDraws]
@[simp] theorem bumpDraws_raw : (bumpDraws s).raw = s.raw := by dsimp only [bumpDraws]
@[simp] theorem bumpDraws_ext : (bumpDraws s).ext = s.ext := by dsimp only [bumpDraws]
@[simp] theorem bumpDraws_bitOut : (bumpDraws s).bitOut = s.bitOut := by dsimp only [bumpDraws]
@[simp] theorem bumpDraws_pixel : (bumpDraws s).pixel = s.pixel := by dsimp only [bumpDraws]
@[simp] theorem bumpDraws_rdata : (bumpDraws s).rdata = s.rdata := by dsimp only [bumpDraws]

/-! `ignoreWrite` writes wign only. -/

@[simp] theorem ignoreWrite_state : (ignoreWrite s).state = s.state := by dsimp only [ignoreWrite]
@[simp] theorem ignoreWrite_irqen : (ignoreWrite s).irqen = s.irqen := by dsimp only [ignoreWrite]
@[simp] theorem ignoreWrite_phase : (ignoreWrite s).phase = s.phase := by dsimp only [ignoreWrite]
@[simp] theorem ignoreWrite_ip : (ignoreWrite s).ip = s.ip := by dsimp only [ignoreWrite]
@[simp] theorem ignoreWrite_bp : (ignoreWrite s).bp = s.bp := by dsimp only [ignoreWrite]
@[simp] theorem ignoreWrite_bi : (ignoreWrite s).bi = s.bi := by dsimp only [ignoreWrite]
@[simp] theorem ignoreWrite_mcu : (ignoreWrite s).mcu = s.mcu := by dsimp only [ignoreWrite]
@[simp] theorem ignoreWrite_slot : (ignoreWrite s).slot = s.slot := by dsimp only [ignoreWrite]
@[simp] theorem ignoreWrite_k : (ignoreWrite s).k = s.k := by dsimp only [ignoreWrite]
@[simp] theorem ignoreWrite_dcpred : (ignoreWrite s).dcpred = s.dcpred := by dsimp only [ignoreWrite]
@[simp] theorem ignoreWrite_code : (ignoreWrite s).code = s.code := by dsimp only [ignoreWrite]
@[simp] theorem ignoreWrite_first : (ignoreWrite s).first = s.first := by dsimp only [ignoreWrite]
@[simp] theorem ignoreWrite_len : (ignoreWrite s).len = s.len := by dsimp only [ignoreWrite]
@[simp] theorem ignoreWrite_errcode : (ignoreWrite s).errcode = s.errcode := by dsimp only [ignoreWrite]
@[simp] theorem ignoreWrite_errpos : (ignoreWrite s).errpos = s.errpos := by dsimp only [ignoreWrite]
@[simp] theorem ignoreWrite_errval : (ignoreWrite s).errval = s.errval := by dsimp only [ignoreWrite]
@[simp] theorem ignoreWrite_errmcu : (ignoreWrite s).errmcu = s.errmcu := by dsimp only [ignoreWrite]
@[simp] theorem ignoreWrite_errblk : (ignoreWrite s).errblk = s.errblk := by dsimp only [ignoreWrite]
@[simp] theorem ignoreWrite_framedim : (ignoreWrite s).framedim = s.framedim := by dsimp only [ignoreWrite]
@[simp] theorem ignoreWrite_framecfg : (ignoreWrite s).framecfg = s.framecfg := by dsimp only [ignoreWrite]
@[simp] theorem ignoreWrite_scancomp : (ignoreWrite s).scancomp = s.scancomp := by dsimp only [ignoreWrite]
@[simp] theorem ignoreWrite_tabset : (ignoreWrite s).tabset = s.tabset := by dsimp only [ignoreWrite]
@[simp] theorem ignoreWrite_cleanlen : (ignoreWrite s).cleanlen = s.cleanlen := by dsimp only [ignoreWrite]
@[simp] theorem ignoreWrite_mcucnt : (ignoreWrite s).mcucnt = s.mcucnt := by dsimp only [ignoreWrite]
@[simp] theorem ignoreWrite_qtab : (ignoreWrite s).qtab = s.qtab := by dsimp only [ignoreWrite]
@[simp] theorem ignoreWrite_hoff : (ignoreWrite s).hoff = s.hoff := by dsimp only [ignoreWrite]
@[simp] theorem ignoreWrite_hsym : (ignoreWrite s).hsym = s.hsym := by dsimp only [ignoreWrite]
@[simp] theorem ignoreWrite_clean : (ignoreWrite s).clean = s.clean := by dsimp only [ignoreWrite]
@[simp] theorem ignoreWrite_coef : (ignoreWrite s).coef = s.coef := by dsimp only [ignoreWrite]
@[simp] theorem ignoreWrite_dq : (ignoreWrite s).dq = s.dq := by dsimp only [ignoreWrite]
@[simp] theorem ignoreWrite_t : (ignoreWrite s).t = s.t := by dsimp only [ignoreWrite]
@[simp] theorem ignoreWrite_acc : (ignoreWrite s).acc = s.acc := by dsimp only [ignoreWrite]
@[simp] theorem ignoreWrite_out : (ignoreWrite s).out = s.out := by dsimp only [ignoreWrite]
@[simp] theorem ignoreWrite_samp : (ignoreWrite s).samp = s.samp := by dsimp only [ignoreWrite]
@[simp] theorem ignoreWrite_rgb : (ignoreWrite s).rgb = s.rgb := by dsimp only [ignoreWrite]
@[simp] theorem ignoreWrite_pix : (ignoreWrite s).pix = s.pix := by dsimp only [ignoreWrite]
@[simp] theorem ignoreWrite_pixOld : (ignoreWrite s).pixOld = s.pixOld := by dsimp only [ignoreWrite]
@[simp] theorem ignoreWrite_input : (ignoreWrite s).input = s.input := by dsimp only [ignoreWrite]
@[simp] theorem ignoreWrite_inputEnd : (ignoreWrite s).inputEnd = s.inputEnd := by dsimp only [ignoreWrite]
@[simp] theorem ignoreWrite_inputFresh : (ignoreWrite s).inputFresh = s.inputFresh := by dsimp only [ignoreWrite]
@[simp] theorem ignoreWrite_hostq : (ignoreWrite s).hostq = s.hostq := by dsimp only [ignoreWrite]
@[simp] theorem ignoreWrite_params : (ignoreWrite s).params = s.params := by dsimp only [ignoreWrite]
@[simp] theorem ignoreWrite_upc : (ignoreWrite s).upc = s.upc := by dsimp only [ignoreWrite]
@[simp] theorem ignoreWrite_sym : (ignoreWrite s).sym = s.sym := by dsimp only [ignoreWrite]
@[simp] theorem ignoreWrite_raw : (ignoreWrite s).raw = s.raw := by dsimp only [ignoreWrite]
@[simp] theorem ignoreWrite_ext : (ignoreWrite s).ext = s.ext := by dsimp only [ignoreWrite]
@[simp] theorem ignoreWrite_bitOut : (ignoreWrite s).bitOut = s.bitOut := by dsimp only [ignoreWrite]
@[simp] theorem ignoreWrite_pixel : (ignoreWrite s).pixel = s.pixel := by dsimp only [ignoreWrite]
@[simp] theorem ignoreWrite_rdata : (ignoreWrite s).rdata = s.rdata := by dsimp only [ignoreWrite]
@[simp] theorem ignoreWrite_draws : (ignoreWrite s).draws = s.draws := by dsimp only [ignoreWrite]

/-! `setCoef` writes coef only. -/

@[simp] theorem setCoef_state : (setCoef m ch k v s).state = s.state := by dsimp only [setCoef]
@[simp] theorem setCoef_wign : (setCoef m ch k v s).wign = s.wign := by dsimp only [setCoef]
@[simp] theorem setCoef_irqen : (setCoef m ch k v s).irqen = s.irqen := by dsimp only [setCoef]
@[simp] theorem setCoef_phase : (setCoef m ch k v s).phase = s.phase := by dsimp only [setCoef]
@[simp] theorem setCoef_ip : (setCoef m ch k v s).ip = s.ip := by dsimp only [setCoef]
@[simp] theorem setCoef_bp : (setCoef m ch k v s).bp = s.bp := by dsimp only [setCoef]
@[simp] theorem setCoef_bi : (setCoef m ch k v s).bi = s.bi := by dsimp only [setCoef]
@[simp] theorem setCoef_mcu : (setCoef m ch k v s).mcu = s.mcu := by dsimp only [setCoef]
@[simp] theorem setCoef_slot : (setCoef m ch k v s).slot = s.slot := by dsimp only [setCoef]
@[simp] theorem setCoef_k : (setCoef m ch k v s).k = s.k := by dsimp only [setCoef]
@[simp] theorem setCoef_dcpred : (setCoef m ch k v s).dcpred = s.dcpred := by dsimp only [setCoef]
@[simp] theorem setCoef_code : (setCoef m ch k v s).code = s.code := by dsimp only [setCoef]
@[simp] theorem setCoef_first : (setCoef m ch k v s).first = s.first := by dsimp only [setCoef]
@[simp] theorem setCoef_len : (setCoef m ch k v s).len = s.len := by dsimp only [setCoef]
@[simp] theorem setCoef_errcode : (setCoef m ch k v s).errcode = s.errcode := by dsimp only [setCoef]
@[simp] theorem setCoef_errpos : (setCoef m ch k v s).errpos = s.errpos := by dsimp only [setCoef]
@[simp] theorem setCoef_errval : (setCoef m ch k v s).errval = s.errval := by dsimp only [setCoef]
@[simp] theorem setCoef_errmcu : (setCoef m ch k v s).errmcu = s.errmcu := by dsimp only [setCoef]
@[simp] theorem setCoef_errblk : (setCoef m ch k v s).errblk = s.errblk := by dsimp only [setCoef]
@[simp] theorem setCoef_framedim : (setCoef m ch k v s).framedim = s.framedim := by dsimp only [setCoef]
@[simp] theorem setCoef_framecfg : (setCoef m ch k v s).framecfg = s.framecfg := by dsimp only [setCoef]
@[simp] theorem setCoef_scancomp : (setCoef m ch k v s).scancomp = s.scancomp := by dsimp only [setCoef]
@[simp] theorem setCoef_tabset : (setCoef m ch k v s).tabset = s.tabset := by dsimp only [setCoef]
@[simp] theorem setCoef_cleanlen : (setCoef m ch k v s).cleanlen = s.cleanlen := by dsimp only [setCoef]
@[simp] theorem setCoef_mcucnt : (setCoef m ch k v s).mcucnt = s.mcucnt := by dsimp only [setCoef]
@[simp] theorem setCoef_qtab : (setCoef m ch k v s).qtab = s.qtab := by dsimp only [setCoef]
@[simp] theorem setCoef_hoff : (setCoef m ch k v s).hoff = s.hoff := by dsimp only [setCoef]
@[simp] theorem setCoef_hsym : (setCoef m ch k v s).hsym = s.hsym := by dsimp only [setCoef]
@[simp] theorem setCoef_clean : (setCoef m ch k v s).clean = s.clean := by dsimp only [setCoef]
@[simp] theorem setCoef_dq : (setCoef m ch k v s).dq = s.dq := by dsimp only [setCoef]
@[simp] theorem setCoef_t : (setCoef m ch k v s).t = s.t := by dsimp only [setCoef]
@[simp] theorem setCoef_acc : (setCoef m ch k v s).acc = s.acc := by dsimp only [setCoef]
@[simp] theorem setCoef_out : (setCoef m ch k v s).out = s.out := by dsimp only [setCoef]
@[simp] theorem setCoef_samp : (setCoef m ch k v s).samp = s.samp := by dsimp only [setCoef]
@[simp] theorem setCoef_rgb : (setCoef m ch k v s).rgb = s.rgb := by dsimp only [setCoef]
@[simp] theorem setCoef_pix : (setCoef m ch k v s).pix = s.pix := by dsimp only [setCoef]
@[simp] theorem setCoef_pixOld : (setCoef m ch k v s).pixOld = s.pixOld := by dsimp only [setCoef]
@[simp] theorem setCoef_input : (setCoef m ch k v s).input = s.input := by dsimp only [setCoef]
@[simp] theorem setCoef_inputEnd : (setCoef m ch k v s).inputEnd = s.inputEnd := by dsimp only [setCoef]
@[simp] theorem setCoef_inputFresh : (setCoef m ch k v s).inputFresh = s.inputFresh := by dsimp only [setCoef]
@[simp] theorem setCoef_hostq : (setCoef m ch k v s).hostq = s.hostq := by dsimp only [setCoef]
@[simp] theorem setCoef_params : (setCoef m ch k v s).params = s.params := by dsimp only [setCoef]
@[simp] theorem setCoef_upc : (setCoef m ch k v s).upc = s.upc := by dsimp only [setCoef]
@[simp] theorem setCoef_sym : (setCoef m ch k v s).sym = s.sym := by dsimp only [setCoef]
@[simp] theorem setCoef_raw : (setCoef m ch k v s).raw = s.raw := by dsimp only [setCoef]
@[simp] theorem setCoef_ext : (setCoef m ch k v s).ext = s.ext := by dsimp only [setCoef]
@[simp] theorem setCoef_bitOut : (setCoef m ch k v s).bitOut = s.bitOut := by dsimp only [setCoef]
@[simp] theorem setCoef_pixel : (setCoef m ch k v s).pixel = s.pixel := by dsimp only [setCoef]
@[simp] theorem setCoef_rdata : (setCoef m ch k v s).rdata = s.rdata := by dsimp only [setCoef]
@[simp] theorem setCoef_draws : (setCoef m ch k v s).draws = s.draws := by dsimp only [setCoef]

/-! `setPred` writes dcpred only. -/

@[simp] theorem setPred_state : (setPred c v s).state = s.state := by dsimp only [setPred]
@[simp] theorem setPred_wign : (setPred c v s).wign = s.wign := by dsimp only [setPred]
@[simp] theorem setPred_irqen : (setPred c v s).irqen = s.irqen := by dsimp only [setPred]
@[simp] theorem setPred_phase : (setPred c v s).phase = s.phase := by dsimp only [setPred]
@[simp] theorem setPred_ip : (setPred c v s).ip = s.ip := by dsimp only [setPred]
@[simp] theorem setPred_bp : (setPred c v s).bp = s.bp := by dsimp only [setPred]
@[simp] theorem setPred_bi : (setPred c v s).bi = s.bi := by dsimp only [setPred]
@[simp] theorem setPred_mcu : (setPred c v s).mcu = s.mcu := by dsimp only [setPred]
@[simp] theorem setPred_slot : (setPred c v s).slot = s.slot := by dsimp only [setPred]
@[simp] theorem setPred_k : (setPred c v s).k = s.k := by dsimp only [setPred]
@[simp] theorem setPred_code : (setPred c v s).code = s.code := by dsimp only [setPred]
@[simp] theorem setPred_first : (setPred c v s).first = s.first := by dsimp only [setPred]
@[simp] theorem setPred_len : (setPred c v s).len = s.len := by dsimp only [setPred]
@[simp] theorem setPred_errcode : (setPred c v s).errcode = s.errcode := by dsimp only [setPred]
@[simp] theorem setPred_errpos : (setPred c v s).errpos = s.errpos := by dsimp only [setPred]
@[simp] theorem setPred_errval : (setPred c v s).errval = s.errval := by dsimp only [setPred]
@[simp] theorem setPred_errmcu : (setPred c v s).errmcu = s.errmcu := by dsimp only [setPred]
@[simp] theorem setPred_errblk : (setPred c v s).errblk = s.errblk := by dsimp only [setPred]
@[simp] theorem setPred_framedim : (setPred c v s).framedim = s.framedim := by dsimp only [setPred]
@[simp] theorem setPred_framecfg : (setPred c v s).framecfg = s.framecfg := by dsimp only [setPred]
@[simp] theorem setPred_scancomp : (setPred c v s).scancomp = s.scancomp := by dsimp only [setPred]
@[simp] theorem setPred_tabset : (setPred c v s).tabset = s.tabset := by dsimp only [setPred]
@[simp] theorem setPred_cleanlen : (setPred c v s).cleanlen = s.cleanlen := by dsimp only [setPred]
@[simp] theorem setPred_mcucnt : (setPred c v s).mcucnt = s.mcucnt := by dsimp only [setPred]
@[simp] theorem setPred_qtab : (setPred c v s).qtab = s.qtab := by dsimp only [setPred]
@[simp] theorem setPred_hoff : (setPred c v s).hoff = s.hoff := by dsimp only [setPred]
@[simp] theorem setPred_hsym : (setPred c v s).hsym = s.hsym := by dsimp only [setPred]
@[simp] theorem setPred_clean : (setPred c v s).clean = s.clean := by dsimp only [setPred]
@[simp] theorem setPred_coef : (setPred c v s).coef = s.coef := by dsimp only [setPred]
@[simp] theorem setPred_dq : (setPred c v s).dq = s.dq := by dsimp only [setPred]
@[simp] theorem setPred_t : (setPred c v s).t = s.t := by dsimp only [setPred]
@[simp] theorem setPred_acc : (setPred c v s).acc = s.acc := by dsimp only [setPred]
@[simp] theorem setPred_out : (setPred c v s).out = s.out := by dsimp only [setPred]
@[simp] theorem setPred_samp : (setPred c v s).samp = s.samp := by dsimp only [setPred]
@[simp] theorem setPred_rgb : (setPred c v s).rgb = s.rgb := by dsimp only [setPred]
@[simp] theorem setPred_pix : (setPred c v s).pix = s.pix := by dsimp only [setPred]
@[simp] theorem setPred_pixOld : (setPred c v s).pixOld = s.pixOld := by dsimp only [setPred]
@[simp] theorem setPred_input : (setPred c v s).input = s.input := by dsimp only [setPred]
@[simp] theorem setPred_inputEnd : (setPred c v s).inputEnd = s.inputEnd := by dsimp only [setPred]
@[simp] theorem setPred_inputFresh : (setPred c v s).inputFresh = s.inputFresh := by dsimp only [setPred]
@[simp] theorem setPred_hostq : (setPred c v s).hostq = s.hostq := by dsimp only [setPred]
@[simp] theorem setPred_params : (setPred c v s).params = s.params := by dsimp only [setPred]
@[simp] theorem setPred_upc : (setPred c v s).upc = s.upc := by dsimp only [setPred]
@[simp] theorem setPred_sym : (setPred c v s).sym = s.sym := by dsimp only [setPred]
@[simp] theorem setPred_raw : (setPred c v s).raw = s.raw := by dsimp only [setPred]
@[simp] theorem setPred_ext : (setPred c v s).ext = s.ext := by dsimp only [setPred]
@[simp] theorem setPred_bitOut : (setPred c v s).bitOut = s.bitOut := by dsimp only [setPred]
@[simp] theorem setPred_pixel : (setPred c v s).pixel = s.pixel := by dsimp only [setPred]
@[simp] theorem setPred_rdata : (setPred c v s).rdata = s.rdata := by dsimp only [setPred]
@[simp] theorem setPred_draws : (setPred c v s).draws = s.draws := by dsimp only [setPred]

/-! `zeroBlock` writes coef only. -/

@[simp] theorem zeroBlock_state : (zeroBlock m ch s).state = s.state := by dsimp only [zeroBlock]
@[simp] theorem zeroBlock_wign : (zeroBlock m ch s).wign = s.wign := by dsimp only [zeroBlock]
@[simp] theorem zeroBlock_irqen : (zeroBlock m ch s).irqen = s.irqen := by dsimp only [zeroBlock]
@[simp] theorem zeroBlock_phase : (zeroBlock m ch s).phase = s.phase := by dsimp only [zeroBlock]
@[simp] theorem zeroBlock_ip : (zeroBlock m ch s).ip = s.ip := by dsimp only [zeroBlock]
@[simp] theorem zeroBlock_bp : (zeroBlock m ch s).bp = s.bp := by dsimp only [zeroBlock]
@[simp] theorem zeroBlock_bi : (zeroBlock m ch s).bi = s.bi := by dsimp only [zeroBlock]
@[simp] theorem zeroBlock_mcu : (zeroBlock m ch s).mcu = s.mcu := by dsimp only [zeroBlock]
@[simp] theorem zeroBlock_slot : (zeroBlock m ch s).slot = s.slot := by dsimp only [zeroBlock]
@[simp] theorem zeroBlock_k : (zeroBlock m ch s).k = s.k := by dsimp only [zeroBlock]
@[simp] theorem zeroBlock_dcpred : (zeroBlock m ch s).dcpred = s.dcpred := by dsimp only [zeroBlock]
@[simp] theorem zeroBlock_code : (zeroBlock m ch s).code = s.code := by dsimp only [zeroBlock]
@[simp] theorem zeroBlock_first : (zeroBlock m ch s).first = s.first := by dsimp only [zeroBlock]
@[simp] theorem zeroBlock_len : (zeroBlock m ch s).len = s.len := by dsimp only [zeroBlock]
@[simp] theorem zeroBlock_errcode : (zeroBlock m ch s).errcode = s.errcode := by dsimp only [zeroBlock]
@[simp] theorem zeroBlock_errpos : (zeroBlock m ch s).errpos = s.errpos := by dsimp only [zeroBlock]
@[simp] theorem zeroBlock_errval : (zeroBlock m ch s).errval = s.errval := by dsimp only [zeroBlock]
@[simp] theorem zeroBlock_errmcu : (zeroBlock m ch s).errmcu = s.errmcu := by dsimp only [zeroBlock]
@[simp] theorem zeroBlock_errblk : (zeroBlock m ch s).errblk = s.errblk := by dsimp only [zeroBlock]
@[simp] theorem zeroBlock_framedim : (zeroBlock m ch s).framedim = s.framedim := by dsimp only [zeroBlock]
@[simp] theorem zeroBlock_framecfg : (zeroBlock m ch s).framecfg = s.framecfg := by dsimp only [zeroBlock]
@[simp] theorem zeroBlock_scancomp : (zeroBlock m ch s).scancomp = s.scancomp := by dsimp only [zeroBlock]
@[simp] theorem zeroBlock_tabset : (zeroBlock m ch s).tabset = s.tabset := by dsimp only [zeroBlock]
@[simp] theorem zeroBlock_cleanlen : (zeroBlock m ch s).cleanlen = s.cleanlen := by dsimp only [zeroBlock]
@[simp] theorem zeroBlock_mcucnt : (zeroBlock m ch s).mcucnt = s.mcucnt := by dsimp only [zeroBlock]
@[simp] theorem zeroBlock_qtab : (zeroBlock m ch s).qtab = s.qtab := by dsimp only [zeroBlock]
@[simp] theorem zeroBlock_hoff : (zeroBlock m ch s).hoff = s.hoff := by dsimp only [zeroBlock]
@[simp] theorem zeroBlock_hsym : (zeroBlock m ch s).hsym = s.hsym := by dsimp only [zeroBlock]
@[simp] theorem zeroBlock_clean : (zeroBlock m ch s).clean = s.clean := by dsimp only [zeroBlock]
@[simp] theorem zeroBlock_dq : (zeroBlock m ch s).dq = s.dq := by dsimp only [zeroBlock]
@[simp] theorem zeroBlock_t : (zeroBlock m ch s).t = s.t := by dsimp only [zeroBlock]
@[simp] theorem zeroBlock_acc : (zeroBlock m ch s).acc = s.acc := by dsimp only [zeroBlock]
@[simp] theorem zeroBlock_out : (zeroBlock m ch s).out = s.out := by dsimp only [zeroBlock]
@[simp] theorem zeroBlock_samp : (zeroBlock m ch s).samp = s.samp := by dsimp only [zeroBlock]
@[simp] theorem zeroBlock_rgb : (zeroBlock m ch s).rgb = s.rgb := by dsimp only [zeroBlock]
@[simp] theorem zeroBlock_pix : (zeroBlock m ch s).pix = s.pix := by dsimp only [zeroBlock]
@[simp] theorem zeroBlock_pixOld : (zeroBlock m ch s).pixOld = s.pixOld := by dsimp only [zeroBlock]
@[simp] theorem zeroBlock_input : (zeroBlock m ch s).input = s.input := by dsimp only [zeroBlock]
@[simp] theorem zeroBlock_inputEnd : (zeroBlock m ch s).inputEnd = s.inputEnd := by dsimp only [zeroBlock]
@[simp] theorem zeroBlock_inputFresh : (zeroBlock m ch s).inputFresh = s.inputFresh := by dsimp only [zeroBlock]
@[simp] theorem zeroBlock_hostq : (zeroBlock m ch s).hostq = s.hostq := by dsimp only [zeroBlock]
@[simp] theorem zeroBlock_params : (zeroBlock m ch s).params = s.params := by dsimp only [zeroBlock]
@[simp] theorem zeroBlock_upc : (zeroBlock m ch s).upc = s.upc := by dsimp only [zeroBlock]
@[simp] theorem zeroBlock_sym : (zeroBlock m ch s).sym = s.sym := by dsimp only [zeroBlock]
@[simp] theorem zeroBlock_raw : (zeroBlock m ch s).raw = s.raw := by dsimp only [zeroBlock]
@[simp] theorem zeroBlock_ext : (zeroBlock m ch s).ext = s.ext := by dsimp only [zeroBlock]
@[simp] theorem zeroBlock_bitOut : (zeroBlock m ch s).bitOut = s.bitOut := by dsimp only [zeroBlock]
@[simp] theorem zeroBlock_pixel : (zeroBlock m ch s).pixel = s.pixel := by dsimp only [zeroBlock]
@[simp] theorem zeroBlock_rdata : (zeroBlock m ch s).rdata = s.rdata := by dsimp only [zeroBlock]
@[simp] theorem zeroBlock_draws : (zeroBlock m ch s).draws = s.draws := by dsimp only [zeroBlock]

/-! `clearRun` writes errcode, errpos, errval, errmcu, errblk, ip, bp, bi, mcu, slot, k, cleanlen, mcucnt, dcpred only. -/

@[simp] theorem clearRun_state : (clearRun s).state = s.state := by dsimp only [clearRun]
@[simp] theorem clearRun_wign : (clearRun s).wign = s.wign := by dsimp only [clearRun]
@[simp] theorem clearRun_irqen : (clearRun s).irqen = s.irqen := by dsimp only [clearRun]
@[simp] theorem clearRun_phase : (clearRun s).phase = s.phase := by dsimp only [clearRun]
@[simp] theorem clearRun_code : (clearRun s).code = s.code := by dsimp only [clearRun]
@[simp] theorem clearRun_first : (clearRun s).first = s.first := by dsimp only [clearRun]
@[simp] theorem clearRun_len : (clearRun s).len = s.len := by dsimp only [clearRun]
@[simp] theorem clearRun_framedim : (clearRun s).framedim = s.framedim := by dsimp only [clearRun]
@[simp] theorem clearRun_framecfg : (clearRun s).framecfg = s.framecfg := by dsimp only [clearRun]
@[simp] theorem clearRun_scancomp : (clearRun s).scancomp = s.scancomp := by dsimp only [clearRun]
@[simp] theorem clearRun_tabset : (clearRun s).tabset = s.tabset := by dsimp only [clearRun]
@[simp] theorem clearRun_qtab : (clearRun s).qtab = s.qtab := by dsimp only [clearRun]
@[simp] theorem clearRun_hoff : (clearRun s).hoff = s.hoff := by dsimp only [clearRun]
@[simp] theorem clearRun_hsym : (clearRun s).hsym = s.hsym := by dsimp only [clearRun]
@[simp] theorem clearRun_clean : (clearRun s).clean = s.clean := by dsimp only [clearRun]
@[simp] theorem clearRun_coef : (clearRun s).coef = s.coef := by dsimp only [clearRun]
@[simp] theorem clearRun_dq : (clearRun s).dq = s.dq := by dsimp only [clearRun]
@[simp] theorem clearRun_t : (clearRun s).t = s.t := by dsimp only [clearRun]
@[simp] theorem clearRun_acc : (clearRun s).acc = s.acc := by dsimp only [clearRun]
@[simp] theorem clearRun_out : (clearRun s).out = s.out := by dsimp only [clearRun]
@[simp] theorem clearRun_samp : (clearRun s).samp = s.samp := by dsimp only [clearRun]
@[simp] theorem clearRun_rgb : (clearRun s).rgb = s.rgb := by dsimp only [clearRun]
@[simp] theorem clearRun_pix : (clearRun s).pix = s.pix := by dsimp only [clearRun]
@[simp] theorem clearRun_pixOld : (clearRun s).pixOld = s.pixOld := by dsimp only [clearRun]
@[simp] theorem clearRun_inputEnd : (clearRun s).inputEnd = s.inputEnd := by dsimp only [clearRun]
@[simp] theorem clearRun_hostq : (clearRun s).hostq = s.hostq := by dsimp only [clearRun]
@[simp] theorem clearRun_params : (clearRun s).params = s.params := by dsimp only [clearRun]
@[simp] theorem clearRun_upc : (clearRun s).upc = s.upc := by dsimp only [clearRun]
@[simp] theorem clearRun_sym : (clearRun s).sym = s.sym := by dsimp only [clearRun]
@[simp] theorem clearRun_raw : (clearRun s).raw = s.raw := by dsimp only [clearRun]
@[simp] theorem clearRun_ext : (clearRun s).ext = s.ext := by dsimp only [clearRun]
@[simp] theorem clearRun_bitOut : (clearRun s).bitOut = s.bitOut := by dsimp only [clearRun]
@[simp] theorem clearRun_pixel : (clearRun s).pixel = s.pixel := by dsimp only [clearRun]
@[simp] theorem clearRun_rdata : (clearRun s).rdata = s.rdata := by dsimp only [clearRun]
@[simp] theorem clearRun_draws : (clearRun s).draws = s.draws := by dsimp only [clearRun]

/-! `faultEntry` writes errcode, errpos, errval, errmcu, errblk, phase, state, upc, draws only. -/

@[simp] theorem faultEntry_wign : (faultEntry e pos val s).wign = s.wign := by dsimp only [faultEntry]
@[simp] theorem faultEntry_irqen : (faultEntry e pos val s).irqen = s.irqen := by dsimp only [faultEntry]
@[simp] theorem faultEntry_ip : (faultEntry e pos val s).ip = s.ip := by dsimp only [faultEntry]
@[simp] theorem faultEntry_bp : (faultEntry e pos val s).bp = s.bp := by dsimp only [faultEntry]
@[simp] theorem faultEntry_bi : (faultEntry e pos val s).bi = s.bi := by dsimp only [faultEntry]
@[simp] theorem faultEntry_mcu : (faultEntry e pos val s).mcu = s.mcu := by dsimp only [faultEntry]
@[simp] theorem faultEntry_slot : (faultEntry e pos val s).slot = s.slot := by dsimp only [faultEntry]
@[simp] theorem faultEntry_k : (faultEntry e pos val s).k = s.k := by dsimp only [faultEntry]
@[simp] theorem faultEntry_dcpred : (faultEntry e pos val s).dcpred = s.dcpred := by dsimp only [faultEntry]
@[simp] theorem faultEntry_code : (faultEntry e pos val s).code = s.code := by dsimp only [faultEntry]
@[simp] theorem faultEntry_first : (faultEntry e pos val s).first = s.first := by dsimp only [faultEntry]
@[simp] theorem faultEntry_len : (faultEntry e pos val s).len = s.len := by dsimp only [faultEntry]
@[simp] theorem faultEntry_framedim : (faultEntry e pos val s).framedim = s.framedim := by dsimp only [faultEntry]
@[simp] theorem faultEntry_framecfg : (faultEntry e pos val s).framecfg = s.framecfg := by dsimp only [faultEntry]
@[simp] theorem faultEntry_scancomp : (faultEntry e pos val s).scancomp = s.scancomp := by dsimp only [faultEntry]
@[simp] theorem faultEntry_tabset : (faultEntry e pos val s).tabset = s.tabset := by dsimp only [faultEntry]
@[simp] theorem faultEntry_cleanlen : (faultEntry e pos val s).cleanlen = s.cleanlen := by dsimp only [faultEntry]
@[simp] theorem faultEntry_mcucnt : (faultEntry e pos val s).mcucnt = s.mcucnt := by dsimp only [faultEntry]
@[simp] theorem faultEntry_qtab : (faultEntry e pos val s).qtab = s.qtab := by dsimp only [faultEntry]
@[simp] theorem faultEntry_hoff : (faultEntry e pos val s).hoff = s.hoff := by dsimp only [faultEntry]
@[simp] theorem faultEntry_hsym : (faultEntry e pos val s).hsym = s.hsym := by dsimp only [faultEntry]
@[simp] theorem faultEntry_clean : (faultEntry e pos val s).clean = s.clean := by dsimp only [faultEntry]
@[simp] theorem faultEntry_coef : (faultEntry e pos val s).coef = s.coef := by dsimp only [faultEntry]
@[simp] theorem faultEntry_dq : (faultEntry e pos val s).dq = s.dq := by dsimp only [faultEntry]
@[simp] theorem faultEntry_t : (faultEntry e pos val s).t = s.t := by dsimp only [faultEntry]
@[simp] theorem faultEntry_acc : (faultEntry e pos val s).acc = s.acc := by dsimp only [faultEntry]
@[simp] theorem faultEntry_out : (faultEntry e pos val s).out = s.out := by dsimp only [faultEntry]
@[simp] theorem faultEntry_samp : (faultEntry e pos val s).samp = s.samp := by dsimp only [faultEntry]
@[simp] theorem faultEntry_rgb : (faultEntry e pos val s).rgb = s.rgb := by dsimp only [faultEntry]
@[simp] theorem faultEntry_pix : (faultEntry e pos val s).pix = s.pix := by dsimp only [faultEntry]
@[simp] theorem faultEntry_pixOld : (faultEntry e pos val s).pixOld = s.pixOld := by dsimp only [faultEntry]
@[simp] theorem faultEntry_input : (faultEntry e pos val s).input = s.input := by dsimp only [faultEntry]
@[simp] theorem faultEntry_inputEnd : (faultEntry e pos val s).inputEnd = s.inputEnd := by dsimp only [faultEntry]
@[simp] theorem faultEntry_inputFresh : (faultEntry e pos val s).inputFresh = s.inputFresh := by dsimp only [faultEntry]
@[simp] theorem faultEntry_hostq : (faultEntry e pos val s).hostq = s.hostq := by dsimp only [faultEntry]
@[simp] theorem faultEntry_params : (faultEntry e pos val s).params = s.params := by dsimp only [faultEntry]
@[simp] theorem faultEntry_sym : (faultEntry e pos val s).sym = s.sym := by dsimp only [faultEntry]
@[simp] theorem faultEntry_raw : (faultEntry e pos val s).raw = s.raw := by dsimp only [faultEntry]
@[simp] theorem faultEntry_ext : (faultEntry e pos val s).ext = s.ext := by dsimp only [faultEntry]
@[simp] theorem faultEntry_bitOut : (faultEntry e pos val s).bitOut = s.bitOut := by dsimp only [faultEntry]
@[simp] theorem faultEntry_pixel : (faultEntry e pos val s).pixel = s.pixel := by dsimp only [faultEntry]
@[simp] theorem faultEntry_rdata : (faultEntry e pos val s).rdata = s.rdata := by dsimp only [faultEntry]

/-! `finishRun` writes phase, state, upc only. -/

@[simp] theorem finishRun_wign : (finishRun s).wign = s.wign := by dsimp only [finishRun]
@[simp] theorem finishRun_irqen : (finishRun s).irqen = s.irqen := by dsimp only [finishRun]
@[simp] theorem finishRun_ip : (finishRun s).ip = s.ip := by dsimp only [finishRun]
@[simp] theorem finishRun_bp : (finishRun s).bp = s.bp := by dsimp only [finishRun]
@[simp] theorem finishRun_bi : (finishRun s).bi = s.bi := by dsimp only [finishRun]
@[simp] theorem finishRun_mcu : (finishRun s).mcu = s.mcu := by dsimp only [finishRun]
@[simp] theorem finishRun_slot : (finishRun s).slot = s.slot := by dsimp only [finishRun]
@[simp] theorem finishRun_k : (finishRun s).k = s.k := by dsimp only [finishRun]
@[simp] theorem finishRun_dcpred : (finishRun s).dcpred = s.dcpred := by dsimp only [finishRun]
@[simp] theorem finishRun_code : (finishRun s).code = s.code := by dsimp only [finishRun]
@[simp] theorem finishRun_first : (finishRun s).first = s.first := by dsimp only [finishRun]
@[simp] theorem finishRun_len : (finishRun s).len = s.len := by dsimp only [finishRun]
@[simp] theorem finishRun_errcode : (finishRun s).errcode = s.errcode := by dsimp only [finishRun]
@[simp] theorem finishRun_errpos : (finishRun s).errpos = s.errpos := by dsimp only [finishRun]
@[simp] theorem finishRun_errval : (finishRun s).errval = s.errval := by dsimp only [finishRun]
@[simp] theorem finishRun_errmcu : (finishRun s).errmcu = s.errmcu := by dsimp only [finishRun]
@[simp] theorem finishRun_errblk : (finishRun s).errblk = s.errblk := by dsimp only [finishRun]
@[simp] theorem finishRun_framedim : (finishRun s).framedim = s.framedim := by dsimp only [finishRun]
@[simp] theorem finishRun_framecfg : (finishRun s).framecfg = s.framecfg := by dsimp only [finishRun]
@[simp] theorem finishRun_scancomp : (finishRun s).scancomp = s.scancomp := by dsimp only [finishRun]
@[simp] theorem finishRun_tabset : (finishRun s).tabset = s.tabset := by dsimp only [finishRun]
@[simp] theorem finishRun_cleanlen : (finishRun s).cleanlen = s.cleanlen := by dsimp only [finishRun]
@[simp] theorem finishRun_mcucnt : (finishRun s).mcucnt = s.mcucnt := by dsimp only [finishRun]
@[simp] theorem finishRun_qtab : (finishRun s).qtab = s.qtab := by dsimp only [finishRun]
@[simp] theorem finishRun_hoff : (finishRun s).hoff = s.hoff := by dsimp only [finishRun]
@[simp] theorem finishRun_hsym : (finishRun s).hsym = s.hsym := by dsimp only [finishRun]
@[simp] theorem finishRun_clean : (finishRun s).clean = s.clean := by dsimp only [finishRun]
@[simp] theorem finishRun_coef : (finishRun s).coef = s.coef := by dsimp only [finishRun]
@[simp] theorem finishRun_dq : (finishRun s).dq = s.dq := by dsimp only [finishRun]
@[simp] theorem finishRun_t : (finishRun s).t = s.t := by dsimp only [finishRun]
@[simp] theorem finishRun_acc : (finishRun s).acc = s.acc := by dsimp only [finishRun]
@[simp] theorem finishRun_out : (finishRun s).out = s.out := by dsimp only [finishRun]
@[simp] theorem finishRun_samp : (finishRun s).samp = s.samp := by dsimp only [finishRun]
@[simp] theorem finishRun_rgb : (finishRun s).rgb = s.rgb := by dsimp only [finishRun]
@[simp] theorem finishRun_pix : (finishRun s).pix = s.pix := by dsimp only [finishRun]
@[simp] theorem finishRun_pixOld : (finishRun s).pixOld = s.pixOld := by dsimp only [finishRun]
@[simp] theorem finishRun_input : (finishRun s).input = s.input := by dsimp only [finishRun]
@[simp] theorem finishRun_inputEnd : (finishRun s).inputEnd = s.inputEnd := by dsimp only [finishRun]
@[simp] theorem finishRun_inputFresh : (finishRun s).inputFresh = s.inputFresh := by dsimp only [finishRun]
@[simp] theorem finishRun_hostq : (finishRun s).hostq = s.hostq := by dsimp only [finishRun]
@[simp] theorem finishRun_params : (finishRun s).params = s.params := by dsimp only [finishRun]
@[simp] theorem finishRun_sym : (finishRun s).sym = s.sym := by dsimp only [finishRun]
@[simp] theorem finishRun_raw : (finishRun s).raw = s.raw := by dsimp only [finishRun]
@[simp] theorem finishRun_ext : (finishRun s).ext = s.ext := by dsimp only [finishRun]
@[simp] theorem finishRun_bitOut : (finishRun s).bitOut = s.bitOut := by dsimp only [finishRun]
@[simp] theorem finishRun_pixel : (finishRun s).pixel = s.pixel := by dsimp only [finishRun]
@[simp] theorem finishRun_rdata : (finishRun s).rdata = s.rdata := by dsimp only [finishRun]
@[simp] theorem finishRun_draws : (finishRun s).draws = s.draws := by dsimp only [finishRun]

/-! `advanceBit` writes bp, bi, bitOut only. -/

@[simp] theorem advanceBit_state : (advanceBit b s).state = s.state := by unfold advanceBit; split <;> rfl
@[simp] theorem advanceBit_wign : (advanceBit b s).wign = s.wign := by unfold advanceBit; split <;> rfl
@[simp] theorem advanceBit_irqen : (advanceBit b s).irqen = s.irqen := by unfold advanceBit; split <;> rfl
@[simp] theorem advanceBit_phase : (advanceBit b s).phase = s.phase := by unfold advanceBit; split <;> rfl
@[simp] theorem advanceBit_ip : (advanceBit b s).ip = s.ip := by unfold advanceBit; split <;> rfl
@[simp] theorem advanceBit_mcu : (advanceBit b s).mcu = s.mcu := by unfold advanceBit; split <;> rfl
@[simp] theorem advanceBit_slot : (advanceBit b s).slot = s.slot := by unfold advanceBit; split <;> rfl
@[simp] theorem advanceBit_k : (advanceBit b s).k = s.k := by unfold advanceBit; split <;> rfl
@[simp] theorem advanceBit_dcpred : (advanceBit b s).dcpred = s.dcpred := by unfold advanceBit; split <;> rfl
@[simp] theorem advanceBit_code : (advanceBit b s).code = s.code := by unfold advanceBit; split <;> rfl
@[simp] theorem advanceBit_first : (advanceBit b s).first = s.first := by unfold advanceBit; split <;> rfl
@[simp] theorem advanceBit_len : (advanceBit b s).len = s.len := by unfold advanceBit; split <;> rfl
@[simp] theorem advanceBit_errcode : (advanceBit b s).errcode = s.errcode := by unfold advanceBit; split <;> rfl
@[simp] theorem advanceBit_errpos : (advanceBit b s).errpos = s.errpos := by unfold advanceBit; split <;> rfl
@[simp] theorem advanceBit_errval : (advanceBit b s).errval = s.errval := by unfold advanceBit; split <;> rfl
@[simp] theorem advanceBit_errmcu : (advanceBit b s).errmcu = s.errmcu := by unfold advanceBit; split <;> rfl
@[simp] theorem advanceBit_errblk : (advanceBit b s).errblk = s.errblk := by unfold advanceBit; split <;> rfl
@[simp] theorem advanceBit_framedim : (advanceBit b s).framedim = s.framedim := by unfold advanceBit; split <;> rfl
@[simp] theorem advanceBit_framecfg : (advanceBit b s).framecfg = s.framecfg := by unfold advanceBit; split <;> rfl
@[simp] theorem advanceBit_scancomp : (advanceBit b s).scancomp = s.scancomp := by unfold advanceBit; split <;> rfl
@[simp] theorem advanceBit_tabset : (advanceBit b s).tabset = s.tabset := by unfold advanceBit; split <;> rfl
@[simp] theorem advanceBit_cleanlen : (advanceBit b s).cleanlen = s.cleanlen := by unfold advanceBit; split <;> rfl
@[simp] theorem advanceBit_mcucnt : (advanceBit b s).mcucnt = s.mcucnt := by unfold advanceBit; split <;> rfl
@[simp] theorem advanceBit_qtab : (advanceBit b s).qtab = s.qtab := by unfold advanceBit; split <;> rfl
@[simp] theorem advanceBit_hoff : (advanceBit b s).hoff = s.hoff := by unfold advanceBit; split <;> rfl
@[simp] theorem advanceBit_hsym : (advanceBit b s).hsym = s.hsym := by unfold advanceBit; split <;> rfl
@[simp] theorem advanceBit_clean : (advanceBit b s).clean = s.clean := by unfold advanceBit; split <;> rfl
@[simp] theorem advanceBit_coef : (advanceBit b s).coef = s.coef := by unfold advanceBit; split <;> rfl
@[simp] theorem advanceBit_dq : (advanceBit b s).dq = s.dq := by unfold advanceBit; split <;> rfl
@[simp] theorem advanceBit_t : (advanceBit b s).t = s.t := by unfold advanceBit; split <;> rfl
@[simp] theorem advanceBit_acc : (advanceBit b s).acc = s.acc := by unfold advanceBit; split <;> rfl
@[simp] theorem advanceBit_out : (advanceBit b s).out = s.out := by unfold advanceBit; split <;> rfl
@[simp] theorem advanceBit_samp : (advanceBit b s).samp = s.samp := by unfold advanceBit; split <;> rfl
@[simp] theorem advanceBit_rgb : (advanceBit b s).rgb = s.rgb := by unfold advanceBit; split <;> rfl
@[simp] theorem advanceBit_pix : (advanceBit b s).pix = s.pix := by unfold advanceBit; split <;> rfl
@[simp] theorem advanceBit_pixOld : (advanceBit b s).pixOld = s.pixOld := by unfold advanceBit; split <;> rfl
@[simp] theorem advanceBit_input : (advanceBit b s).input = s.input := by unfold advanceBit; split <;> rfl
@[simp] theorem advanceBit_inputEnd : (advanceBit b s).inputEnd = s.inputEnd := by unfold advanceBit; split <;> rfl
@[simp] theorem advanceBit_inputFresh : (advanceBit b s).inputFresh = s.inputFresh := by unfold advanceBit; split <;> rfl
@[simp] theorem advanceBit_hostq : (advanceBit b s).hostq = s.hostq := by unfold advanceBit; split <;> rfl
@[simp] theorem advanceBit_params : (advanceBit b s).params = s.params := by unfold advanceBit; split <;> rfl
@[simp] theorem advanceBit_upc : (advanceBit b s).upc = s.upc := by unfold advanceBit; split <;> rfl
@[simp] theorem advanceBit_sym : (advanceBit b s).sym = s.sym := by unfold advanceBit; split <;> rfl
@[simp] theorem advanceBit_raw : (advanceBit b s).raw = s.raw := by unfold advanceBit; split <;> rfl
@[simp] theorem advanceBit_ext : (advanceBit b s).ext = s.ext := by unfold advanceBit; split <;> rfl
@[simp] theorem advanceBit_pixel : (advanceBit b s).pixel = s.pixel := by unfold advanceBit; split <;> rfl
@[simp] theorem advanceBit_rdata : (advanceBit b s).rdata = s.rdata := by unfold advanceBit; split <;> rfl
@[simp] theorem advanceBit_draws : (advanceBit b s).draws = s.draws := by unfold advanceBit; split <;> rfl

/-! `alignCursor` writes bp, bi only. -/

@[simp] theorem alignCursor_state : (alignCursor s).state = s.state := by unfold alignCursor; split <;> rfl
@[simp] theorem alignCursor_wign : (alignCursor s).wign = s.wign := by unfold alignCursor; split <;> rfl
@[simp] theorem alignCursor_irqen : (alignCursor s).irqen = s.irqen := by unfold alignCursor; split <;> rfl
@[simp] theorem alignCursor_phase : (alignCursor s).phase = s.phase := by unfold alignCursor; split <;> rfl
@[simp] theorem alignCursor_ip : (alignCursor s).ip = s.ip := by unfold alignCursor; split <;> rfl
@[simp] theorem alignCursor_mcu : (alignCursor s).mcu = s.mcu := by unfold alignCursor; split <;> rfl
@[simp] theorem alignCursor_slot : (alignCursor s).slot = s.slot := by unfold alignCursor; split <;> rfl
@[simp] theorem alignCursor_k : (alignCursor s).k = s.k := by unfold alignCursor; split <;> rfl
@[simp] theorem alignCursor_dcpred : (alignCursor s).dcpred = s.dcpred := by unfold alignCursor; split <;> rfl
@[simp] theorem alignCursor_code : (alignCursor s).code = s.code := by unfold alignCursor; split <;> rfl
@[simp] theorem alignCursor_first : (alignCursor s).first = s.first := by unfold alignCursor; split <;> rfl
@[simp] theorem alignCursor_len : (alignCursor s).len = s.len := by unfold alignCursor; split <;> rfl
@[simp] theorem alignCursor_errcode : (alignCursor s).errcode = s.errcode := by unfold alignCursor; split <;> rfl
@[simp] theorem alignCursor_errpos : (alignCursor s).errpos = s.errpos := by unfold alignCursor; split <;> rfl
@[simp] theorem alignCursor_errval : (alignCursor s).errval = s.errval := by unfold alignCursor; split <;> rfl
@[simp] theorem alignCursor_errmcu : (alignCursor s).errmcu = s.errmcu := by unfold alignCursor; split <;> rfl
@[simp] theorem alignCursor_errblk : (alignCursor s).errblk = s.errblk := by unfold alignCursor; split <;> rfl
@[simp] theorem alignCursor_framedim : (alignCursor s).framedim = s.framedim := by unfold alignCursor; split <;> rfl
@[simp] theorem alignCursor_framecfg : (alignCursor s).framecfg = s.framecfg := by unfold alignCursor; split <;> rfl
@[simp] theorem alignCursor_scancomp : (alignCursor s).scancomp = s.scancomp := by unfold alignCursor; split <;> rfl
@[simp] theorem alignCursor_tabset : (alignCursor s).tabset = s.tabset := by unfold alignCursor; split <;> rfl
@[simp] theorem alignCursor_cleanlen : (alignCursor s).cleanlen = s.cleanlen := by unfold alignCursor; split <;> rfl
@[simp] theorem alignCursor_mcucnt : (alignCursor s).mcucnt = s.mcucnt := by unfold alignCursor; split <;> rfl
@[simp] theorem alignCursor_qtab : (alignCursor s).qtab = s.qtab := by unfold alignCursor; split <;> rfl
@[simp] theorem alignCursor_hoff : (alignCursor s).hoff = s.hoff := by unfold alignCursor; split <;> rfl
@[simp] theorem alignCursor_hsym : (alignCursor s).hsym = s.hsym := by unfold alignCursor; split <;> rfl
@[simp] theorem alignCursor_clean : (alignCursor s).clean = s.clean := by unfold alignCursor; split <;> rfl
@[simp] theorem alignCursor_coef : (alignCursor s).coef = s.coef := by unfold alignCursor; split <;> rfl
@[simp] theorem alignCursor_dq : (alignCursor s).dq = s.dq := by unfold alignCursor; split <;> rfl
@[simp] theorem alignCursor_t : (alignCursor s).t = s.t := by unfold alignCursor; split <;> rfl
@[simp] theorem alignCursor_acc : (alignCursor s).acc = s.acc := by unfold alignCursor; split <;> rfl
@[simp] theorem alignCursor_out : (alignCursor s).out = s.out := by unfold alignCursor; split <;> rfl
@[simp] theorem alignCursor_samp : (alignCursor s).samp = s.samp := by unfold alignCursor; split <;> rfl
@[simp] theorem alignCursor_rgb : (alignCursor s).rgb = s.rgb := by unfold alignCursor; split <;> rfl
@[simp] theorem alignCursor_pix : (alignCursor s).pix = s.pix := by unfold alignCursor; split <;> rfl
@[simp] theorem alignCursor_pixOld : (alignCursor s).pixOld = s.pixOld := by unfold alignCursor; split <;> rfl
@[simp] theorem alignCursor_input : (alignCursor s).input = s.input := by unfold alignCursor; split <;> rfl
@[simp] theorem alignCursor_inputEnd : (alignCursor s).inputEnd = s.inputEnd := by unfold alignCursor; split <;> rfl
@[simp] theorem alignCursor_inputFresh : (alignCursor s).inputFresh = s.inputFresh := by unfold alignCursor; split <;> rfl
@[simp] theorem alignCursor_hostq : (alignCursor s).hostq = s.hostq := by unfold alignCursor; split <;> rfl
@[simp] theorem alignCursor_params : (alignCursor s).params = s.params := by unfold alignCursor; split <;> rfl
@[simp] theorem alignCursor_upc : (alignCursor s).upc = s.upc := by unfold alignCursor; split <;> rfl
@[simp] theorem alignCursor_sym : (alignCursor s).sym = s.sym := by unfold alignCursor; split <;> rfl
@[simp] theorem alignCursor_raw : (alignCursor s).raw = s.raw := by unfold alignCursor; split <;> rfl
@[simp] theorem alignCursor_ext : (alignCursor s).ext = s.ext := by unfold alignCursor; split <;> rfl
@[simp] theorem alignCursor_bitOut : (alignCursor s).bitOut = s.bitOut := by unfold alignCursor; split <;> rfl
@[simp] theorem alignCursor_pixel : (alignCursor s).pixel = s.pixel := by unfold alignCursor; split <;> rfl
@[simp] theorem alignCursor_rdata : (alignCursor s).rdata = s.rdata := by unfold alignCursor; split <;> rfl
@[simp] theorem alignCursor_draws : (alignCursor s).draws = s.draws := by unfold alignCursor; split <;> rfl

/-! `dequantBlock` writes dq, draws only. -/

@[simp] theorem dequantBlock_state : (dequantBlock m ch tq s).state = s.state := by dsimp only [dequantBlock, bumpDraws]
@[simp] theorem dequantBlock_wign : (dequantBlock m ch tq s).wign = s.wign := by dsimp only [dequantBlock, bumpDraws]
@[simp] theorem dequantBlock_irqen : (dequantBlock m ch tq s).irqen = s.irqen := by dsimp only [dequantBlock, bumpDraws]
@[simp] theorem dequantBlock_phase : (dequantBlock m ch tq s).phase = s.phase := by dsimp only [dequantBlock, bumpDraws]
@[simp] theorem dequantBlock_ip : (dequantBlock m ch tq s).ip = s.ip := by dsimp only [dequantBlock, bumpDraws]
@[simp] theorem dequantBlock_bp : (dequantBlock m ch tq s).bp = s.bp := by dsimp only [dequantBlock, bumpDraws]
@[simp] theorem dequantBlock_bi : (dequantBlock m ch tq s).bi = s.bi := by dsimp only [dequantBlock, bumpDraws]
@[simp] theorem dequantBlock_mcu : (dequantBlock m ch tq s).mcu = s.mcu := by dsimp only [dequantBlock, bumpDraws]
@[simp] theorem dequantBlock_slot : (dequantBlock m ch tq s).slot = s.slot := by dsimp only [dequantBlock, bumpDraws]
@[simp] theorem dequantBlock_k : (dequantBlock m ch tq s).k = s.k := by dsimp only [dequantBlock, bumpDraws]
@[simp] theorem dequantBlock_dcpred : (dequantBlock m ch tq s).dcpred = s.dcpred := by dsimp only [dequantBlock, bumpDraws]
@[simp] theorem dequantBlock_code : (dequantBlock m ch tq s).code = s.code := by dsimp only [dequantBlock, bumpDraws]
@[simp] theorem dequantBlock_first : (dequantBlock m ch tq s).first = s.first := by dsimp only [dequantBlock, bumpDraws]
@[simp] theorem dequantBlock_len : (dequantBlock m ch tq s).len = s.len := by dsimp only [dequantBlock, bumpDraws]
@[simp] theorem dequantBlock_errcode : (dequantBlock m ch tq s).errcode = s.errcode := by dsimp only [dequantBlock, bumpDraws]
@[simp] theorem dequantBlock_errpos : (dequantBlock m ch tq s).errpos = s.errpos := by dsimp only [dequantBlock, bumpDraws]
@[simp] theorem dequantBlock_errval : (dequantBlock m ch tq s).errval = s.errval := by dsimp only [dequantBlock, bumpDraws]
@[simp] theorem dequantBlock_errmcu : (dequantBlock m ch tq s).errmcu = s.errmcu := by dsimp only [dequantBlock, bumpDraws]
@[simp] theorem dequantBlock_errblk : (dequantBlock m ch tq s).errblk = s.errblk := by dsimp only [dequantBlock, bumpDraws]
@[simp] theorem dequantBlock_framedim : (dequantBlock m ch tq s).framedim = s.framedim := by dsimp only [dequantBlock, bumpDraws]
@[simp] theorem dequantBlock_framecfg : (dequantBlock m ch tq s).framecfg = s.framecfg := by dsimp only [dequantBlock, bumpDraws]
@[simp] theorem dequantBlock_scancomp : (dequantBlock m ch tq s).scancomp = s.scancomp := by dsimp only [dequantBlock, bumpDraws]
@[simp] theorem dequantBlock_tabset : (dequantBlock m ch tq s).tabset = s.tabset := by dsimp only [dequantBlock, bumpDraws]
@[simp] theorem dequantBlock_cleanlen : (dequantBlock m ch tq s).cleanlen = s.cleanlen := by dsimp only [dequantBlock, bumpDraws]
@[simp] theorem dequantBlock_mcucnt : (dequantBlock m ch tq s).mcucnt = s.mcucnt := by dsimp only [dequantBlock, bumpDraws]
@[simp] theorem dequantBlock_qtab : (dequantBlock m ch tq s).qtab = s.qtab := by dsimp only [dequantBlock, bumpDraws]
@[simp] theorem dequantBlock_hoff : (dequantBlock m ch tq s).hoff = s.hoff := by dsimp only [dequantBlock, bumpDraws]
@[simp] theorem dequantBlock_hsym : (dequantBlock m ch tq s).hsym = s.hsym := by dsimp only [dequantBlock, bumpDraws]
@[simp] theorem dequantBlock_clean : (dequantBlock m ch tq s).clean = s.clean := by dsimp only [dequantBlock, bumpDraws]
@[simp] theorem dequantBlock_coef : (dequantBlock m ch tq s).coef = s.coef := by dsimp only [dequantBlock, bumpDraws]
@[simp] theorem dequantBlock_t : (dequantBlock m ch tq s).t = s.t := by dsimp only [dequantBlock, bumpDraws]
@[simp] theorem dequantBlock_acc : (dequantBlock m ch tq s).acc = s.acc := by dsimp only [dequantBlock, bumpDraws]
@[simp] theorem dequantBlock_out : (dequantBlock m ch tq s).out = s.out := by dsimp only [dequantBlock, bumpDraws]
@[simp] theorem dequantBlock_samp : (dequantBlock m ch tq s).samp = s.samp := by dsimp only [dequantBlock, bumpDraws]
@[simp] theorem dequantBlock_rgb : (dequantBlock m ch tq s).rgb = s.rgb := by dsimp only [dequantBlock, bumpDraws]
@[simp] theorem dequantBlock_pix : (dequantBlock m ch tq s).pix = s.pix := by dsimp only [dequantBlock, bumpDraws]
@[simp] theorem dequantBlock_pixOld : (dequantBlock m ch tq s).pixOld = s.pixOld := by dsimp only [dequantBlock, bumpDraws]
@[simp] theorem dequantBlock_input : (dequantBlock m ch tq s).input = s.input := by dsimp only [dequantBlock, bumpDraws]
@[simp] theorem dequantBlock_inputEnd : (dequantBlock m ch tq s).inputEnd = s.inputEnd := by dsimp only [dequantBlock, bumpDraws]
@[simp] theorem dequantBlock_inputFresh : (dequantBlock m ch tq s).inputFresh = s.inputFresh := by dsimp only [dequantBlock, bumpDraws]
@[simp] theorem dequantBlock_hostq : (dequantBlock m ch tq s).hostq = s.hostq := by dsimp only [dequantBlock, bumpDraws]
@[simp] theorem dequantBlock_params : (dequantBlock m ch tq s).params = s.params := by dsimp only [dequantBlock, bumpDraws]
@[simp] theorem dequantBlock_upc : (dequantBlock m ch tq s).upc = s.upc := by dsimp only [dequantBlock, bumpDraws]
@[simp] theorem dequantBlock_sym : (dequantBlock m ch tq s).sym = s.sym := by dsimp only [dequantBlock, bumpDraws]
@[simp] theorem dequantBlock_raw : (dequantBlock m ch tq s).raw = s.raw := by dsimp only [dequantBlock, bumpDraws]
@[simp] theorem dequantBlock_ext : (dequantBlock m ch tq s).ext = s.ext := by dsimp only [dequantBlock, bumpDraws]
@[simp] theorem dequantBlock_bitOut : (dequantBlock m ch tq s).bitOut = s.bitOut := by dsimp only [dequantBlock, bumpDraws]
@[simp] theorem dequantBlock_pixel : (dequantBlock m ch tq s).pixel = s.pixel := by dsimp only [dequantBlock, bumpDraws]
@[simp] theorem dequantBlock_rdata : (dequantBlock m ch tq s).rdata = s.rdata := by dsimp only [dequantBlock, bumpDraws]

/-! `idctPasses` writes t, acc, out, draws only. -/

@[simp] theorem idctPasses_state : (idctPasses s).state = s.state := by dsimp only [idctPasses, bumpDraws]
@[simp] theorem idctPasses_wign : (idctPasses s).wign = s.wign := by dsimp only [idctPasses, bumpDraws]
@[simp] theorem idctPasses_irqen : (idctPasses s).irqen = s.irqen := by dsimp only [idctPasses, bumpDraws]
@[simp] theorem idctPasses_phase : (idctPasses s).phase = s.phase := by dsimp only [idctPasses, bumpDraws]
@[simp] theorem idctPasses_ip : (idctPasses s).ip = s.ip := by dsimp only [idctPasses, bumpDraws]
@[simp] theorem idctPasses_bp : (idctPasses s).bp = s.bp := by dsimp only [idctPasses, bumpDraws]
@[simp] theorem idctPasses_bi : (idctPasses s).bi = s.bi := by dsimp only [idctPasses, bumpDraws]
@[simp] theorem idctPasses_mcu : (idctPasses s).mcu = s.mcu := by dsimp only [idctPasses, bumpDraws]
@[simp] theorem idctPasses_slot : (idctPasses s).slot = s.slot := by dsimp only [idctPasses, bumpDraws]
@[simp] theorem idctPasses_k : (idctPasses s).k = s.k := by dsimp only [idctPasses, bumpDraws]
@[simp] theorem idctPasses_dcpred : (idctPasses s).dcpred = s.dcpred := by dsimp only [idctPasses, bumpDraws]
@[simp] theorem idctPasses_code : (idctPasses s).code = s.code := by dsimp only [idctPasses, bumpDraws]
@[simp] theorem idctPasses_first : (idctPasses s).first = s.first := by dsimp only [idctPasses, bumpDraws]
@[simp] theorem idctPasses_len : (idctPasses s).len = s.len := by dsimp only [idctPasses, bumpDraws]
@[simp] theorem idctPasses_errcode : (idctPasses s).errcode = s.errcode := by dsimp only [idctPasses, bumpDraws]
@[simp] theorem idctPasses_errpos : (idctPasses s).errpos = s.errpos := by dsimp only [idctPasses, bumpDraws]
@[simp] theorem idctPasses_errval : (idctPasses s).errval = s.errval := by dsimp only [idctPasses, bumpDraws]
@[simp] theorem idctPasses_errmcu : (idctPasses s).errmcu = s.errmcu := by dsimp only [idctPasses, bumpDraws]
@[simp] theorem idctPasses_errblk : (idctPasses s).errblk = s.errblk := by dsimp only [idctPasses, bumpDraws]
@[simp] theorem idctPasses_framedim : (idctPasses s).framedim = s.framedim := by dsimp only [idctPasses, bumpDraws]
@[simp] theorem idctPasses_framecfg : (idctPasses s).framecfg = s.framecfg := by dsimp only [idctPasses, bumpDraws]
@[simp] theorem idctPasses_scancomp : (idctPasses s).scancomp = s.scancomp := by dsimp only [idctPasses, bumpDraws]
@[simp] theorem idctPasses_tabset : (idctPasses s).tabset = s.tabset := by dsimp only [idctPasses, bumpDraws]
@[simp] theorem idctPasses_cleanlen : (idctPasses s).cleanlen = s.cleanlen := by dsimp only [idctPasses, bumpDraws]
@[simp] theorem idctPasses_mcucnt : (idctPasses s).mcucnt = s.mcucnt := by dsimp only [idctPasses, bumpDraws]
@[simp] theorem idctPasses_qtab : (idctPasses s).qtab = s.qtab := by dsimp only [idctPasses, bumpDraws]
@[simp] theorem idctPasses_hoff : (idctPasses s).hoff = s.hoff := by dsimp only [idctPasses, bumpDraws]
@[simp] theorem idctPasses_hsym : (idctPasses s).hsym = s.hsym := by dsimp only [idctPasses, bumpDraws]
@[simp] theorem idctPasses_clean : (idctPasses s).clean = s.clean := by dsimp only [idctPasses, bumpDraws]
@[simp] theorem idctPasses_coef : (idctPasses s).coef = s.coef := by dsimp only [idctPasses, bumpDraws]
@[simp] theorem idctPasses_dq : (idctPasses s).dq = s.dq := by dsimp only [idctPasses, bumpDraws]
@[simp] theorem idctPasses_samp : (idctPasses s).samp = s.samp := by dsimp only [idctPasses, bumpDraws]
@[simp] theorem idctPasses_rgb : (idctPasses s).rgb = s.rgb := by dsimp only [idctPasses, bumpDraws]
@[simp] theorem idctPasses_pix : (idctPasses s).pix = s.pix := by dsimp only [idctPasses, bumpDraws]
@[simp] theorem idctPasses_pixOld : (idctPasses s).pixOld = s.pixOld := by dsimp only [idctPasses, bumpDraws]
@[simp] theorem idctPasses_input : (idctPasses s).input = s.input := by dsimp only [idctPasses, bumpDraws]
@[simp] theorem idctPasses_inputEnd : (idctPasses s).inputEnd = s.inputEnd := by dsimp only [idctPasses, bumpDraws]
@[simp] theorem idctPasses_inputFresh : (idctPasses s).inputFresh = s.inputFresh := by dsimp only [idctPasses, bumpDraws]
@[simp] theorem idctPasses_hostq : (idctPasses s).hostq = s.hostq := by dsimp only [idctPasses, bumpDraws]
@[simp] theorem idctPasses_params : (idctPasses s).params = s.params := by dsimp only [idctPasses, bumpDraws]
@[simp] theorem idctPasses_upc : (idctPasses s).upc = s.upc := by dsimp only [idctPasses, bumpDraws]
@[simp] theorem idctPasses_sym : (idctPasses s).sym = s.sym := by dsimp only [idctPasses, bumpDraws]
@[simp] theorem idctPasses_raw : (idctPasses s).raw = s.raw := by dsimp only [idctPasses, bumpDraws]
@[simp] theorem idctPasses_ext : (idctPasses s).ext = s.ext := by dsimp only [idctPasses, bumpDraws]
@[simp] theorem idctPasses_bitOut : (idctPasses s).bitOut = s.bitOut := by dsimp only [idctPasses, bumpDraws]
@[simp] theorem idctPasses_pixel : (idctPasses s).pixel = s.pixel := by dsimp only [idctPasses, bumpDraws]
@[simp] theorem idctPasses_rdata : (idctPasses s).rdata = s.rdata := by dsimp only [idctPasses, bumpDraws]

/-! `levelShift` writes samp, draws only. -/

@[simp] theorem levelShift_state : (levelShift ch s).state = s.state := by dsimp only [levelShift, bumpDraws]
@[simp] theorem levelShift_wign : (levelShift ch s).wign = s.wign := by dsimp only [levelShift, bumpDraws]
@[simp] theorem levelShift_irqen : (levelShift ch s).irqen = s.irqen := by dsimp only [levelShift, bumpDraws]
@[simp] theorem levelShift_phase : (levelShift ch s).phase = s.phase := by dsimp only [levelShift, bumpDraws]
@[simp] theorem levelShift_ip : (levelShift ch s).ip = s.ip := by dsimp only [levelShift, bumpDraws]
@[simp] theorem levelShift_bp : (levelShift ch s).bp = s.bp := by dsimp only [levelShift, bumpDraws]
@[simp] theorem levelShift_bi : (levelShift ch s).bi = s.bi := by dsimp only [levelShift, bumpDraws]
@[simp] theorem levelShift_mcu : (levelShift ch s).mcu = s.mcu := by dsimp only [levelShift, bumpDraws]
@[simp] theorem levelShift_slot : (levelShift ch s).slot = s.slot := by dsimp only [levelShift, bumpDraws]
@[simp] theorem levelShift_k : (levelShift ch s).k = s.k := by dsimp only [levelShift, bumpDraws]
@[simp] theorem levelShift_dcpred : (levelShift ch s).dcpred = s.dcpred := by dsimp only [levelShift, bumpDraws]
@[simp] theorem levelShift_code : (levelShift ch s).code = s.code := by dsimp only [levelShift, bumpDraws]
@[simp] theorem levelShift_first : (levelShift ch s).first = s.first := by dsimp only [levelShift, bumpDraws]
@[simp] theorem levelShift_len : (levelShift ch s).len = s.len := by dsimp only [levelShift, bumpDraws]
@[simp] theorem levelShift_errcode : (levelShift ch s).errcode = s.errcode := by dsimp only [levelShift, bumpDraws]
@[simp] theorem levelShift_errpos : (levelShift ch s).errpos = s.errpos := by dsimp only [levelShift, bumpDraws]
@[simp] theorem levelShift_errval : (levelShift ch s).errval = s.errval := by dsimp only [levelShift, bumpDraws]
@[simp] theorem levelShift_errmcu : (levelShift ch s).errmcu = s.errmcu := by dsimp only [levelShift, bumpDraws]
@[simp] theorem levelShift_errblk : (levelShift ch s).errblk = s.errblk := by dsimp only [levelShift, bumpDraws]
@[simp] theorem levelShift_framedim : (levelShift ch s).framedim = s.framedim := by dsimp only [levelShift, bumpDraws]
@[simp] theorem levelShift_framecfg : (levelShift ch s).framecfg = s.framecfg := by dsimp only [levelShift, bumpDraws]
@[simp] theorem levelShift_scancomp : (levelShift ch s).scancomp = s.scancomp := by dsimp only [levelShift, bumpDraws]
@[simp] theorem levelShift_tabset : (levelShift ch s).tabset = s.tabset := by dsimp only [levelShift, bumpDraws]
@[simp] theorem levelShift_cleanlen : (levelShift ch s).cleanlen = s.cleanlen := by dsimp only [levelShift, bumpDraws]
@[simp] theorem levelShift_mcucnt : (levelShift ch s).mcucnt = s.mcucnt := by dsimp only [levelShift, bumpDraws]
@[simp] theorem levelShift_qtab : (levelShift ch s).qtab = s.qtab := by dsimp only [levelShift, bumpDraws]
@[simp] theorem levelShift_hoff : (levelShift ch s).hoff = s.hoff := by dsimp only [levelShift, bumpDraws]
@[simp] theorem levelShift_hsym : (levelShift ch s).hsym = s.hsym := by dsimp only [levelShift, bumpDraws]
@[simp] theorem levelShift_clean : (levelShift ch s).clean = s.clean := by dsimp only [levelShift, bumpDraws]
@[simp] theorem levelShift_coef : (levelShift ch s).coef = s.coef := by dsimp only [levelShift, bumpDraws]
@[simp] theorem levelShift_dq : (levelShift ch s).dq = s.dq := by dsimp only [levelShift, bumpDraws]
@[simp] theorem levelShift_t : (levelShift ch s).t = s.t := by dsimp only [levelShift, bumpDraws]
@[simp] theorem levelShift_acc : (levelShift ch s).acc = s.acc := by dsimp only [levelShift, bumpDraws]
@[simp] theorem levelShift_out : (levelShift ch s).out = s.out := by dsimp only [levelShift, bumpDraws]
@[simp] theorem levelShift_rgb : (levelShift ch s).rgb = s.rgb := by dsimp only [levelShift, bumpDraws]
@[simp] theorem levelShift_pix : (levelShift ch s).pix = s.pix := by dsimp only [levelShift, bumpDraws]
@[simp] theorem levelShift_pixOld : (levelShift ch s).pixOld = s.pixOld := by dsimp only [levelShift, bumpDraws]
@[simp] theorem levelShift_input : (levelShift ch s).input = s.input := by dsimp only [levelShift, bumpDraws]
@[simp] theorem levelShift_inputEnd : (levelShift ch s).inputEnd = s.inputEnd := by dsimp only [levelShift, bumpDraws]
@[simp] theorem levelShift_inputFresh : (levelShift ch s).inputFresh = s.inputFresh := by dsimp only [levelShift, bumpDraws]
@[simp] theorem levelShift_hostq : (levelShift ch s).hostq = s.hostq := by dsimp only [levelShift, bumpDraws]
@[simp] theorem levelShift_params : (levelShift ch s).params = s.params := by dsimp only [levelShift, bumpDraws]
@[simp] theorem levelShift_upc : (levelShift ch s).upc = s.upc := by dsimp only [levelShift, bumpDraws]
@[simp] theorem levelShift_sym : (levelShift ch s).sym = s.sym := by dsimp only [levelShift, bumpDraws]
@[simp] theorem levelShift_raw : (levelShift ch s).raw = s.raw := by dsimp only [levelShift, bumpDraws]
@[simp] theorem levelShift_ext : (levelShift ch s).ext = s.ext := by dsimp only [levelShift, bumpDraws]
@[simp] theorem levelShift_bitOut : (levelShift ch s).bitOut = s.bitOut := by dsimp only [levelShift, bumpDraws]
@[simp] theorem levelShift_pixel : (levelShift ch s).pixel = s.pixel := by dsimp only [levelShift, bumpDraws]
@[simp] theorem levelShift_rdata : (levelShift ch s).rdata = s.rdata := by dsimp only [levelShift, bumpDraws]

/-! `keepPixel` writes rgb only. -/

@[simp] theorem keepPixel_state : (keepPixel n s).state = s.state := by dsimp only [keepPixel]
@[simp] theorem keepPixel_wign : (keepPixel n s).wign = s.wign := by dsimp only [keepPixel]
@[simp] theorem keepPixel_irqen : (keepPixel n s).irqen = s.irqen := by dsimp only [keepPixel]
@[simp] theorem keepPixel_phase : (keepPixel n s).phase = s.phase := by dsimp only [keepPixel]
@[simp] theorem keepPixel_ip : (keepPixel n s).ip = s.ip := by dsimp only [keepPixel]
@[simp] theorem keepPixel_bp : (keepPixel n s).bp = s.bp := by dsimp only [keepPixel]
@[simp] theorem keepPixel_bi : (keepPixel n s).bi = s.bi := by dsimp only [keepPixel]
@[simp] theorem keepPixel_mcu : (keepPixel n s).mcu = s.mcu := by dsimp only [keepPixel]
@[simp] theorem keepPixel_slot : (keepPixel n s).slot = s.slot := by dsimp only [keepPixel]
@[simp] theorem keepPixel_k : (keepPixel n s).k = s.k := by dsimp only [keepPixel]
@[simp] theorem keepPixel_dcpred : (keepPixel n s).dcpred = s.dcpred := by dsimp only [keepPixel]
@[simp] theorem keepPixel_code : (keepPixel n s).code = s.code := by dsimp only [keepPixel]
@[simp] theorem keepPixel_first : (keepPixel n s).first = s.first := by dsimp only [keepPixel]
@[simp] theorem keepPixel_len : (keepPixel n s).len = s.len := by dsimp only [keepPixel]
@[simp] theorem keepPixel_errcode : (keepPixel n s).errcode = s.errcode := by dsimp only [keepPixel]
@[simp] theorem keepPixel_errpos : (keepPixel n s).errpos = s.errpos := by dsimp only [keepPixel]
@[simp] theorem keepPixel_errval : (keepPixel n s).errval = s.errval := by dsimp only [keepPixel]
@[simp] theorem keepPixel_errmcu : (keepPixel n s).errmcu = s.errmcu := by dsimp only [keepPixel]
@[simp] theorem keepPixel_errblk : (keepPixel n s).errblk = s.errblk := by dsimp only [keepPixel]
@[simp] theorem keepPixel_framedim : (keepPixel n s).framedim = s.framedim := by dsimp only [keepPixel]
@[simp] theorem keepPixel_framecfg : (keepPixel n s).framecfg = s.framecfg := by dsimp only [keepPixel]
@[simp] theorem keepPixel_scancomp : (keepPixel n s).scancomp = s.scancomp := by dsimp only [keepPixel]
@[simp] theorem keepPixel_tabset : (keepPixel n s).tabset = s.tabset := by dsimp only [keepPixel]
@[simp] theorem keepPixel_cleanlen : (keepPixel n s).cleanlen = s.cleanlen := by dsimp only [keepPixel]
@[simp] theorem keepPixel_mcucnt : (keepPixel n s).mcucnt = s.mcucnt := by dsimp only [keepPixel]
@[simp] theorem keepPixel_qtab : (keepPixel n s).qtab = s.qtab := by dsimp only [keepPixel]
@[simp] theorem keepPixel_hoff : (keepPixel n s).hoff = s.hoff := by dsimp only [keepPixel]
@[simp] theorem keepPixel_hsym : (keepPixel n s).hsym = s.hsym := by dsimp only [keepPixel]
@[simp] theorem keepPixel_clean : (keepPixel n s).clean = s.clean := by dsimp only [keepPixel]
@[simp] theorem keepPixel_coef : (keepPixel n s).coef = s.coef := by dsimp only [keepPixel]
@[simp] theorem keepPixel_dq : (keepPixel n s).dq = s.dq := by dsimp only [keepPixel]
@[simp] theorem keepPixel_t : (keepPixel n s).t = s.t := by dsimp only [keepPixel]
@[simp] theorem keepPixel_acc : (keepPixel n s).acc = s.acc := by dsimp only [keepPixel]
@[simp] theorem keepPixel_out : (keepPixel n s).out = s.out := by dsimp only [keepPixel]
@[simp] theorem keepPixel_samp : (keepPixel n s).samp = s.samp := by dsimp only [keepPixel]
@[simp] theorem keepPixel_pix : (keepPixel n s).pix = s.pix := by dsimp only [keepPixel]
@[simp] theorem keepPixel_pixOld : (keepPixel n s).pixOld = s.pixOld := by dsimp only [keepPixel]
@[simp] theorem keepPixel_input : (keepPixel n s).input = s.input := by dsimp only [keepPixel]
@[simp] theorem keepPixel_inputEnd : (keepPixel n s).inputEnd = s.inputEnd := by dsimp only [keepPixel]
@[simp] theorem keepPixel_inputFresh : (keepPixel n s).inputFresh = s.inputFresh := by dsimp only [keepPixel]
@[simp] theorem keepPixel_hostq : (keepPixel n s).hostq = s.hostq := by dsimp only [keepPixel]
@[simp] theorem keepPixel_params : (keepPixel n s).params = s.params := by dsimp only [keepPixel]
@[simp] theorem keepPixel_upc : (keepPixel n s).upc = s.upc := by dsimp only [keepPixel]
@[simp] theorem keepPixel_sym : (keepPixel n s).sym = s.sym := by dsimp only [keepPixel]
@[simp] theorem keepPixel_raw : (keepPixel n s).raw = s.raw := by dsimp only [keepPixel]
@[simp] theorem keepPixel_ext : (keepPixel n s).ext = s.ext := by dsimp only [keepPixel]
@[simp] theorem keepPixel_bitOut : (keepPixel n s).bitOut = s.bitOut := by dsimp only [keepPixel]
@[simp] theorem keepPixel_pixel : (keepPixel n s).pixel = s.pixel := by dsimp only [keepPixel]
@[simp] theorem keepPixel_rdata : (keepPixel n s).rdata = s.rdata := by dsimp only [keepPixel]
@[simp] theorem keepPixel_draws : (keepPixel n s).draws = s.draws := by dsimp only [keepPixel]

/-! `storePixel` writes pix only. -/

@[simp] theorem storePixel_state : (storePixel m n p s).state = s.state := by unfold storePixel; split <;> rfl
@[simp] theorem storePixel_wign : (storePixel m n p s).wign = s.wign := by unfold storePixel; split <;> rfl
@[simp] theorem storePixel_irqen : (storePixel m n p s).irqen = s.irqen := by unfold storePixel; split <;> rfl
@[simp] theorem storePixel_phase : (storePixel m n p s).phase = s.phase := by unfold storePixel; split <;> rfl
@[simp] theorem storePixel_ip : (storePixel m n p s).ip = s.ip := by unfold storePixel; split <;> rfl
@[simp] theorem storePixel_bp : (storePixel m n p s).bp = s.bp := by unfold storePixel; split <;> rfl
@[simp] theorem storePixel_bi : (storePixel m n p s).bi = s.bi := by unfold storePixel; split <;> rfl
@[simp] theorem storePixel_mcu : (storePixel m n p s).mcu = s.mcu := by unfold storePixel; split <;> rfl
@[simp] theorem storePixel_slot : (storePixel m n p s).slot = s.slot := by unfold storePixel; split <;> rfl
@[simp] theorem storePixel_k : (storePixel m n p s).k = s.k := by unfold storePixel; split <;> rfl
@[simp] theorem storePixel_dcpred : (storePixel m n p s).dcpred = s.dcpred := by unfold storePixel; split <;> rfl
@[simp] theorem storePixel_code : (storePixel m n p s).code = s.code := by unfold storePixel; split <;> rfl
@[simp] theorem storePixel_first : (storePixel m n p s).first = s.first := by unfold storePixel; split <;> rfl
@[simp] theorem storePixel_len : (storePixel m n p s).len = s.len := by unfold storePixel; split <;> rfl
@[simp] theorem storePixel_errcode : (storePixel m n p s).errcode = s.errcode := by unfold storePixel; split <;> rfl
@[simp] theorem storePixel_errpos : (storePixel m n p s).errpos = s.errpos := by unfold storePixel; split <;> rfl
@[simp] theorem storePixel_errval : (storePixel m n p s).errval = s.errval := by unfold storePixel; split <;> rfl
@[simp] theorem storePixel_errmcu : (storePixel m n p s).errmcu = s.errmcu := by unfold storePixel; split <;> rfl
@[simp] theorem storePixel_errblk : (storePixel m n p s).errblk = s.errblk := by unfold storePixel; split <;> rfl
@[simp] theorem storePixel_framedim : (storePixel m n p s).framedim = s.framedim := by unfold storePixel; split <;> rfl
@[simp] theorem storePixel_framecfg : (storePixel m n p s).framecfg = s.framecfg := by unfold storePixel; split <;> rfl
@[simp] theorem storePixel_scancomp : (storePixel m n p s).scancomp = s.scancomp := by unfold storePixel; split <;> rfl
@[simp] theorem storePixel_tabset : (storePixel m n p s).tabset = s.tabset := by unfold storePixel; split <;> rfl
@[simp] theorem storePixel_cleanlen : (storePixel m n p s).cleanlen = s.cleanlen := by unfold storePixel; split <;> rfl
@[simp] theorem storePixel_mcucnt : (storePixel m n p s).mcucnt = s.mcucnt := by unfold storePixel; split <;> rfl
@[simp] theorem storePixel_qtab : (storePixel m n p s).qtab = s.qtab := by unfold storePixel; split <;> rfl
@[simp] theorem storePixel_hoff : (storePixel m n p s).hoff = s.hoff := by unfold storePixel; split <;> rfl
@[simp] theorem storePixel_hsym : (storePixel m n p s).hsym = s.hsym := by unfold storePixel; split <;> rfl
@[simp] theorem storePixel_clean : (storePixel m n p s).clean = s.clean := by unfold storePixel; split <;> rfl
@[simp] theorem storePixel_coef : (storePixel m n p s).coef = s.coef := by unfold storePixel; split <;> rfl
@[simp] theorem storePixel_dq : (storePixel m n p s).dq = s.dq := by unfold storePixel; split <;> rfl
@[simp] theorem storePixel_t : (storePixel m n p s).t = s.t := by unfold storePixel; split <;> rfl
@[simp] theorem storePixel_acc : (storePixel m n p s).acc = s.acc := by unfold storePixel; split <;> rfl
@[simp] theorem storePixel_out : (storePixel m n p s).out = s.out := by unfold storePixel; split <;> rfl
@[simp] theorem storePixel_samp : (storePixel m n p s).samp = s.samp := by unfold storePixel; split <;> rfl
@[simp] theorem storePixel_rgb : (storePixel m n p s).rgb = s.rgb := by unfold storePixel; split <;> rfl
@[simp] theorem storePixel_pixOld : (storePixel m n p s).pixOld = s.pixOld := by unfold storePixel; split <;> rfl
@[simp] theorem storePixel_input : (storePixel m n p s).input = s.input := by unfold storePixel; split <;> rfl
@[simp] theorem storePixel_inputEnd : (storePixel m n p s).inputEnd = s.inputEnd := by unfold storePixel; split <;> rfl
@[simp] theorem storePixel_inputFresh : (storePixel m n p s).inputFresh = s.inputFresh := by unfold storePixel; split <;> rfl
@[simp] theorem storePixel_hostq : (storePixel m n p s).hostq = s.hostq := by unfold storePixel; split <;> rfl
@[simp] theorem storePixel_params : (storePixel m n p s).params = s.params := by unfold storePixel; split <;> rfl
@[simp] theorem storePixel_upc : (storePixel m n p s).upc = s.upc := by unfold storePixel; split <;> rfl
@[simp] theorem storePixel_sym : (storePixel m n p s).sym = s.sym := by unfold storePixel; split <;> rfl
@[simp] theorem storePixel_raw : (storePixel m n p s).raw = s.raw := by unfold storePixel; split <;> rfl
@[simp] theorem storePixel_ext : (storePixel m n p s).ext = s.ext := by unfold storePixel; split <;> rfl
@[simp] theorem storePixel_bitOut : (storePixel m n p s).bitOut = s.bitOut := by unfold storePixel; split <;> rfl
@[simp] theorem storePixel_pixel : (storePixel m n p s).pixel = s.pixel := by unfold storePixel; split <;> rfl
@[simp] theorem storePixel_rdata : (storePixel m n p s).rdata = s.rdata := by unfold storePixel; split <;> rfl
@[simp] theorem storePixel_draws : (storePixel m n p s).draws = s.draws := by unfold storePixel; split <;> rfl

/-! What the updates write. -/

@[simp] theorem bumpDraws_draws : (bumpDraws s).draws = s.draws + 1 := by dsimp only [bumpDraws]
@[simp] theorem ignoreWrite_wign : (ignoreWrite s).wign = true := by dsimp only [ignoreWrite]
@[simp] theorem setPred_dcpred : (setPred c v s).dcpred = s.dcpred.set c v := by dsimp only [setPred]
@[simp] theorem setCoef_coef : (setCoef m ch k v s).coef = Memory.set s.coef (coefIndex m ch k) v := by dsimp only [setCoef]
@[simp] theorem zeroBlock_coef : (zeroBlock m ch s).coef = Memory.setRange s.coef (coefIndex m ch 0) 64 fun _ => 0 := by dsimp only [zeroBlock]
@[simp] theorem clearRun_ip : (clearRun s).ip = 0 := by dsimp only [clearRun]
@[simp] theorem clearRun_bp : (clearRun s).bp = 0 := by dsimp only [clearRun]
@[simp] theorem clearRun_bi : (clearRun s).bi = 0 := by dsimp only [clearRun]
@[simp] theorem clearRun_mcu : (clearRun s).mcu = 0 := by dsimp only [clearRun]
@[simp] theorem clearRun_slot : (clearRun s).slot = 0 := by dsimp only [clearRun]
@[simp] theorem clearRun_k : (clearRun s).k = 0 := by dsimp only [clearRun]
@[simp] theorem clearRun_cleanlen : (clearRun s).cleanlen = 0 := by dsimp only [clearRun]
@[simp] theorem clearRun_mcucnt : (clearRun s).mcucnt = 0 := by dsimp only [clearRun]
@[simp] theorem clearRun_dcpred : (clearRun s).dcpred = #v[0, 0, 0] := by dsimp only [clearRun]
@[simp] theorem clearRun_errcode : (clearRun s).errcode = 0 := by dsimp only [clearRun]
@[simp] theorem clearRun_errpos : (clearRun s).errpos = 0 := by dsimp only [clearRun]
@[simp] theorem clearRun_errval : (clearRun s).errval = 0 := by dsimp only [clearRun]
@[simp] theorem clearRun_errmcu : (clearRun s).errmcu = 0 := by dsimp only [clearRun]
@[simp] theorem clearRun_errblk : (clearRun s).errblk = 0 := by dsimp only [clearRun]
@[simp] theorem faultEntry_errcode : (faultEntry e pos val s).errcode = causeCode e := by dsimp only [faultEntry]
@[simp] theorem faultEntry_errpos : (faultEntry e pos val s).errpos = pos := by dsimp only [faultEntry]
@[simp] theorem faultEntry_errval : (faultEntry e pos val s).errval = val := by dsimp only [faultEntry]
@[simp] theorem faultEntry_phase : (faultEntry e pos val s).phase = .none := by dsimp only [faultEntry]
@[simp] theorem faultEntry_state : (faultEntry e pos val s).state = .error := by dsimp only [faultEntry]
@[simp] theorem clearRun_input : (clearRun s).input = s.input := by dsimp only [clearRun]
@[simp] theorem clearRun_inputFresh : (clearRun s).inputFresh = s.inputFresh := by dsimp only [clearRun]
@[simp] theorem faultEntry_draws : (faultEntry e pos val s).draws = s.draws + 1 := by dsimp only [faultEntry]
@[simp] theorem faultEntry_upc : (faultEntry e pos val s).upc = .idle := by dsimp only [faultEntry]
@[simp] theorem finishRun_phase : (finishRun s).phase = .none := by dsimp only [finishRun]
@[simp] theorem finishRun_state : (finishRun s).state = .done := by dsimp only [finishRun]
@[simp] theorem finishRun_upc : (finishRun s).upc = .idle := by dsimp only [finishRun]

/-! `takeInput` writes input, inputEnd, inputFresh only. -/

@[simp] theorem takeInput_state : (takeInput s).state = s.state := by dsimp only [takeInput]
@[simp] theorem takeInput_wign : (takeInput s).wign = s.wign := by dsimp only [takeInput]
@[simp] theorem takeInput_irqen : (takeInput s).irqen = s.irqen := by dsimp only [takeInput]
@[simp] theorem takeInput_phase : (takeInput s).phase = s.phase := by dsimp only [takeInput]
@[simp] theorem takeInput_ip : (takeInput s).ip = s.ip := by dsimp only [takeInput]
@[simp] theorem takeInput_bp : (takeInput s).bp = s.bp := by dsimp only [takeInput]
@[simp] theorem takeInput_bi : (takeInput s).bi = s.bi := by dsimp only [takeInput]
@[simp] theorem takeInput_mcu : (takeInput s).mcu = s.mcu := by dsimp only [takeInput]
@[simp] theorem takeInput_slot : (takeInput s).slot = s.slot := by dsimp only [takeInput]
@[simp] theorem takeInput_k : (takeInput s).k = s.k := by dsimp only [takeInput]
@[simp] theorem takeInput_dcpred : (takeInput s).dcpred = s.dcpred := by dsimp only [takeInput]
@[simp] theorem takeInput_code : (takeInput s).code = s.code := by dsimp only [takeInput]
@[simp] theorem takeInput_first : (takeInput s).first = s.first := by dsimp only [takeInput]
@[simp] theorem takeInput_len : (takeInput s).len = s.len := by dsimp only [takeInput]
@[simp] theorem takeInput_errcode : (takeInput s).errcode = s.errcode := by dsimp only [takeInput]
@[simp] theorem takeInput_errpos : (takeInput s).errpos = s.errpos := by dsimp only [takeInput]
@[simp] theorem takeInput_errval : (takeInput s).errval = s.errval := by dsimp only [takeInput]
@[simp] theorem takeInput_errmcu : (takeInput s).errmcu = s.errmcu := by dsimp only [takeInput]
@[simp] theorem takeInput_errblk : (takeInput s).errblk = s.errblk := by dsimp only [takeInput]
@[simp] theorem takeInput_framedim : (takeInput s).framedim = s.framedim := by dsimp only [takeInput]
@[simp] theorem takeInput_framecfg : (takeInput s).framecfg = s.framecfg := by dsimp only [takeInput]
@[simp] theorem takeInput_scancomp : (takeInput s).scancomp = s.scancomp := by dsimp only [takeInput]
@[simp] theorem takeInput_tabset : (takeInput s).tabset = s.tabset := by dsimp only [takeInput]
@[simp] theorem takeInput_cleanlen : (takeInput s).cleanlen = s.cleanlen := by dsimp only [takeInput]
@[simp] theorem takeInput_mcucnt : (takeInput s).mcucnt = s.mcucnt := by dsimp only [takeInput]
@[simp] theorem takeInput_qtab : (takeInput s).qtab = s.qtab := by dsimp only [takeInput]
@[simp] theorem takeInput_hoff : (takeInput s).hoff = s.hoff := by dsimp only [takeInput]
@[simp] theorem takeInput_hsym : (takeInput s).hsym = s.hsym := by dsimp only [takeInput]
@[simp] theorem takeInput_clean : (takeInput s).clean = s.clean := by dsimp only [takeInput]
@[simp] theorem takeInput_coef : (takeInput s).coef = s.coef := by dsimp only [takeInput]
@[simp] theorem takeInput_dq : (takeInput s).dq = s.dq := by dsimp only [takeInput]
@[simp] theorem takeInput_t : (takeInput s).t = s.t := by dsimp only [takeInput]
@[simp] theorem takeInput_acc : (takeInput s).acc = s.acc := by dsimp only [takeInput]
@[simp] theorem takeInput_out : (takeInput s).out = s.out := by dsimp only [takeInput]
@[simp] theorem takeInput_samp : (takeInput s).samp = s.samp := by dsimp only [takeInput]
@[simp] theorem takeInput_rgb : (takeInput s).rgb = s.rgb := by dsimp only [takeInput]
@[simp] theorem takeInput_pix : (takeInput s).pix = s.pix := by dsimp only [takeInput]
@[simp] theorem takeInput_pixOld : (takeInput s).pixOld = s.pixOld := by dsimp only [takeInput]
@[simp] theorem takeInput_hostq : (takeInput s).hostq = s.hostq := by dsimp only [takeInput]
@[simp] theorem takeInput_params : (takeInput s).params = s.params := by dsimp only [takeInput]
@[simp] theorem takeInput_upc : (takeInput s).upc = s.upc := by dsimp only [takeInput]
@[simp] theorem takeInput_sym : (takeInput s).sym = s.sym := by dsimp only [takeInput]
@[simp] theorem takeInput_raw : (takeInput s).raw = s.raw := by dsimp only [takeInput]
@[simp] theorem takeInput_ext : (takeInput s).ext = s.ext := by dsimp only [takeInput]
@[simp] theorem takeInput_bitOut : (takeInput s).bitOut = s.bitOut := by dsimp only [takeInput]
@[simp] theorem takeInput_pixel : (takeInput s).pixel = s.pixel := by dsimp only [takeInput]
@[simp] theorem takeInput_rdata : (takeInput s).rdata = s.rdata := by dsimp only [takeInput]
@[simp] theorem takeInput_draws : (takeInput s).draws = s.draws := by dsimp only [takeInput]
@[simp] theorem takeInput_input : (takeInput s).input = if s.inputFresh then s.input else [] := by dsimp only [takeInput]
@[simp] theorem takeInput_inputEnd : (takeInput s).inputEnd = (s.inputFresh && s.inputEnd) := by dsimp only [takeInput]
@[simp] theorem takeInput_inputFresh : (takeInput s).inputFresh = false := by dsimp only [takeInput]

/-! The reset input keeps the environment, and every register takes its reset value. -/

@[simp] theorem resetInput_pix : (resetInput s).pix = pixAfterReset s := by dsimp only [resetInput]
@[simp] theorem resetInput_input : (resetInput s).input = s.input := by dsimp only [resetInput, hardwareReset]
@[simp] theorem resetInput_inputFresh : (resetInput s).inputFresh = s.inputFresh := by dsimp only [resetInput, hardwareReset]
@[simp] theorem resetInput_inputEnd : (resetInput s).inputEnd = s.inputEnd := by dsimp only [resetInput, hardwareReset]
@[simp] theorem resetInput_hostq : (resetInput s).hostq = s.hostq := by dsimp only [resetInput, hardwareReset]
@[simp] theorem resetInput_params : (resetInput s).params = s.params := by dsimp only [resetInput, hardwareReset]
@[simp] theorem resetInput_draws : (resetInput s).draws = drawsAfterReset s := by dsimp only [resetInput]
@[simp] theorem resetInput_state : (resetInput s).state = .idle := by dsimp only [resetInput, hardwareReset, State.reset]
@[simp] theorem resetInput_phase : (resetInput s).phase = .none := by dsimp only [resetInput, hardwareReset, State.reset]
@[simp] theorem resetInput_upc : (resetInput s).upc = .idle := by dsimp only [resetInput, hardwareReset, State.reset]
@[simp] theorem resetInput_cleanlen : (resetInput s).cleanlen = 0 := by dsimp only [resetInput, hardwareReset, State.reset]

/-- The reset input leaves the counter past its own draws and, in the RECON phase, past those of the phase it has replayed. -/
theorem draws_lt_resetInput (s : State) :
    s.draws < (resetInput s).draws ∧ (s.state = .busy → s.phase = .recon → (reconDone s).draws < (resetInput s).draws) := by
  rw [resetInput_draws, drawsAfterReset]
  by_cases h : s.state = .busy ∧ s.phase = .recon
  · rw [if_pos h]
    omega
  · rw [if_neg h]
    exact ⟨by omega, fun hb hp => (h ⟨hb, hp⟩).elim⟩

end Sys2Proof.Machine
end

