-- ==== Sys2Proof/Laws/Bits.lean ====
section
/-! SUPPORT. Laws of the bit cursor: NEXTBIT in both cases, and a group of bits that stands at the cursor. -/

namespace Sys2Proof.Machine

/-! Positions. -/

theorem bitPos_div (s : State) : bitPos s / 8 = s.bp.toNat := by
  unfold bitPos
  omega

theorem bitPos_mod (s : State) : bitPos s % 8 = s.bi.toNat := by
  unfold bitPos
  omega

/-- Two states with the same clean sequence have the same bits. -/
theorem streamBit_congr {s u : State} (hc : u.clean = s.clean) (hl : u.cleanlen = s.cleanlen) (p : Nat) :
    streamBit u p = streamBit s p := by
  unfold streamBit
  rw [hc, hl]

theorem bitsAt_congr {s u : State} (hc : u.clean = s.clean) (hl : u.cleanlen = s.cleanlen) {p : Nat} {w : List Bool} :
    BitsAt u p w ↔ BitsAt s p w := by
  unfold BitsAt
  simp only [streamBit_congr hc hl]

theorem bitsAt_cons {s : State} {p : Nat} {b : Bool} {w : List Bool} :
    BitsAt s p (b :: w) ↔ streamBit s p = some b ∧ BitsAt s (p + 1) w := by
  constructor
  · intro h
    refine ⟨by simpa using h 0 (by simp), fun n hn => ?_⟩
    have := h (n + 1) (by simpa using hn)
    simpa [Nat.add_assoc, Nat.add_comm 1 n] using this
  · rintro ⟨h0, h⟩ n hn
    cases n with
    | zero => simpa using h0
    | succ n =>
      have := h n (by simpa using hn)
      simpa [Nat.add_assoc, Nat.add_comm 1 n] using this

theorem bitsAt_append {s : State} {p : Nat} {v w : List Bool} :
    BitsAt s p (v ++ w) ↔ BitsAt s p v ∧ BitsAt s (p + v.length) w := by
  induction v generalizing p with
  | nil => simp [BitsAt]
  | cons b v ih =>
    rw [List.cons_append, bitsAt_cons, bitsAt_cons, ih, and_assoc, List.length_cons, Nat.add_right_comm, ← Nat.add_assoc]

theorem lt_of_streamBit {s : State} {p : Nat} {b : Bool} (h : streamBit s p = some b) : p < 8 * s.cleanlen.toNat := by
  unfold streamBit at h
  split at h
  · omega
  · cases h

theorem streamBit_bitPos {s : State} {b : Bool} (h : streamBit s (bitPos s) = some b) :
    s.bp.toNat < s.cleanlen.toNat ∧ cleanBit s = b := by
  have hlt := lt_of_streamBit h
  unfold streamBit at h
  rw [bitPos_div, bitPos_mod] at h
  split at h
  · rename_i hb
    obtain ⟨x, hx, rfl⟩ := Option.map_eq_some_iff.mp h
    exact ⟨hb, by simp [cleanBit, Memory.read, hx]⟩
  · cases h

/-! NEXTBIT. -/

/-- What NEXTBIT does: a fault at the end of the clean bytes, the bit under the cursor before it (spec R170). -/
theorem nextBit_cases (s : State) :
    (s.cleanlen.toNat ≤ s.bp.toNat ∧ nextBit s = raise .underrun s.bp 0 s) ∨
    (s.bp.toNat < s.cleanlen.toNat ∧ nextBit s = .cont (cleanBit s) (advanceBit (cleanBit s) s)) := by
  unfold nextBit
  split
  · exact .inl ⟨‹_›, rfl⟩
  · exact .inr ⟨by omega, rfl⟩

theorem consume_nil (s : State) : consume [] s = s := by
  have h1 : BitVec.ofNat 32 (bitPos s / 8) = s.bp := by rw [bitPos_div]; simp
  have h2 : BitVec.ofNat 3 (bitPos s % 8) = s.bi := by rw [bitPos_mod]; simp
  simp [consume, h1, h2]

/-- The cursor after NEXTBIT is one bit further. -/
theorem advanceBit_eq_consume (b : Bool) (s : State) : advanceBit b s = consume [b] s := by
  have hbi := s.bi.isLt
  unfold advanceBit consume
  split
  · rename_i h7
    have h7' : s.bi.toNat = 7 := by rw [h7]; rfl
    have e1 : (bitPos s + [b].length) / 8 = s.bp.toNat + 1 := by
      unfold bitPos
      simp only [List.length_singleton]
      omega
    have e2 : (bitPos s + [b].length) % 8 = 0 := by
      unfold bitPos
      simp only [List.length_singleton]
      omega
    rw [e1, e2]
    have : BitVec.ofNat 32 (s.bp.toNat + 1) = s.bp + 1 := by
      apply BitVec.eq_of_toNat_eq
      simp
    rw [this]
    rfl
  · rename_i h7
    have h7' : s.bi.toNat ≠ 7 := fun e => h7 (BitVec.eq_of_toNat_eq (by simpa using e))
    have e1 : (bitPos s + [b].length) / 8 = s.bp.toNat := by
      unfold bitPos
      simp only [List.length_singleton]
      omega
    have e2 : (bitPos s + [b].length) % 8 = s.bi.toNat + 1 := by
      unfold bitPos
      simp only [List.length_singleton]
      omega
    rw [e1, e2]
    have e3 : BitVec.ofNat 3 (s.bi.toNat + 1) = s.bi + 1 := by
      apply BitVec.eq_of_toNat_eq
      simp
    have e4 : BitVec.ofNat 32 s.bp.toNat = s.bp := by simp
    rw [e3, e4]
    rfl

theorem bitPos_consume {s : State} {w : List Bool} (h : bitPos s + w.length < 2 ^ 35) :
    bitPos (consume w s) = bitPos s + w.length := by
  simp only [bitPos, consume, BitVec.toNat_ofNat] at *
  omega

theorem consume_append {s : State} (v w : List Bool) (h : bitPos s + v.length < 2 ^ 35) :
    consume w (consume v s) = consume (v ++ w) s := by
  have hp := bitPos_consume h
  unfold consume at *
  rw [hp, List.length_append, ← Nat.add_assoc]
  simp only [State.mk.injEq, true_and, and_true]
  cases w with
  | nil => simp
  | cons b w => simp [List.getLastD_eq_getLast?]

theorem bitsAt_lt {s : State} {p : Nat} {w : List Bool} (h : BitsAt s p w) (hw : w ≠ []) :
    p + w.length ≤ 8 * s.cleanlen.toNat := by
  have hl : 0 < w.length := List.length_pos_iff.mpr hw
  have := h (w.length - 1) (by omega)
  have hs : w[w.length - 1]? = some (w[w.length - 1]'(by omega)) := List.getElem?_eq_getElem _
  rw [hs] at this
  have := lt_of_streamBit this
  omega

theorem bitPos_add_lt {s : State} {w : List Bool} (h : BitsAt s (bitPos s) w) : bitPos s + w.length < 2 ^ 35 := by
  have hcl := s.cleanlen.isLt
  cases w with
  | nil =>
    have hbp := s.bp.isLt
    have hbi := s.bi.isLt
    simp only [bitPos, List.length_nil]
    omega
  | cons b w =>
    have := bitsAt_lt h (by simp)
    omega

/-- NEXTBIT on a bit that is there. -/
theorem nextBit_of_bit {s : State} {b : Bool} (h : streamBit s (bitPos s) = some b) :
    nextBit s = .cont b (consume [b] s) := by
  obtain ⟨hlt, hb⟩ := streamBit_bitPos h
  rcases nextBit_cases s with ⟨h', _⟩ | ⟨_, h'⟩
  · omega
  · rw [h', hb, advanceBit_eq_consume]

/-- A group of bits that is there is taken whole: its value, and the cursor behind it. -/
theorem takeBits_of_bits {s : State} {w : List Bool} (h : BitsAt s (bitPos s) w) (v : Nat) :
    takeBits w.length v s = .cont (w.foldl (fun v b => 2 * v + b.toNat) v) (consume w s) := by
  induction w generalizing s v with
  | nil => rw [consume_nil]; rfl
  | cons b w ih =>
    obtain ⟨h0, h1⟩ := bitsAt_cons.mp h
    have hp : bitPos (consume [b] s) = bitPos s + 1 :=
      bitPos_consume (by
        have := bitPos_add_lt h
        simp only [List.length_cons, List.length_nil] at *
        omega)
    have hw : BitsAt (consume [b] s) (bitPos (consume [b] s)) w := by
      rw [hp]
      exact (bitsAt_congr rfl rfl).mpr h1
    rw [List.length_cons, takeBits, nextBit_of_bit h0, Flow.bind_cont, ih hw, consume_append]
    · rfl
    · have := bitPos_add_lt h
      simp only [List.length_cons, List.length_nil] at *
      omega

/-! Numbers as groups of bits (`bitsOf`, `bitsValue`). -/

theorem bitsOf_length (n w : Nat) : (bitsOf n w).length = n := by
  induction n with
  | zero => rfl
  | succ n ih => simp [bitsOf, ih]

theorem foldl_bitsOf (n w v : Nat) : (bitsOf n w).foldl (fun v b => 2 * v + b.toNat) v = v * 2 ^ n + w % 2 ^ n := by
  induction n generalizing v with
  | zero => simp [bitsOf, Nat.mod_one]
  | succ n ih =>
    rw [bitsOf, List.foldl_cons, ih, Nat.mod_pow_succ, ← Nat.toNat_testBit]
    ring

theorem bitsValue_bitsOf {n w : Nat} (h : w < 2 ^ n) : bitsValue (bitsOf n w) = w := by
  rw [bitsValue, foldl_bitsOf, Nat.mod_eq_of_lt h, Nat.zero_mul, Nat.zero_add]

/-- The first bits of a number are its high bits. -/
theorem take_bitsOf {n k : Nat} (w : Nat) (h : k ≤ n) : (bitsOf n w).take k = bitsOf k (w / 2 ^ (n - k)) := by
  induction n generalizing k with
  | zero =>
    obtain rfl : k = 0 := by omega
    rfl
  | succ n ih =>
    cases k with
    | zero => rfl
    | succ k =>
      rw [bitsOf, List.take_succ_cons, ih (Nat.le_of_succ_le_succ h), bitsOf, Nat.add_sub_add_right,
        Nat.testBit_div_two_pow, show k + (n - k) = n by omega]

end Sys2Proof.Machine
end

