-- ==== Sys2Proof/Laws/Memory.lean ====
section
/-! SUPPORT. Laws of the memories: read after write, and the canonical form kept by every operation. -/

namespace Sys2Proof.Machine

variable {α : Type}

@[simp] theorem Memory.get?_nil (a : Nat) : Memory.get? ([] : Memory α) a = none := rfl

theorem Memory.get?_set_eq (m : Memory α) (a : Nat) (v : α) : Memory.get? (Memory.set m a v) a = some v := by
  induction m with
  | nil => simp [Memory.set, Memory.get?]
  | cons p m ih =>
    obtain ⟨b, w⟩ := p
    unfold Memory.set
    split
    · simp [Memory.get?]
    · split
      · simp [Memory.get?]
      · rename_i h
        simp [Memory.get?, h, ih]

theorem Memory.get?_set_ne (m : Memory α) {a b : Nat} (v : α) (h : b ≠ a) :
    Memory.get? (Memory.set m a v) b = Memory.get? m b := by
  induction m with
  | nil => simp [Memory.set, Memory.get?, h]
  | cons p m ih =>
    obtain ⟨c, w⟩ := p
    unfold Memory.set
    split
    · simp [Memory.get?, h]
    · split
      · rename_i hac
        subst hac
        simp [Memory.get?, h]
      · simp [Memory.get?, ih]

/-- Read after write, at any index. -/
theorem Memory.get?_set (m : Memory α) (a b : Nat) (v : α) :
    Memory.get? (Memory.set m a v) b = if b = a then some v else Memory.get? m b := by
  by_cases h : b = a
  · subst h
    simp [Memory.get?_set_eq]
  · simp [h, Memory.get?_set_ne]

/-- A listed entry reads as itself, whatever the free value. -/
theorem Memory.read_of_get? {m : Memory α} {a : Nat} {v : α} (h : Memory.get? m a = some v) (free : α) :
    Memory.read m free a = v := by
  simp [Memory.read, h]

@[simp] theorem Memory.wf_nil : Memory.wf ([] : Memory α) = true := rfl

/-- The canonical form as a statement about neighbours: the first index is below every later one. -/
theorem Memory.wf_cons {a : Nat} {v : α} {m : Memory α} :
    Memory.wf ((a, v) :: m) = true ↔ (∀ b w, (b, w) ∈ m → a < b) ∧ Memory.wf m = true := by
  induction m generalizing a v with
  | nil => simp [Memory.wf]
  | cons p m ih =>
    obtain ⟨c, u⟩ := p
    have key : Memory.wf ((a, v) :: (c, u) :: m) = (decide (a < c) && Memory.wf ((c, u) :: m)) := rfl
    rw [key, Bool.and_eq_true, decide_eq_true_eq]
    constructor
    · rintro ⟨hac, hwf⟩
      refine ⟨?_, hwf⟩
      intro b w hb
      rcases List.mem_cons.mp hb with hb | hb
      · cases hb
        exact hac
      · exact Nat.lt_trans hac ((ih.mp hwf).1 b w hb)
    · rintro ⟨hall, hwf⟩
      exact ⟨hall c u (List.mem_cons_self ..), hwf⟩

theorem Memory.mem_set {m : Memory α} {a b : Nat} {v w : α} (h : (b, w) ∈ Memory.set m a v) :
    b = a ∨ (b, w) ∈ m := by
  induction m with
  | nil =>
    simp only [Memory.set, List.mem_singleton, Prod.mk.injEq] at h
    exact .inl h.1
  | cons p m ih =>
    obtain ⟨c, u⟩ := p
    unfold Memory.set at h
    split at h
    · rcases List.mem_cons.mp h with h | h
      · cases h
        exact .inl rfl
      · exact .inr h
    · split at h
      · rcases List.mem_cons.mp h with h | h
        · cases h
          exact .inl rfl
        · exact .inr (List.mem_cons_of_mem _ h)
      · rcases List.mem_cons.mp h with h | h
        · cases h
          exact .inr (List.mem_cons_self ..)
        · exact (ih h).imp id (List.mem_cons_of_mem _)

/-- A store keeps the canonical form. -/
theorem Memory.wf_set {m : Memory α} (h : Memory.wf m = true) (a : Nat) (v : α) :
    Memory.wf (Memory.set m a v) = true := by
  induction m with
  | nil => rfl
  | cons p m ih =>
    obtain ⟨c, u⟩ := p
    obtain ⟨hall, hwf⟩ := Memory.wf_cons.mp h
    unfold Memory.set
    split
    · rename_i hac
      refine Memory.wf_cons.mpr ⟨?_, h⟩
      intro b w hb
      rcases List.mem_cons.mp hb with hb | hb
      · cases hb
        exact hac
      · exact Nat.lt_trans hac (hall b w hb)
    · split
      · rename_i hac
        subst hac
        exact Memory.wf_cons.mpr ⟨hall, hwf⟩
      · rename_i h1 h2
        refine Memory.wf_cons.mpr ⟨?_, ih hwf⟩
        intro b w hb
        rcases Memory.mem_set hb with hb | hb
        · omega
        · exact hall b w hb

@[simp] theorem Memory.setAll_nil (m : Memory α) : Memory.setAll m [] = m := rfl

@[simp] theorem Memory.setAll_cons (m : Memory α) (p : Nat × α) (l : List (Nat × α)) :
    Memory.setAll m (p :: l) = Memory.setAll (Memory.set m p.1 p.2) l := rfl

theorem Memory.wf_setAll {m : Memory α} (h : Memory.wf m = true) (l : List (Nat × α)) :
    Memory.wf (Memory.setAll m l) = true := by
  induction l generalizing m with
  | nil => exact h
  | cons p l ih => exact ih (Memory.wf_set h _ _)

theorem Memory.wf_setRange {m : Memory α} (h : Memory.wf m = true) (base n : Nat) (f : Nat → α) :
    Memory.wf (Memory.setRange m base n f) = true :=
  Memory.wf_setAll h _

/-- A list of stores leaves every other entry alone. -/
theorem Memory.get?_setAll_of_not_mem (m : Memory α) (l : List (Nat × α)) {a : Nat} (h : a ∉ l.map Prod.fst) :
    Memory.get? (Memory.setAll m l) a = Memory.get? m a := by
  induction l generalizing m with
  | nil => rfl
  | cons p l ih =>
    simp only [List.map_cons, List.mem_cons, not_or] at h
    rw [Memory.setAll_cons, ih _ h.2, Memory.get?_set_ne _ _ h.1]

/-- A list of stores to different entries leaves each with its value. -/
theorem Memory.get?_setAll_of_mem (m : Memory α) {l : List (Nat × α)} (hn : (l.map Prod.fst).Nodup) {a : Nat} {v : α}
    (h : (a, v) ∈ l) : Memory.get? (Memory.setAll m l) a = some v := by
  induction l generalizing m with
  | nil => cases h
  | cons p l ih =>
    obtain ⟨b, w⟩ := p
    simp only [List.map_cons, List.nodup_cons] at hn
    rw [Memory.setAll_cons]
    rcases List.mem_cons.mp h with h | h
    · cases h
      rw [Memory.get?_setAll_of_not_mem _ _ hn.1, Memory.get?_set_eq]
    · exact ih _ hn.2 h

theorem Memory.map_fst_range (base n : Nat) (f : Nat → α) :
    ((List.range n).map fun i => (base + i, f i)).map Prod.fst = (List.range n).map fun i => base + i := by
  simp [Function.comp_def]

/-- The entries of a stored range. -/
theorem Memory.get?_setRange (m : Memory α) (base n : Nat) (f : Nat → α) (a : Nat) :
    Memory.get? (Memory.setRange m base n f) a =
      if base ≤ a ∧ a < base + n then some (f (a - base)) else Memory.get? m a := by
  unfold Memory.setRange
  split
  · rename_i h
    refine Memory.get?_setAll_of_mem m ?_ (List.mem_map.mpr ⟨a - base, by simp; omega, by simp; omega⟩)
    rw [Memory.map_fst_range]
    exact List.Nodup.map (fun x y hxy => by simpa using hxy) List.nodup_range
  · rename_i h
    refine Memory.get?_setAll_of_not_mem m _ ?_
    rw [Memory.map_fst_range]
    simp only [List.mem_map, List.mem_range, not_exists, not_and]
    omega

end Sys2Proof.Machine
end

