-- ==== Sys2Proof/Laws/Huffman.lean ====
section
/-! SUPPORT. Laws of the canonical tables and of the loop of HUFFDEC: what one round does, and a whole match. -/

namespace Sys2Proof.Machine

/-! Tables. -/

theorem hoffAt_of_offsets {s : State} {c : HClass} {t : BitVec 2} {off : Nat → Nat} (h : OffsetsAre s c t off)
    (site : Nat) {n : Nat} (hn : n ≤ 16) : hoffAt s site c t n = off n := by
  have hb : ∀ k, k ≤ 16 → off (16 - k) ≤ 162 := by
    intro k
    induction k with
    | zero => exact fun _ => h.bound
    | succ k ih =>
      intro hk
      have h1 := ih (by omega)
      have h2 := h.rising (16 - (k + 1)) (by omega)
      have e : 16 - (k + 1) + 1 = 16 - k := by omega
      rw [e] at h2
      omega
  have := hb (16 - n) (by omega)
  have e : 16 - (16 - n) = n := by omega
  rw [e] at this
  unfold hoffAt
  rw [Memory.read_of_get? (h.listed n hn)]
  simp only [BitVec.toNat_ofNat, Nat.cast_inj]
  omega

/-- The number of code words of a length, from the offsets (spec R104). -/
theorem codeCount_of_offsets {s : State} {c : HClass} {t : BitVec 2} {off : Nat → Nat} (h : OffsetsAre s c t off)
    {len : Nat} (hlen : len ≤ 16) : codeCount s c t len = (off len : Int) - off (len - 1) := by
  unfold codeCount
  rw [hoffAt_of_offsets h _ hlen, hoffAt_of_offsets h _ (by omega)]

theorem offsets_rising {s : State} {c : HClass} {t : BitVec 2} {off : Nat → Nat} (h : OffsetsAre s c t off)
    {len : Nat} (hlen : len ≤ 16) : off (len - 1) ≤ off len := by
  cases len with
  | zero => exact Nat.le_refl _
  | succ n => exact h.rising n (by omega)

theorem firstCode_of_offsets {s : State} {c : HClass} {t : BitVec 2} {off : Nat → Nat} (h : OffsetsAre s c t off)
    {len : Nat} (hlen : len ≤ 17) : firstCode (codeCount s c t) len = firstWord off len := by
  induction len with
  | zero => rfl
  | succ n ih =>
    cases n with
    | zero => rfl
    | succ n =>
      have hr := h.rising n (by omega)
      unfold firstCode firstWord
      rw [ih (by omega), codeCount_of_offsets h (by omega)]
      simp only [Nat.add_sub_cancel]
      omega

/-- The code words of a length end before those of a longer length begin (spec R194 (a), (d)). -/
theorem firstWord_grows (off : Nat → Nat) {len : Nat} (h1 : 1 ≤ len) (k : Nat) :
    (firstWord off len + (off len - off (len - 1))) * 2 ^ (k + 1) ≤ firstWord off (len + k + 1) := by
  obtain ⟨len, rfl⟩ : ∃ n, len = n + 1 := ⟨len - 1, by omega⟩
  induction k with
  | zero =>
    have : firstWord off (len + 1 + 0 + 1) = (firstWord off (len + 1) + (off (len + 1) - off len)) * 2 := rfl
    simp [this]
  | succ k ih =>
    have e : firstWord off (len + 1 + (k + 1) + 1) =
        (firstWord off (len + 1 + k + 1) + (off (len + 1 + k + 1) - off (len + 1 + k))) * 2 := rfl
    rw [e]
    calc (firstWord off (len + 1) + (off (len + 1) - off (len + 1 - 1))) * 2 ^ (k + 1 + 1)
        = (firstWord off (len + 1) + (off (len + 1) - off (len + 1 - 1))) * 2 ^ (k + 1) * 2 := by ring
      _ ≤ firstWord off (len + 1 + k + 1) * 2 := Nat.mul_le_mul_right _ ih
      _ ≤ _ := Nat.mul_le_mul_right _ (Nat.le_add_right _ _)

/-! The loop. -/

/-- The tables and the counter of the free values, all that the decode of a symbol reads besides the bits. -/
structure SameTables (s u : State) : Prop where
  hoff : u.hoff = s.hoff
  hsym : u.hsym = s.hsym
  draws : u.draws = s.draws

theorem SameTables.codeCount {s u : State} (h : SameTables s u) (c : HClass) (t : BitVec 2) (len : Nat) :
    Machine.codeCount u c t len = Machine.codeCount s c t len := by
  simp only [Machine.codeCount, hoffAt, h.hoff, h.draws]

theorem SameTables.symbolAt {s u : State} (h : SameTables s u) (c : HClass) (t : BitVec 2) (len : Nat) (x : Int) :
    Machine.symbolAt u c t len x = Machine.symbolAt s c t len x := by
  unfold Machine.symbolAt hsymAt hoffAt
  rw [h.hoff, h.hsym, h.draws]

/-- The transients as a round leaves them, with the first code word it ends with. -/
def inRound (len : Nat) (first : Int) (code : Nat) (s : State) : State :=
  { s with len := BitVec.ofNat 5 len, first := BitVec.ofInt 25 first, code := BitVec.ofNat 16 code }

/-- One round on a bit that is there (spec R192). -/
theorem huffRounds_of_bit {s : State} {b : Bool} (h : streamBit s (bitPos s) = some b) (c : HClass) (t : BitVec 2)
    (n len code : Nat) (first : Int) :
    huffRounds c t (n + 1) len code first s =
      if ((2 * code + b.toNat : Nat) : Int) - first < codeCount s c t len then
        .cont (symbolAt s c t len (((2 * code + b.toNat : Nat) : Int) - first))
          (inRound len first (2 * code + b.toNat) (consume [b] s))
      else
        huffRounds c t n (len + 1) (2 * code + b.toNat) ((first + codeCount s c t len) * 2)
          (inRound len ((first + codeCount s c t len) * 2) (2 * code + b.toNat) (consume [b] s)) := by
  have hb : nextBit { s with len := BitVec.ofNat 5 len, first := BitVec.ofInt 25 first } =
      .cont b { consume [b] s with len := BitVec.ofNat 5 len, first := BitVec.ofInt 25 first } :=
    nextBit_of_bit (s := { s with len := BitVec.ofNat 5 len, first := BitVec.ofInt 25 first }) h
  have ht : SameTables s { consume [b] s with len := BitVec.ofNat 5 len, first := BitVec.ofInt 25 first } := ⟨rfl, rfl, rfl⟩
  rw [huffRounds, hb, Flow.bind_cont, ht.codeCount, ht.symbolAt]
  rfl

theorem inRound_inRound (len len' : Nat) (first first' : Int) (code code' : Nat) (s : State) (w : List Bool) :
    inRound len' first' code' (consume w (inRound len first code s)) = inRound len' first' code' (consume w s) := rfl

/-- A whole match: the rounds before the last find no code word, the last one does. -/
theorem huffRounds_match (c : HClass) (t : BitVec 2) (cnt : Nat → Int) (w : List Bool) :
    ∀ (s : State) (n len code : Nat) (first : Int), w ≠ [] → w.length ≤ n →
      (∀ l, codeCount s c t l = cnt l) → BitsAt s (bitPos s) w →
      ∀ (firsts : Nat → Int), firsts len = first → (∀ l, len ≤ l → firsts (l + 1) = (firsts l + cnt l) * 2) →
      (∀ k, k + 1 < w.length →
        cnt (len + k) ≤ ((w.take (k + 1)).foldl (fun v b => 2 * v + b.toNat) code : Nat) - firsts (len + k)) →
      ((w.foldl (fun v b => 2 * v + b.toNat) code : Nat) : Int) - firsts (len + w.length - 1) < cnt (len + w.length - 1) →
      huffRounds c t n len code first s =
        .cont (symbolAt s c t (len + w.length - 1)
            ((w.foldl (fun v b => 2 * v + b.toNat) code : Nat) - firsts (len + w.length - 1)))
          (inRound (len + w.length - 1) (firsts (len + w.length - 1)) (w.foldl (fun v b => 2 * v + b.toNat) code)
            (consume w s)) := by
  induction w with
  | nil => intro _ _ _ _ _ h; exact absurd rfl h
  | cons b w ih =>
    intro s n len code first _ hn hcnt hbits firsts hf hstep hno hyes
    obtain ⟨n, rfl⟩ : ∃ m, n = m + 1 := ⟨n - 1, by simp at hn; omega⟩
    obtain ⟨h0, h1⟩ := bitsAt_cons.mp hbits
    have hlt := bitPos_add_lt hbits
    have hp : bitPos (consume [b] s) = bitPos s + 1 := bitPos_consume (by simp at *; omega)
    rw [huffRounds_of_bit h0, hcnt]
    cases w with
    | nil =>
      simp only [List.length_singleton, Nat.add_sub_cancel, List.foldl_cons, List.foldl_nil] at hyes ⊢
      rw [hf] at hyes ⊢
      rw [if_pos hyes]
    | cons b' w' =>
      have hno0 := hno 0 (by simp)
      simp only [Nat.add_zero, Nat.zero_add, List.take_succ_cons, List.take_zero, List.foldl_cons, List.foldl_nil] at hno0
      rw [hf] at hno0
      rw [if_neg (by omega)]
      have key := ih (inRound len ((first + cnt len) * 2) (2 * code + b.toNat) (consume [b] s)) n (len + 1) (2 * code + b.toNat)
        ((first + cnt len) * 2) (by simp) (by simpa using hn) (fun l => by
          have ht : SameTables s (inRound len ((first + cnt len) * 2) (2 * code + b.toNat) (consume [b] s)) := ⟨rfl, rfl, rfl⟩
          rw [ht.codeCount, hcnt])
        (by
          have : bitPos (inRound len ((first + cnt len) * 2) (2 * code + b.toNat) (consume [b] s)) = bitPos s + 1 := hp
          rw [this]
          exact (bitsAt_congr rfl rfl).mpr h1)
        firsts (by rw [hstep len (Nat.le_refl _), hf]) (fun l hl => hstep l (by omega))
        (fun k hk => by
          have := hno (k + 1) (by simpa using hk)
          have e : len + 1 + k = len + (k + 1) := by omega
          rw [e]
          simpa using this)
        (by
          have e : len + 1 + (b' :: w').length - 1 = len + (b :: b' :: w').length - 1 := by simp; omega
          rw [e]
          exact hyes)
      have e : len + 1 + (b' :: w').length - 1 = len + (b :: b' :: w').length - 1 := by simp; omega
      rw [e] at key
      rw [key, inRound_inRound, consume_append _ _ (by simp at *; omega)]
      rfl

end Sys2Proof.Machine
end

