-- ==== Sys2Proof/Laws/Ops.lean ====
section
/-! SUPPORT. What each shared operation can do, said once: one case lemma for each, and the canonical form of the memories after
reset. -/

namespace Sys2Proof.Machine

/-! Registers and memories. -/

/-- `raise` always ends the run. -/
theorem raise_eq {α : Type} (c : Cause) (pos : Word) (val : BitVec 16) (s : State) :
    (raise c pos val s : Flow α) = .ended (faultEntry c pos val s) := rfl

/-- The input cursor moves, or the move is refused. -/
theorem advanceIp_cases (n : Nat) (s : State) :
    s.ip.toNat + n < 2 ^ 32 ∧ advanceIp n s = .cont () { s with ip := s.ip + BitVec.ofNat 32 n } ∨
      2 ^ 32 ≤ s.ip.toNat + n ∧ advanceIp n s = .refuse .inputCursorOverflow := by
  unfold advanceIp
  split
  · exact .inr ⟨‹_›, rfl⟩
  · exact .inl ⟨by omega, rfl⟩

/-- A clean byte is appended, or CLEAN is full. -/
theorem appendClean_cases (v : Byte) (s : State) :
    (∀ cap, s.params.cleanCap = some cap → s.cleanlen.toNat < cap) ∧
        appendClean v s =
          .cont () { s with clean := Memory.set s.clean s.cleanlen.toNat v, cleanlen := s.cleanlen + 1 } ∨
      (∃ cap, s.params.cleanCap = some cap ∧ cap ≤ s.cleanlen.toNat) ∧
        appendClean v s = .ended (faultEntry .capClean s.ip 0 s) := by
  unfold appendClean
  cases h : s.params.cleanCap with
  | none => exact .inl ⟨fun _ h' => (nomatch h'), rfl⟩
  | some cap =>
    by_cases hc : cap ≤ s.cleanlen.toNat
    · exact .inr ⟨⟨cap, rfl, hc⟩, by simp only [hc, decide_true, ↓reduceIte, raise]⟩
    · refine .inl ⟨fun c h' => ?_, by simp only [hc, decide_false, Bool.false_eq_true, ↓reduceIte]⟩
      cases h'
      omega

/-- A pixel is stored where it has a place, and dropped where it has none. -/
theorem storePixel_cases (m i : Nat) (p : Rgb) (s : State) :
    (∃ a, pixelTarget s m i = some a ∧
        storePixel m i p s = { s with pix := Memory.setAll s.pix [(a, p.r), (a + 1, p.g), (a + 2, p.b)] }) ∨
      pixelTarget s m i = none ∧ storePixel m i p s = s := by
  unfold storePixel
  cases h : pixelTarget s m i with
  | none => exact .inr ⟨rfl, rfl⟩
  | some a => exact .inl ⟨a, rfl, rfl⟩

/-- Every memory has the canonical form after reset. -/
theorem wf_reset :
    Memory.wf State.reset.qtab = true ∧ Memory.wf State.reset.hoff = true ∧ Memory.wf State.reset.hsym = true ∧
    Memory.wf State.reset.clean = true ∧ Memory.wf State.reset.coef = true ∧ Memory.wf State.reset.dq = true ∧
    Memory.wf State.reset.t = true ∧ Memory.wf State.reset.out = true ∧ Memory.wf State.reset.samp = true ∧
    Memory.wf State.reset.rgb = true ∧ Memory.wf State.reset.pix = true := by
  refine ⟨?_, ?_, ?_, ?_, ?_, ?_, ?_, ?_, ?_, ?_, ?_⟩ <;> rfl

/-! The input port. -/

/-- A missing byte ends the run in ENDIN, or SCAN waits. -/
theorem byteMissing_cases (s : State) :
    s.inputEnd = true ∧ byteMissing s = tokenEndin s ∨ s.inputEnd = false ∧ byteMissing s = .ended s := by
  unfold byteMissing
  cases s.inputEnd
  · exact .inr ⟨rfl, rfl⟩
  · exact .inl ⟨rfl, rfl⟩

/-- SCAN waits exactly where the end is not signalled and the bytes that are left are none, or only an introducer. -/
theorem tokenThere_eq_false {s : State} :
    tokenThere s = false ↔
      s.inputEnd = false ∧ (s.input.drop s.ip.toNat = [] ∨ s.input.drop s.ip.toNat = [0xFF]) := by
  unfold tokenThere
  cases s.inputEnd
  · rcases s.input.drop s.ip.toNat with _ | ⟨b, _ | ⟨m, l⟩⟩ <;> simp
  · simp

/-! The reset input. -/

theorem get?_filterMap_range (f : Nat → Option Byte) (n a : Nat) (m : Memory Byte) :
    Memory.get? (((List.range n).filterMap fun a => (f a).map fun b => (a, b)) ++ m) a =
      if a < n ∧ (f a).isSome then f a else Memory.get? m a := by
  induction n generalizing m with
  | zero => simp
  | succ n ih =>
    rw [List.range_succ, List.filterMap_append, List.append_assoc, ih]
    cases h : f n with
    | none =>
      by_cases ha : a = n
      · subst ha
        simp [h]
      · have : (a < n) = (a < n + 1) := by
          apply propext
          omega
        simp [h, this]
    | some b =>
      by_cases ha : a = n
      · subst ha
        simp [h, Memory.get?]
      · have : (a < n) = (a < n + 1) := by
          apply propext
          omega
        simp [h, this, Memory.get?, ha]

theorem get?_filter_ge (m : Memory Byte) (n a : Nat) :
    Memory.get? (m.filter fun p => n ≤ p.1) a = if n ≤ a then Memory.get? m a else none := by
  induction m with
  | nil => simp [Memory.get?]
  | cons p m ih =>
    obtain ⟨b, v⟩ := p
    by_cases hb : n ≤ b
    · rw [List.filter_cons_of_pos (by simpa using hb), Memory.get?, Memory.get?, ih]
      by_cases ha : a = b
      · subst ha
        simp [hb]
      · simp [ha]
    · rw [List.filter_cons_of_neg (by simpa using hb), Memory.get?, ih]
      by_cases ha : a = b
      · subst ha
        simp [hb]
      · simp [ha]

/-- Each byte below the bound is a new one or an old one, the others stay. -/
theorem get?_mixPix (done : Nat → Bool) (old new m : Memory Byte) (n a : Nat) :
    Memory.get? (mixPix done old new m n) a =
      if a < n then Memory.get? (if done a then new else old) a else Memory.get? m a := by
  unfold mixPix
  rw [get?_filterMap_range (fun a => Memory.get? (if done a then new else old) a), get?_filter_ge]
  by_cases h : a < n
  · cases hg : Memory.get? (if done a then new else old) a <;> simp [h]
  · simp [h, Nat.le_of_not_lt h]

/-! Commands. -/

/-- START is refused, or a check fails, or the run begins. -/
theorem startCommand_cases (s : State) :
    s.state = .busy ∧ startCommand s = ignoreWrite s ∨
      s.state ≠ .busy ∧
        ((∃ c v, validate (clearRun s) = some (c, v) ∧ startCommand s = faultEntry c 0 v (clearRun s)) ∨
          validate (clearRun s) = none ∧
            startCommand s = { takeInput (bumpDraws (clearRun s)) with state := .busy, phase := .scan, upc := .token }) := by
  unfold startCommand
  by_cases h : s.state = .busy
  · exact .inl ⟨h, if_pos h⟩
  · refine .inr ⟨h, ?_⟩
    rw [if_neg h]
    cases hv : validate (clearRun s) with
    | none => exact .inr ⟨rfl, rfl⟩
    | some p => exact .inl ⟨p.1, p.2, rfl, rfl⟩

/-- A port write is a command, or is ignored, or stores. -/
theorem portWrite_cases (a : Fin 3072) (v : Word) (s : State) :
    portWord a = .cmd ∧ portWrite a v s = command v s ∨
      portWord a ≠ .cmd ∧ (portWritable (portWord a) = false ∨ s.state = .busy) ∧ portWrite a v s = ignoreWrite s ∨
      portWord a ≠ .cmd ∧ portWritable (portWord a) = true ∧ s.state ≠ .busy ∧
        portWrite a v s = portStore (portWord a) v s := by
  unfold portWrite
  by_cases h : portWord a = .cmd
  · exact .inl ⟨h, if_pos h⟩
  · rw [if_neg h]
    cases hw : portWritable (portWord a) with
    | false => exact .inr (.inl ⟨h, .inl rfl, rfl⟩)
    | true =>
      by_cases hb : s.state = .busy
      · exact .inr (.inl ⟨h, .inr hb, if_pos hb⟩)
      · exact .inr (.inr ⟨h, rfl, hb, if_neg hb⟩)

/-! The sequencer and the step. -/

/-- A block begins: its coefficients are zero and the code position follows; or the model stops. -/
theorem beginBlock_cases (j : Nat) (s : State) :
    (∃ slot ch, slotOf j = some slot ∧ channelOf s slot = some ch ∧
        beginBlock j s = .next { zeroBlock s.mcu.toNat ch.val s with slot := slot, k := 0, upc := .code }) ∨
      slotOf j = none ∧ beginBlock j s = .fault .noSlot ∨
      (∃ slot, slotOf j = some slot ∧ channelOf s slot = none) ∧ beginBlock j s = .fault .noChannel := by
  unfold beginBlock
  cases h : slotOf j with
  | none => exact .inr (.inl ⟨rfl, rfl⟩)
  | some slot =>
    cases hc : channelOf s slot with
    | none => exact .inr (.inr ⟨⟨slot, rfl, hc⟩, by simp only [hc]⟩)
    | some ch => exact .inl ⟨slot, ch, rfl, hc, by simp only [hc]⟩

/-- A fault has ended the run: nothing follows. -/
theorem sequence_of_not_busy (i : Instr) {s : State} (h : s.state ≠ .busy) : sequence i s = .next s := by
  unfold sequence
  exact if_pos h

/-- What one step is, by the queue of the host. -/
theorem step_cases (s : State) :
    s.hostq = [] ∧ step s = runStep s ∨
      (∃ e rest, s.hostq = (0, e) :: rest ∧ step s = hostStep e { s with hostq := rest }) ∨
      ∃ n e rest, s.hostq = (n + 1, e) :: rest ∧ step s = runStep { s with hostq := (n, e) :: rest } := by
  unfold step
  cases h : s.hostq with
  | nil => exact .inl ⟨rfl, rfl⟩
  | cons p rest =>
    obtain ⟨n, e⟩ := p
    cases n with
    | zero => exact .inr (.inl ⟨e, rest, rfl, rfl⟩)
    | succ n => exact .inr (.inr ⟨n, e, rest, rfl, rfl⟩)

/-- What the core itself does in a step. -/
theorem runStep_cases (s : State) :
    s.state ≠ .busy ∧ runStep s = .next s ∨
      s.state = .busy ∧ ((∃ i, fetch s = .instr i ∧ runStep s = thenDo (exec i s) (sequence i)) ∨
        fetch s = .wait ∧ runStep s = .next s ∨ ∃ f, fetch s = .stop f ∧ runStep s = .fault f) := by
  unfold runStep
  cases h : s.state with
  | busy =>
    refine .inr ⟨rfl, ?_⟩
    cases hf : fetch s with
    | instr i => exact .inl ⟨i, rfl, rfl⟩
    | wait => exact .inr (.inl ⟨rfl, rfl⟩)
    | stop f => exact .inr (.inr ⟨f, rfl, rfl⟩)
  | idle => exact .inl ⟨by decide, rfl⟩
  | done => exact .inl ⟨by decide, rfl⟩
  | error => exact .inl ⟨by decide, rfl⟩

end Sys2Proof.Machine
end

