-- ==== Sys2Proof/Laws/PerInstr.lean ====
section
/-! SUPPORT. The encoding of every instruction that has one fits its width, and an instruction has an encoding exactly when it
belongs to a format (spec R100 to R109): one lemma per instruction. -/

/-- A well-formed instruction has an encoding exactly when it has a format, and the encoding is a number of its width. -/
def Sys2Proof.Laws.EncodingFits.Statement (i : Sys2Proof.Instr) : Prop :=
  (i.format.isSome = (Sys2Proof.encode i).isSome) ∧
    (i.wellFormed = true → ∀ n w, Sys2Proof.encode i = some (n, w) → w < 2 ^ n ∧ n ≤ 32)

open Sys2Proof

theorem Sys2Proof.Laws.EncodingFits.start :
    Sys2Proof.Laws.EncodingFits.Statement .start :=
  ⟨rfl, fun _ _ _ h => by cases h; decide⟩

theorem Sys2Proof.Laws.EncodingFits.clear :
    Sys2Proof.Laws.EncodingFits.Statement .clear :=
  ⟨rfl, fun _ _ _ h => by cases h; decide⟩

theorem Sys2Proof.Laws.EncodingFits.cmdReserved (v : Word) :
    Sys2Proof.Laws.EncodingFits.Statement (.cmdReserved v) :=
  ⟨rfl, fun _ _ _ h => by cases h; constructor <;> omega⟩

theorem Sys2Proof.Laws.EncodingFits.data (b : Byte) :
    Sys2Proof.Laws.EncodingFits.Statement (.data b) :=
  ⟨rfl, fun _ _ _ h => by cases h; constructor <;> omega⟩

theorem Sys2Proof.Laws.EncodingFits.stuff :
    Sys2Proof.Laws.EncodingFits.Statement .stuff :=
  ⟨rfl, fun _ _ _ h => by cases h; decide⟩

theorem Sys2Proof.Laws.EncodingFits.rstN (n : BitVec 3) :
    Sys2Proof.Laws.EncodingFits.Statement (.rstN n) :=
  ⟨rfl, fun _ _ _ h => by cases h; constructor <;> omega⟩

theorem Sys2Proof.Laws.EncodingFits.eoi :
    Sys2Proof.Laws.EncodingFits.Statement .eoi :=
  ⟨rfl, fun _ _ _ h => by cases h; decide⟩

theorem Sys2Proof.Laws.EncodingFits.fill :
    Sys2Proof.Laws.EncodingFits.Statement .fill :=
  ⟨rfl, fun _ _ _ h => by cases h; decide⟩

theorem Sys2Proof.Laws.EncodingFits.badmark (m : Byte) :
    Sys2Proof.Laws.EncodingFits.Statement (.badmark m) :=
  ⟨rfl, fun _ _ _ h => by cases h; constructor <;> omega⟩

theorem Sys2Proof.Laws.EncodingFits.endin :
    Sys2Proof.Laws.EncodingFits.Statement .endin :=
  ⟨rfl, fun _ _ _ h => by cases h; decide⟩

theorem Sys2Proof.Laws.EncodingFits.hc (len : BitVec 5) (code : BitVec 16) :
    Sys2Proof.Laws.EncodingFits.Statement (.hc len code) :=
  ⟨rfl, fun hw _ _ h => by
    cases h
    simp only [Instr.wellFormed, Bool.and_eq_true, decide_eq_true_eq] at hw
    exact ⟨hw.2, by omega⟩⟩

theorem Sys2Proof.Laws.EncodingFits.dc0 :
    Sys2Proof.Laws.EncodingFits.Statement .dc0 :=
  ⟨rfl, fun _ _ _ h => by cases h; decide⟩

theorem Sys2Proof.Laws.EncodingFits.dc1 :
    Sys2Proof.Laws.EncodingFits.Statement .dc1 :=
  ⟨rfl, fun _ _ _ h => by cases h; decide⟩

theorem Sys2Proof.Laws.EncodingFits.dc2 :
    Sys2Proof.Laws.EncodingFits.Statement .dc2 :=
  ⟨rfl, fun _ _ _ h => by cases h; decide⟩

theorem Sys2Proof.Laws.EncodingFits.dc3 :
    Sys2Proof.Laws.EncodingFits.Statement .dc3 :=
  ⟨rfl, fun _ _ _ h => by cases h; decide⟩

theorem Sys2Proof.Laws.EncodingFits.dc4 :
    Sys2Proof.Laws.EncodingFits.Statement .dc4 :=
  ⟨rfl, fun _ _ _ h => by cases h; decide⟩

theorem Sys2Proof.Laws.EncodingFits.dc5 :
    Sys2Proof.Laws.EncodingFits.Statement .dc5 :=
  ⟨rfl, fun _ _ _ h => by cases h; decide⟩

theorem Sys2Proof.Laws.EncodingFits.dc6 :
    Sys2Proof.Laws.EncodingFits.Statement .dc6 :=
  ⟨rfl, fun _ _ _ h => by cases h; decide⟩

theorem Sys2Proof.Laws.EncodingFits.dc7 :
    Sys2Proof.Laws.EncodingFits.Statement .dc7 :=
  ⟨rfl, fun _ _ _ h => by cases h; decide⟩

theorem Sys2Proof.Laws.EncodingFits.dc8 :
    Sys2Proof.Laws.EncodingFits.Statement .dc8 :=
  ⟨rfl, fun _ _ _ h => by cases h; decide⟩

theorem Sys2Proof.Laws.EncodingFits.dc9 :
    Sys2Proof.Laws.EncodingFits.Statement .dc9 :=
  ⟨rfl, fun _ _ _ h => by cases h; decide⟩

theorem Sys2Proof.Laws.EncodingFits.dc10 :
    Sys2Proof.Laws.EncodingFits.Statement .dc10 :=
  ⟨rfl, fun _ _ _ h => by cases h; decide⟩

theorem Sys2Proof.Laws.EncodingFits.dc11 :
    Sys2Proof.Laws.EncodingFits.Statement .dc11 :=
  ⟨rfl, fun _ _ _ h => by cases h; decide⟩

theorem Sys2Proof.Laws.EncodingFits.dcbad (y : Byte) :
    Sys2Proof.Laws.EncodingFits.Statement (.dcbad y) :=
  ⟨rfl, fun _ _ _ h => by cases h; constructor <;> omega⟩

theorem Sys2Proof.Laws.EncodingFits.eob :
    Sys2Proof.Laws.EncodingFits.Statement .eob :=
  ⟨rfl, fun _ _ _ h => by cases h; decide⟩

theorem Sys2Proof.Laws.EncodingFits.zrl :
    Sys2Proof.Laws.EncodingFits.Statement .zrl :=
  ⟨rfl, fun _ _ _ h => by cases h; decide⟩

theorem Sys2Proof.Laws.EncodingFits.acrs (r : BitVec 4) (n : BitVec 4) :
    Sys2Proof.Laws.EncodingFits.Statement (.acrs r n) :=
  ⟨rfl, fun _ _ _ h => by cases h; constructor <;> omega⟩

theorem Sys2Proof.Laws.EncodingFits.acr0 (r : BitVec 4) :
    Sys2Proof.Laws.EncodingFits.Statement (.acr0 r) :=
  ⟨rfl, fun _ _ _ h => by cases h; constructor <;> omega⟩

theorem Sys2Proof.Laws.EncodingFits.xb (n : BitVec 4) (x : BitVec 15) :
    Sys2Proof.Laws.EncodingFits.Statement (.xb n x) :=
  ⟨rfl, fun hw _ _ h => by
    cases h
    exact ⟨of_decide_eq_true hw, by omega⟩⟩

theorem Sys2Proof.Laws.EncodingFits.write (a : Fin 3072) (v : Word) :
    Sys2Proof.Laws.EncodingFits.Statement (.write a v) :=
  ⟨rfl, fun _ _ _ h => by cases h⟩

theorem Sys2Proof.Laws.EncodingFits.read (a : Fin 3072) :
    Sys2Proof.Laws.EncodingFits.Statement (.read a) :=
  ⟨rfl, fun _ _ _ h => by cases h⟩

theorem Sys2Proof.Laws.EncodingFits.scan :
    Sys2Proof.Laws.EncodingFits.Statement .scan :=
  ⟨rfl, fun _ _ _ h => by cases h⟩

theorem Sys2Proof.Laws.EncodingFits.nextbit :
    Sys2Proof.Laws.EncodingFits.Statement .nextbit :=
  ⟨rfl, fun _ _ _ h => by cases h⟩

theorem Sys2Proof.Laws.EncodingFits.receive (n : BitVec 4) :
    Sys2Proof.Laws.EncodingFits.Statement (.receive n) :=
  ⟨rfl, fun _ _ _ h => by cases h⟩

theorem Sys2Proof.Laws.EncodingFits.align :
    Sys2Proof.Laws.EncodingFits.Statement .align :=
  ⟨rfl, fun _ _ _ h => by cases h⟩

theorem Sys2Proof.Laws.EncodingFits.huffdec (c : HClass) (t : BitVec 2) :
    Sys2Proof.Laws.EncodingFits.Statement (.huffdec c t) :=
  ⟨rfl, fun _ _ _ h => by cases h⟩

theorem Sys2Proof.Laws.EncodingFits.extend (b : BitVec 15) (n : BitVec 4) :
    Sys2Proof.Laws.EncodingFits.Statement (.extend b n) :=
  ⟨rfl, fun _ _ _ h => by cases h⟩

theorem Sys2Proof.Laws.EncodingFits.decodeBlock (m : Word) (j : Fin 3) :
    Sys2Proof.Laws.EncodingFits.Statement (.decodeBlock m j) :=
  ⟨rfl, fun _ _ _ h => by cases h⟩

theorem Sys2Proof.Laws.EncodingFits.decodeDc (m : Word) (j : Fin 3) :
    Sys2Proof.Laws.EncodingFits.Statement (.decodeDc m j) :=
  ⟨rfl, fun _ _ _ h => by cases h⟩

theorem Sys2Proof.Laws.EncodingFits.decodeAc (m : Word) (j : Fin 3) :
    Sys2Proof.Laws.EncodingFits.Statement (.decodeAc m j) :=
  ⟨rfl, fun _ _ _ h => by cases h⟩

theorem Sys2Proof.Laws.EncodingFits.restart :
    Sys2Proof.Laws.EncodingFits.Statement .restart :=
  ⟨rfl, fun _ _ _ h => by cases h⟩

theorem Sys2Proof.Laws.EncodingFits.decodeMcu (m : Word) :
    Sys2Proof.Laws.EncodingFits.Statement (.decodeMcu m) :=
  ⟨rfl, fun _ _ _ h => by cases h⟩

theorem Sys2Proof.Laws.EncodingFits.entropy :
    Sys2Proof.Laws.EncodingFits.Statement .entropy :=
  ⟨rfl, fun _ _ _ h => by cases h⟩

theorem Sys2Proof.Laws.EncodingFits.dequant (m : Word) (ch : Fin 3) (tq : BitVec 2) :
    Sys2Proof.Laws.EncodingFits.Statement (.dequant m ch tq) :=
  ⟨rfl, fun _ _ _ h => by cases h⟩

theorem Sys2Proof.Laws.EncodingFits.idct (ch : Fin 3) :
    Sys2Proof.Laws.EncodingFits.Statement (.idct ch) :=
  ⟨rfl, fun _ _ _ h => by cases h⟩

theorem Sys2Proof.Laws.EncodingFits.levelshift (ch : Fin 3) :
    Sys2Proof.Laws.EncodingFits.Statement (.levelshift ch) :=
  ⟨rfl, fun _ _ _ h => by cases h⟩

theorem Sys2Proof.Laws.EncodingFits.ycc2rgb (y : Byte) (cb : Byte) (cr : Byte) :
    Sys2Proof.Laws.EncodingFits.Statement (.ycc2rgb y cb cr) :=
  ⟨rfl, fun _ _ _ h => by cases h⟩

theorem Sys2Proof.Laws.EncodingFits.gray (y : Byte) :
    Sys2Proof.Laws.EncodingFits.Statement (.gray y) :=
  ⟨rfl, fun _ _ _ h => by cases h⟩

theorem Sys2Proof.Laws.EncodingFits.storepix (m : Word) (p : Fin 64) (r : Byte) (g : Byte) (b : Byte) :
    Sys2Proof.Laws.EncodingFits.Statement (.storepix m p r g b) :=
  ⟨rfl, fun _ _ _ h => by cases h⟩

theorem Sys2Proof.Laws.EncodingFits.reconMcu (m : Word) :
    Sys2Proof.Laws.EncodingFits.Statement (.reconMcu m) :=
  ⟨rfl, fun _ _ _ h => by cases h⟩

theorem Sys2Proof.Laws.EncodingFits.recon :
    Sys2Proof.Laws.EncodingFits.Statement .recon :=
  ⟨rfl, fun _ _ _ h => by cases h⟩
end

