-- ==== Sys2Proof/Tests/Slice0.lean ====
section
/-! SUPPORT. Tests: well-formedness, decoding of words written out by hand, one step of each instruction with the results of
spec/95_test_vectors.md, and for each statement with hypotheses a state and operands that meet them. -/

namespace Sys2Proof.Tests

open Sys2Proof Sys2Proof.Machine

/-! Small states. -/

/-- What a property of the next state is; false where there is none. -/
def nextIs (o : Host.Outcome State Fault Refusal) (p : State → Bool) : Bool :=
  match o with
  | .next s => p s
  | .fault _ => false
  | .refused _ => false

/-- Offsets 0, 1, .. up to `top` and then level, at a place of HOFF: one code word of each length up to `top`. -/
def offsetRow (base top : Nat) : Memory Byte := (List.range 17).map fun n => (base + n, BitVec.ofNat 8 (min n top))

/-- Config G of spec/95_test_vectors.md: one 8x8 gray component, tables DC-A and AC-A, a quantization table of ones. -/
def configG : State :=
  { State.reset with
    framedim := 0x00080008
    framecfg := 1
    scancomp := #v[1, 0, 0]
    tabset := 0x00010101
    qtab := Memory.setRange [] 0 64 fun _ => 1
    hoff := offsetRow 0 4 ++ offsetRow 128 6
    hsym := [(0, 0x00), (1, 0x08), (2, 0x03), (3, 0x05), (1024, 0x00), (1025, 0x08), (1026, 0x12), (1027, 0xF0), (1028, 0x03),
      (1029, 0x30)] }

/-- A run of Config G in its SCAN phase, the input port having signalled the end. -/
def inScan (input : List Byte) : State :=
  { configG with state := .busy, phase := .scan, upc := .token, input := input, inputEnd := true, inputFresh := false }

/-- The same, the port not having signalled the end. -/
def inScanOpen (input : List Byte) : State := { inScan input with inputEnd := false }

/-- A run of Config G in its ENTROPY phase, the first block begun, with the bytes given in CLEAN. -/
def inEntropy (k : BitVec 7) (bytes : List Byte) : State :=
  { configG with
    state := .busy
    phase := .entropy
    upc := .code
    inputFresh := false
    k := k
    clean := bytes.zipIdx.map fun p => (p.2, p.1)
    cleanlen := BitVec.ofNat 32 bytes.length
    coef := Memory.setRange [] 0 64 fun _ => 0 }

/-- A run of Config G in its RECON phase, with the coefficients listed over zeros. -/
def inRecon (coef : Memory (BitVec 16)) : State :=
  { configG with
    state := .busy
    phase := .recon
    upc := .dequant 0
    inputFresh := false
    coef := Memory.setAll (Memory.setRange [] 0 64 fun _ => 0) coef }

/-! Well-formedness: an ill-formed term for each check. -/

theorem test_wf_cmdReserved : (Instr.cmdReserved 2).wellFormed = false := by decide
theorem test_wf_data : (Instr.data 0xFF).wellFormed = false := by decide
theorem test_wf_badmark : ((Instr.badmark 0x00).wellFormed || (Instr.badmark 0xD7).wellFormed || (Instr.badmark 0xD9).wellFormed ||
    (Instr.badmark 0xFF).wellFormed) = false := by decide
theorem test_wf_hc : ((Instr.hc 0 0).wellFormed || (Instr.hc 17 0).wellFormed || (Instr.hc 2 4).wellFormed) = false := by decide
theorem test_wf_dcbad : (Instr.dcbad 0x0B).wellFormed = false := by decide
theorem test_wf_acrs : (Instr.acrs 3 0).wellFormed = false := by decide
theorem test_wf_acr0 : ((Instr.acr0 0).wellFormed || (Instr.acr0 15).wellFormed) = false := by decide
theorem test_wf_xb : (Instr.xb 3 8).wellFormed = false := by decide
theorem test_wf_extend : (Instr.extend 4 2).wellFormed = false := by decide

/-! Decoding, from words written out bit by bit (spec R100 to R109). -/

theorem test_decode_cmd : decodeTableWord 32 0b00000000000000000000000000000001 = some .start ∧
    decodeTableWord 32 0b00000000000000000000000000000010 = some .clear ∧
    decodeTableWord 32 0b00000000000000000000000000000111 = some (.cmdReserved 7) := by decide
theorem test_decode_token : decodeTableWord 16 0b1111111100000000 = some .stuff ∧
    decodeTableWord 16 0b1111111111010101 = some (.rstN 5) ∧ decodeTableWord 16 0b1111111111011001 = some .eoi ∧
    decodeTableWord 16 0b1111111111111111 = some .fill ∧ decodeTableWord 16 0b1111111111000100 = some (.badmark 0xC4) ∧
    decodeTableWord 16 0b1010000000011111 = some (.data 0xA0) ∧ decodeTableWord 0 0 = some .endin := by decide
/-- The bytes around the ranges of RSTn and EOI (spec R102). -/
theorem test_decode_marker_edges : decodeMarker 0xCF = .badmark 0xCF ∧ decodeMarker 0xD0 = .rstN 0 ∧ decodeMarker 0xD7 = .rstN 7 ∧
    decodeMarker 0xD8 = .badmark 0xD8 ∧ decodeMarker 0xDA = .badmark 0xDA := by decide
theorem test_decode_dc : decodeTableWord 8 0b00000000 = some .dc0 ∧ decodeTableWord 8 0b00001011 = some .dc11 ∧
    decodeDcSym 0b00001100 = .dcbad 0x0C ∧ decodeDcSym 0b11110000 = .dcbad 0xF0 := by decide
theorem test_decode_ac : decodeTableWord 8 0b11110000 = some .zrl ∧ decodeTableWord 8 0b00110101 = some (.acrs 3 5) ∧
    decodeTableWord 8 0b00110000 = some (.acr0 3) ∧ decodeTableWord 8 0b11110001 = some (.acrs 15 1) ∧
    decodeAcSym 0b00000000 = .eob := by decide
/-- Table AC-A gives 1110 to the symbol 0xF0 (spec R197). -/
theorem test_decode_hc : decode (fun n => if 1 ≤ n ∧ n ≤ 6 then 1 else 0) .hc 6 0b111001 = .instr (.hc 4 0b1110) ∧
    decode (fun n => if 1 ≤ n ∧ n ≤ 6 then 1 else 0) .hc 16 0b1111110000000000 = .reject .noCodeWord := by decide
theorem test_decode_xb : decode (fun _ => 0) .xb 3 0b010 = .instr (.xb 3 2) ∧
    decode (fun _ => 0) .xb 16 0 = .reject .unsupportedWidth := by decide
theorem test_decode_widths : decodeTableWord 24 1 = none ∧ decode (fun _ => 0) .cmd 31 1 = .reject .unsupportedWidth := by decide

/-! The step runs a placed word (log 11). -/

theorem test_place_command : nextIs (step (State.reset.withFetchWord 32 1)) (fun u => u.errcode = 0x10 ∧ u.state = .error) = true := by
  decide
theorem test_place_token : nextIs (step (State.reset.withFetchWord 16 0xFFC4))
    (fun u => u.errcode = 0x40 ∧ u.errpos = 1 ∧ u.errval = 0xC4) = true := by decide
theorem test_place_dc : nextIs (step (State.reset.withFetchWord 8 3)) (fun u => u.dcpred[0] = BitVec.ofInt 16 (-7) ∧ u.k = 1) = true := by
  decide
theorem test_place_ac : nextIs (step (State.reset.withFetchWord 8 0xF0)) (fun u => u.k = 17) = true := by decide

/-! Commands and the register port (V-START). -/

/-- Row 1. -/
theorem test_start_reset : nextIs (exec .start State.reset)
    (fun u => u.state = .error ∧ u.errcode = 0x10 ∧ u.errval = 0 ∧ statusWord u = 3) = true := by decide
/-- Row 14: offsets that decrease. -/
theorem test_start_offsets : nextIs (exec .start { configG with hoff := Memory.set configG.hoff 131 1 })
    (fun u => u.errcode = 0x16 ∧ u.errval = 0x0010) = true := by decide
theorem test_start_config_g : nextIs (exec .start configG) (fun u => u.state = .busy ∧ u.phase = .scan) = true := by decide +kernel
/-- START takes the sequence attached since the last run, from its first byte; without one it reads nothing of the old sequence,
whose bytes behind the EOI are the host's (R142, R345, R379). -/
theorem test_start_input (fresh : Bool) : nextIs (exec .start { configG with
      state := .done, ip := 2, input := [0xFF, 0xD9, 0x55], inputEnd := true, inputFresh := fresh })
    (fun u => u.input = (if fresh then [0xFF, 0xD9, 0x55] else []) ∧ u.inputEnd = fresh ∧ u.ip = 0) = true := by
  cases fresh <;> decide +kernel
/-- Row 17. -/
theorem test_clear : nextIs (exec .clear { configG with state := .error, errcode := 0x40, wign := true })
    (fun u => statusWord u = 0 ∧ u.errcode = 0 ∧ u.framecfg = 1) = true := by decide
/-- Row 16. -/
theorem test_cmdReserved : nextIs (exec (.cmdReserved 7) configG) (fun u => u = { configG with wign := true }) = true := by decide
/-- Row 18. -/
theorem test_write_id : nextIs (exec (.write 0 0xFFFFFFFF) State.reset) (fun u => u.wign) = true := by decide
/-- Row 19. -/
theorem test_write_qtab : nextIs (exec (.write 256 0x00010005) State.reset) (fun u => u.qtab = [(0, 5)]) = true := by decide
/-- Row 20. -/
theorem test_read_status : nextIs (exec (.read 2) { State.reset with state := .done, irqen := 1 })
    (fun u => u.rdata = 0x00000102) = true := by decide
/-- The rows of windows at their edges (spec R30, R53). -/
theorem test_port_map : portWord 22 = .dcpred 2 ∧ portWord 23 = .reserved ∧ portWord 255 = .reserved ∧ portWord 256 = .qtab 0 ∧
    portWord 511 = .qtab 255 ∧ portWord 512 = .hoff 0 ∧ portWord 528 = .hoff 16 ∧ portWord 529 = .reserved ∧
    portWord 767 = .reserved ∧ portWord 768 = .reserved ∧ portWord 1023 = .reserved ∧ portWord 1024 = .hsym 0 ∧
    portWord 1185 = .hsym 161 ∧ portWord 1186 = .reserved ∧ portWord 3071 = .reserved := by decide +kernel

/-! The reset input (R370, R371). -/

/-- In the ENTROPY phase PIX stays, and the input port is not touched. -/
theorem test_reset_entropy :
    nextIs (step { inEntropy 0 [] with pix := [(0, 7)], input := [1, 2, 3], ip := 2, hostq := [(0, .reset)] })
      (fun u => u.pix = [(0, 7)] ∧ u.input = [1, 2, 3] ∧ u.ip = 0 ∧ u.state = .idle) = true := by decide

/-- In the RECON phase of an image of one pixel, not a byte of which is stored yet, a byte is the old one or the new gray of
program P1; the bytes behind the image stay. -/
theorem test_reset_recon (done : Bool) :
    mixPix (fun _ => done) [(0, 7), (5, 9)] [(0, 0x90), (1, 0x90), (2, 0x90), (5, 9)] [(0, 0x90), (5, 9)] 3 =
      if done then [(0, 0x90), (1, 0x90), (2, 0x90), (5, 9)] else [(0, 7), (5, 9)] := by
  cases done <;> decide

/-! SCAN (V-SCAN). -/

theorem test_data : nextIs (exec (.data 0xA0) (inScan [0xA0])) (fun u => u.clean = [(0, 0xA0)] ∧ u.cleanlen = 1 ∧ u.ip = 1) = true := by
  decide
theorem test_stuff : nextIs (exec .stuff (inScan [0xFF, 0x00])) (fun u => u.clean = [(0, 0xFF)] ∧ u.cleanlen = 1 ∧ u.ip = 2) = true := by
  decide
theorem test_rstN : nextIs (exec (.rstN 5) (inScan [0xFF, 0xD5])) (fun u => u.clean = [] ∧ u.ip = 2) = true := by decide
theorem test_fill : nextIs (exec .fill (inScan [0xFF, 0xFF])) (fun u => u.clean = [] ∧ u.ip = 1) = true := by decide
theorem test_eoi : nextIs (exec .eoi (inScan [0xFF, 0xD9])) (fun u => u.phase = .entropy ∧ u.ip = 2) = true := by decide
/-- Row 15, at the bad marker. -/
theorem test_badmark : nextIs (exec (.badmark 0xC4) { inScan [0xFF, 0x00, 0xFF, 0x00, 0xFF, 0xC4] with ip := 4 })
    (fun u => u.errcode = 0x40 ∧ u.errpos = 5 ∧ u.errval = 0x00C4 ∧ u.ip = 4) = true := by decide
/-- Row 12, at the end. -/
theorem test_endin : nextIs (exec .endin { inScan [0xA0, 0x1F, 0xFF] with ip := 2 })
    (fun u => u.errcode = 0x30 ∧ u.errpos = 3 ∧ u.ip = 2) = true := by decide
/-- The example of R166. -/
theorem test_scan : nextIs (exec .scan (inScan [0xA0, 0xFF, 0xFF, 0xFF, 0xD3, 0x1F, 0xFF, 0xFF, 0xD9, 0x55]))
    (fun u => u.clean = [(0, 0xA0), (1, 0x1F)] ∧ u.ip = 9 ∧ u.phase = .entropy) = true := by decide

/-- A port that has delivered an introducer only makes the core wait; with the next byte the token is there (R385). -/
theorem test_wait : nextIs (step (inScanOpen [0xFF])) (fun u => u = inScanOpen [0xFF]) = true ∧
    nextIs (step { inScanOpen [0xFF] with hostq := [(0, .deliver [0x00] false)] })
      (fun u => u = inScanOpen [0xFF, 0x00] ∧ nextIs (step u) (fun v => v.clean = [(0, 0xFF)]) = true) = true := by decide
/-- At granularity `phase` SCAN does what it can and waits. -/
theorem test_scan_waits : nextIs (step { inScanOpen [0xA0, 0xFF] with params := { State.reset.params with grain := .phase } })
    (fun u => u.clean = [(0, 0xA0)] ∧ u.ip = 1 ∧ u.state = .busy ∧ u.phase = .scan) = true := by decide

/-! Bits (V-BITS). -/

theorem test_nextbit : nextIs (exec .nextbit (inEntropy 0 [0xA5, 0x0F])) (fun u => u.bitOut = true ∧ u.bp = 0 ∧ u.bi = 1) = true := by
  decide
/-- Row 6. -/
theorem test_nextbit_empty : nextIs (exec .nextbit (inEntropy 0 [])) (fun u => u.errcode = 0x31 ∧ u.errpos = 0) = true := by decide
/-- Row 3. -/
theorem test_receive : nextIs (exec (.receive 12) (inEntropy 0 [0xA5, 0x0F])) (fun u => u.raw = 2640 ∧ u.bp = 1 ∧ u.bi = 4) = true := by
  decide
/-- The second part of row 5. -/
theorem test_receive_underrun : nextIs (exec (.receive 2) { inEntropy 0 [0xA5, 0x0F] with bp := 1, bi := 7 })
    (fun u => u.errcode = 0x31 ∧ u.errpos = 2 ∧ u.bp = 2 ∧ u.bi = 0) = true := by decide
theorem test_align : nextIs (exec .align { inEntropy 0 [] with bp := 6, bi := 2 }) (fun u => u.bp = 7 ∧ u.bi = 0) = true := by decide
/-- V-EXT. -/
theorem test_extend : nextIs (exec (.extend 2 3) State.reset) (fun u => u.ext = BitVec.ofInt 16 (-5)) = true ∧
    nextIs (exec (.extend 16384 15) State.reset) (fun u => u.ext = 16384) = true := by decide
/-- Three bits 101 are 5, which is their value (V-BITS row 2, V-EXT). -/
theorem test_xb : nextIs (exec (.xb 3 5) (inEntropy 0 [0xA5])) (fun u => u.raw = 5 ∧ u.ext = 5 ∧ u.bi = 3) = true := by decide

/-! Code words (V-HUFF). -/

/-- Row 4. -/
theorem test_huffdec : nextIs (exec (.huffdec .ac 0) (inEntropy 1 [0xEF])) (fun u => u.sym = 0xF0 ∧ u.len = 4 ∧ u.bi = 4) = true := by
  decide
/-- Row 7. -/
theorem test_huffdec_invalid : nextIs (exec (.huffdec .ac 0) (inEntropy 1 [0xFC, 0x00]))
    (fun u => u.errcode = 0x41 ∧ u.errval = 0xFC00 ∧ u.bp = 2 ∧ u.bi = 0) = true := by decide
/-- After round 16 `first` is shifted once more (R192, R194 (b)): 126 in round 7, doubled ten times. -/
theorem test_huffdec_last_shift : nextIs (exec (.huffdec .ac 0) (inEntropy 1 [0xFF, 0xFF])) (fun u => u.first = 129024 ∧ u.len = 16) =
    true := by decide
/-- Row 3, as the code word of three bits. -/
theorem test_hc : nextIs (exec (.hc 3 0b110) (inEntropy 1 [0xDF])) (fun u => u.sym = 0x12 ∧ u.bi = 3) = true := by decide

/-! DC and AC symbols (V-DC, V-AC), after their code words. -/

/-- A DC symbol taken at the cursor, with the predictor and the bytes given. -/
def afterDcSym (i : Instr) (pred : BitVec 16) (bytes : List Byte) : Host.Outcome State Fault Refusal :=
  exec i { inEntropy 0 bytes with dcpred := #v[pred, 0, 0] }

theorem test_dc0 : nextIs (afterDcSym .dc0 7 []) (fun u => u.dcpred[0] = 7 ∧ Memory.get? u.coef 0 = some 7) = true := by decide
theorem test_dc1 : nextIs (afterDcSym .dc1 0 [0x7F]) (fun u => u.dcpred[0] = BitVec.ofInt 16 (-1) ∧ u.bi = 1) = true := by decide
theorem test_dc2 : nextIs (afterDcSym .dc2 0 [0x7F]) (fun u => u.dcpred[0] = BitVec.ofInt 16 (-2) ∧ u.bi = 2) = true := by decide
/-- Row 6. -/
theorem test_dc3 : nextIs (afterDcSym .dc3 32767 [0x9F]) (fun u => u.dcpred[0] = BitVec.ofInt 16 (-32765)) = true := by decide
theorem test_dc4 : nextIs (afterDcSym .dc4 0 [0x8F]) (fun u => u.dcpred[0] = 8 ∧ u.bi = 4) = true := by decide
/-- Row 5. -/
theorem test_dc5 : nextIs (afterDcSym .dc5 20 [0x5F]) (fun u => u.dcpred[0] = 0 ∧ u.bi = 5) = true := by decide
/-- Row 9. -/
theorem test_dc6 : nextIs (afterDcSym .dc6 0 [0x7F]) (fun u => u.dcpred[0] = BitVec.ofInt 16 (-32)) = true := by decide
theorem test_dc7 : nextIs (afterDcSym .dc7 0 [0x01]) (fun u => u.dcpred[0] = BitVec.ofInt 16 (-127) ∧ u.bi = 7) = true := by decide
/-- Row 3. -/
theorem test_dc8 : nextIs (afterDcSym .dc8 128 [0x7F]) (fun u => u.dcpred[0] = 0 ∧ u.bp = 1 ∧ u.bi = 0) = true := by decide
theorem test_dc9 : nextIs (afterDcSym .dc9 0 [0x80, 0x7F]) (fun u => u.dcpred[0] = 256 ∧ u.bp = 1 ∧ u.bi = 1) = true := by decide
theorem test_dc10 : nextIs (afterDcSym .dc10 0 [0xFF, 0xFF]) (fun u => u.dcpred[0] = 1023 ∧ u.bi = 2) = true := by decide
/-- V-EXT: (1023, 11). -/
theorem test_dc11 : nextIs (afterDcSym .dc11 0 [0x7F, 0xFF]) (fun u => u.dcpred[0] = BitVec.ofInt 16 (-1024) ∧ u.bi = 3) = true := by
  decide
/-- Row 8. -/
theorem test_dcbad : nextIs (afterDcSym (.dcbad 0x0C) 0 [0x80]) (fun u => u.errcode = 0x42 ∧ u.errval = 0x000C ∧ u.bi = 0) = true := by
  decide

theorem test_eob : nextIs (exec .eob (inEntropy 5 [])) (fun u => u.k = 5 ∧ u.upc = .blockEnd) = true := by decide
/-- Rows 7 and 8. -/
theorem test_zrl : nextIs (exec .zrl (inEntropy 48 [])) (fun u => u.k = 64) = true ∧
    nextIs (exec .zrl (inEntropy 49 [])) (fun u => u.errcode = 0x43 ∧ u.errval = 0x00F0 ∧ u.k = 49) = true := by decide
/-- Row 3. -/
theorem test_acrs : nextIs (exec (.acrs 1 2) (inEntropy 2 [0x7F]))
    (fun u => Memory.get? u.coef 3 = some (BitVec.ofInt 16 (-2)) ∧ u.k = 4 ∧ u.bi = 2) = true := by decide
/-- Row 12. -/
theorem test_acrs_overrun : nextIs (exec (.acrs 1 2) (inEntropy 63 [0x7F]))
    (fun u => u.errcode = 0x43 ∧ u.errval = 0x0012 ∧ u.k = 63 ∧ u.bi = 0) = true := by decide
/-- Rows 6 and 9. -/
theorem test_acr0 : nextIs (exec (.acr0 3) (inEntropy 21 [])) (fun u => Memory.get? u.coef 24 = some 0 ∧ u.k = 25) = true ∧
    nextIs (exec (.acr0 3) (inEntropy 61 [])) (fun u => u.errcode = 0x43 ∧ u.errval = 0x0030 ∧ u.k = 61) = true := by decide

/-! Blocks and MCUs. -/

/-- V-DC row 4. -/
theorem test_decodeDc : nextIs (exec (.decodeDc 0 0) (inEntropy 0 [0xCA]))
    (fun u => u.dcpred[0] = BitVec.ofInt 16 (-5) ∧ Memory.get? u.coef 0 = some (BitVec.ofInt 16 (-5)) ∧ u.bi = 6) = true := by decide
/-- V-AC row 10. -/
theorem test_decodeAc : nextIs (exec (.decodeAc 0 0) (inEntropy 63 [0xA0, 0x7F]))
    (fun u => Memory.get? u.coef 63 = some 129 ∧ u.k = 64 ∧ u.bp = 1 ∧ u.bi = 2) = true := by decide
/-- The worked block of R234: 40 bits. -/
theorem test_decodeBlock : nextIs (exec (.decodeBlock 0 0) (inEntropy 0 [0xCA, 0xFF, 0xCF, 0x7A, 0xFC]))
    (fun u => (u.coef.filter fun p => p.2 != 0) = [(0, BitVec.ofInt 16 (-5)), (1, 255), (3, BitVec.ofInt 16 (-2)), (20, 5)]) =
      true := by decide +kernel
/-- V-RST. -/
theorem test_restart : nextIs (exec .restart { inEntropy 0 [] with bp := 3, bi := 2, dcpred := #v[20, 10, BitVec.ofInt 16 (-40)] })
    (fun u => u.bp = 4 ∧ u.bi = 0 ∧ u.dcpred = #v[0, 0, 0]) = true := by decide
theorem test_restart_due : (List.range 5).map (restartBefore { State.reset with framecfg := 0x00020001 }) =
    [false, false, true, false, true] := by decide
/-- Program P1. -/
theorem test_decodeMcu : nextIs (exec (.decodeMcu 0) (inEntropy 0 [0xA0, 0x1F]))
    (fun u => u.mcucnt = 1 ∧ u.dcpred[0] = 128 ∧ u.bp = 1 ∧ u.bi = 3) = true := by decide
theorem test_entropy : nextIs (exec .entropy (inEntropy 0 [0xA0, 0x1F])) (fun u => u.mcucnt = 1 ∧ u.phase = .recon) = true := by decide

/-! RECON. -/

/-- V-DQ row 1, entries 3 and 20. -/
theorem test_dequant : nextIs (exec (.dequant 0 0 0)
      { inRecon [(3, BitVec.ofInt 16 (-2)), (20, 5)] with qtab := Memory.setRange [] 0 64 fun n => BitVec.ofNat 16 (n + 1) })
    (fun u => Memory.get? u.dq 16 = some (BitVec.ofInt 32 (-34)) ∧ Memory.get? u.dq 40 = some 205) = true := by decide
/-- R274 (b): a coefficient of vertical frequency 1 gives 17 in row 0 and -17 in row 7. -/
theorem test_idct : nextIs (exec (.idct 0) { inRecon [] with dq := Memory.setRange [] 0 64 fun n => if n = 8 then 100 else 0 })
    (fun u => Memory.get? u.out 3 = some 17 ∧ Memory.get? u.samp 60 = some 111) = true := by decide
/-- V-IDCT: clamped at both ends. -/
theorem test_levelshift : nextIs (exec (.levelshift 1) { inRecon [] with out := [(0, 128), (1, -200), (2, -15)] })
    (fun u => Memory.get? u.samp 64 = some 255 ∧ Memory.get? u.samp 65 = some 0 ∧ Memory.get? u.samp 66 = some 113) = true := by
  decide
/-- V-COL: a tie in B, a tie in G. -/
theorem test_ycc2rgb : nextIs (exec (.ycc2rgb 100 3 128) State.reset) (fun u => u.pixel = { r := 100, g := 143, b := 0 }) = true ∧
    nextIs (exec (.ycc2rgb 100 78 178) State.reset) (fun u => u.pixel = { r := 170, g := 82, b := 11 }) = true := by decide
theorem test_gray : nextIs (exec (.gray 144) State.reset) (fun u => u.pixel = { r := 144, g := 144, b := 144 }) = true := by decide
/-- V-PIX: the last pixel of a 24 x 8 image, and one outside a 5 x 3 image. -/
theorem test_storepix : nextIs (exec (.storepix 2 63 1 2 3) { State.reset with framedim := 0x00080018 })
      (fun u => u.pix = [(573, 1), (574, 2), (575, 3)]) = true ∧
    nextIs (exec (.storepix 0 5 1 2 3) { State.reset with framedim := 0x00030005 }) (fun u => u.pix = []) = true := by decide
/-- The gray of program P1, cropped to one pixel (R295). -/
theorem test_reconMcu : nextIs (exec (.reconMcu 0) { inRecon [(0, 128)] with framedim := 0x00010001 })
    (fun u => u.pix = [(0, 0x90), (1, 0x90), (2, 0x90)]) = true := by decide +kernel
/-- The end of a run (R300), for an image without an MCU. -/
theorem test_recon : nextIs (exec .recon { inRecon [] with framedim := 0 }) (fun u => u.state = .done ∧ u.phase = .none) = true := by
  decide

/-! Witnesses: for each statement with hypotheses, a state and operands that meet them. -/

theorem next_of_nextIs {o : Host.Outcome State Fault Refusal} {p : State → Bool} (h : nextIs o p = true) :
    ∃ u, o = .next u ∧ p u = true := by
  cases o with
  | next u => exact ⟨u, rfl, h⟩
  | fault e => cases h
  | refused r => cases h

/-! Encoding and the step. -/

theorem witness_DecodeEncode : (Instr.acrs 1 2).wellFormed = true ∧ (Instr.acrs 1 2).format = some .acSym ∧
    encode (.acrs 1 2) = some (8, 0x12) := by decide

/-- One code word of each length up to 4. -/
def fourCodes (n : Nat) : Int := if 1 ≤ n ∧ n ≤ 4 then 1 else 0

theorem witness_DecodeEncodeCode : (∀ n, 0 ≤ fourCodes n) ∧ (Instr.hc 4 14).wellFormed = true ∧ firstCode fourCodes 4 ≤ 14 ∧
    (14 : Int) < firstCode fourCodes 4 + fourCodes 4 ∧ encode (.hc 4 14) = some (4, 14) :=
  ⟨fun n => by unfold fourCodes; split <;> decide, by decide, by decide, by decide, by decide⟩

theorem witness_EncodeDecode : 0xA0 < 2 ^ 8 ∧ decode fourCodes .token 8 0xA0 = .instr (.data 0xA0) := by decide

/-- The states of the clauses of `StepRunsInstruction`. -/
theorem witness_StepRunsInstruction :
    (inScan []).state = .busy ∧ (inScan []).phase = .scan ∧ (inScan []).params.grain = .unit ∧ (inScan []).inputEnd = true ∧
    (inScanOpen [0xFF]).inputEnd = false ∧ (inScanOpen [0xFF]).input.drop (inScanOpen [0xFF]).ip.toNat = [0xFF] ∧
    (inScanOpen [0xFF, 0x00]).input.drop (inScanOpen [0xFF, 0x00]).ip.toNat ≠ [] ∧
    (inScanOpen [0xFF, 0x00]).input.drop (inScanOpen [0xFF, 0x00]).ip.toNat ≠ [0xFF] ∧
    (let s := inEntropy 0 [0xA0, 0x1F]
     s.hostq = [] ∧ s.phase = .entropy ∧ s.upc = .code ∧ s.params.grain = .unit ∧ s.k = 0 ∧
        decodeCode (codeCount s (selectedTable s).1 (selectedTable s).2) (peekBits 16 s) = .instr (.hc 2 2)) ∧
    (let s := inEntropy 0 [0xFF, 0xFF]
     s.upc = .code ∧
        decodeCode (codeCount s (selectedTable s).1 (selectedTable s).2) (peekBits 16 s) = .reject .noCodeWord) ∧
    (inRecon []).phase = .recon ∧ (inRecon []).upc = .dequant 0 ∧ tqOf (inRecon []) 0 = some 0 ∧ ncomp (inRecon []) = 1 := by
  decide

/-- The other positions of a run, and a host action that is not due yet. -/
theorem witness_StepRunsInstruction_positions :
    (let s : State := { inEntropy 0 [] with upc := .restartDue }
     s.state = .busy ∧ s.phase = .entropy ∧ s.upc = .restartDue) ∧
    (let s : State := { inEntropy 0 [] with upc := .symbol }
     s.phase = .entropy ∧ s.upc = .symbol ∧ s.k = 0) ∧
    (let s : State := { inEntropy 1 [] with upc := .symbol }
     s.phase = .entropy ∧ s.upc = .symbol ∧ s.k ≠ 0) ∧
    (let s : State := { inRecon [] with upc := .idct 2 }
     s.phase = .recon ∧ s.upc = .idct 2) ∧
    (let s : State := { inRecon [] with upc := .colour 63 }
     s.phase = .recon ∧ s.upc = .colour 63 ∧ ncomp s ≠ 3) ∧
    (let s : State := { inRecon [] with upc := .colour 0, framecfg := 3 }
     s.upc = .colour 0 ∧ ncomp s = 3) ∧
    (let s : State := { inRecon [] with upc := .store 63 }
     s.phase = .recon ∧ s.upc = .store 63) ∧
    (let s : State := { inScan [] with params := { State.reset.params with grain := .phase } }
     s.state = .busy ∧ s.phase = .scan ∧ s.params.grain = .phase) ∧
    ({ inScan [] with hostq := [(1, .reset)] } : State).hostq = [(0 + 1, .reset)] := by decide

theorem witness_HostActions : configG.state ≠ .busy ∧ configG.hostq = [] ∧ (inScan []).state = .busy ∧
    (inScanOpen []).inputEnd = false ∧ (inScan []).inputEnd = true := by decide

/-! Commands and the register port. -/

theorem offsets_configG (c : HClass) : OffsetsAre configG c 0 fun n => min n (match c with | .dc => 4 | .ac => 6) := by
  cases c <;> exact ⟨by decide, by decide, by decide, by decide⟩

theorem witness_StartAccepted : configG.state ≠ .busy ∧ LaunchOk configG := by
  refine ⟨by decide, by decide, by decide, by decide, by decide, fun j hj => ?_, fun cap h => by cases h⟩
  have : j = 0 := by
    change j.val < 1 at hj
    omega
  subst this
  exact ⟨⟨_, offsets_configG .dc⟩, ⟨_, offsets_configG .ac⟩⟩

/-- Each way to be refused, with the codes of V-START. -/
theorem witness_StartRefused :
    LaunchFault { configG with framecfg := 4 } 0x20 4 ∧ LaunchFault { configG with framecfg := 2 } 0x10 2 ∧
    LaunchFault { configG with framedim := 0x00080000 } 0x11 0 ∧ LaunchFault { configG with framedim := 0x00000008 } 0x11 1 ∧
    LaunchFault { configG with scancomp := #v[2, 0, 0] } 0x12 0 ∧
    LaunchFault { configG with framecfg := 3, scancomp := #v[1, 2, 2] } 0x12 2 ∧
    LaunchFault { configG with tabset := 0x00010100 } 0x13 0 ∧ LaunchFault { configG with tabset := 0x00010001 } 0x14 0 ∧
    LaunchFault { configG with tabset := 0x00000101 } 0x15 0 :=
  ⟨.cmyk (by decide), .count (by decide) (by decide) (by decide), .width (by decide) (by decide),
    .height (by decide) (by decide) (by decide), .ids 0 (by decide) (by decide) (by decide) (by decide) (by decide),
    .ids 2 (by decide) (by decide) (by decide) (by decide) (by decide),
    .quant 0 (by decide) (by decide) (by decide) (by decide) (by decide) (by decide),
    .dc 0 (by decide) (by decide) (by decide) (by decide) (by decide) (by decide) (by decide),
    .ac 0 (by decide) (by decide) (by decide) (by decide) (by decide) (by decide) (by decide) (by decide)⟩

/-- V-START rows 12, 13 and 15. -/
theorem witness_StartRefused_tables :
    LaunchFault { configG with hoff := Memory.set configG.hoff 0 1 } 0x16 0x0000 ∧
    LaunchFault { configG with hoff := Memory.set configG.hoff 144 163 } 0x16 0x0010 ∧
    LaunchFault { configG with params := { configG.params with coefCap := some 0 } } 0x51 0 := by
  refine ⟨.dcTable 0 (fun n => if n = 0 then 1 else min n 4) (by decide) (by decide) (by decide) (by decide) (by decide)
      (fun i hi => absurd hi (by omega)) ⟨by decide, .inl (by decide)⟩,
    .acTable 0 (fun n => min n 4) (fun n => if n = 16 then 163 else min n 6) (by decide) (by decide) (by decide) (by decide)
      (by decide) (fun i hi => absurd hi (by omega)) ⟨by decide, by decide, by decide, by decide⟩
      ⟨by decide, .inr (.inr (by decide))⟩,
    .capacity 0 (by decide) (by decide) (by decide) (by decide) (fun i hi => ?_) rfl (by decide)⟩
  have : i = 0 := by
    change i.val < 1 at hi
    omega
  subst this
  exact ⟨⟨fun n => min n 4, by decide, by decide, by decide, by decide⟩, ⟨fun n => min n 6, by decide, by decide, by decide, by decide⟩⟩

/-- A reset in the RECON phase of a one-pixel image, and one outside it. -/
theorem witness_ResetValues : (inRecon []).state = .busy ∧ (inRecon []).phase = .recon ∧
    (∃ v, exec .recon { inRecon [(0, 128)] with framedim := 0x00010001 } = .next v) ∧ configG.state ≠ .busy :=
  ⟨rfl, rfl, let ⟨v, h, _⟩ := next_of_nextIs (p := fun _ => true) (by decide +kernel); ⟨v, h⟩, by decide⟩

theorem witness_ClearCommand : (inScan []).state = .busy ∧ configG.state ≠ .busy := by decide

theorem witness_CommandsIgnored : (inScan []).state = .busy ∧ (0 : Word) ≠ 1 ∧ (0 : Word) ≠ 2 ∧ (3 : Word) ≠ 1 ∧ (3 : Word) ≠ 2 := by
  decide

/-- What a WRITE does at the edges of every range of the map (spec R30, R53). -/
theorem witness_WriteRegister :
    (∀ a ∈ [0, 2, 4, 8, 15, 22, 23, 255, 529, 543, 767, 768, 1023, 1186, 1279, 3071],
      nextIs (exec (.write (Fin.ofNat 3072 a) 0xFFFFFFFF) configG) (fun u => u = { configG with wign := true }) = true) ∧
    (∀ a ∈ [3, 9, 10, 11, 13, 14, 256, 511, 512, 528, 1024, 1185, 2816],
      nextIs (exec (.write (Fin.ofNat 3072 a) 0xFFFFFFFF) configG) (fun u => u ≠ configG ∧ u.wign = false) = true ∧
      nextIs (exec (.write (Fin.ofNat 3072 a) 0xFFFFFFFF) (inScan [])) (fun u => u = { inScan [] with wign := true }) = true) := by
  decide +kernel

/-- What a READ gives at the edges of the windows of Config G. -/
theorem witness_ReadRegister :
    (∀ p ∈ [(0, 0x4A444331), (1, 0), (9, 0x00080008), (10, 1), (11, 1), (14, 0x00010101), (23, 0), (255, 0), (256, 1), (319, 1),
        (512, 0), (528, 4), (529, 0), (640, 0), (656, 6), (768, 0), (1023, 0), (1025, 8), (1186, 0), (2053, 0x30)],
      nextIs (exec (.read (Fin.ofNat 3072 p.1)) configG) (fun u => u.rdata = BitVec.ofNat 32 p.2) = true) := by
  decide +kernel

theorem witness_StatusRegister : configG.state = .idle ∧ (inScan []).state = .busy ∧
    nextIs (exec .recon { inRecon [] with framedim := 0 }) (fun u => u.state = .done) = true ∧
    nextIs (exec .endin (inScan [])) (fun u => u.state = .error) = true := by decide

/-! Faults. -/

theorem witness_FaultingUnits : (inScan []).ip.toNat + 1 < 2 ^ 32 ∧ (inScan []).input.length < 2 ^ 32 ∧
    2 ^ 32 ≤ ({ inScan [] with ip := 0xFFFFFFFF } : State).ip.toNat + 1 ∧
    2 ^ 32 ≤ (inScan (List.replicate (2 ^ 32) 0)).input.length :=
  ⟨by decide, by decide, by decide, Nat.le_of_eq (List.length_replicate (n := 2 ^ 32)).symm⟩

/-- Both tables of Config G have no code word that begins with 11111111. -/
theorem noPrefix_ones : NoPrefix (fun n => min n 6) (List.replicate 16 true) := by
  intro len j h1 h2 h3 h4
  have hl : len ≤ 16 := h2
  have : len ≤ 6 := by
    by_contra hc
    simp only [show min (len - 1) 6 = 6 by omega, show min len 6 = 6 by omega] at h3 h4
    omega
  obtain rfl : j = len - 1 := by
    simp only [show min (len - 1) 6 = len - 1 by omega, show min len 6 = len by omega] at h3 h4
    omega
  interval_cases len <;> decide

theorem noPrefix_take {off : Nat → Nat} {w : List Bool} (h : NoPrefix off w) (n : Nat) : NoPrefix off (w.take n) := by
  intro len j h1 h2 h3 h4
  rw [List.length_take] at h2
  rw [List.take_take, show min len n = len by omega]
  exact h len j h1 (by omega) h3 h4

theorem offsets_ac (k : BitVec 7) (bytes : List Byte) : OffsetsAre (inEntropy k bytes) .ac 0 fun n => min n 6 :=
  ⟨(offsets_configG .ac).listed, by decide, by decide, by decide⟩

theorem offsets_dc (k : BitVec 7) (bytes : List Byte) : OffsetsAre (inEntropy k bytes) .dc 0 fun n => min n 4 :=
  ⟨(offsets_configG .dc).listed, by decide, by decide, by decide⟩

/-- V-HUFF row 12. -/
theorem witness_Underrun :
    (inEntropy 1 []).cleanlen.toNat ≤ (inEntropy 1 []).bp.toNat ∧
    (let s := inEntropy 1 [0xFF]
     (List.replicate 8 true).length < (12 : BitVec 4).toNat ∧ BitsAt s (bitPos s) (List.replicate 8 true) ∧
        bitPos s + (List.replicate 8 true).length = 8 * s.cleanlen.toNat ∧ (List.replicate 8 true).length < 16) ∧
    OffsetsAre (inEntropy 1 [0xFF]) .ac 0 (fun n => min n 6) ∧ NoPrefix (fun n => min n 6) (List.replicate 8 true) :=
  ⟨by decide, by decide, offsets_ac 1 _, noPrefix_take noPrefix_ones 8⟩

/-- V-HUFF row 8. -/
theorem witness_InvalidCode : OffsetsAre (inEntropy 1 [0xFF, 0xFF]) .ac 0 (fun n => min n 6) ∧
    (List.replicate 16 true).length = 16 ∧
    BitsAt (inEntropy 1 [0xFF, 0xFF]) (bitPos (inEntropy 1 [0xFF, 0xFF])) (List.replicate 16 true) ∧
    NoPrefix (fun n => min n 6) (List.replicate 16 true) :=
  ⟨offsets_ac 1 _, by decide, by decide, noPrefix_ones⟩

theorem witness_AcOverrun : 63 < (inEntropy 49 []).k.toNat + 15 ∧ 63 < (inEntropy 63 []).k.toNat + (1 : BitVec 4).toNat ∧
    63 < (inEntropy 61 []).k.toNat + (3 : BitVec 4).toNat := by decide

theorem witness_NoChannelStops : cid State.reset State.reset.slot = 0 ∧
    ({ State.reset with k := 60 } : State).k.toNat + (3 : BitVec 4).toNat ≤ 63 := by decide

/-! SCAN. -/

theorem witness_AppendingTokens : (∀ cap, (inScan []).params.cleanCap = some cap → (inScan []).cleanlen.toNat < cap) ∧
    (inScan []).ip.toNat + 2 < 2 ^ 32 ∧
    (let s : State := { inScan [] with params := { State.reset.params with cleanCap := some 1 }, cleanlen := 1 }
     s.params.cleanCap = some 1 ∧ 1 ≤ s.cleanlen.toNat) :=
  ⟨fun _ h => (by cases h), by decide, by decide⟩

theorem witness_MarkersDropped : (inScan []).ip.toNat + 2 < 2 ^ 32 ∧ ({ inScan [] with ip := 0xFFFFFFFE } : State).ip.toNat + 1 < 2 ^ 32 := by
  decide

theorem witness_EoiEndsScan : ({ inScan [] with ip := 0xFFFFFFFD } : State).ip.toNat + 2 < 2 ^ 32 := by decide

theorem witness_ScanDestuffs :
    (inScan [0xA0, 0xFF, 0x00, 0xFF, 0xD9, 0x55]).input.drop 0 =
      (([0xA0, 0xFF] : List Byte).flatMap fun b => if b = 0xFF then [0xFF, 0x00] else [b]) ++ [0xFF, 0xD9] ++ [0x55] ∧
    (inScan [0xA0, 0xFF, 0x00, 0xFF, 0xD9, 0x55]).ip.toNat = 0 ∧
    (inScan [0xA0, 0xFF, 0x00, 0xFF, 0xD9, 0x55]).inputEnd = true ∧
    (inScan [0xA0, 0xFF, 0x00, 0xFF, 0xD9, 0x55]).input.length < 2 ^ 32 ∧
    (inScan [0xA0, 0xFF, 0x00, 0xFF, 0xD9, 0x55]).cleanlen.toNat + 2 < 2 ^ 32 ∧
    (inScan [0xA0, 0xFF, 0x00, 0xFF, 0xD9, 0x55]).params.cleanCap = none := by decide

theorem witness_ScanIsItsTokens : (inScan [0xA0]).state = .busy ∧ (inScan [0xA0]).phase = .scan ∧ (inScan [0xA0]).hostq = [] ∧
    (inScan [0xA0]).params.grain ≠ .phase := by decide

/-! Bits and code words. -/

theorem witness_BitPrimitives : let s := inEntropy 0 [0xA5]
    BitsAt s (bitPos s) [true] ∧ [true, false, true].length = (3 : BitVec 4).toNat ∧ BitsAt s (bitPos s) [true, false, true] ∧
      (Instr.xb 3 5).wellFormed = true ∧ BitsAt s (bitPos s) (bitsOf 3 5) := by decide

theorem witness_AlignCursor : (inEntropy 0 []).bi = 0 ∧ ({ inEntropy 0 [] with bi := 7 } : State).bi ≠ 0 := by decide

/-- The sizes 0 and 15, the smallest magnitude of each sign (V-EXT). -/
theorem witness_ExtendValue : (Instr.extend 0 0).wellFormed = true ∧ (Instr.extend 16384 15).wellFormed = true ∧
    2 ^ ((15 : BitVec 4).toNat - 1) ≤ (16384 : BitVec 15).toNat ∧ (Instr.extend 16383 15).wellFormed = true ∧
    (16383 : BitVec 15).toNat < 2 ^ ((15 : BitVec 4).toNat - 1) := by decide

/-- Table DC-A gives 10 to the symbol 8. -/
theorem codeWord_dc8 (k : BitVec 7) (bytes : List Byte) : CodeWord (inEntropy k bytes) .dc 0 0x08 2 2 2 :=
  ⟨_, 1, offsets_dc k bytes, by decide, by decide, by decide, by decide, rfl, by decide, by decide, by decide⟩

/-- Table AC-A: 0 is EOB, 10 is 0x08, 110 is 0x12. -/
theorem codeWord_eob (k : BitVec 7) (bytes : List Byte) : CodeWord (inEntropy k bytes) .ac 0 0x00 1 0 0 :=
  ⟨_, 0, offsets_ac k bytes, by decide, by decide, by decide, by decide, rfl, by decide, by decide, by decide⟩

theorem codeWord_08 (k : BitVec 7) (bytes : List Byte) : CodeWord (inEntropy k bytes) .ac 0 0x08 2 2 2 :=
  ⟨_, 1, offsets_ac k bytes, by decide, by decide, by decide, by decide, rfl, by decide, by decide, by decide⟩

theorem codeWord_12 (k : BitVec 7) (bytes : List Byte) : CodeWord (inEntropy k bytes) .ac 0 0x12 3 6 6 :=
  ⟨_, 2, offsets_ac k bytes, by decide, by decide, by decide, by decide, rfl, by decide, by decide, by decide⟩

theorem witness_CodeWordDecodes :
    CodeWord (inEntropy 0 [0xA0]) .dc (tdSel (inEntropy 0 [0xA0]) (inEntropy 0 [0xA0]).slot) 0x08 2 2 2 ∧
    (inEntropy 0 [0xA0]).k = 0 ∧ BitsAt (inEntropy 0 [0xA0]) (bitPos (inEntropy 0 [0xA0])) (bitsOf 2 2) ∧
    CodeWord (inEntropy 1 [0xDF]) .ac (taSel (inEntropy 1 [0xDF]) (inEntropy 1 [0xDF]).slot) 0x12 3 6 6 ∧
    (inEntropy 1 [0xDF]).k ≠ 0 ∧ BitsAt (inEntropy 1 [0xDF]) (bitPos (inEntropy 1 [0xDF])) (bitsOf 3 6) :=
  ⟨codeWord_dc8 0 _, by decide, by decide, codeWord_12 1 _, by decide, by decide⟩

theorem witness_CodeWordIsHuffdec : let s := inEntropy 1 [0xEF]
    decodeCode (codeCount s (selectedTable s).1 (selectedTable s).2) (peekBits 16 s) = .instr (.hc 4 14) := by decide

/-! Symbols, blocks, MCUs. -/

theorem witness_DcSymbols : let s := inEntropy 0 [0x7F]
    cid s s.slot = (0 : Fin 3).val + 1 ∧ [false, true, true].length = (3 : Fin 12).val ∧
      BitsAt s (bitPos s) [false, true, true] := by decide

/-- The run that ends at the last position; ZRL at the last position it may start from. -/
theorem witness_AcSymbols : let s := inEntropy 48 [0x7F]
    s.k.toNat ≤ 48 ∧ s.k.toNat + (15 : BitVec 4).toNat ≤ 63 ∧ cid s s.slot = (0 : Fin 3).val + 1 ∧
      [false, true].length = (2 : BitVec 4).toNat ∧ BitsAt s (bitPos s) [false, true] := by decide

/-- V-DC row 2: bits 10 10000000. -/
theorem witness_DecodeDcUnit : let s := inEntropy 0 [0xA0, 0x1F]
    cid s 0 = (0 : Fin 3).val + 1 ∧ CodeWord s .dc (tdSel s 0) 0x08 2 2 2 ∧ (0x08 : Byte).toNat ≤ 11 ∧
      128 < 2 ^ (0x08 : Byte).toNat ∧ BitsAt s (bitPos s) (bitsOf 2 2 ++ bitsOf (0x08 : Byte).toNat 128) :=
  ⟨by decide, codeWord_dc8 0 _, by decide, by decide, by decide⟩

/-- V-AC rows 2, 3 and 1: bits 10 11111111, 110 01, 0. -/
theorem witness_DecodeAcUnits : let s := inEntropy 1 [0xBF, 0xF2]
    cid s 0 = (0 : Fin 3).val + 1 ∧ acFits s.k.toNat [⟨0, 8, 255⟩, ⟨1, 2, 1⟩] = true ∧ s.k.toNat ≤ 64 ∧
      AcAt s (taSel s 0) s.k.toNat [⟨0, 8, 255⟩, ⟨1, 2, 1⟩] (bitPos s) 16 :=
  ⟨by decide, by decide, by decide, 10, ⟨2, 2, 2, codeWord_08 1 _, by decide, by decide⟩,
    15, ⟨3, 6, 6, codeWord_12 1 _, by decide, by decide⟩, ⟨1, 0, 0, codeWord_eob 1 _, by decide, by decide⟩⟩

/-- The block of program P1. -/
def blockP1 : Block := { size := 8, value := 128, ac := [] }

theorem blockAt_P1 : BlockAt (inEntropy 0 [0xA0, 0x1F]) 0 blockP1 0 11 :=
  ⟨10, ⟨2, 2, 2, codeWord_dc8 0 _, by decide, by decide⟩, ⟨1, 0, 0, codeWord_eob 0 _, by decide, by decide⟩⟩

theorem blocksAt_P1 : BlocksAt (inEntropy 0 [0xA0, 0x1F]) 0 [blockP1] 0 11 := ⟨0, 11, rfl, blockAt_P1, rfl⟩

theorem witness_DecodeCodedBlock : let s := inEntropy 0 [0xA0, 0x1F]
    cid s 0 = (0 : Fin 3).val + 1 ∧ blockP1.fits = true ∧ BlockAt s 0 blockP1 (bitPos s) 11 :=
  ⟨by decide, by decide, blockAt_P1⟩

theorem witness_DecodeCodedMcu : let s := inEntropy 0 [0xA0, 0x1F]
    CountOk s ∧ IdsOk s ∧ mcuFits s [blockP1] = true ∧ BlocksAt s 0 [blockP1] (bitPos s) 11 :=
  ⟨by decide, by decide, by decide, blocksAt_P1⟩

/-- V-RST: RI = 2, 5 MCUs, MCU 2 and MCU 3. -/
theorem witness_RestartAction : let s : State := { inEntropy 0 [] with framecfg := 0x00020001, framedim := 0x00080028 }
    2 < nMcu s ∧ RestartDue s 2 ∧ 3 < nMcu s ∧ ¬RestartDue s 3 := by decide

theorem witness_EntropyDecodesImage : let s := inEntropy 0 [0xA0, 0x1F]
    CountOk s ∧ IdsOk s ∧ [[blockP1]].length = nMcu s ∧ (∀ bs, bs ∈ [[blockP1]] → mcuFits s bs = true) ∧
      McusAt s 0 [[blockP1]] (bitPos s) 11 :=
  ⟨by decide, by decide, by decide, by decide, 11, blocksAt_P1, rfl⟩

theorem witness_BlockBitBound : ∃ u, exec (.decodeBlock 0 0) (inEntropy 0 [0xCA, 0xFF, 0xCF, 0x7A, 0xFC]) = .next u :=
  let ⟨u, h, _⟩ := next_of_nextIs test_decodeBlock
  ⟨u, h⟩

theorem witness_BlockIsItsUnits : let s := inEntropy 0 [0xA0, 0x1F]
    s.state = .busy ∧ s.phase = .entropy ∧ s.hostq = [] ∧ s.params.grain = .unit ∧ ∃ b, beginBlock (0 : Fin 3).val s = .next b :=
  ⟨by decide, by decide, by decide, by decide,
    let ⟨u, h, _⟩ := next_of_nextIs (p := fun _ => true) (by decide)
    ⟨u, h⟩⟩

/-! RECON. -/

theorem listed_setRange {α : Type} (base n : Nat) (f : Nat → α) {a : Nat} (h : base ≤ a) (h' : a < base + n) :
    Listed (Memory.setRange [] base n f) a := by
  rw [Listed, Memory.get?_setRange, if_pos ⟨h, h'⟩]
  rfl

theorem coefListed_inRecon : CoefListed (inRecon []) 0 0 := by
  intro n hn
  have h : (inRecon []).coef = Memory.setRange [] 0 64 fun _ => 0 := by
    dsimp only [inRecon, Memory.setAll, List.foldl_nil]
  rw [h]
  exact listed_setRange 0 64 _ (Nat.zero_le _) (by simp only [coefIndex]; omega)

theorem quantListed_inRecon : QuantListed (inRecon []) 0 := by
  intro n hn
  have h : (inRecon []).qtab = Memory.setRange [] 0 64 fun _ => 1 := by dsimp only [inRecon, configG]
  rw [h]
  exact listed_setRange 0 64 _ (Nat.zero_le _) (by
    rw [show (0 : BitVec 2).toNat = 0 from rfl]
    omega)

theorem witness_DequantBlock : CoefListed (inRecon []) (0 : Word).toNat (0 : Fin 3).val ∧ QuantListed (inRecon []) 0 :=
  ⟨coefListed_inRecon, quantListed_inRecon⟩

theorem witness_InverseTransform : let s : State := { inRecon [] with dq := Memory.setRange [] 0 64 fun _ => 0 }
    ∀ n, n < 64 → Listed s.dq n := by
  intro s n hn
  dsimp only [s]
  exact listed_setRange 0 64 _ (Nat.zero_le _) (by omega)

/-- The clauses at their edges: -129, -128, 127 and 128. -/
theorem witness_LevelShiftClamp : let s : State := { inRecon [] with out := [(0, -129), (1, -128), (2, 127), (3, 128)] }
    (∃ v : Int, Memory.get? s.out 0 = some v ∧ v + 128 < 0) ∧
    (∃ v : Int, Memory.get? s.out 1 = some v ∧ 0 ≤ v + 128 ∧ v + 128 ≤ 255) ∧
    (∃ v : Int, Memory.get? s.out 2 = some v ∧ 0 ≤ v + 128 ∧ v + 128 ≤ 255) ∧
    ∃ v : Int, Memory.get? s.out 3 = some v ∧ 255 < v + 128 :=
  ⟨⟨-129, by decide⟩, ⟨-128, by decide⟩, ⟨127, by decide⟩, ⟨128, by decide⟩⟩

theorem witness_ColourConversion : ∃ u, exec (.ycc2rgb 100 3 128) State.reset = .next u :=
  let ⟨u, h, _⟩ := next_of_nextIs (p := fun _ => true) (by decide)
  ⟨u, h⟩

/-- V-PIX: a 5 x 3 image, the pixels 4, 5 and 24 of MCU 0. -/
theorem witness_StorePixel : let s : State := { State.reset with framedim := 0x00030005 }
    (0 = 8 * (0 / mcuCols s) + 4 / 8 ∧ 4 = 8 * (0 % mcuCols s) + 4 % 8 ∧ 0 < height s ∧ 4 < width s) ∧
    (5 = 8 * (0 % mcuCols s) + 5 % 8 ∧ width s ≤ 5) ∧ 3 = 8 * (0 / mcuCols s) + 24 / 8 ∧ height s ≤ 3 := by decide

/-- V-PIX: a 9 x 9 image. -/
theorem witness_PlacementBijection : let s : State := { State.reset with framedim := 0x00090009 }
    3 < nMcu s ∧ 63 < 64 ∧ 15 < 8 * mcuRows s ∧ 15 < 8 * mcuCols s ∧ pixelRow s 3 63 = 15 ∧ pixelCol s 3 63 = 15 := by decide

theorem witness_ReconMcuPixels : CountOk (inRecon []) ∧ IdsOk (inRecon []) ∧
    ∀ ch, ch < ncomp (inRecon []) → CoefListed (inRecon []) (0 : Word).toNat ch ∧ QuantListed (inRecon []) (channelTable (inRecon []) ch) :=
  ⟨by decide, by decide, fun ch h => by
    obtain rfl : ch = 0 := by
      change ch < 1 at h
      omega
    exact ⟨coefListed_inRecon, quantListed_inRecon⟩⟩

theorem witness_ReconFillsImage : CountOk (inRecon []) ∧ IdsOk (inRecon []) ∧
    ∀ m ch, m < nMcu (inRecon []) → ch < ncomp (inRecon []) →
      CoefListed (inRecon []) m ch ∧ QuantListed (inRecon []) (channelTable (inRecon []) ch) :=
  ⟨by decide, by decide, fun m ch hm h => by
    obtain rfl : m = 0 := by
      change m < 1 at hm
      omega
    obtain rfl : ch = 0 := by
      change ch < 1 at h
      omega
    exact ⟨coefListed_inRecon, quantListed_inRecon⟩⟩

/-! The whole machine. -/

theorem runInv_inScan (input : List Byte) : RunInv (inScan input) where
  phase := ⟨fun _ => nofun, fun _ => rfl⟩
  launch _ := (by decide : CountOk configG ∧ DimsOk configG ∧ IdsOk configG)
  input _ := rfl
  position := ⟨rfl, Nat.le_refl 0⟩
  cursor := Nat.le_refl 0

theorem written_inScan (input : List Byte) : Written (inScan input) where
  clean a ha := absurd ha (Nat.not_lt_zero a)
  entropy h := nomatch h
  recon h := nomatch h
  dq _ h := nomatch h
  samp _ _ h := h.elim nofun nofun
  pixels _ h := nomatch h
  rgb _ h := nomatch h
  stores _ h := nomatch h

theorem step_inScan : ∃ u, step (inScan [0xA0]) = .next u :=
  let ⟨u, h, _⟩ := next_of_nextIs (p := fun _ => true) (by decide)
  ⟨u, h⟩

theorem not_due {s : State} (h : s.hostq = []) (e : HostEvent) : ¬Due s e := fun ⟨_, h'⟩ => by
  rw [h] at h'
  cases h'

theorem witness_StepKeepsCanonical : Canonical (inScan [0xA0]) ∧ ∃ u, step (inScan [0xA0]) = .next u := by
  refine ⟨⟨?_, by decide, by decide, by decide, by decide, by decide, by decide, by decide, by decide, by decide, by decide, by decide,
    by decide, by decide, by decide, by decide⟩, step_inScan⟩
  dsimp only [inScan, configG]
  exact Memory.wf_setRange rfl 0 64 _

theorem witness_StepKeepsRunInv : RunInv (inScan [0xA0]) ∧ ∃ u, step (inScan [0xA0]) = .next u := ⟨runInv_inScan _, step_inScan⟩

theorem witness_RunNeverStops : RunInv (inScan [0xA0]) ∧ (inScan [0xA0]).input.length < 2 ^ 32 ∧
    (∀ bytes last, Due (inScan [0xA0]) (.attach bytes last) → (inScan [0xA0]).state ≠ .busy) ∧
    ∀ bytes last, Due (inScan [0xA0]) (.deliver bytes last) → (inScan [0xA0]).inputEnd = false :=
  ⟨runInv_inScan _, by decide, fun _ _ h => (not_due rfl _ h).elim, fun _ _ h => (not_due rfl _ h).elim⟩

theorem witness_StepKeepsWritten : RunInv (inScan [0xA0]) ∧ Written (inScan [0xA0]) ∧ ∃ u, step (inScan [0xA0]) = .next u :=
  ⟨runInv_inScan _, written_inScan _, step_inScan⟩

theorem witness_RunKeepsLaunchState : (inScan [0xA0]).state = .busy ∧ ¬Due (inScan [0xA0]) .reset ∧
    (∀ bytes last, ¬Due (inScan [0xA0]) (.deliver bytes last)) ∧ ∃ u, step (inScan [0xA0]) = .next u :=
  ⟨rfl, not_due rfl _, fun _ _ => not_due rfl _, step_inScan⟩

theorem witness_PixelsOnlyInRecon : (∃ u, step (inScan [0xA0]) = .next u) ∧ ¬((inScan [0xA0]).state = .busy ∧ (inScan [0xA0]).phase = .recon) ∧
    (∃ u, step (inRecon []) = .next u) ∧ (inRecon []).state = .busy ∧ (inRecon []).phase = .recon ∧
    3 * width (inRecon []) * height (inRecon []) ≤ 192 :=
  ⟨step_inScan, by decide, let ⟨u, h, _⟩ := next_of_nextIs (p := fun _ => true) (by decide); ⟨u, h⟩, rfl, rfl, by decide⟩

theorem witness_RunGoesForward : RunInv (inScan [0xA0]) ∧ (inScan [0xA0]).state = .busy ∧ ¬Due (inScan [0xA0]) .reset ∧
    ∃ u, step (inScan [0xA0]) = .next u := ⟨runInv_inScan _, rfl, not_due rfl _, step_inScan⟩

/-- WIGN set by a write to ID; cleared by CLEAR; a fault record with no action due. -/
theorem witness_StickyRecords :
    nextIs (step { State.reset with hostq := [(0, .write 0 0)] }) (fun u => u.wign) = true ∧
    nextIs (step { State.reset with wign := true, hostq := [(0, .write 1 2)] }) (fun u => !u.wign) = true ∧
    nextIs (step { State.reset with state := .error, errcode := 0x40 }) (fun u => u.errcode = 0x40) = true ∧
    ¬Due { State.reset with state := .error } .reset ∧ ¬Due { State.reset with state := .error } (.write 1 1) ∧
    ¬Due { State.reset with state := .error } (.write 1 2) :=
  ⟨by decide, by decide, by decide, not_due rfl _, not_due rfl _, not_due rfl _⟩

theorem witness_EveryRunEnds : RunInv (inScan [0xA0]) ∧ (inScan [0xA0]).state = .busy ∧ (inScan [0xA0]).hostq = [] ∧
    (inScan [0xA0]).input.length < 2 ^ 32 ∧ (inScan [0xA0]).inputEnd = true ∧
    (let s := inScanOpen [0xA0, 0xFF]
     s.state = .busy ∧ s.phase = .scan ∧ s.hostq = [] ∧ s.inputEnd = false ∧
       { s with ip := 1 }.input.drop ({ s with ip := 1 } : State).ip.toNat = [0xFF] ∧
       { s with ip := 2 }.input.drop ({ s with ip := 2 } : State).ip.toNat = []) :=
  ⟨runInv_inScan _, rfl, rfl, by decide, rfl, by decide⟩

end Sys2Proof.Tests
end

