-- ==== Sys2Proof/Proofs/Commands.lean ====
section
/-! The commands CLEAR and START and the reserved commands (spec R146 to R148): an equation for each command in each kind of state,
and the two obligations about them. -/

namespace Sys2Proof.Machine

/-! What each command word performs: `exec` unfolded for one instruction. -/

theorem exec_start (s : State) : exec .start s = .next (startCommand s) := rfl

theorem exec_clear (s : State) : exec .clear s = .next (clearCommand s) := rfl

theorem exec_cmdReserved (v : Word) (s : State) : exec (.cmdReserved v) s = .next (ignoreWrite s) := rfl

/-! The commands, by the state they meet. -/

theorem startCommand_of_busy {s : State} (hbusy : s.state = .busy) : startCommand s = ignoreWrite s := if_pos hbusy

theorem clearCommand_of_busy {s : State} (hbusy : s.state = .busy) : clearCommand s = ignoreWrite s := if_pos hbusy

theorem clearCommand_of_not_busy {s : State} (hstopped : s.state ≠ .busy) : clearCommand s = leaveToIdle s := if_neg hstopped

/-- Only `DONE` and `ERROR` can raise the interrupt output (spec R340). -/
theorem irq_of_idle {s : State} (hidle : s.state = .idle) : irq s = false := by simp [irq, hidle]

theorem irq_leaveToIdle (s : State) : irq (leaveToIdle s) = false := irq_of_idle rfl

theorem decodeCmd_of_reserved {v : Word} (hstart : v ≠ 1) (hclear : v ≠ 2) : decodeCmd v = .cmdReserved v := by
  rw [decodeCmd, if_neg hstart, if_neg hclear]

end Sys2Proof.Machine

namespace Sys2Proof.Proofs

open Sys2Proof.Machine

/-- Settles O9: while BUSY, CLEAR is an ignored write; otherwise it is `leaveToIdle`, whose STATE `IDLE` holds the interrupt
output low. -/
theorem clearCommand : Obligations.ClearCommand := by
  unfold Obligations.ClearCommand
  constructor
  · intro s hbusy
    rw [exec_clear, clearCommand_of_busy hbusy, ignoreWrite]
  · intro s hstopped
    have hexec : exec .clear s = .next (leaveToIdle s) := by rw [exec_clear, clearCommand_of_not_busy hstopped]
    exact ⟨leaveToIdle s, hexec, irq_leaveToIdle s, rfl⟩

/-- Settles O10: a word other than 1 and 2 decodes to a reserved command, and that, like START while BUSY, is an ignored write. -/
theorem commandsIgnored : Obligations.CommandsIgnored := by
  unfold Obligations.CommandsIgnored
  refine ⟨?reserved, ?startWhileBusy, ?decodes⟩
  case reserved =>
    intro v s
    rw [exec_cmdReserved, ignoreWrite]
  case startWhileBusy =>
    intro s hbusy
    rw [exec_start, startCommand_of_busy hbusy, ignoreWrite]
  case decodes =>
    intro v hstart hclear
    exact decodeCmd_of_reserved hstart hclear

end Sys2Proof.Proofs
end

