-- ==== Sys2Proof/Proofs/EntropyBitReader.lean ====
section
/-! The entropy bit reader (spec R164, R165, R172): where the input cursor goes when its move does not pass 2^32 - 1, ALIGN at a
byte boundary and off one, and the obligations about the dropped tokens and ALIGN. -/

namespace Sys2Proof.Machine

/-! What each of the instructions performs: `exec` unfolded for one instruction. -/

theorem exec_rstN (n : BitVec 3) (s : State) : exec (.rstN n) s = (advanceIp 2 s).toOutcome := rfl

theorem exec_fill (s : State) : exec .fill s = (advanceIp 1 s).toOutcome := rfl

theorem exec_align (s : State) : exec .align s = .next (alignCursor s) := rfl

/-! The cursors. -/

/-- No refusal where the new position fits the cursor (spec R24; log 13). -/
theorem advanceIp_of_lt {n : Nat} {s : State} (hfits : s.ip.toNat + n < 2 ^ 32) :
    advanceIp n s = .cont () { s with ip := s.ip + BitVec.ofNat 32 n } := by
  obtain ⟨-, hmoved⟩ | ⟨hpast, -⟩ := advanceIp_cases n s
  · exact hmoved
  · omega

theorem alignCursor_of_aligned {s : State} (haligned : s.bi = 0) : alignCursor s = s := if_neg (not_not_intro haligned)

theorem alignCursor_of_not_aligned {s : State} (hinside : s.bi ≠ 0) :
    alignCursor s = { s with bp := s.bp + 1, bi := 0 } := if_pos hinside

end Sys2Proof.Machine

namespace Sys2Proof.Proofs

open Sys2Proof.Machine

/-- Settles O23: both tokens are a move of the input cursor alone, and RSTn does not look at its number. -/
theorem markersDropped : Obligations.MarkersDropped := by
  unfold Obligations.MarkersDropped
  intro s
  constructor
  · intro n hfits
    rw [exec_rstN]
    exact congrArg Flow.toOutcome (advanceIp_of_lt hfits)
  · intro hfits
    rw [exec_fill]
    exact congrArg Flow.toOutcome (advanceIp_of_lt hfits)

/-- Settles O29: ALIGN is `alignCursor`, at a byte boundary and off one. -/
theorem alignCursor : Obligations.AlignCursor := by
  unfold Obligations.AlignCursor
  intro s
  constructor
  · intro haligned
    rw [exec_align, alignCursor_of_aligned haligned]
  · intro hinside
    rw [exec_align, alignCursor_of_not_aligned hinside]

end Sys2Proof.Proofs
end

