-- ==== Sys2Proof/Proofs/LevelShift.lean ====
section
/-! The level shift and clamp (spec R271): the byte an integer is clamped to, what SAMP holds after LEVELSHIFT inside and outside
the channel, and the obligation about LEVELSHIFT. -/

namespace Sys2Proof.Machine

/-! The byte an integer is clamped to. -/

theorem clampByte_of_neg {x : Int} (hneg : x < 0) : clampByte x = 0 := by
  rw [clampByte, clamp, if_pos hneg]
  rfl

theorem clampByte_of_gt {x : Int} (hover : 255 < x) : clampByte x = 255 := by
  rw [clampByte, clamp, if_neg (by omega), if_pos hover]
  rfl

theorem clampByte_of_mem_range {x : Int} (hlow : 0 ≤ x) (hhigh : x ≤ 255) : clampByte x = BitVec.ofInt 8 x := by
  rw [clampByte, clamp, if_neg (by omega), if_neg (by omega)]

/-! LEVELSHIFT. -/

/-- `exec` unfolded for LEVELSHIFT. -/
theorem exec_levelshift (ch : Fin 3) (s : State) : exec (.levelshift ch) s = .next (levelShift ch.val s) := rfl

/-- LEVELSHIFT writes SAMP, and the counter `draws` of the free values (log 5). -/
theorem levelShift_frame (ch : Nat) (s : State) :
    levelShift ch s = { s with samp := (levelShift ch s).samp, draws := (levelShift ch s).draws } := by
  dsimp only [levelShift, bumpDraws]

/-- Sample `n` of the channel is the output read at `n`, shifted and clamped. -/
theorem get?_samp_levelShift_inside (ch : Nat) (s : State) {n : Nat} (hn : n < 64) :
    Memory.get? (levelShift ch s).samp (64 * ch + n) = some (clampByte (outAt s n + 128)) := by
  rw [levelShift, Memory.get?_setRange, if_pos (by omega), Nat.add_sub_cancel_left]

/-- The samples of the other channels stay. -/
theorem get?_samp_levelShift_outside (ch : Nat) (s : State) {a : Nat} (ha : a < 64 * ch ∨ 64 * ch + 64 ≤ a) :
    Memory.get? (levelShift ch s).samp a = Memory.get? s.samp a := by
  rw [levelShift, Memory.get?_setRange, if_neg (by omega)]

theorem listed_samp_levelShift (ch : Nat) (s : State) {n : Nat} (hn : n < 64) :
    Listed (levelShift ch s).samp (64 * ch + n) :=
  Option.isSome_of_eq_some (get?_samp_levelShift_inside ch s hn)

theorem outAt_of_get? {s : State} {n : Nat} {v : Int} (hv : Memory.get? s.out n = some v) : outAt s n = v :=
  Memory.read_of_get? hv _

/-- Where the output is written, the sample is that output, shifted and clamped. -/
theorem get?_samp_levelShift_of_out (ch : Nat) {s : State} {n : Nat} {v : Int} (hn : n < 64)
    (hv : Memory.get? s.out n = some v) :
    Memory.get? (levelShift ch s).samp (64 * ch + n) = some (clampByte (v + 128)) := by
  rw [get?_samp_levelShift_inside ch s hn, outAt_of_get? hv]

end Sys2Proof.Machine

namespace Sys2Proof.Proofs

open Sys2Proof.Machine

/-- Settles O45: LEVELSHIFT is `levelShift`; a written output gives the clamped byte of output + 128, which is computed below,
above and inside 0..255. -/
theorem levelShiftClamp : Obligations.LevelShiftClamp := by
  unfold Obligations.LevelShiftClamp
  intro s ch
  refine ⟨levelShift ch.val s, exec_levelshift ch s, levelShift_frame ch.val s, ?written, ?others, ?value⟩
  case written =>
    intro n hn
    exact listed_samp_levelShift ch.val s hn
  case others =>
    intro a ha
    exact get?_samp_levelShift_outside ch.val s ha
  case value =>
    intro n v hn hv
    rw [get?_samp_levelShift_of_out ch.val hn hv]
    refine ⟨?below, ?above, ?inside⟩
    case below =>
      intro hneg
      rw [clampByte_of_neg hneg]
    case above =>
      intro hover
      rw [clampByte_of_gt hover]
    case inside =>
      intro hlow hhigh
      rw [clampByte_of_mem_range hlow hhigh]

end Sys2Proof.Proofs
end

