-- ==== Sys2Proof/Proofs/StorePixel.lean ====
section
/-! The placement of one pixel (spec R295): its offset in PIX inside the image, none where the crop drops it, what STOREPIX does in
either case, and the obligation about STOREPIX. -/

namespace Sys2Proof.Machine

/-- `exec` unfolded for STOREPIX. -/
theorem exec_storepix (m : Word) (i : Fin 64) (r g b : Byte) (s : State) :
    exec (.storepix m i r g b) s = .next (storePixel m.toNat i.val { r := r, g := g, b := b } s) := rfl

/-! Where a pixel goes: the crop. -/

theorem pixelTarget_of_inside {s : State} {m i : Nat} (hrow : pixelRow s m i < height s) (hcol : pixelCol s m i < width s) :
    pixelTarget s m i = some (pixOffset s (pixelRow s m i) (pixelCol s m i)) := if_pos ⟨hrow, hcol⟩

theorem pixelTarget_of_outside {s : State} {m i : Nat} (hcrop : height s ≤ pixelRow s m i ∨ width s ≤ pixelCol s m i) :
    pixelTarget s m i = none := if_neg (by omega)

/-! What is stored there. -/

theorem storePixel_of_inside {s : State} {m i : Nat} (hrow : pixelRow s m i < height s) (hcol : pixelCol s m i < width s)
    (p : Rgb) : storePixel m i p s =
      { s with
        pix := Memory.setAll s.pix
          [(pixOffset s (pixelRow s m i) (pixelCol s m i), p.r),
            (pixOffset s (pixelRow s m i) (pixelCol s m i) + 1, p.g),
            (pixOffset s (pixelRow s m i) (pixelCol s m i) + 2, p.b)] } := by
  rw [storePixel, pixelTarget_of_inside hrow hcol]

theorem storePixel_of_outside {s : State} {m i : Nat} (hcrop : height s ≤ pixelRow s m i ∨ width s ≤ pixelCol s m i)
    (p : Rgb) : storePixel m i p s = s := by
  rw [storePixel, pixelTarget_of_outside hcrop]

end Sys2Proof.Machine

namespace Sys2Proof.Proofs

open Sys2Proof.Machine

/-- Settles O47: STOREPIX is `storePixel`; the row and the column it computes decide whether the crop keeps the pixel, and the
three bytes of a kept one are set one after the other. -/
theorem storePixel : Obligations.StorePixel := by
  unfold Obligations.StorePixel
  intro s m i r g b y x hy hx
  obtain rfl : y = pixelRow s m.toNat i.val := hy
  obtain rfl : x = pixelCol s m.toNat i.val := hx
  constructor
  · intro hrow hcol
    rw [exec_storepix, storePixel_of_inside hrow hcol]
    simp only [Memory.setAll_cons, Memory.setAll_nil, pixOffset]
  · intro hcrop
    rw [exec_storepix, storePixel_of_outside hcrop]

end Sys2Proof.Proofs
end

