-- ==== Sys2Proof/Proofs/FaultEntry.lean ====
section
/-! Fault entry (spec R330): the word ERRBLK as its three fields side by side (spec R39), the state `faultEntry` leaves, and the
obligation about fault entry. -/

namespace Sys2Proof.Machine

/-- A register of at most 32 bits, put into a word at bit `i`. -/
theorem setWidth_shiftLeft_eq_ofNat {n : Nat} (hn : n ≤ 32) (x : BitVec n) (i : Nat) :
    x.setWidth 32 <<< i = BitVec.ofNat 32 (x.toNat <<< i) := by
  apply BitVec.eq_of_toNat_eq
  rw [BitVec.toNat_shiftLeft, BitVec.toNat_setWidth_of_le hn, BitVec.toNat_ofNat]

/-- The fields of ERRBLK do not overlap: SLOT is below bit 8, and K is from bit 8 to below bit 16. -/
theorem errblkWord_eq_or (s : State) :
    errblkWord s = (s.bi.setWidth 32 <<< 16) ||| (s.k.setWidth 32 <<< 8) ||| BitVec.ofNat 32 s.slot.val := by
  have hk : s.k.toNat < 2 ^ 7 := s.k.isLt
  have hslot : s.slot.val < 3 := s.slot.isLt
  have hlow : s.k.toNat <<< 8 ||| s.slot.val = s.k.toNat * 256 + s.slot.val := by
    rw [← Nat.shiftLeft_add_eq_or_of_lt (by omega), Nat.shiftLeft_eq]
  have hword : s.bi.toNat <<< 16 ||| s.k.toNat <<< 8 ||| s.slot.val =
      s.bi.toNat * 65536 + s.k.toNat * 256 + s.slot.val := by
    rw [Nat.or_assoc, hlow, ← Nat.shiftLeft_add_eq_or_of_lt (by omega), Nat.shiftLeft_eq, Nat.add_assoc]
  rw [errblkWord, ← hword, BitVec.ofNat_or, BitVec.ofNat_or, setWidth_shiftLeft_eq_ofNat (by decide),
    setWidth_shiftLeft_eq_ofNat (by decide)]

end Sys2Proof.Machine

namespace Sys2Proof.Proofs

open Sys2Proof.Machine

/-- Settles O16: `raise` ends in `faultEntry`, whose ERRBLK is `errblkWord`; each code is read off `causeCode`. -/
theorem faultEntry : Obligations.FaultEntry := by
  unfold Obligations.FaultEntry
  refine ⟨fun c pos val s => ⟨Machine.faultEntry c pos val s, raise_eq c pos val s, ?_⟩, by decide⟩
  rw [← errblkWord_eq_or]
  rfl

end Sys2Proof.Proofs
end

section
/-! The bits at the cursor (spec R25, R170, R171), listed or not: what the bit primitives do with as many of them as there are. -/

namespace Sys2Proof.Machine

/-! The bits that stand at the cursor. -/

/-- The next bits of the clean stream are `w`; a bit of an entry that nothing has written counts as well (log 1). -/
def NextBits (s : State) (w : List Bool) : Prop := peekBits w.length s = w

theorem peekBits_congr {s u : State} (hclean : u.clean = s.clean) (hlen : u.cleanlen = s.cleanlen) (hbp : u.bp = s.bp)
    (hbi : u.bi = s.bi) (hdraws : u.draws = s.draws) (n : Nat) : peekBits n u = peekBits n s := by
  induction n generalizing s u with
  | zero => rfl
  | succ n ih =>
    have hbit : cleanBit u = cleanBit s := by rw [cleanBit, cleanBit, hclean, hbp, hbi, hdraws]
    rw [peekBits, peekBits, hlen, hbp, hbit]
    rw [ih (u := advanceBit (cleanBit s) u) (s := advanceBit (cleanBit s) s)]
    · simpa using hclean
    · simpa using hlen
    · simp only [advanceBit, hbi, hbp]
      split <;> rfl
    · simp only [advanceBit, hbi, hbp]
      split <;> rfl
    · simpa using hdraws

theorem nextBits_congr {s u : State} (hclean : u.clean = s.clean) (hlen : u.cleanlen = s.cleanlen) (hbp : u.bp = s.bp)
    (hbi : u.bi = s.bi) (hdraws : u.draws = s.draws) {w : List Bool} : NextBits u w ↔ NextBits s w := by
  rw [NextBits, NextBits, peekBits_congr hclean hlen hbp hbi hdraws]

theorem nextBits_nil (s : State) : NextBits s [] := rfl

theorem nextBits_cons {s : State} {b : Bool} {w : List Bool} :
    NextBits s (b :: w) ↔ s.bp.toNat < s.cleanlen.toNat ∧ cleanBit s = b ∧ NextBits (consume [b] s) w := by
  unfold NextBits
  rw [List.length_cons, peekBits]
  split
  · simp
    omega
  · rw [List.cons.injEq, advanceBit_eq_consume]
    constructor
    · rintro ⟨rfl, hw⟩
      exact ⟨by omega, rfl, hw⟩
    · rintro ⟨-, rfl, hw⟩
      exact ⟨rfl, hw⟩

/-- The cursor of a bit that is there is before the end of CLEAN, so that it moves by one. -/
theorem bitPos_consume_one {s : State} (hthere : s.bp.toNat < s.cleanlen.toNat) (b : Bool) :
    bitPos (consume [b] s) = bitPos s + 1 := by
  refine bitPos_consume ?_
  simp only [bitPos, List.length_singleton]
  omega

theorem nextBits_bound {s : State} {w : List Bool} (h : NextBits s w) :
    w = [] ∨ bitPos s + w.length ≤ 8 * s.cleanlen.toNat := by
  induction w generalizing s with
  | nil => exact .inl rfl
  | cons b w ih =>
    obtain ⟨hthere, -, hw⟩ := nextBits_cons.mp h
    have hpos := bitPos_consume_one hthere b
    refine .inr ?_
    rcases ih hw with rfl | hle
    · simp only [bitPos, List.length_singleton]
      omega
    · rw [hpos] at hle
      simp only [consume, List.length_cons] at hle ⊢
      omega

theorem nextBits_lt {s : State} {w : List Bool} (h : NextBits s w) : bitPos s + w.length < 2 ^ 35 := by
  rcases nextBits_bound h with rfl | hle
  · simp only [bitPos, List.length_nil]
    omega
  · omega

/-- The cursor moves over the bits that stand there. -/
theorem bitPos_consume_of_nextBits {s : State} {w : List Bool} (h : NextBits s w) :
    bitPos (consume w s) = bitPos s + w.length := bitPos_consume (nextBits_lt h)

theorem nextBits_append {s : State} {v w : List Bool} :
    NextBits s (v ++ w) ↔ NextBits s v ∧ NextBits (consume v s) w := by
  induction v generalizing s with
  | nil => simp [nextBits_nil, consume_nil]
  | cons b v ih =>
    rw [List.cons_append, nextBits_cons, nextBits_cons, ih]
    have hsame : s.bp.toNat < s.cleanlen.toNat → consume v (consume [b] s) = consume (b :: v) s := fun hthere =>
      consume_append [b] v (by simp only [bitPos, List.length_singleton]; omega)
    constructor
    · rintro ⟨hthere, hb, hv, hw⟩
      rw [hsame hthere] at hw
      exact ⟨⟨hthere, hb, hv⟩, hw⟩
    · rintro ⟨⟨hthere, hb, hv⟩, hw⟩
      rw [← hsame hthere] at hw
      exact ⟨hthere, hb, hv, hw⟩

theorem consume_append_of_nextBits {s : State} {v : List Bool} (h : NextBits s v) (w : List Bool) :
    consume w (consume v s) = consume (v ++ w) s := consume_append v w (nextBits_lt h)

/-- Bits that are listed in the clean sequence are bits that stand at the cursor. -/
theorem nextBits_of_bitsAt {s : State} {w : List Bool} (h : BitsAt s (bitPos s) w) : NextBits s w := by
  induction w generalizing s with
  | nil => rfl
  | cons b w ih =>
    obtain ⟨h0, h1⟩ := bitsAt_cons.mp h
    obtain ⟨hthere, hb⟩ := streamBit_bitPos h0
    refine nextBits_cons.mpr ⟨hthere, hb, ih ?_⟩
    rw [bitPos_consume_one hthere]
    exact (bitsAt_congr rfl rfl).mpr h1

/-- What is seen ahead is what stands there, and less than asked only where the clean bytes end. -/
theorem nextBits_peekBits (n : Nat) (s : State) :
    NextBits s (peekBits n s) ∧ (peekBits n s).length ≤ n ∧
      ((peekBits n s).length < n →
        (consume (peekBits n s) s).cleanlen.toNat ≤ (consume (peekBits n s) s).bp.toNat) := by
  induction n generalizing s with
  | zero => exact ⟨rfl, Nat.le_refl _, fun h => absurd h (Nat.lt_irrefl _)⟩
  | succ n ih =>
    rw [peekBits]
    split
    · exact ⟨rfl, Nat.zero_le _, fun _ => by rwa [consume_nil]⟩
    · rename_i hmore
      obtain ⟨hnext, hlen, hend⟩ := ih (advanceBit (cleanBit s) s)
      rw [advanceBit_eq_consume] at hnext hlen hend ⊢
      have hall : NextBits s (cleanBit s :: peekBits n (consume [cleanBit s] s)) :=
        nextBits_cons.mpr ⟨by omega, rfl, hnext⟩
      have hone : NextBits s [cleanBit s] := nextBits_cons.mpr ⟨by omega, rfl, rfl⟩
      refine ⟨hall, by simpa using hlen, fun hless => ?_⟩
      have := hend (by simpa using hless)
      rwa [consume_append_of_nextBits hone] at this

/-! The bit primitives. -/

/-- NEXTBIT on a bit that stands there. -/
theorem nextBit_of_nextBits {s : State} {b : Bool} (h : NextBits s [b]) : nextBit s = .cont b (consume [b] s) := by
  obtain ⟨hthere, hb, -⟩ := nextBits_cons.mp h
  obtain ⟨hend, -⟩ | ⟨-, heq⟩ := nextBit_cases s
  · omega
  · rw [heq, hb, advanceBit_eq_consume]

theorem nextBit_of_end {s : State} (hend : s.cleanlen.toNat ≤ s.bp.toNat) : nextBit s = raise .underrun s.bp 0 s := if_pos hend

/-- The loop of RECEIVE over bits that stand there. -/
theorem takeBits_append_of_nextBits {s : State} {w : List Bool} (h : NextBits s w) (n v : Nat) :
    takeBits (w.length + n) v s = takeBits n (w.foldl (fun v b => 2 * v + b.toNat) v) (consume w s) := by
  induction w generalizing s v with
  | nil => rw [consume_nil, List.length_nil, Nat.zero_add, List.foldl_nil]
  | cons b w ih =>
    obtain ⟨hthere, hb, hw⟩ := nextBits_cons.mp h
    have hone : NextBits s [b] := nextBits_cons.mpr ⟨hthere, hb, rfl⟩
    rw [List.length_cons, Nat.add_right_comm, takeBits, nextBit_of_nextBits hone, Flow.bind_cont, ih hw,
      consume_append_of_nextBits hone]
    rfl

theorem takeBits_of_nextBits {s : State} {w : List Bool} (h : NextBits s w) (v : Nat) :
    takeBits w.length v s = .cont (w.foldl (fun v b => 2 * v + b.toNat) v) (consume w s) :=
  takeBits_append_of_nextBits h 0 v

/-- The loop of RECEIVE where the clean bytes end before the last bit it needs. -/
theorem takeBits_of_end {s : State} {w : List Bool} (h : NextBits s w)
    (hend : (consume w s).cleanlen.toNat ≤ (consume w s).bp.toNat) {n : Nat} (hn : w.length < n) (v : Nat) :
    takeBits n v s = raise .underrun (consume w s).bp 0 (consume w s) := by
  obtain ⟨d, rfl⟩ : ∃ d, n = w.length + (d + 1) := ⟨n - w.length - 1, by omega⟩
  rw [takeBits_append_of_nextBits h, takeBits, nextBit_of_end hend, Flow.bind_raise]

/-- What the loop of RECEIVE does: it takes its bits, or faults where they end. -/
theorem takeBits_cases (n v : Nat) (s : State) :
    (∃ w, w.length = n ∧ NextBits s w ∧
        takeBits n v s = .cont (w.foldl (fun v b => 2 * v + b.toNat) v) (consume w s)) ∨
      ∃ w, w.length < n ∧ NextBits s w ∧ takeBits n v s = raise .underrun (consume w s).bp 0 (consume w s) := by
  obtain ⟨hnext, hlen, hend⟩ := nextBits_peekBits n s
  rcases Nat.lt_or_eq_of_le hlen with hless | heq
  · exact .inr ⟨_, hless, hnext, takeBits_of_end hnext (hend hless) hless v⟩
  · refine .inl ⟨_, heq, hnext, ?_⟩
    have := takeBits_of_nextBits hnext v
    rwa [heq] at this

theorem receiveBits_of_nextBits {s : State} {w : List Bool} (h : NextBits s w) :
    receiveBits w.length s = .cont (bitsValue w) { consume w s with raw := BitVec.ofNat 15 (bitsValue w) } := by
  rw [receiveBits, takeBits_of_nextBits h, Flow.bind_cont]
  rfl

/-- RECEIVE and EXTEND on bits that stand there (spec R109). -/
theorem receiveExtend_of_nextBits {s : State} {w : List Bool} (h : NextBits s w) :
    receiveExtend w.length s =
      .cont (extendValue (bitsValue w) w.length) (receivedAs w.length (bitsValue w) (consume w s)) := by
  rw [receiveExtend, receiveBits_of_nextBits h, Flow.bind_cont]
  rfl

/-- What RECEIVE and EXTEND do: the bits are taken and extended, or a fault where they end. -/
theorem receiveExtend_cases (n : Nat) (s : State) :
    (∃ w, w.length = n ∧ NextBits s w ∧
        receiveExtend n s = .cont (extendValue (bitsValue w) n) (receivedAs n (bitsValue w) (consume w s))) ∨
      ∃ w, w.length < n ∧ NextBits s w ∧ receiveExtend n s = raise .underrun (consume w s).bp 0 (consume w s) := by
  obtain ⟨w, hlen, hnext, -⟩ | ⟨w, hless, hnext, htake⟩ := takeBits_cases n 0 s
  · subst hlen
    exact .inl ⟨w, rfl, hnext, receiveExtend_of_nextBits hnext⟩
  · refine .inr ⟨w, hless, hnext, ?_⟩
    rw [receiveExtend, receiveBits, htake]
    rfl

/-! Faults. -/

/-- Fault entry as the statements write it: ERRBLK as the sum of its fields (spec R39). -/
theorem faultEntry_eq_faulted (c : Cause) (pos : Word) (val : BitVec 16) (s : State) :
    faultEntry c pos val s = faulted (causeCode c) pos val s := by
  have hword : errblkWord s = BitVec.ofNat 32 (2 ^ 16 * s.bi.toNat + 2 ^ 8 * s.k.toNat + s.slot.val) := by
    rw [errblkWord]
    congr 1
    omega
  rw [faultEntry, faulted, hword]

/-- What an instruction does that raises a fault. -/
theorem toOutcome_raise_faulted {α : Type} (c : Cause) (pos : Word) (val : BitVec 16) (s : State) :
    (raise c pos val s : Flow α).toOutcome = .next (faulted (causeCode c) pos val s) := by
  rw [Flow.toOutcome_raise, faultEntry_eq_faulted]

/-- Where all bits up to the end of CLEAN are taken, the cursor is at its length. -/
theorem bp_consume_of_end {s : State} {w : List Bool} (hend : bitPos s + w.length = 8 * s.cleanlen.toNat) :
    (consume w s).bp = s.cleanlen := by
  simp only [consume, hend]
  apply BitVec.eq_of_toNat_eq
  rw [BitVec.toNat_ofNat]
  omega

/-! What each instruction performs: `exec` unfolded for one instruction. -/

theorem exec_nextbit (s : State) : exec .nextbit s = (nextBit s).toOutcome := rfl

theorem exec_receive (n : BitVec 4) (s : State) : exec (.receive n) s = (receiveBits n.toNat s).toOutcome := rfl

theorem exec_xb (n : BitVec 4) (x : BitVec 15) (s : State) :
    exec (.xb n x) s = ((takeBits n.toNat 0 s).bind fun _ s =>
      .cont () { s with raw := x, ext := BitVec.ofInt 16 (extendValue x.toNat n.toNat) }).toOutcome := rfl

theorem exec_extend (b : BitVec 15) (n : BitVec 4) (s : State) :
    exec (.extend b n) s = .next { s with ext := BitVec.ofInt 16 (extendValue b.toNat n.toNat) } := rfl

end Sys2Proof.Machine
end

section
/-! Canonical code words (spec R104, R105, R192 to R195): which bits the decoder of format HC and the loop of HUFFDEC take, by one
notion of a first match, and what both do with them. -/

namespace Sys2Proof.Machine

/-! Bits as numbers. -/

theorem bitsValue_snoc (w : List Bool) (b : Bool) : bitsValue (w ++ [b]) = 2 * bitsValue w + b.toNat := by
  rw [bitsValue, List.foldl_append]
  rfl

theorem bitsValue_lt (w : List Bool) : bitsValue w < 2 ^ w.length := by
  induction w using List.reverseRecOn with
  | nil => decide
  | append_singleton w b ih =>
    rw [bitsValue_snoc, List.length_append, List.length_singleton, pow_succ]
    have := b.toNat_lt
    omega

/-- One more bit at least doubles the value. -/
theorem bitsValue_take_succ {w : List Bool} {l : Nat} (hl : l < w.length) :
    2 * bitsValue (w.take l) ≤ bitsValue (w.take (l + 1)) := by
  rw [List.take_succ_eq_append_getElem hl, bitsValue_snoc]
  exact Nat.le_add_right _ _

theorem bitsOf_eq_nil {n x : Nat} : bitsOf n x = [] ↔ n = 0 := by
  rw [← List.length_eq_zero_iff, bitsOf_length]

theorem bitsValue_take_bitsOf {n l x : Nat} (hl : l ≤ n) (hx : x < 2 ^ n) :
    bitsValue ((bitsOf n x).take l) = x / 2 ^ (n - l) := by
  rw [take_bitsOf x hl, bitsValue_bitsOf]
  rw [Nat.div_lt_iff_lt_mul (Nat.two_pow_pos _), ← pow_add, Nat.add_sub_cancel' hl]
  exact hx

/-! The first match of a table with `cnt len` code words of each length. -/

/-- No initial part of the bits ends the search for a code word. -/
def Misses (cnt : Nat → Int) (w : List Bool) : Prop :=
  ∀ l, 1 ≤ l → l ≤ w.length → cnt l ≤ bitsValue (w.take l) - firstCode cnt l

/-- The search for a code word ends with the last of the bits and not before it. -/
structure FirstHit (cnt : Nat → Int) (w : List Bool) : Prop where
  ne_nil : w ≠ []
  misses : Misses cnt w.dropLast
  hits : (bitsValue w : Int) - firstCode cnt w.length < cnt w.length

theorem misses_nil (cnt : Nat → Int) : Misses cnt [] := fun l h1 h0 => by simp at h0; omega

theorem misses_snoc {cnt : Nat → Int} {w : List Bool} {b : Bool} :
    Misses cnt (w ++ [b]) ↔
      Misses cnt w ∧ cnt (w.length + 1) ≤ bitsValue (w ++ [b]) - firstCode cnt (w.length + 1) := by
  constructor
  · intro h
    refine ⟨fun l h1 hl => ?_, ?_⟩
    · have := h l h1 (by simp; omega)
      rwa [List.take_append_of_le_length hl] at this
    · have := h (w.length + 1) (by omega) (by simp)
      rwa [List.take_of_length_le (by simp)] at this
  · rintro ⟨hw, hlast⟩ l h1 hl
    rw [List.length_append, List.length_singleton] at hl
    rcases Nat.lt_or_eq_of_le hl with hless | rfl
    · rw [List.take_append_of_le_length (by omega)]
      exact hw l h1 (by omega)
    · rwa [List.take_of_length_le (by simp)]

/-- Either no initial part ends the search, or one is the first that does. -/
theorem misses_or_firstHit (cnt : Nat → Int) (w : List Bool) :
    Misses cnt w ∨ ∃ v rest, w = v ++ rest ∧ FirstHit cnt v := by
  induction w using List.reverseRecOn with
  | nil => exact .inl (misses_nil cnt)
  | append_singleton w b ih =>
    rcases ih with hmiss | ⟨v, rest, rfl, hhit⟩
    · by_cases hlast : cnt (w.length + 1) ≤ bitsValue (w ++ [b]) - firstCode cnt (w.length + 1)
      · exact .inl (misses_snoc.mpr ⟨hmiss, hlast⟩)
      · exact .inr ⟨w ++ [b], [], by simp, by simp, by simpa using hmiss, by simpa using hlast⟩
    · exact .inr ⟨v, rest ++ [b], by simp, hhit⟩

/-- The code words of a length end before those of a longer length begin, where no count is negative (spec R194 (a)). -/
theorem firstCode_grows {cnt : Nat → Int} {l k : Nat} (hl : 1 ≤ l) (hcnt : ∀ n, n ≤ l + k → 0 ≤ cnt n) :
    (firstCode cnt l + cnt l) * 2 ^ (k + 1) ≤ firstCode cnt (l + k + 1) := by
  obtain ⟨l, rfl⟩ : ∃ n, l = n + 1 := ⟨l - 1, by omega⟩
  induction k with
  | zero =>
    have hstep : firstCode cnt (l + 1 + 0 + 1) = (firstCode cnt (l + 1) + cnt (l + 1)) * 2 := rfl
    rw [hstep]
    simp
  | succ k ih =>
    have hstep : firstCode cnt (l + 1 + (k + 1) + 1) =
        (firstCode cnt (l + 1 + k + 1) + cnt (l + 1 + k + 1)) * 2 := rfl
    have hmore := hcnt (l + 1 + k + 1) (by omega)
    have hprev := ih fun n hn => hcnt n (by omega)
    rw [hstep, pow_succ]
    linarith

/-- The bits of a code word are a first match: the code words of smaller lengths are below its prefixes. -/
theorem firstHit_bitsOf {cnt : Nat → Int} {len code : Nat} (hlen : 1 ≤ len) (hcnt : ∀ n, n ≤ len → 0 ≤ cnt n)
    (hcode : code < 2 ^ len) (hlow : firstCode cnt len ≤ code) (hhigh : (code : Int) < firstCode cnt len + cnt len) :
    FirstHit cnt (bitsOf len code) := by
  refine ⟨fun h => by rw [bitsOf_eq_nil] at h; omega, fun l h1 hl => ?_, ?_⟩
  · rw [List.length_dropLast, bitsOf_length] at hl
    rw [List.dropLast_eq_take, List.take_take, bitsOf_length, Nat.min_eq_left hl, bitsValue_take_bitsOf (by omega) hcode]
    obtain ⟨k, rfl⟩ : ∃ k, len = l + k + 1 := ⟨len - l - 1, by omega⟩
    have hgrow := firstCode_grows (k := k) h1 fun n hn => hcnt n (by omega)
    have hprefix : firstCode cnt l + cnt l ≤ (code : Int) / 2 ^ (k + 1) := by
      rw [Int.le_ediv_iff_mul_le (by positivity)]
      omega
    rw [show l + k + 1 - l = k + 1 by omega]
    push_cast
    omega
  · rw [bitsOf_length, bitsValue_bitsOf hcode]
    omega

/-! The decoder of format HC. -/

theorem decodeCode_of_misses {cnt : Nat → Int} {w : List Bool} (h : Misses cnt w) (hlen : w.length ≤ 16) (rest : List Bool) :
    decodeCode cnt (w ++ rest) = decodeCodeFrom cnt rest (w.length + 1) (bitsValue w) (firstCode cnt (w.length + 1)) := by
  induction w using List.reverseRecOn generalizing rest with
  | nil => rfl
  | append_singleton w b ih =>
    obtain ⟨hw, hlast⟩ := misses_snoc.mp h
    rw [List.length_append, List.length_singleton] at hlen ⊢
    rw [bitsValue_snoc] at hlast
    rw [List.append_assoc, ih hw (by omega), List.singleton_append, decodeCodeFrom, if_neg (by omega), if_neg (by omega),
      bitsValue_snoc]
    rfl

/-- The decoder reads a first match as the code word it is. -/
theorem decodeCode_of_firstHit {cnt : Nat → Int} {w : List Bool} (h : FirstHit cnt w) (hlen : w.length ≤ 16)
    (rest : List Bool) :
    decodeCode cnt (w ++ rest) = .instr (.hc (BitVec.ofNat 5 w.length) (BitVec.ofNat 16 (bitsValue w))) := by
  obtain ⟨hne, hmiss, hhit⟩ := h
  obtain rfl | ⟨v, b, rfl⟩ := w.eq_nil_or_concat
  · exact absurd rfl hne
  rw [List.concat_eq_append] at *
  rw [List.dropLast_concat] at hmiss
  rw [List.length_append, List.length_singleton] at hlen hhit ⊢
  rw [List.append_assoc, decodeCode_of_misses hmiss (by omega), List.singleton_append, decodeCodeFrom, if_neg (by omega)]
  rw [bitsValue_snoc] at hhit ⊢
  rw [if_pos hhit]

theorem decodeCodeFrom_nil (cnt : Nat → Int) (len code : Nat) (first : Int) (i : Instr) :
    decodeCodeFrom cnt [] len code first ≠ .instr i := by
  rw [decodeCodeFrom]
  split <;> simp

theorem decodeCodeFrom_past (cnt : Nat → Int) (w : List Bool) (code : Nat) (first : Int) (i : Instr) :
    decodeCodeFrom cnt w 17 code first ≠ .instr i := by
  cases w with
  | nil => exact decodeCodeFrom_nil _ _ _ _ _
  | cons b w => simp [decodeCodeFrom]

/-- What the decoder of format HC reads is a first match at the beginning of the bits, of sixteen bits at most. -/
theorem decodeCode_eq_instr {cnt : Nat → Int} {w : List Bool} {i : Instr} (h : decodeCode cnt w = .instr i) :
    ∃ v rest, w = v ++ rest ∧ FirstHit cnt v ∧ v.length ≤ 16 ∧
      i = .hc (BitVec.ofNat 5 v.length) (BitVec.ofNat 16 (bitsValue v)) := by
  have hsplit := List.take_append_drop 16 w
  rcases misses_or_firstHit cnt (w.take 16) with hmiss | ⟨v, rest, hv, hhit⟩
  · rw [← hsplit, decodeCode_of_misses hmiss (by simp)] at h
    rcases Nat.lt_or_ge w.length 16 with hless | hge
    · rw [List.drop_eq_nil_of_le (by omega)] at h
      exact absurd h (decodeCodeFrom_nil _ _ _ _ _)
    · rw [List.length_take, Nat.min_eq_left hge] at h
      exact absurd h (decodeCodeFrom_past _ _ _ _ _)
  · have hlen : v.length ≤ 16 := by
      have := congrArg List.length hv
      rw [List.length_take, List.length_append] at this
      omega
    have hw : w = v ++ (rest ++ w.drop 16) := by rw [← List.append_assoc, ← hv, hsplit]
    refine ⟨v, _, hw, hhit, hlen, ?_⟩
    rw [hw, decodeCode_of_firstHit hhit hlen] at h
    exact (Decoded.instr.inj h).symm

/-! HUFFDEC. -/

/-- The state in which the loop of HUFFDEC stands after bits that ended no search (spec R192): at its beginning only `code` is
written. -/
def afterMisses (cnt : Nat → Int) (w : List Bool) (s : State) : State :=
  if w = [] then { s with code := 0 }
  else inRound w.length (firstCode cnt (w.length + 1)) (bitsValue w) (consume w s)

/-- The state in which a round has found the symbol `y` of the code word `w`. -/
def afterMatch (y : Byte) (first : Int) (w : List Bool) (s : State) : State :=
  { bumpDraws (inRound w.length first (bitsValue w) (consume w s)) with sym := y }

/-- The symbol HUFFDEC gives for the code word `w` (spec R104, R192). -/
def symbolOf (s : State) (c : HClass) (t : BitVec 2) (w : List Bool) : Byte :=
  symbolAt s c t w.length (bitsValue w - firstCode (codeCount s c t) w.length)

/-- Before the next bit a round writes `len` and `first`, whatever they were. -/
theorem afterMisses_inRound (cnt : Nat → Int) (w : List Bool) (s : State) (len : Nat) (first : Int) :
    { afterMisses cnt w s with len := BitVec.ofNat 5 len, first := BitVec.ofInt 25 first } =
      inRound len first (bitsValue w) (consume w s) := by
  unfold afterMisses
  split
  · rename_i h
    rw [h, consume_nil]
    rfl
  · rfl

theorem sameTables_inRound (s : State) (len : Nat) (first : Int) (code : Nat) (w : List Bool) :
    SameTables s (inRound len first code (consume w s)) := ⟨rfl, rfl, rfl⟩

/-- The bit that a round reads. -/
theorem nextBit_inRound {s : State} {w : List Bool} {b : Bool} (h : NextBits s (w ++ [b])) (len : Nat) (first : Int)
    (code : Nat) :
    nextBit (inRound len first code (consume w s)) = .cont b (inRound len first code (consume (w ++ [b]) s)) := by
  obtain ⟨hw, hb⟩ := nextBits_append.mp h
  have hnext : NextBits (inRound len first code (consume w s)) [b] := (nextBits_congr rfl rfl rfl rfl rfl).mpr hb
  rw [nextBit_of_nextBits hnext, ← consume_append_of_nextBits hw]
  rfl

/-- The rounds over bits that end no search. -/
theorem huffRounds_of_misses {s : State} {w : List Bool} (h : NextBits s w) {c : HClass} {t : BitVec 2}
    (hmiss : Misses (codeCount s c t) w) (hlen : w.length ≤ 16) :
    huffRounds c t 16 1 0 0 { s with code := 0 } =
      huffRounds c t (16 - w.length) (w.length + 1) (bitsValue w) (firstCode (codeCount s c t) (w.length + 1))
        (afterMisses (codeCount s c t) w s) := by
  induction w using List.reverseRecOn with
  | nil => rfl
  | append_singleton w b ih =>
    obtain ⟨hw, hlast⟩ := misses_snoc.mp hmiss
    rw [List.length_append, List.length_singleton] at hlen
    rw [ih (nextBits_append.mp h).1 hw (by omega), show 16 - w.length = 16 - (w.length + 1) + 1 by omega, huffRounds,
      afterMisses_inRound, nextBit_inRound h, Flow.bind_cont, (sameTables_inRound ..).codeCount]
    rw [bitsValue_snoc] at hlast
    rw [if_neg (by omega), afterMisses, if_neg (by simp), List.length_append, List.length_singleton, bitsValue_snoc]
    rfl

/-- HUFFDEC on a code word: its symbol, the cursor behind it, the transients as its round leaves them. -/
theorem huffDecode_of_firstHit {s : State} {w : List Bool} (h : NextBits s w) {c : HClass} {t : BitVec 2}
    (hhit : FirstHit (codeCount s c t) w) (hlen : w.length ≤ 16) :
    huffDecode c t s = .cont (symbolOf s c t w)
      (afterMatch (symbolOf s c t w) (firstCode (codeCount s c t) w.length) w s) := by
  obtain ⟨hne, hmiss, hhit⟩ := hhit
  obtain rfl | ⟨v, b, rfl⟩ := w.eq_nil_or_concat
  · exact absurd rfl hne
  rw [List.concat_eq_append] at *
  rw [List.dropLast_concat] at hmiss
  rw [List.length_append, List.length_singleton] at hlen hhit
  rw [huffDecode, huffRounds_of_misses (nextBits_append.mp h).1 hmiss (by omega),
    show 16 - v.length = 16 - (v.length + 1) + 1 by omega, huffRounds,
    afterMisses_inRound, nextBit_inRound h, Flow.bind_cont, (sameTables_inRound ..).codeCount,
    (sameTables_inRound ..).symbolAt]
  rw [bitsValue_snoc] at hhit
  rw [if_pos hhit, Flow.bind_cont, symbolOf, bitsValue_snoc, List.length_append, List.length_singleton, afterMatch,
    bitsValue_snoc, List.length_append, List.length_singleton]
  rfl

/-- HUFFDEC where the clean bytes end before a code word is complete (spec R170, R331). -/
theorem huffDecode_of_end {s : State} {w : List Bool} (h : NextBits s w) {c : HClass} {t : BitVec 2}
    (hmiss : Misses (codeCount s c t) w) (hlen : w.length < 16)
    (hend : (consume w s).cleanlen.toNat ≤ (consume w s).bp.toNat) :
    huffDecode c t s = raise .underrun (consume w s).bp 0
      (inRound (w.length + 1) (firstCode (codeCount s c t) (w.length + 1)) (bitsValue w) (consume w s)) := by
  have hstop : ∀ len first code, nextBit (inRound len first code (consume w s)) =
      raise .underrun (consume w s).bp 0 (inRound len first code (consume w s)) := fun _ _ _ => nextBit_of_end hend
  rw [huffDecode, huffRounds_of_misses h hmiss (by omega), show 16 - w.length = 16 - (w.length + 1) + 1 by omega, huffRounds,
    afterMisses_inRound, hstop, Flow.bind_raise, Flow.bind_raise]

/-- HUFFDEC on sixteen bits of which no initial part is a code word (spec R193). -/
theorem huffDecode_of_invalid {s : State} {w : List Bool} (h : NextBits s w) {c : HClass} {t : BitVec 2}
    (hmiss : Misses (codeCount s c t) w) (hlen : w.length = 16) :
    huffDecode c t s = raise .huffCode (consume w s).bp (BitVec.ofNat 16 (bitsValue w))
      (inRound 16 (firstCode (codeCount s c t) 17) (bitsValue w) (consume w s)) := by
  have hne : w ≠ [] := by
    rintro rfl
    simp at hlen
  rw [huffDecode, huffRounds_of_misses h hmiss (by omega), hlen, Nat.sub_self, huffRounds, Flow.bind_raise, afterMisses,
    if_neg hne, hlen]
  rfl

/-- What HUFFDEC does: it finds a first match, or the clean bytes end before one, or sixteen bits have none. -/
theorem huffDecode_cases (c : HClass) (t : BitVec 2) (s : State) :
    ∃ w, NextBits s w ∧ w.length ≤ 16 ∧
      (w ≠ [] ∧ FirstHit (codeCount s c t) w ∧
          huffDecode c t s = .cont (symbolOf s c t w)
            (afterMatch (symbolOf s c t w) (firstCode (codeCount s c t) w.length) w s) ∨
        huffDecode c t s = raise .underrun (consume w s).bp 0
          (inRound (w.length + 1) (firstCode (codeCount s c t) (w.length + 1)) (bitsValue w) (consume w s)) ∨
        huffDecode c t s = raise .huffCode (consume w s).bp (BitVec.ofNat 16 (bitsValue w))
          (inRound 16 (firstCode (codeCount s c t) 17) (bitsValue w) (consume w s))) := by
  obtain ⟨hnext, hlen, hend⟩ := nextBits_peekBits 16 s
  rcases misses_or_firstHit (codeCount s c t) (peekBits 16 s) with hmiss | ⟨v, rest, hv, hhit⟩
  · refine ⟨_, hnext, hlen, .inr ?_⟩
    rcases Nat.lt_or_eq_of_le hlen with hless | heq
    · exact .inl (huffDecode_of_end hnext hmiss hless (hend hless))
    · exact .inr (huffDecode_of_invalid hnext hmiss heq)
  · rw [hv] at hnext hlen
    rw [List.length_append] at hlen
    have hv := (nextBits_append.mp hnext).1
    exact ⟨v, hv, by omega, .inl ⟨hhit.ne_nil, hhit, huffDecode_of_firstHit hv hhit (by omega)⟩⟩

/-- A code word read at the cursor and HUFFDEC there do the same (spec R104, R192), whatever the table holds. -/
theorem codeWord_eq_huffDecode {s : State} {w : List Bool} (h : NextBits s w) {c : HClass} {t : BitVec 2}
    (hhit : FirstHit (codeCount s c t) w) (hlen : w.length ≤ 16) :
    codeWord c t w.length (bitsValue w) s = huffDecode c t s := by
  unfold codeWord
  split
  · rw [takeBits_of_nextBits h, Flow.bind_cont, huffDecode_of_firstHit h hhit hlen,
      show symbolAt (consume w s) c t w.length (bitsValue w - firstCode (codeCount (consume w s) c t) w.length) =
        symbolOf s c t w from rfl]
    rfl
  · rfl

/-! The tables whose offsets are listed. -/

/-- No initial part of the bits is a code word, so each is past those of its length (spec R105). -/
theorem misses_of_noPrefix {s : State} {c : HClass} {t : BitVec 2} {off : Nat → Nat} (h : OffsetsAre s c t off)
    {w : List Bool} (hlen : w.length ≤ 16) (hno : NoPrefix off w) : Misses (codeCount s c t) w := by
  have hpast : ∀ l, l < w.length →
      firstWord off (l + 1) ≤ bitsValue (w.take (l + 1)) ∧
        firstWord off (l + 1) + (off (l + 1) - off l) ≤ bitsValue (w.take (l + 1)) := by
    have hnot : ∀ l, l < w.length → firstWord off (l + 1) ≤ bitsValue (w.take (l + 1)) →
        firstWord off (l + 1) + (off (l + 1) - off l) ≤ bitsValue (w.take (l + 1)) := by
      intro l hl hlow
      by_contra hinside
      have := hno (l + 1) (off l + (bitsValue (w.take (l + 1)) - firstWord off (l + 1))) (by omega) hl
        (by rw [Nat.add_sub_cancel]; omega) (by omega)
      rw [Nat.add_sub_cancel] at this
      omega
    intro l
    induction l with
    | zero => exact fun hl => ⟨Nat.zero_le _, hnot 0 hl (Nat.zero_le _)⟩
    | succ l ih =>
      intro hl
      have hdouble := bitsValue_take_succ (w := w) (l := l + 1) hl
      have hlow : firstWord off (l + 1 + 1) ≤ bitsValue (w.take (l + 1 + 1)) := by
        have hstep : firstWord off (l + 1 + 1) = (firstWord off (l + 1) + (off (l + 1) - off l)) * 2 := rfl
        have := (ih (by omega)).2
        omega
      exact ⟨hlow, hnot (l + 1) hl hlow⟩
  intro l h1 hl
  obtain ⟨l, rfl⟩ : ∃ n, l = n + 1 := ⟨l - 1, by omega⟩
  obtain ⟨-, hover⟩ := hpast l (by omega)
  have hrise := h.rising l (by omega)
  rw [codeCount_of_offsets h (by omega), firstCode_of_offsets h (by omega), Nat.add_sub_cancel]
  omega

theorem codeCount_nonneg {s : State} {c : HClass} {t : BitVec 2} {off : Nat → Nat} (h : OffsetsAre s c t off) {n : Nat}
    (hn : n ≤ 16) : 0 ≤ codeCount s c t n := by
  have := offsets_rising h hn
  rw [codeCount_of_offsets h hn]
  omega

/-- The bits of the code word of a symbol: a first match, at which HUFFDEC reads that symbol (spec R104). -/
theorem firstHit_of_codeWord {s : State} {c : HClass} {t : BitVec 2} {y : Byte} {len first code : Nat}
    (h : CodeWord s c t y len first code) :
    FirstHit (codeCount s c t) (bitsOf len code) ∧ 1 ≤ len ∧ len ≤ 16 ∧ code < 2 ^ len ∧
      firstCode (codeCount s c t) len = first ∧ symbolOf s c t (bitsOf len code) = y ∧
      isCodeWord s c t len code = true := by
  obtain ⟨off, j, hoff, h1, h16, hj, hj', hsym, rfl, rfl, hlt⟩ := h
  have hfirst := firstCode_of_offsets hoff (len := len) (by omega)
  have hcount := codeCount_of_offsets hoff h16
  have hbound : off len ≤ 162 := by
    have hall : ∀ d, d ≤ 16 → off (16 - d) ≤ 162 := by
      intro d
      induction d with
      | zero => exact fun _ => hoff.bound
      | succ d ih =>
        intro hd
        have := hoff.rising (16 - (d + 1)) (by omega)
        rw [show 16 - (d + 1) + 1 = 16 - d by omega] at this
        exact this.trans (ih (by omega))
    have := hall (16 - len) (by omega)
    rwa [show 16 - (16 - len) = len by omega] at this
  refine ⟨firstHit_bitsOf h1 (fun n hn => codeCount_nonneg hoff (by omega)) hlt ?_ ?_, h1, h16, hlt, hfirst, ?_, ?_⟩
  · rw [hfirst]
    omega
  · rw [hfirst, hcount]
    omega
  · rw [symbolOf, bitsOf_length, bitsValue_bitsOf hlt, hfirst, symbolAt, hoffAt_of_offsets hoff _ (by omega), hsymAt,
      if_pos (by omega), show ((off (len - 1) : Int) + ((firstWord off len + (j - off (len - 1)) : Nat) - firstWord off len)).toNat
        = j by omega]
    exact Memory.read_of_get? hsym _
  · rw [isCodeWord, hfirst, hcount]
    simp only [Bool.and_eq_true, decide_eq_true_eq]
    omega

/-- What a decode writes, as the statements write it. -/
theorem afterMatch_bitsOf (y : Byte) {len first code : Nat} (hcode : code < 2 ^ len) (s : State) :
    afterMatch y first (bitsOf len code) s = decodedAs y len first code (consume (bitsOf len code) s) := by
  rw [afterMatch, bitsOf_length, bitsValue_bitsOf hcode, inRound, BitVec.ofInt_natCast]
  rfl

/-- HUFFDEC on the code word of a symbol (spec R194 (d)). -/
theorem huffDecode_of_codeWord {s : State} {c : HClass} {t : BitVec 2} {y : Byte} {len first code : Nat}
    (h : CodeWord s c t y len first code) (hnext : NextBits s (bitsOf len code)) :
    huffDecode c t s = .cont y (decodedAs y len first code (consume (bitsOf len code) s)) := by
  obtain ⟨hhit, -, h16, hcode, hfirst, hsym, -⟩ := firstHit_of_codeWord h
  rw [huffDecode_of_firstHit hnext hhit (by rw [bitsOf_length]; exact h16), hsym, bitsOf_length, hfirst,
    afterMatch_bitsOf y hcode]

theorem exec_huffdec (c : HClass) (t : BitVec 2) (s : State) : exec (.huffdec c t) s = (huffDecode c t s).toOutcome := rfl

theorem exec_hc (len : BitVec 5) (code : BitVec 16) (s : State) :
    exec (.hc len code) s = (codeWord (selectedTable s).1 (selectedTable s).2 len.toNat code.toNat s).toOutcome := rfl

/-- Format HC performed on a first match of the selected table is HUFFDEC with that table (spec R190). -/
theorem exec_hc_of_firstHit {s : State} {w : List Bool} (h : NextBits s w)
    (hhit : FirstHit (codeCount s (selectedTable s).1 (selectedTable s).2) w) (hlen : w.length ≤ 16) :
    exec (.hc (BitVec.ofNat 5 w.length) (BitVec.ofNat 16 (bitsValue w))) s =
      exec (.huffdec (selectedTable s).1 (selectedTable s).2) s := by
  have hvalue : bitsValue w < 2 ^ 16 := (bitsValue_lt w).trans_le (Nat.pow_le_pow_right (by decide) hlen)
  rw [exec_hc, exec_huffdec, BitVec.toNat_ofNat, BitVec.toNat_ofNat, Nat.mod_eq_of_lt (by omega), Nat.mod_eq_of_lt hvalue,
    codeWord_eq_huffDecode h hhit hlen]

theorem selectedTable_of_dc {s : State} (hk : s.k = 0) : selectedTable s = (.dc, tdSel s s.slot) := if_pos hk

theorem selectedTable_of_ac {s : State} (hk : s.k ≠ 0) : selectedTable s = (.ac, taSel s s.slot) := if_neg hk

end Sys2Proof.Machine

namespace Sys2Proof.Proofs

open Sys2Proof.Machine

/-- Settles O2: the code words of smaller lengths are below the prefixes of the bits, so the search goes on to the last bit. -/
theorem decodeEncodeCode : Obligations.DecodeEncodeCode := by
  unfold Obligations.DecodeEncodeCode
  intro cnt len code rest nbits w hcnt hwf hlow hhigh henc
  simp only [Instr.wellFormed, Bool.and_eq_true, decide_eq_true_eq] at hwf
  obtain ⟨⟨h1, h16⟩, hcode⟩ := hwf
  obtain ⟨rfl, rfl⟩ : len.toNat = nbits ∧ code.toNat = w := by simpa [encode] using henc
  have hhit := firstHit_bitsOf h1 (fun n _ => hcnt n) hcode hlow hhigh
  have hdecode := decodeCode_of_firstHit hhit (by rw [bitsOf_length]; exact h16)
  simp only [bitsOf_length, bitsValue_bitsOf hcode, BitVec.ofNat_toNat, BitVec.setWidth_eq] at hdecode
  refine ⟨?_, hdecode rest⟩
  rw [decode, ← List.append_nil (bitsOf _ _), hdecode]

/-- Settles O19: sixteen misses, and then the loop has no round left. -/
theorem invalidCode : Obligations.InvalidCode := by
  unfold Obligations.InvalidCode
  intro s c t off w hoff hlen hbits hno
  rw [exec_huffdec, huffDecode_of_invalid (nextBits_of_bitsAt hbits) (misses_of_noPrefix hoff (by omega) hno) hlen,
    toOutcome_raise_faulted, firstCode_of_offsets hoff (by omega), inRound, BitVec.ofInt_natCast, consume, hlen]
  rfl

/-- Settles O31: the code word is the first match, for HUFFDEC and for format HC. -/
theorem codeWordDecodes : Obligations.CodeWordDecodes := by
  unfold Obligations.CodeWordDecodes
  have hhuffdec : ∀ (s : State) (c : HClass) (t : BitVec 2) (y : Byte) (len first code : Nat),
      CodeWord s c t y len first code → BitsAt s (bitPos s) (bitsOf len code) →
        exec (.huffdec c t) s = .next (decodedAs y len first code (consume (bitsOf len code) s)) := by
    intro s c t y len first code hword hbits
    rw [exec_huffdec, huffDecode_of_codeWord hword (nextBits_of_bitsAt hbits), Flow.toOutcome_cont]
  refine ⟨hhuffdec, fun s y len first code hword hbits => ?_⟩
  have hselected : CodeWord s (selectedTable s).1 (selectedTable s).2 y len first code := by
    split at hword
    · rename_i hk
      rwa [selectedTable_of_dc hk]
    · rename_i hk
      rwa [selectedTable_of_ac hk]
  obtain ⟨hhit, -, h16, hcode, -⟩ := firstHit_of_codeWord hselected
  have hhc := exec_hc_of_firstHit (nextBits_of_bitsAt hbits) hhit (by rw [bitsOf_length]; exact h16)
  rw [bitsOf_length, bitsValue_bitsOf hcode] at hhc
  rw [hhc, hhuffdec s _ _ y len first code hselected hbits]

/-- Settles O32: what the decoder finds at the cursor is a first match. -/
theorem codeWordIsHuffdec : Obligations.CodeWordIsHuffdec := by
  unfold Obligations.CodeWordIsHuffdec
  intro s len code hdecode
  obtain ⟨w, rest, hpeek, hhit, hlen, hi⟩ := decodeCode_eq_instr hdecode
  have hnext := (nextBits_peekBits 16 s).1
  rw [hpeek] at hnext
  rw [hi, exec_hc_of_firstHit (nextBits_append.mp hnext).1 hhit hlen]

/-- Settles O18: the bits before the end are taken, and the next NEXTBIT faults. -/
theorem underrun : Obligations.Underrun := by
  unfold Obligations.Underrun
  refine ⟨fun s hend => ?_, fun s n w hlen hbits hend => ?_, fun s c t off w hoff hlen hbits hend hno => ?_⟩
  · rw [exec_nextbit, nextBit_of_end hend, toOutcome_raise_faulted]
    rfl
  · have hbp := bp_consume_of_end hend
    rw [exec_receive, receiveBits, takeBits_of_end (nextBits_of_bitsAt hbits) (by rw [hbp]; exact Nat.le_refl _) hlen,
      Flow.bind_raise, toOutcome_raise_faulted, hbp]
    rfl
  · have hbp := bp_consume_of_end hend
    rw [exec_huffdec, huffDecode_of_end (nextBits_of_bitsAt hbits) (misses_of_noPrefix hoff (by omega) hno) hlen
      (by rw [hbp]; exact Nat.le_refl _), toOutcome_raise_faulted, hbp, firstCode_of_offsets hoff (by omega), inRound,
      BitVec.ofInt_natCast]
    rfl

/-- Settles O28: NEXTBIT, RECEIVE and XB take the bits that stand at the cursor. -/
theorem bitPrimitives : Obligations.BitPrimitives := by
  unfold Obligations.BitPrimitives
  refine ⟨fun s b hbits => ?_, fun s n w hlen hbits => ?_, fun s n x _ hbits => ?_⟩
  · rw [exec_nextbit, nextBit_of_nextBits (nextBits_of_bitsAt hbits), Flow.toOutcome_cont]
  · rw [exec_receive, ← hlen, receiveBits_of_nextBits (nextBits_of_bitsAt hbits), Flow.toOutcome_cont]
  · have htake := takeBits_of_nextBits (nextBits_of_bitsAt hbits) 0
    rw [bitsOf_length] at htake
    rw [exec_xb, htake, Flow.bind_cont, Flow.toOutcome_cont, receivedAs, BitVec.ofNat_toNat, BitVec.setWidth_eq]

end Sys2Proof.Proofs
end

section
/-! The encodings (spec R100 to R109): each format is decoded to the instruction that was encoded, and what a format reads is well
formed and encoded in the bits it was read from. -/

namespace Sys2Proof.Machine

/-! What each format reads from an encoded instruction. -/

theorem decodeToken_data {b : Byte} (hb : b ≠ 0xFF) (rest : List Byte) : decodeToken (b :: rest) = .data b := by
  unfold decodeToken
  exact if_neg hb

theorem decodeToken_marker (m : Byte) (rest : List Byte) : decodeToken (0xFF :: m :: rest) = decodeMarker m := by
  rw [decodeToken, if_pos rfl]

theorem decodeMarker_badmark {m : Byte} (hm : isBadMarker m = true) : decodeMarker m = .badmark m := by
  simp only [isBadMarker, Bool.and_eq_true, bne_iff_ne, ne_eq, Bool.not_eq_true', Bool.and_eq_false_iff,
    decide_eq_false_iff_not] at hm
  obtain ⟨⟨⟨hstuff, hrst⟩, heoi⟩, hfill⟩ := hm
  rw [decodeMarker, if_neg hstuff, if_neg (by tauto), if_neg heoi, if_neg hfill]

theorem decodeDcSym_dcbad {y : Byte} (hy : 12 ≤ y.toNat) : decodeDcSym y = .dcbad y := by
  unfold decodeDcSym
  split
  case h_13 => rfl
  all_goals omega

theorem decodeAcSym_acrs (r n : BitVec 4) (hn : n ≠ 0) :
    decodeAcSym (BitVec.ofNat 8 (16 * r.toNat + n.toNat)) = .acrs r n := by
  revert r n
  decide

theorem decodeAcSym_acr0 (r : BitVec 4) (hfirst : r ≠ 0) (hlast : r ≠ 15) :
    decodeAcSym (BitVec.ofNat 8 (16 * r.toNat)) = .acr0 r := by
  revert r
  decide

/-- A number of 16 bits is read as its two bytes, the first one more significant (spec R102). -/
theorem decode_token_marker (cnt : Nat → Int) (m : Byte) :
    decode cnt .token 16 (0xFF00 + m.toNat) = .instr (decodeMarker m) := by
  have hfirst : BitVec.ofNat 8 ((0xFF00 + m.toNat) / 256) = 0xFF := by
    rw [show (0xFF00 + m.toNat) / 256 = 0xFF by omega]
    rfl
  have hsecond : BitVec.ofNat 8 (0xFF00 + m.toNat) = m := by
    apply BitVec.eq_of_toNat_eq
    rw [BitVec.toNat_ofNat]
    omega
  rw [decode, hfirst, hsecond, decodeToken_marker]

theorem decode_token_rstN (cnt : Nat → Int) (n : BitVec 3) :
    decode cnt .token 16 (0xFFD0 + n.toNat) = .instr (.rstN n) := by
  have hmark : decodeMarker (0xD0 + n.setWidth 8) = .rstN n := by
    revert n
    decide
  have hvalue : 0xFFD0 + n.toNat = 0xFF00 + (0xD0 + n.setWidth 8 : Byte).toNat := by
    rw [BitVec.toNat_add, BitVec.toNat_setWidth]
    simp
    omega
  rw [hvalue, decode_token_marker, hmark]

/-! What each format reads, whatever the bits. -/

/-- The instruction is well formed, belongs to the format, and its encoding is the first bits of the `nbits` bits `w`. -/
def ReadsAs (f : Format) (nbits w : Nat) (i : Instr) : Prop :=
  i.wellFormed = true ∧ i.format = some f ∧
    ∃ n v, encode i = some (n, v) ∧ n ≤ nbits ∧ w / 2 ^ (nbits - n) = v

/-- The usual case: the encoding takes all the bits. -/
theorem readsAs_of_encode {f : Format} {nbits w : Nat} {i : Instr} (hwf : i.wellFormed = true) (hf : i.format = some f)
    (henc : encode i = some (nbits, w)) : ReadsAs f nbits w i :=
  ⟨hwf, hf, nbits, w, henc, Nat.le_refl _, by simp⟩

theorem readsAs_decodeCmd (v : Word) : ReadsAs .cmd 32 v.toNat (decodeCmd v) := by
  unfold decodeCmd
  split
  · rename_i h
    rw [h]
    exact readsAs_of_encode rfl rfl rfl
  · split
    · rename_i h
      rw [h]
      exact readsAs_of_encode rfl rfl rfl
    · rename_i hstart hclear
      exact readsAs_of_encode (by rw [Instr.wellFormed, Bool.and_eq_true, bne_iff_ne, bne_iff_ne]; exact ⟨hstart, hclear⟩) rfl rfl

theorem readsAs_decodeMarker (m : Byte) : ReadsAs .token 16 (0xFF00 + m.toNat) (decodeMarker m) := by
  unfold decodeMarker
  split
  case isTrue h =>
    rw [h]
    exact readsAs_of_encode rfl rfl rfl
  case isFalse hstuff =>
    split
    case isTrue hrst =>
      refine readsAs_of_encode rfl rfl ?_
      rw [encode, show m.toNat = 0xD0 + (m.extractLsb' 0 3).toNat by simp; omega]
      congr 2
      omega
    case isFalse hrst =>
      split
      case isTrue h =>
        rw [h]
        exact readsAs_of_encode rfl rfl rfl
      case isFalse heoi =>
        split
        case isTrue h =>
          rw [h]
          exact readsAs_of_encode rfl rfl rfl
        case isFalse hfill =>
          refine readsAs_of_encode ?_ rfl rfl
          simp only [Instr.wellFormed, isBadMarker, Bool.and_eq_true, bne_iff_ne, ne_eq, Bool.not_eq_true',
            Bool.and_eq_false_iff, decide_eq_false_iff_not]
          exact ⟨⟨⟨hstuff, by omega⟩, heoi⟩, hfill⟩

theorem readsAs_data {nbits w : Nat} {b : Byte} (hb : b ≠ 0xFF) (hlen : 8 ≤ nbits) (hw : w / 2 ^ (nbits - 8) = b.toNat) :
    ReadsAs .token nbits w (.data b) :=
  ⟨bne_iff_ne.mpr hb, rfl, 8, b.toNat, rfl, hlen, hw⟩

theorem readsAs_endin {nbits w : Nat} (hw : w < 2 ^ nbits) : ReadsAs .token nbits w .endin :=
  ⟨rfl, rfl, 0, 0, rfl, Nat.zero_le _, Nat.div_eq_of_lt hw⟩

theorem readsAs_decodeToken_one {w : Nat} (hw : w < 2 ^ 8) :
    ReadsAs .token 8 w (decodeToken [BitVec.ofNat 8 w]) := by
  by_cases hb : BitVec.ofNat 8 w = 0xFF
  · rw [hb]
    exact readsAs_endin hw
  · rw [decodeToken_data hb]
    refine readsAs_data hb (Nat.le_refl _) ?_
    rw [BitVec.toNat_ofNat]
    omega

theorem readsAs_decodeToken_two {w : Nat} (hw : w < 2 ^ 16) :
    ReadsAs .token 16 w (decodeToken [BitVec.ofNat 8 (w / 256), BitVec.ofNat 8 w]) := by
  by_cases hb : BitVec.ofNat 8 (w / 256) = 0xFF
  · have hfirst : w / 256 % 256 = 255 := by simpa using congrArg BitVec.toNat hb
    have hread := readsAs_decodeMarker (BitVec.ofNat 8 w)
    rw [BitVec.toNat_ofNat, show 0xFF00 + w % 2 ^ 8 = w by omega] at hread
    rwa [hb, decodeToken_marker]
  · rw [decodeToken_data hb]
    refine readsAs_data hb (by decide) ?_
    rw [BitVec.toNat_ofNat]
    omega

theorem readsAs_decodeCode {cnt : Nat → Int} {nbits w : Nat} (hw : w < 2 ^ nbits) {i : Instr}
    (h : decodeCode cnt (bitsOf nbits w) = .instr i) : ReadsAs .hc nbits w i := by
  obtain ⟨v, rest, hv, hhit, h16, rfl⟩ := decodeCode_eq_instr h
  have hlen : v.length ≤ nbits := by
    have := congrArg List.length hv
    rw [bitsOf_length, List.length_append] at this
    omega
  have hpos : 0 < v.length := List.length_pos_iff.mpr hhit.ne_nil
  have hvalue := bitsValue_lt v
  have hvalue16 : bitsValue v < 2 ^ 16 := hvalue.trans_le (Nat.pow_le_pow_right (by decide) h16)
  have hprefix : bitsValue v = w / 2 ^ (nbits - v.length) := by
    rw [← bitsValue_take_bitsOf hlen hw, hv, List.take_left]
  have hlenNat : (BitVec.ofNat 5 v.length).toNat = v.length := by
    rw [BitVec.toNat_ofNat]
    omega
  have hvalueNat : (BitVec.ofNat 16 (bitsValue v)).toNat = bitsValue v := by
    rw [BitVec.toNat_ofNat, Nat.mod_eq_of_lt hvalue16]
  refine ⟨?_, rfl, v.length, bitsValue v, by rw [encode, hlenNat, hvalueNat], hlen, hprefix.symm⟩
  simp only [Instr.wellFormed, hlenNat, hvalueNat, Bool.and_eq_true, decide_eq_true_eq]
  exact ⟨⟨hpos, h16⟩, hvalue⟩

theorem readsAs_decodeDcSym (y : Byte) : ReadsAs .dcSym 8 y.toNat (decodeDcSym y) := by
  by_cases hy : 12 ≤ y.toNat
  · rw [decodeDcSym_dcbad hy]
    exact readsAs_of_encode (by simpa [Instr.wellFormed] using hy) rfl rfl
  · have hall : ∀ n : Fin 12, (decodeDcSym (BitVec.ofNat 8 n.val)).wellFormed = true ∧
        (decodeDcSym (BitVec.ofNat 8 n.val)).format = some .dcSym ∧
        encode (decodeDcSym (BitVec.ofNat 8 n.val)) = some (8, n.val) := by decide
    obtain ⟨hwf, hf, henc⟩ := hall ⟨y.toNat, by omega⟩
    rw [show BitVec.ofNat 8 y.toNat = y by simp] at hwf hf henc
    exact readsAs_of_encode hwf hf henc

theorem readsAs_decodeAcSym (y : Byte) : ReadsAs .acSym 8 y.toNat (decodeAcSym y) := by
  have hall : ∀ y : Byte, (decodeAcSym y).wellFormed = true ∧ (decodeAcSym y).format = some .acSym ∧
      encode (decodeAcSym y) = some (8, y.toNat) := by decide
  obtain ⟨hwf, hf, henc⟩ := hall y
  exact readsAs_of_encode hwf hf henc

theorem readsAs_decodeXb {nbits w : Nat} (hw : w < 2 ^ nbits) {i : Instr} (h : decodeXb nbits w = .instr i) :
    ReadsAs .xb nbits w i := by
  unfold decodeXb at h
  split at h
  · rename_i hlen
    obtain rfl := Decoded.instr.inj h
    have hw15 : w < 2 ^ 15 := hw.trans_le (Nat.pow_le_pow_right (by decide) hlen)
    have hn : (BitVec.ofNat 4 nbits).toNat = nbits := by
      rw [BitVec.toNat_ofNat]
      omega
    have hx : (BitVec.ofNat 15 w).toNat = w := by rw [BitVec.toNat_ofNat, Nat.mod_eq_of_lt hw15]
    exact readsAs_of_encode (by rw [Instr.wellFormed, hn, hx]; exact decide_eq_true hw) rfl (by rw [encode, hn, hx])
  · cases h

/-- A byte that is read from an 8-bit number is that number. -/
theorem toNat_ofNat_of_lt {n w : Nat} (hw : w < 2 ^ n) : (BitVec.ofNat n w).toNat = w := by
  rw [BitVec.toNat_ofNat, Nat.mod_eq_of_lt hw]

end Sys2Proof.Machine

namespace Sys2Proof.Proofs

open Sys2Proof.Machine

/-- Settles O1: a word written out in the tables decodes by computation, one with operands by the lemma of its row. -/
theorem decodeEncode : Obligations.DecodeEncode := by
  unfold Obligations.DecodeEncode
  intro i f cnt nbits w hwf hf hne henc
  cases i
  case hc => exact absurd (Option.some.inj hf).symm hne
  case cmdReserved v =>
    cases hf
    cases henc
    simp only [Instr.wellFormed, Bool.and_eq_true, bne_iff_ne] at hwf
    rw [decode, if_pos rfl, BitVec.ofNat_toNat, BitVec.setWidth_eq, decodeCmd_of_reserved hwf.1 hwf.2]
  case data b =>
    cases hf
    cases henc
    rw [Instr.wellFormed, bne_iff_ne] at hwf
    rw [decode, BitVec.ofNat_toNat, BitVec.setWidth_eq, decodeToken_data hwf]
  case rstN n =>
    cases hf
    cases henc
    exact decode_token_rstN cnt n
  case badmark m =>
    cases hf
    cases henc
    rw [decode_token_marker, decodeMarker_badmark hwf]
  case dcbad y =>
    cases hf
    cases henc
    rw [decode, if_pos rfl, BitVec.ofNat_toNat, BitVec.setWidth_eq, decodeDcSym_dcbad (of_decide_eq_true hwf)]
  case acrs r n =>
    cases hf
    cases henc
    rw [decode, if_pos rfl, decodeAcSym_acrs r n (bne_iff_ne.mp hwf)]
  case acr0 r =>
    cases hf
    cases henc
    simp only [Instr.wellFormed, Bool.and_eq_true, bne_iff_ne] at hwf
    rw [decode, if_pos rfl, decodeAcSym_acr0 r hwf.1 hwf.2]
  case xb n x =>
    cases hf
    cases henc
    rw [decode, decodeXb, if_pos (by omega), BitVec.ofNat_toNat, BitVec.setWidth_eq, BitVec.ofNat_toNat, BitVec.setWidth_eq]
  all_goals cases hf
  all_goals
    cases henc
    rfl

/-- Settles O3: one lemma for each format, on what it reads. -/
theorem encodeDecode : Obligations.EncodeDecode := by
  unfold Obligations.EncodeDecode
  intro f cnt nbits w i hw hdecode
  cases f with
  | cmd =>
    rw [decode] at hdecode
    split at hdecode
    · rename_i h32
      subst h32
      obtain rfl := Decoded.instr.inj hdecode
      have hread := readsAs_decodeCmd (BitVec.ofNat 32 w)
      rwa [toNat_ofNat_of_lt hw] at hread
    · cases hdecode
  | token =>
    unfold decode at hdecode
    dsimp only at hdecode
    split at hdecode
    · obtain rfl := Decoded.instr.inj hdecode
      exact readsAs_endin hw
    · obtain rfl := Decoded.instr.inj hdecode
      exact readsAs_decodeToken_one hw
    · obtain rfl := Decoded.instr.inj hdecode
      exact readsAs_decodeToken_two hw
    · cases hdecode
  | hc => exact readsAs_decodeCode hw hdecode
  | dcSym =>
    rw [decode] at hdecode
    split at hdecode
    · rename_i h8
      subst h8
      obtain rfl := Decoded.instr.inj hdecode
      have hread := readsAs_decodeDcSym (BitVec.ofNat 8 w)
      rwa [toNat_ofNat_of_lt hw] at hread
    · cases hdecode
  | acSym =>
    rw [decode] at hdecode
    split at hdecode
    · rename_i h8
      subst h8
      obtain rfl := Decoded.instr.inj hdecode
      have hread := readsAs_decodeAcSym (BitVec.ofNat 8 w)
      rwa [toNat_ofNat_of_lt hw] at hread
    · cases hdecode
  | xb => exact readsAs_decodeXb hw hdecode

/-- Settles O4: each word is decoded by computation. -/
theorem handWrittenWords : Obligations.HandWrittenWords := by
  unfold Obligations.HandWrittenWords
  decide

end Sys2Proof.Proofs
end

section
/-! Symbols and coded units (spec R220 to R229): what the DC and AC symbols do with the bits behind them, and the frames of the
operations of ENTROPY. -/

namespace Sys2Proof.Machine

/-! Slots and channels. -/

theorem slotOf_val (j : Fin 3) : slotOf j.val = some j := dif_pos j.isLt

theorem slotOf_of_lt {n : Nat} (h : n < 3) : slotOf n = some ⟨n, h⟩ := dif_pos h

/-- A slot feeds channel `ch` exactly where its component id is `ch + 1` (spec R42). -/
theorem channelOf_eq_some {s : State} {j ch : Fin 3} : channelOf s j = some ch ↔ cid s j = ch.val + 1 := by
  unfold channelOf
  split
  · rename_i h0
    simp [h0]
  · rename_i c hc
    rw [hc, slotOf]
    split
    · simp [Fin.ext_iff]
    · simp
      omega

theorem channelOf_of_cid_zero {s : State} {j : Fin 3} (h : cid s j = 0) : channelOf s j = none := by
  cases hc : channelOf s j with
  | none => rfl
  | some ch =>
    rw [channelOf_eq_some] at hc
    omega

/-- The channel of a slot depends on the configuration only. -/
theorem channelOf_congr {s u : State} (h : u.scancomp = s.scancomp) (j : Fin 3) : channelOf u j = channelOf s j := by
  unfold channelOf cid scancompOf
  rw [h]

/-! Frames of the operations of ENTROPY: each writes these fields and no other, while no fault is raised. -/

/-- The fields that reading bits and code words writes. -/
def BitFrame (s u : State) : Prop :=
  u = { s with
    bp := u.bp, bi := u.bi, code := u.code, first := u.first, len := u.len, sym := u.sym, raw := u.raw, ext := u.ext
    bitOut := u.bitOut, draws := u.draws }

/-- The fields that decoding within a block writes. -/
def BlockFrame (s u : State) : Prop :=
  u = { s with
    coef := u.coef, dcpred := u.dcpred, bp := u.bp, bi := u.bi, k := u.k, code := u.code, first := u.first
    len := u.len, sym := u.sym, raw := u.raw, ext := u.ext, bitOut := u.bitOut, upc := u.upc, draws := u.draws }

/-- The fields that decoding an MCU writes. -/
def McuFrame (s u : State) : Prop :=
  u = { s with
    coef := u.coef, dcpred := u.dcpred, bp := u.bp, bi := u.bi, k := u.k, slot := u.slot, mcucnt := u.mcucnt
    code := u.code, first := u.first, len := u.len, sym := u.sym, raw := u.raw, ext := u.ext, bitOut := u.bitOut
    upc := u.upc, draws := u.draws }

/-- The fields that the ENTROPY phase writes. -/
def EntropyFrame (s u : State) : Prop :=
  u = { s with
    phase := u.phase, coef := u.coef, dcpred := u.dcpred, bp := u.bp, bi := u.bi, mcu := u.mcu, slot := u.slot
    k := u.k, mcucnt := u.mcucnt, code := u.code, first := u.first, len := u.len, sym := u.sym, raw := u.raw
    ext := u.ext, bitOut := u.bitOut, upc := u.upc, draws := u.draws }

theorem BitFrame.refl (s : State) : BitFrame s s := rfl

theorem BitFrame.trans {s u v : State} (hu : BitFrame s u) (hv : BitFrame u v) : BitFrame s v := by
  unfold BitFrame at *
  rw [hv, hu]

theorem BlockFrame.refl (s : State) : BlockFrame s s := rfl

theorem BlockFrame.trans {s u v : State} (hu : BlockFrame s u) (hv : BlockFrame u v) : BlockFrame s v := by
  unfold BlockFrame at *
  rw [hv, hu]

theorem McuFrame.refl (s : State) : McuFrame s s := rfl

theorem McuFrame.trans {s u v : State} (hu : McuFrame s u) (hv : McuFrame u v) : McuFrame s v := by
  unfold McuFrame at *
  rw [hv, hu]

theorem EntropyFrame.refl (s : State) : EntropyFrame s s := rfl

theorem EntropyFrame.trans {s u v : State} (hu : EntropyFrame s u) (hv : EntropyFrame u v) : EntropyFrame s v := by
  unfold EntropyFrame at *
  rw [hv, hu]

theorem BitFrame.block {s u : State} (h : BitFrame s u) : BlockFrame s u := by
  unfold BitFrame BlockFrame at *
  rw [h]

theorem BlockFrame.mcu {s u : State} (h : BlockFrame s u) : McuFrame s u := by
  unfold BlockFrame McuFrame at *
  rw [h]

theorem McuFrame.entropy {s u : State} (h : McuFrame s u) : EntropyFrame s u := by
  unfold McuFrame EntropyFrame at *
  rw [h]

theorem bitFrame_consume (w : List Bool) (s : State) : BitFrame s (consume w s) := rfl

theorem bitFrame_receivedAs (n x : Nat) (s : State) : BitFrame s (receivedAs n x s) := rfl

/-! What is the same for all operations of ENTROPY: the clean stream, the tables and the configuration. -/

/-- What coded data stands for depends on these fields only. -/
structure SameCoded (s u : State) : Prop where
  clean : u.clean = s.clean
  cleanlen : u.cleanlen = s.cleanlen
  hoff : u.hoff = s.hoff
  hsym : u.hsym = s.hsym
  scancomp : u.scancomp = s.scancomp
  framecfg : u.framecfg = s.framecfg

theorem EntropyFrame.sameCoded {s u : State} (h : EntropyFrame s u) : SameCoded s u := by
  unfold EntropyFrame at h
  constructor <;> rw [h]

theorem BitFrame.sameCoded {s u : State} (h : BitFrame s u) : SameCoded s u := h.block.mcu.entropy.sameCoded

theorem BlockFrame.sameCoded {s u : State} (h : BlockFrame s u) : SameCoded s u := h.mcu.entropy.sameCoded

theorem McuFrame.sameCoded {s u : State} (h : McuFrame s u) : SameCoded s u := h.entropy.sameCoded

theorem SameCoded.offsetsAre {s u : State} (h : SameCoded s u) {c : HClass} {t : BitVec 2} {off : Nat → Nat}
    (hoff : OffsetsAre s c t off) : OffsetsAre u c t off :=
  ⟨by rw [h.hoff]; exact hoff.listed, hoff.start, hoff.rising, hoff.bound⟩

theorem SameCoded.codeWord {s u : State} (h : SameCoded s u) {c : HClass} {t : BitVec 2} {y : Byte} {len first code : Nat}
    (hword : CodeWord s c t y len first code) : CodeWord u c t y len first code := by
  obtain ⟨off, j, hoff, h1, h16, hj, hj', hsym, hfirst, hcode, hlt⟩ := hword
  exact ⟨off, j, h.offsetsAre hoff, h1, h16, hj, hj', by rw [h.hsym]; exact hsym, hfirst, hcode, hlt⟩

theorem SameCoded.bitsAt {s u : State} (h : SameCoded s u) {p : Nat} {w : List Bool} (hbits : BitsAt s p w) : BitsAt u p w :=
  (bitsAt_congr h.clean h.cleanlen).mpr hbits

theorem SameCoded.unitAt {s u : State} (h : SameCoded s u) {c : HClass} {t : BitVec 2} {y : Byte} {n x p q : Nat}
    (hunit : UnitAt s c t y n x p q) : UnitAt u c t y n x p q := by
  obtain ⟨len, first, code, hword, hbits, hq⟩ := hunit
  exact ⟨len, first, code, h.codeWord hword, h.bitsAt hbits, hq⟩

theorem SameCoded.acAt {s u : State} (h : SameCoded s u) {t : BitVec 2} {k : Nat} {us : List AcUnit} {p q : Nat}
    (hac : AcAt s t k us p q) : AcAt u t k us p q := by
  induction us generalizing k p with
  | nil =>
    unfold AcAt at *
    split
    · rename_i hk
      rw [if_pos hk] at hac
      exact h.unitAt hac
    · rename_i hk
      rwa [if_neg hk] at hac
  | cons unit us ih =>
    obtain ⟨r, hunit, hrest⟩ := hac
    exact ⟨r, h.unitAt hunit, ih hrest⟩

theorem SameCoded.tdSel {s u : State} (h : SameCoded s u) (j : Fin 3) : Machine.tdSel u j = Machine.tdSel s j := by
  rw [Machine.tdSel, Machine.tdSel, scancompOf, scancompOf, h.scancomp]

theorem SameCoded.taSel {s u : State} (h : SameCoded s u) (j : Fin 3) : Machine.taSel u j = Machine.taSel s j := by
  rw [Machine.taSel, Machine.taSel, scancompOf, scancompOf, h.scancomp]

theorem SameCoded.cid {s u : State} (h : SameCoded s u) (j : Fin 3) : Machine.cid u j = Machine.cid s j := by
  rw [Machine.cid, Machine.cid, scancompOf, scancompOf, h.scancomp]

theorem SameCoded.ncomp {s u : State} (h : SameCoded s u) : Machine.ncomp u = Machine.ncomp s := by
  rw [Machine.ncomp, Machine.ncomp, h.framecfg]

theorem SameCoded.restartInterval {s u : State} (h : SameCoded s u) :
    Machine.restartInterval u = Machine.restartInterval s := by
  rw [Machine.restartInterval, Machine.restartInterval, h.framecfg]

theorem SameCoded.blockAt {s u : State} (h : SameCoded s u) {j : Fin 3} {b : Block} {p q : Nat} (hb : BlockAt s j b p q) :
    BlockAt u j b p q := by
  obtain ⟨r, hdc, hac⟩ := hb
  exact ⟨r, by rw [h.tdSel]; exact h.unitAt hdc, by rw [h.taSel]; exact h.acAt hac⟩

theorem SameCoded.blocksAt {s u : State} (h : SameCoded s u) {n : Nat} {bs : List Block} {p q : Nat}
    (hbs : BlocksAt s n bs p q) : BlocksAt u n bs p q := by
  induction bs generalizing n p with
  | nil => exact hbs
  | cons b bs ih =>
    obtain ⟨j, r, hj, hb, hrest⟩ := hbs
    exact ⟨j, r, hj, h.blockAt hb, ih hrest⟩

/-! A code word, then its extra bits (spec R110). -/

/-- HUFFDEC on a coded unit: its symbol, and the extra bits stand at the cursor. -/
theorem huffDecode_of_unitAt {s : State} {c : HClass} {t : BitVec 2} {y : Byte} {n x q : Nat}
    (h : UnitAt s c t y n x (bitPos s) q) :
    ∃ u, huffDecode c t s = .cont y u ∧ BitFrame s u ∧ BitsAt u (bitPos u) (bitsOf n x) ∧ q = bitPos u + n := by
  obtain ⟨len, first, code, hword, hbits, rfl⟩ := h
  obtain ⟨hcode, hextra⟩ := bitsAt_append.mp hbits
  have hpos := bitPos_consume_of_nextBits (nextBits_of_bitsAt hcode)
  rw [bitsOf_length] at hpos hextra
  refine ⟨_, huffDecode_of_codeWord hword (nextBits_of_bitsAt hcode), rfl, ?_, ?_⟩
  · rw [show bitPos (decodedAs y len first code (consume (bitsOf len code) s)) = bitPos s + len from hpos]
    exact (bitsAt_congr rfl rfl).mpr hextra
  · rw [show bitPos (decodedAs y len first code (consume (bitsOf len code) s)) = bitPos s + len from hpos]

/-- RECEIVE and EXTEND on the extra bits of a unit. -/
theorem receiveExtend_of_bitsOf {s : State} {n x : Nat} (hx : x < 2 ^ n) (h : BitsAt s (bitPos s) (bitsOf n x)) :
    receiveExtend n s = .cont (extendValue x n) (receivedAs n x (consume (bitsOf n x) s)) := by
  have hreceive := receiveExtend_of_nextBits (nextBits_of_bitsAt h)
  rwa [bitsOf_length, bitsValue_bitsOf hx] at hreceive

theorem bitPos_receivedAs_bitsOf {s : State} {n x : Nat} (h : BitsAt s (bitPos s) (bitsOf n x)) :
    bitPos (receivedAs n x (consume (bitsOf n x) s)) = bitPos s + n := by
  have hpos := bitPos_consume_of_nextBits (nextBits_of_bitsAt h)
  rwa [bitsOf_length] at hpos

/-! DC symbols. -/

/-- A DC difference is added to the predictor of the channel, and the sum is coefficient 0 (spec R221). -/
def addDiff (m : Nat) (ch : Fin 3) (diff : BitVec 16) (s : State) : State :=
  { s with
    dcpred := s.dcpred.set ch (s.dcpred[ch] + diff)
    coef := Memory.set s.coef (coefIndex m ch.val 0) (s.dcpred[ch] + diff) }

theorem wrap16_toInt_add (x : BitVec 16) (d : Int) : wrap16 (x.toInt + d) = x + BitVec.ofInt 16 d := by
  rw [wrap16, BitVec.ofInt_add, BitVec.ofInt_toInt]

theorem dcCategory_of_receive {m n : Nat} {j ch : Fin 3} {s u : State} {v : Int} (hch : cid s j = ch.val + 1)
    (hreceive : receiveExtend n s = .cont v u) : dcCategory m j n s = .cont () (addDiff m ch (BitVec.ofInt 16 v) u) := by
  rw [dcCategory, channelOf_eq_some.mpr hch]
  dsimp only
  rw [hreceive, Flow.bind_cont, wrap16_toInt_add]
  rfl

theorem exec_dcSymbol (n : Fin 12) (s : State) :
    exec (dcSymbol n) s = (dcCategory s.mcu.toNat s.slot n.val s).toOutcome := by
  match n with
  | 0 | 1 | 2 | 3 | 4 | 5 | 6 | 7 | 8 | 9 | 10 | 11 => rfl

theorem exec_decodeDc (m : Word) (j : Fin 3) (s : State) : exec (.decodeDc m j) s = (decodeDcUnit m.toNat j s).toOutcome := rfl

/-- DECODE_DC on a coded DC unit (spec R110, R221). -/
theorem decodeDcUnit_of_unitAt {m : Nat} {j ch : Fin 3} {s : State} {y : Byte} {x q : Nat} (hch : cid s j = ch.val + 1)
    (hy : y.toNat ≤ 11) (hx : x < 2 ^ y.toNat) (h : UnitAt s .dc (tdSel s j) y y.toNat x (bitPos s) q) :
    ∃ u, decodeDcUnit m j s = .cont () (addDiff m ch (BitVec.ofInt 16 (extendValue x y.toNat)) u) ∧ BitFrame s u ∧
      bitPos u = q := by
  obtain ⟨u, hdecode, hframe, hextra, rfl⟩ := huffDecode_of_unitAt h
  have hchu : cid u j = ch.val + 1 := by rw [hframe.sameCoded.cid, hch]
  refine ⟨_, ?_, (hframe.trans (bitFrame_consume (bitsOf y.toNat x) u)).trans (bitFrame_receivedAs y.toNat x _),
    bitPos_receivedAs_bitsOf hextra⟩
  rw [decodeDcUnit, hdecode, Flow.bind_cont, if_neg (by omega),
    dcCategory_of_receive hchu (receiveExtend_of_bitsOf hx hextra)]

/-! AC symbols. -/

/-- The run is skipped and one coefficient is stored (spec R226). -/
def storeCoef (m : Nat) (ch : Fin 3) (r : Nat) (v : Int) (s : State) : State :=
  { s with
    k := BitVec.ofNat 7 (s.k.toNat + r + 1)
    coef := Memory.set s.coef (coefIndex m ch.val (s.k.toNat + r)) (BitVec.ofInt 16 v) }

theorem acRunSize_of_receive {m r n : Nat} {j ch : Fin 3} {s u : State} {v : Int} (hfits : s.k.toNat + r ≤ 63)
    (hch : cid s j = ch.val + 1) (hk : u.k = s.k)
    (hreceive : receiveExtend n { s with k := s.k + BitVec.ofNat 7 r } = .cont v { u with k := s.k + BitVec.ofNat 7 r }) :
    acRunSize m j r n s = .cont () (storeCoef m ch r v u) := by
  have hpos : (s.k + BitVec.ofNat 7 r).toNat = s.k.toNat + r := by
    rw [BitVec.toNat_add, BitVec.toNat_ofNat]
    omega
  have hnext : s.k + BitVec.ofNat 7 r + 1 = BitVec.ofNat 7 (s.k.toNat + r + 1) := by
    apply BitVec.eq_of_toNat_eq
    rw [BitVec.toNat_add, hpos]
    simp
  rw [acRunSize, if_neg (by omega), channelOf_eq_some.mpr hch]
  dsimp only
  rw [hreceive, Flow.bind_cont, storeCoef, hk]
  dsimp only [setCoef]
  rw [hpos, hnext]

/-- An AC coefficient whose extra bits stand at the cursor. -/
theorem acRunSize_of_nextBits {m r : Nat} {j ch : Fin 3} {s : State} {w : List Bool} (hfits : s.k.toNat + r ≤ 63)
    (hch : cid s j = ch.val + 1) (h : NextBits s w) :
    acRunSize m j r w.length s =
      .cont () (storeCoef m ch r (extendValue (bitsValue w) w.length) (receivedAs w.length (bitsValue w) (consume w s))) :=
  have hnext : NextBits { s with k := s.k + BitVec.ofNat 7 r } w :=
    (nextBits_congr (s := s) (u := { s with k := s.k + BitVec.ofNat 7 r }) rfl rfl rfl rfl rfl).mpr h
  acRunSize_of_receive hfits hch rfl (receiveExtend_of_nextBits hnext)

theorem acZrl_of_fits {s : State} (hfits : s.k.toNat ≤ 48) : acZrl s = .cont () { s with k := s.k + 16 } := if_neg (by omega)

theorem exec_eob (s : State) : exec .eob s = .next { s with upc := .blockEnd } := rfl

theorem exec_zrl (s : State) : exec .zrl s = (acZrl s).toOutcome := rfl

theorem exec_acrs (r n : BitVec 4) (s : State) :
    exec (.acrs r n) s = (acRunSize s.mcu.toNat s.slot r.toNat n.toNat s).toOutcome := rfl

theorem exec_acr0 (r : BitVec 4) (s : State) :
    exec (.acr0 r) s = (acRunSize s.mcu.toNat s.slot r.toNat 0 s).toOutcome := rfl

theorem exec_dcbad (y : Byte) (s : State) : exec (.dcbad y) s = (dcBad y s).toOutcome := rfl

theorem acRunSize_of_overrun {m r n : Nat} {j : Fin 3} {s : State} (hover : 63 < s.k.toNat + r) :
    acRunSize m j r n s = raise .acOverrun s.bp (BitVec.ofNat 16 (16 * r + n)) s := if_pos hover

theorem acZrl_of_overrun {s : State} (hover : 63 < s.k.toNat + 15) : acZrl s = raise .acOverrun s.bp 0xF0 s := if_pos hover

theorem acRunSize_of_noChannel {m r n : Nat} {j : Fin 3} {s : State} (hfits : s.k.toNat + r ≤ 63) (hcid : cid s j = 0) :
    acRunSize m j r n s = .stop .noChannel := by
  rw [acRunSize, if_neg (by omega), channelOf_of_cid_zero hcid]

theorem dcCategory_of_noChannel {m n : Nat} {j : Fin 3} {s : State} (hcid : cid s j = 0) :
    dcCategory m j n s = .stop .noChannel := by
  rw [dcCategory, channelOf_of_cid_zero hcid]

theorem exec_decodeBlock (m : Word) (j : Fin 3) (s : State) :
    exec (.decodeBlock m j) s = (decodeBlockOf m.toNat j s).toOutcome := rfl

/-- The field of ERRVAL at an overrun is the symbol (spec R228, R322). -/
theorem setWidth_append_eq_ofNat (r n : BitVec 4) :
    (r ++ n).setWidth 16 = BitVec.ofNat 16 (16 * r.toNat + n.toNat) := by
  revert r n
  decide

/-! Restart. -/

theorem exec_restart (s : State) : exec .restart s = .next (restartAction s) := rfl

theorem restartBefore_iff {s : State} {m : Nat} : restartBefore s m = true ↔ RestartDue s m := by
  simp [restartBefore, RestartDue, and_assoc]

/-! Tokens. -/

theorem exec_data (b : Byte) (s : State) : exec (.data b) s = (tokenData b s).toOutcome := rfl

theorem exec_stuff (s : State) : exec .stuff s = (tokenStuff s).toOutcome := rfl

theorem exec_eoi (s : State) : exec .eoi s = (tokenEoi s).toOutcome := rfl

theorem exec_badmark (m : Byte) (s : State) : exec (.badmark m) s = (tokenBadmark m s).toOutcome := rfl

theorem exec_endin (s : State) : exec .endin s = (tokenEndin s).toOutcome := rfl

theorem tokenBadmark_of_lt {m : Byte} {s : State} (hfits : s.ip.toNat + 1 < 2 ^ 32) :
    tokenBadmark m s = raise .badMarker (s.ip + 1) (m.setWidth 16) s := if_neg (by omega)

theorem tokenEndin_of_lt {s : State} (hfits : s.input.length < 2 ^ 32) :
    tokenEndin s = raise .trunc (BitVec.ofNat 32 s.input.length) 0 s := if_neg (by omega)

/-- A clean byte is appended (spec R161). -/
def appendByte (v : Byte) (s : State) : State :=
  { s with clean := Memory.set s.clean s.cleanlen.toNat v, cleanlen := s.cleanlen + 1 }

theorem appendClean_of_room {v : Byte} {s : State} (hroom : ∀ cap, s.params.cleanCap = some cap → s.cleanlen.toNat < cap) :
    appendClean v s = .cont () (appendByte v s) := by
  obtain ⟨-, happend⟩ | ⟨⟨cap, hcap, hfull⟩, -⟩ := appendClean_cases v s
  · exact happend
  · exact absurd (hroom cap hcap) (by omega)

theorem appendClean_of_full {v : Byte} {s : State} {cap : Nat} (hcap : s.params.cleanCap = some cap)
    (hfull : cap ≤ s.cleanlen.toNat) : appendClean v s = raise .capClean s.ip 0 s := by
  obtain ⟨hroom, -⟩ | ⟨-, hfault⟩ := appendClean_cases v s
  · exact absurd (hroom cap hcap) (by omega)
  · exact hfault

/-- A token of `d` bytes has been passed that stands for the clean byte `v` (spec R162, R163). -/
def passByte (v : Byte) (d : Nat) (s : State) : State := { appendByte v s with ip := s.ip + BitVec.ofNat 32 d }

theorem tokenData_of_room {b : Byte} {s : State} (hroom : ∀ cap, s.params.cleanCap = some cap → s.cleanlen.toNat < cap)
    (hfits : s.ip.toNat + 1 < 2 ^ 32) : tokenData b s = .cont () (passByte b 1 s) := by
  rw [tokenData, appendClean_of_room hroom, Flow.bind_cont]
  exact advanceIp_of_lt (s := appendByte b s) hfits

theorem tokenStuff_of_room {s : State} (hroom : ∀ cap, s.params.cleanCap = some cap → s.cleanlen.toNat < cap)
    (hfits : s.ip.toNat + 2 < 2 ^ 32) : tokenStuff s = .cont () (passByte 0xFF 2 s) := by
  rw [tokenStuff, appendClean_of_room hroom, Flow.bind_cont]
  exact advanceIp_of_lt (s := appendByte 0xFF s) hfits

/-! EXTEND (spec R223). -/

/-- The value of EXTEND for the field `b` of size `n`: it fits 16 bits, keeps its half of the range, and has `n` bits of
magnitude. -/
structure Extends (b : BitVec 15) (n : BitVec 4) (v : Int) : Prop where
  self : (BitVec.ofInt 16 v).toInt = v
  zero : n = 0 → v = 0
  high : n ≠ 0 → 2 ^ (n.toNat - 1) ≤ b.toNat → v = b.toNat
  low : n ≠ 0 → b.toNat < 2 ^ (n.toNat - 1) → v = b.toNat - (2 ^ n.toNat - 1)
  magnitude : n ≠ 0 → 2 ^ (n.toNat - 1) ≤ v.natAbs ∧ v.natAbs < 2 ^ n.toNat

theorem extends_extendValue {b : BitVec 15} {n : BitVec 4} (hwf : (Instr.extend b n).wellFormed = true) :
    Extends b n (extendValue b.toNat n.toNat) := by
  have hb : b.toNat < 2 ^ n.toNat := of_decide_eq_true hwf
  by_cases hn : n = 0
  · subst hn
    exact ⟨rfl, fun _ => rfl, fun h => absurd rfl h, fun h => absurd rfl h, fun h => absurd rfl h⟩
  have hpos : n.toNat ≠ 0 := fun h => hn (BitVec.eq_of_toNat_eq h)
  obtain ⟨p, hp⟩ : ∃ p, n.toNat = p + 1 := ⟨n.toNat - 1, by omega⟩
  have hhalf : 2 ^ p ≤ 2 ^ 14 := Nat.pow_le_pow_right (by decide) (by omega)
  have hone : 1 ≤ 2 ^ p := Nat.one_le_two_pow
  rw [hp, pow_succ] at hb
  have hself : ∀ v : Int, -2 ^ 15 ≤ v → v < 2 ^ 15 → (BitVec.ofInt 16 v).toInt = v := fun v =>
    BitVec.toInt_ofInt_eq_self (w := 16) (by decide)
  have hpow : (2 : Int) ^ p = (2 ^ p : Nat) := by push_cast; rfl
  constructor
  all_goals rw [hp, extendValue, if_neg (by omega), Nat.add_sub_cancel]
  all_goals simp only [pow_succ (M := Int), pow_succ (M := Nat), hpow]
  all_goals generalize 2 ^ p = h at *
  · split
    · exact hself _ (by omega) (by omega)
    · exact hself _ (by omega) (by omega)
  · exact fun h0 => absurd h0 hn
  · exact fun _ hhigh => if_pos hhigh
  · exact fun _ hlow => if_neg (by omega)
  · intro _
    split <;> omega

/-- Different fields of a size have different values: the halves do not meet. -/
theorem extendValue_injective {b c : BitVec 15} {n : BitVec 4} (hb : (Instr.extend b n).wellFormed = true)
    (hc : (Instr.extend c n).wellFormed = true)
    (h : BitVec.ofInt 16 (extendValue b.toNat n.toNat) = BitVec.ofInt 16 (extendValue c.toNat n.toNat)) : b = c := by
  have hB := extends_extendValue hb
  have hC := extends_extendValue hc
  have hvalue : extendValue b.toNat n.toNat = extendValue c.toNat n.toNat := by rw [← hB.self, h, hC.self]
  have hbn : b.toNat < 2 ^ n.toNat := of_decide_eq_true hb
  have hcn : c.toNat < 2 ^ n.toNat := of_decide_eq_true hc
  apply BitVec.eq_of_toNat_eq
  by_cases hn : n = 0
  · subst hn
    simp at hbn hcn
    omega
  have hcast : ((2 ^ n.toNat : Nat) : Int) = 2 ^ n.toNat := by push_cast; rfl
  by_cases hbhalf : 2 ^ (n.toNat - 1) ≤ b.toNat <;> by_cases hchalf : 2 ^ (n.toNat - 1) ≤ c.toNat
  · rw [hB.high hn hbhalf, hC.high hn hchalf] at hvalue
    omega
  · rw [hB.high hn hbhalf, hC.low hn (by omega), ← hcast] at hvalue
    omega
  · rw [hB.low hn (by omega), hC.high hn hchalf, ← hcast] at hvalue
    omega
  · rw [hB.low hn (by omega), hC.low hn (by omega)] at hvalue
    omega

end Sys2Proof.Machine

namespace Sys2Proof.Proofs

open Sys2Proof.Machine

/-- Settles O17: each of the three raises its fault, or is refused where the position does not fit 32 bits. -/
theorem faultingUnits : Obligations.FaultingUnits := by
  unfold Obligations.FaultingUnits
  refine ⟨fun m s hfits => ?_, fun s hfits => ?_, fun y s => ?_, fun m s hpast => ?_, fun s hpast => ?_⟩
  · rw [exec_badmark, tokenBadmark_of_lt hfits, toOutcome_raise_faulted]
    rfl
  · rw [exec_endin, tokenEndin_of_lt hfits, toOutcome_raise_faulted]
    rfl
  · rw [exec_dcbad, dcBad, toOutcome_raise_faulted]
    rfl
  · rw [exec_badmark, tokenBadmark, if_pos hpast, Flow.toOutcome_refuse]
  · rw [exec_endin, tokenEndin, if_pos hpast, Flow.toOutcome_refuse]

/-- Settles O20: the overrun test comes before the extra bits. -/
theorem acOverrun : Obligations.AcOverrun := by
  unfold Obligations.AcOverrun
  refine fun s => ⟨fun hover => ?_, fun r n hover => ?_, fun r hover => ?_⟩
  · rw [exec_zrl, acZrl_of_overrun hover, toOutcome_raise_faulted]
    rfl
  · rw [exec_acrs, acRunSize_of_overrun hover, toOutcome_raise_faulted, setWidth_append_eq_ofNat]
    rfl
  · rw [exec_acr0, acRunSize_of_overrun hover, toOutcome_raise_faulted, setWidth_append_eq_ofNat]
    rfl

/-- Settles O21: a component id 0 names no channel. -/
theorem noChannelStops : Obligations.NoChannelStops := by
  unfold Obligations.NoChannelStops
  refine fun s => ⟨fun hcid => ⟨fun n => ?_, fun r n hfits => ?_, fun r hfits => ?_⟩, fun m j hcid => ?_⟩
  · rw [exec_dcSymbol, dcCategory_of_noChannel hcid, Flow.toOutcome_stop]
  · rw [exec_acrs, acRunSize_of_noChannel hfits hcid, Flow.toOutcome_stop]
  · rw [exec_acr0, acRunSize_of_noChannel hfits hcid, Flow.toOutcome_stop]
  · rw [exec_decodeBlock, decodeBlockOf, channelOf_of_cid_zero hcid, Flow.toOutcome_stop]

/-- Settles O22: the byte is appended and the cursor moves, or CLEAN is full and the fault comes before both. -/
theorem appendingTokens : Obligations.AppendingTokens := by
  unfold Obligations.AppendingTokens
  refine fun s => ⟨fun hroom => ⟨fun b hfits => ?_, fun hfits => ?_⟩, fun cap hcap hfull => ⟨fun b => ?_, ?_⟩⟩
  · rw [exec_data, tokenData_of_room hroom hfits]
    rfl
  · rw [exec_stuff, tokenStuff_of_room hroom hfits]
    rfl
  · rw [exec_data, tokenData, appendClean_of_full hcap hfull, Flow.bind_raise, toOutcome_raise_faulted]
    rfl
  · rw [exec_stuff, tokenStuff, appendClean_of_full hcap hfull, Flow.bind_raise, toOutcome_raise_faulted]
    rfl

/-- Settles O24: the cursor moves past both bytes, then the phase changes. -/
theorem eoiEndsScan : Obligations.EoiEndsScan := by
  unfold Obligations.EoiEndsScan
  intro s hfits
  rw [exec_eoi, tokenEoi, advanceIp_of_lt hfits]
  rfl

/-- Settles O30: the two halves of the fields of a size, by the first bit. -/
theorem extendValue : Obligations.ExtendValue := by
  unfold Obligations.ExtendValue
  refine ⟨fun s b n hwf => ⟨_, exec_extend b n s, ?_⟩, fun b c n s hb hc heq => ?_⟩
  · obtain ⟨hself, hzero, hhigh, hlow, hmagnitude⟩ := extends_extendValue hwf
    exact ⟨hself, hzero, hhigh, hlow, hmagnitude⟩
  · rw [exec_extend, exec_extend] at heq
    exact extendValue_injective hb hc (congrArg State.ext (Host.Outcome.next.inj heq))

/-- Settles O33: the extra bits are received and extended, then the difference is added. -/
theorem dcSymbols : Obligations.DcSymbols := by
  unfold Obligations.DcSymbols
  intro s n ch w hch hlen hbits
  have hreceive := receiveExtend_of_nextBits (nextBits_of_bitsAt hbits)
  rw [hlen] at hreceive
  rw [exec_dcSymbol, dcCategory_of_receive hch hreceive]
  rfl

/-- Settles O34: EOB only leaves the loop, ZRL moves on, the other two store one coefficient. -/
theorem acSymbols : Obligations.AcSymbols := by
  unfold Obligations.AcSymbols
  refine fun s => ⟨exec_eob s, fun hk => ?_, fun r n ch w hfits hch hlen hbits => ?_, fun r ch hfits hch => ?_⟩
  · rw [exec_zrl, acZrl_of_fits hk, Flow.toOutcome_cont]
  · rw [exec_acrs, ← hlen, acRunSize_of_nextBits hfits hch (nextBits_of_bitsAt hbits), Flow.toOutcome_cont, storeCoef]
    dsimp only [receivedAs, consume, coefIndex]
    rw [← Nat.add_assoc]
  · have hstore := acRunSize_of_nextBits (m := s.mcu.toNat) hfits hch (nextBits_nil s)
    rw [List.length_nil, consume_nil] at hstore
    rw [exec_acr0, hstore, Flow.toOutcome_cont, storeCoef]
    dsimp only [receivedAs, coefIndex]
    rw [← Nat.add_assoc]
    rfl

/-- Settles O35: the code word gives the symbol, then the symbol does what it does. -/
theorem decodeDcUnit : Obligations.DecodeDcUnit := by
  unfold Obligations.DecodeDcUnit
  intro s m j ch y len first code x hch hword hy hx hbits
  obtain ⟨hcode, hextra⟩ := bitsAt_append.mp hbits
  have hnext := nextBits_of_bitsAt hcode
  have hpos : bitPos (decodedAs y len first code (consume (bitsOf len code) s)) = bitPos s + (bitsOf len code).length :=
    bitPos_consume_of_nextBits hnext
  have hextra' : BitsAt (decodedAs y len first code (consume (bitsOf len code) s))
      (bitPos (decodedAs y len first code (consume (bitsOf len code) s))) (bitsOf y.toNat x) := by
    rw [hpos]
    exact (bitsAt_congr rfl rfl).mpr hextra
  have hconsume := consume_append_of_nextBits hnext (bitsOf y.toNat x)
  rw [exec_decodeDc, Machine.decodeDcUnit, huffDecode_of_codeWord hword hnext, Flow.bind_cont, if_neg (by omega),
    dcCategory_of_receive (s := decodedAs y len first code (consume (bitsOf len code) s)) hch
      (receiveExtend_of_bitsOf hx hextra'), Flow.toOutcome_cont, ← hconsume]
  rfl

/-- Settles O39: RESTART aligns and resets the predictors; `nextMcu` performs it first exactly where it is due. -/
theorem restartAction : Obligations.RestartAction := by
  unfold Obligations.RestartAction
  refine ⟨fun s => ⟨fun haligned => ?_, fun hinside => ?_⟩, fun s m hm => ⟨fun hdue => ?_, fun hnot => ?_⟩⟩
  · rw [exec_restart, Machine.restartAction, alignCursor_of_aligned haligned]
  · rw [exec_restart, Machine.restartAction, alignCursor_of_not_aligned hinside]
  · rw [nextMcu, if_pos hm, beginMcu, if_pos (restartBefore_iff.mpr hdue)]
  · rw [nextMcu, if_pos hm, beginMcu, if_neg (restartBefore_iff.not.mpr hnot)]

end Sys2Proof.Proofs
end

section
/-! Coded blocks, MCUs and images (spec R110, R111, R220 to R232): what DECODE_AC, DECODE_BLOCK, DECODE_MCU and ENTROPY do on the
data an encoder writes, each from the level below. -/

namespace Sys2Proof.Machine

/-! The coefficients that AC units store. -/

/-- What the AC units from position `k` on store at an index of COEF, in the block of channel `ch` of MCU `m`. -/
def acWritten (m ch k : Nat) (us : List AcUnit) (a : Nat) : Option (BitVec 16) :=
  if coefIndex m ch 0 ≤ a ∧ a < coefIndex m ch 64 then (acStored k us (a - coefIndex m ch 0)).map (BitVec.ofInt 16) else none

theorem coefIndex_add (m ch n : Nat) : coefIndex m ch n = coefIndex m ch 0 + n := by
  unfold coefIndex
  omega

theorem acWritten_inside (m ch k : Nat) (us : List AcUnit) {n : Nat} (hn : n < 64) :
    acWritten m ch k us (coefIndex m ch n) = (acStored k us n).map (BitVec.ofInt 16) := by
  have h0 := coefIndex_add m ch n
  have h64 := coefIndex_add m ch 64
  rw [acWritten, if_pos (by omega), show coefIndex m ch n - coefIndex m ch 0 = n by omega]

theorem acWritten_outside (m ch k : Nat) (us : List AcUnit) {a : Nat} (ha : a < coefIndex m ch 0 ∨ coefIndex m ch 64 ≤ a) :
    acWritten m ch k us a = none := if_neg (by omega)

theorem acWritten_nil (m ch k a : Nat) : acWritten m ch k [] a = none := by
  unfold acWritten
  split <;> rfl

/-- Units store at positions from where they begin on. -/
theorem acStored_of_lt {us : List AcUnit} {k n : Nat} (h : n < k) : acStored k us n = none := by
  induction us generalizing k with
  | nil => rfl
  | cons u us ih => rw [acStored, if_neg (by omega), ih (by omega)]

/-- ZRL stores nothing. -/
theorem acWritten_zrl (m ch k : Nat) {u : AcUnit} (us : List AcUnit) (hzrl : u.run = 15 ∧ u.size = 0) (a : Nat) :
    acWritten m ch k (u :: us) a = acWritten m ch (k + u.run + 1) us a := by
  simp only [acWritten, acStored, hzrl, not_true_eq_false, and_false, if_false, and_self]

/-- Any other unit stores the coefficient at the end of its run. -/
theorem acWritten_store (m ch k : Nat) {u : AcUnit} (us : List AcUnit) (hstore : ¬(u.run = 15 ∧ u.size = 0))
    (hfits : k + u.run ≤ 63) (a : Nat) (old : Option (BitVec 16)) :
    (acWritten m ch (k + u.run + 1) us a).or
        (if a = coefIndex m ch (k + u.run) then some (BitVec.ofInt 16 (extendValue u.value u.size)) else old) =
      (acWritten m ch k (u :: us) a).or old := by
  have h0 := coefIndex_add m ch (k + u.run)
  have h64 := coefIndex_add m ch 64
  by_cases ha : a = coefIndex m ch (k + u.run)
  · subst ha
    rw [if_pos rfl, acWritten_inside _ _ _ _ (by omega), acWritten_inside _ _ _ _ (by omega), acStored_of_lt (by omega),
      acStored, if_pos ⟨rfl, hstore⟩]
    rfl
  · rw [if_neg ha]
    congr 1
    unfold acWritten
    split
    · rw [acStored, if_neg (by omega)]
    · rfl

/-! DECODE_AC. -/

theorem exec_decodeAc (m : Word) (j : Fin 3) (s : State) : exec (.decodeAc m j) s = (decodeAcUnits m.toNat j s).toOutcome := rfl

/-- The two fields of an AC symbol (spec R108). -/
theorem acSymbol_fields {run size : Nat} (hrun : run ≤ 15) (hsize : size ≤ 15) :
    ((BitVec.ofNat 8 (16 * run + size)).extractLsb' 4 4).toNat = run ∧
      ((BitVec.ofNat 8 (16 * run + size)).extractLsb' 0 4).toNat = size := by
  simp only [BitVec.extractLsb'_toNat, BitVec.toNat_ofNat]
  omega

theorem acSymbol_eq {run size : Nat} (hrun : run ≤ 15) (hsize : size ≤ 15) {y : Nat} (hy : y < 256) :
    BitVec.ofNat 8 (16 * run + size) = BitVec.ofNat 8 y ↔ 16 * run + size = y := by
  constructor
  · intro h
    have := congrArg BitVec.toNat h
    simp only [BitVec.toNat_ofNat] at this
    omega
  · rintro rfl
    rfl

/-- One pass of the loop of DECODE_AC on a coded unit that is not EOB (spec R225 to R227): ZRL only moves on, any other unit
stores its coefficient, and the loop goes on behind it. -/
theorem acLoop_cons {m : Nat} {j ch : Fin 3} {s : State} {u : AcUnit} {r : Nat} (n : Nat) (hch : cid s j = ch.val + 1)
    (hrun : u.run ≤ 15) (hsize : u.size ≤ 15) (hvalue : u.value < 2 ^ u.size) (hne : ¬(u.run = 0 ∧ u.size = 0))
    (hfits : s.k.toNat + u.run ≤ 63)
    (h : UnitAt s .ac (taSel s j) (BitVec.ofNat 8 (16 * u.run + u.size)) u.size u.value (bitPos s) r) :
    ∃ v, acLoop m j (n + 1) s = acLoop m j n v ∧ BlockFrame s v ∧ v.dcpred = s.dcpred ∧ bitPos v = r ∧
      v.k.toNat = s.k.toNat + u.run + 1 ∧
      ∀ a, Memory.get? v.coef a =
        if u.run = 15 ∧ u.size = 0 then Memory.get? s.coef a
        else if a = coefIndex m ch.val (s.k.toNat + u.run) then some (BitVec.ofInt 16 (extendValue u.value u.size))
        else Memory.get? s.coef a := by
  obtain ⟨t, hdecode, hframe, hextra, rfl⟩ := huffDecode_of_unitAt h
  have hkt : t.k = s.k := by
    unfold BitFrame at hframe
    rw [hframe]
  have hpred : t.dcpred = s.dcpred := by
    unfold BitFrame at hframe
    rw [hframe]
  have hcoef : t.coef = s.coef := by
    unfold BitFrame at hframe
    rw [hframe]
  have hne0 : BitVec.ofNat 8 (16 * u.run + u.size) ≠ 0x00 :=
    (acSymbol_eq (y := 0x00) hrun hsize (by decide)).not.mpr (by omega)
  rw [acLoop, if_neg (by omega), hdecode, Flow.bind_cont, if_neg hne0]
  by_cases hzrl : u.run = 15 ∧ u.size = 0
  · have hF0 : BitVec.ofNat 8 (16 * u.run + u.size) = 0xF0 :=
      (acSymbol_eq (y := 0xF0) hrun hsize (by decide)).mpr (by omega)
    rw [if_pos hF0, acZrl_of_fits (by rw [hkt]; omega), Flow.bind_cont]
    refine ⟨_, rfl, hframe.block.trans (rfl : BlockFrame t { t with k := t.k + 16 }), hpred, by rw [hzrl.2]; rfl, ?_, ?_⟩
    · show (t.k + 16).toNat = _
      rw [hkt, hzrl.1, BitVec.toNat_add]
      simp
      omega
    · intro a
      rw [if_pos hzrl, hcoef]
  · have hF0 : BitVec.ofNat 8 (16 * u.run + u.size) ≠ 0xF0 :=
      (acSymbol_eq (y := 0xF0) hrun hsize (by decide)).not.mpr (by omega)
    obtain ⟨hhigh, hlow⟩ := acSymbol_fields hrun hsize
    have hcht : cid t j = ch.val + 1 := by rw [hframe.sameCoded.cid, hch]
    have hstore := acRunSize_of_nextBits (m := m) (r := u.run) (by rw [hkt]; exact hfits) hcht (nextBits_of_bitsAt hextra)
    rw [bitsOf_length, bitsValue_bitsOf hvalue] at hstore
    rw [if_neg hF0, hhigh, hlow, hstore, Flow.bind_cont]
    refine ⟨_, rfl, hframe.block.trans rfl, hpred, bitPos_receivedAs_bitsOf hextra, ?_, ?_⟩
    · show (BitVec.ofNat 7 (t.k.toNat + u.run + 1)).toNat = _
      rw [hkt, BitVec.toNat_ofNat]
      omega
    · intro a
      rw [if_neg hzrl]
      show Memory.get? (Memory.set t.coef (coefIndex m ch.val (t.k.toNat + u.run)) _) a = _
      rw [Memory.get?_set, hkt, hcoef]

/-- The loop of DECODE_AC over coded units, up to EOB or position 63 (spec R229). -/
theorem acLoop_of_acAt {m : Nat} {j ch : Fin 3} {us : List AcUnit} {s : State} {n q : Nat} (hch : cid s j = ch.val + 1)
    (hfits : acFits s.k.toNat us = true) (hn : 64 ≤ s.k.toNat + n) (hk : s.k.toNat ≤ 64)
    (h : AcAt s (taSel s j) s.k.toNat us (bitPos s) q) :
    ∃ u, acLoop m j n s = .cont () u ∧ BlockFrame s u ∧ u.dcpred = s.dcpred ∧ bitPos u = q ∧
      u.k.toNat = acEnd s.k.toNat us ∧
      ∀ a, Memory.get? u.coef a = (acWritten m ch.val s.k.toNat us a).or (Memory.get? s.coef a) := by
  induction us generalizing s n with
  | nil =>
    unfold AcAt at h
    by_cases hfull : s.k.toNat ≤ 63
    · rw [if_pos hfull] at h
      obtain ⟨n, rfl⟩ : ∃ n', n = n' + 1 := ⟨n - 1, by omega⟩
      obtain ⟨t, hdecode, hframe, -, rfl⟩ := huffDecode_of_unitAt h
      refine ⟨{ t with upc := .blockEnd }, ?_, hframe.block.trans rfl, ?_, rfl, ?_, fun a => ?_⟩
      · rw [acLoop, if_neg (by omega), hdecode, Flow.bind_cont, if_pos rfl, acEob]
      · unfold BitFrame at hframe
        rw [hframe]
      · unfold BitFrame at hframe
        rw [hframe]
        rfl
      · rw [acWritten_nil, Option.none_or]
        unfold BitFrame at hframe
        rw [hframe]
    · rw [if_neg hfull] at h
      refine ⟨s, ?_, BlockFrame.refl s, rfl, h.symm, rfl, fun a => by rw [acWritten_nil, Option.none_or]⟩
      cases n with
      | zero => rfl
      | succ n => rw [acLoop, if_pos (by omega)]
  | cons unit us ih =>
    obtain ⟨r, hunit, hrest⟩ := h
    simp only [acFits, Bool.and_eq_true, decide_eq_true_eq, Bool.not_eq_true', Bool.and_eq_false_iff, beq_eq_false_iff_ne] at hfits
    obtain ⟨⟨⟨⟨⟨hrun, hsize⟩, hvalue⟩, hne⟩, hpos⟩, hfits⟩ := hfits
    obtain ⟨n, rfl⟩ : ∃ n', n = n' + 1 := ⟨n - 1, by omega⟩
    obtain ⟨v, hpass, hframe, hpred, hbit, hkv, hcoef⟩ := acLoop_cons (m := m) n hch hrun hsize hvalue (by tauto) hpos hunit
    have hsame := hframe.sameCoded
    rw [← hkv] at hfits hrest
    obtain ⟨u, hloop, hframe', hpred', hbit', hk', hcoef'⟩ := ih (s := v) (n := n) (by rw [hsame.cid, hch]) hfits (by omega)
      (by omega) (by rw [hsame.taSel, hbit]; exact hsame.acAt hrest)
    refine ⟨u, by rw [hpass, hloop], hframe.trans hframe', by rw [hpred', hpred], hbit', by rw [hk', hkv]; rfl, fun a => ?_⟩
    rw [hcoef', hcoef, hkv]
    by_cases hzrl : unit.run = 15 ∧ unit.size = 0
    · rw [if_pos hzrl, acWritten_zrl _ _ _ _ hzrl]
    · rw [if_neg hzrl, acWritten_store _ _ _ _ hzrl hpos]

/-- DECODE_AC on coded AC units. -/
theorem decodeAcUnits_of_acAt {m : Nat} {j ch : Fin 3} {us : List AcUnit} {s : State} {q : Nat} (hch : cid s j = ch.val + 1)
    (hfits : acFits s.k.toNat us = true) (hk : s.k.toNat ≤ 64) (h : AcAt s (taSel s j) s.k.toNat us (bitPos s) q) :
    ∃ u, decodeAcUnits m j s = .cont () u ∧ BlockFrame s u ∧ u.dcpred = s.dcpred ∧ bitPos u = q ∧
      u.k.toNat = acEnd s.k.toNat us ∧
      ∀ a, Memory.get? u.coef a = (acWritten m ch.val s.k.toNat us a).or (Memory.get? s.coef a) :=
  acLoop_of_acAt hch hfits (by omega) hk h

/-! DECODE_BLOCK. -/

theorem get?_zeroBlock (m ch : Nat) (s : State) (a : Nat) :
    Memory.get? (zeroBlock m ch s).coef a =
      if coefIndex m ch 0 ≤ a ∧ a < coefIndex m ch 64 then some 0 else Memory.get? s.coef a := by
  have h64 := coefIndex_add m ch 64
  rw [zeroBlock, Memory.get?_setRange, h64]

/-- What a coded block leaves at an index of COEF. -/
def blockWritten (m ch : Nat) (b : Block) (dc : BitVec 16) (a : Nat) : Option (BitVec 16) :=
  if coefIndex m ch 0 ≤ a ∧ a < coefIndex m ch 64 then some (b.coefficient dc (a - coefIndex m ch 0)) else none

theorem blockWritten_inside (m ch : Nat) (b : Block) (dc : BitVec 16) {n : Nat} (hn : n < 64) :
    blockWritten m ch b dc (coefIndex m ch n) = some (b.coefficient dc n) := by
  have h0 := coefIndex_add m ch n
  have h64 := coefIndex_add m ch 64
  rw [blockWritten, if_pos (by omega), show coefIndex m ch n - coefIndex m ch 0 = n by omega]

theorem blockWritten_outside (m ch : Nat) (b : Block) (dc : BitVec 16) {a : Nat}
    (ha : a < coefIndex m ch 0 ∨ coefIndex m ch 64 ≤ a) : blockWritten m ch b dc a = none := if_neg (by omega)

/-- The zeroed block, the DC coefficient and the AC coefficients together are the block. -/
theorem acWritten_or_dc (m ch : Nat) (b : Block) (dc : BitVec 16) (s : State) (a : Nat) :
    (acWritten m ch 1 b.ac a).or
        (if a = coefIndex m ch 0 then some dc else Memory.get? (zeroBlock m ch s).coef a) =
      (blockWritten m ch b dc a).or (Memory.get? s.coef a) := by
  by_cases hin : coefIndex m ch 0 ≤ a ∧ a < coefIndex m ch 64
  · have h64 := coefIndex_add m ch 64
    obtain ⟨n, rfl⟩ : ∃ n, a = coefIndex m ch n := ⟨a - coefIndex m ch 0, by rw [coefIndex_add]; omega⟩
    have h0 := coefIndex_add m ch n
    have hn : n < 64 := by omega
    rw [acWritten_inside _ _ _ _ hn, blockWritten_inside _ _ _ _ hn, Option.some_or, get?_zeroBlock, if_pos hin]
    by_cases hdc : n = 0
    · subst hdc
      rw [acStored_of_lt (by decide), if_pos rfl, Block.coefficient, if_pos rfl]
      rfl
    · rw [if_neg (by omega), Block.coefficient, if_neg hdc]
      cases acStored 1 b.ac n <;> rfl
  · have h0 : a < coefIndex m ch 0 ∨ coefIndex m ch 64 ≤ a := by omega
    have h64 := coefIndex_add m ch 64
    rw [acWritten_outside _ _ _ _ h0, blockWritten_outside _ _ _ _ h0, get?_zeroBlock, if_neg hin, if_neg (by omega)]

/-- The block begins: its coefficients are 0, and so is `k`. -/
@[irreducible] def clearBlock (m ch : Nat) (s : State) : State := { zeroBlock m ch s with k := 0 }

theorem clearBlock_eq (m ch : Nat) (s : State) : { zeroBlock m ch s with k := 0 } = clearBlock m ch s := by rw [clearBlock]

theorem blockFrame_clearBlock (m ch : Nat) (s : State) : BlockFrame s (clearBlock m ch s) := by
  unfold BlockFrame clearBlock
  dsimp only [zeroBlock]

theorem bitPos_clearBlock (m ch : Nat) (s : State) : bitPos (clearBlock m ch s) = bitPos s := by
  unfold bitPos clearBlock
  dsimp only [zeroBlock]

theorem clearBlock_dcpred (m ch : Nat) (s : State) : (clearBlock m ch s).dcpred = s.dcpred := by
  unfold clearBlock
  dsimp only [zeroBlock]

theorem clearBlock_coef (m ch : Nat) (s : State) : (clearBlock m ch s).coef = (zeroBlock m ch s).coef := by
  unfold clearBlock
  dsimp only

theorem decodeBlockOf_of_channel {m : Nat} {j ch : Fin 3} {s : State} (hch : cid s j = ch.val + 1) :
    decodeBlockOf m j s = (Machine.decodeDcUnit m j (clearBlock m ch.val s)).bind fun _ s =>
      Machine.decodeAcUnits m j { s with k := 1 } := by
  rw [decodeBlockOf, channelOf_eq_some.mpr hch]
  dsimp only
  rw [clearBlock_eq]

/-- DECODE_BLOCK on a coded block (spec R220). -/
theorem decodeBlockOf_of_blockAt {m : Nat} {j ch : Fin 3} {b : Block} {s : State} {q : Nat} (hch : cid s j = ch.val + 1)
    (hfits : b.fits = true) (h : BlockAt s j b (bitPos s) q) :
    ∃ u, decodeBlockOf m j s = .cont () u ∧ BlockFrame s u ∧ bitPos u = q ∧ u.k.toNat = acEnd 1 b.ac ∧
      u.dcpred = s.dcpred.set ch (s.dcpred[ch] + b.diff) ∧
      ∀ a, Memory.get? u.coef a =
        (blockWritten m ch.val b (s.dcpred[ch] + b.diff) a).or (Memory.get? s.coef a) := by
  obtain ⟨r, hdc, hac⟩ := h
  simp only [Block.fits, Bool.and_eq_true, decide_eq_true_eq] at hfits
  obtain ⟨⟨hsize, hvalue⟩, hfits⟩ := hfits
  have hy : (BitVec.ofNat 8 b.size).toNat = b.size := by
    rw [BitVec.toNat_ofNat]
    omega
  have hclear := blockFrame_clearBlock m ch.val s
  have hunit : UnitAt (clearBlock m ch.val s) .dc (tdSel (clearBlock m ch.val s) j) (BitVec.ofNat 8 b.size)
      (BitVec.ofNat 8 b.size).toNat b.value (bitPos (clearBlock m ch.val s)) r := by
    rw [hy, hclear.sameCoded.tdSel, bitPos_clearBlock]
    exact hclear.sameCoded.unitAt hdc
  obtain ⟨t, hdecode, hframe, hbit⟩ := decodeDcUnit_of_unitAt (m := m) (by rw [hclear.sameCoded.cid, hch]) (by omega)
    (by rw [hy]; exact hvalue) hunit
  rw [hy] at hdecode
  have hpred : t.dcpred = s.dcpred := by
    unfold BitFrame at hframe
    rw [hframe, clearBlock_dcpred]
  have hcoef : t.coef = (zeroBlock m ch.val s).coef := by
    unfold BitFrame at hframe
    rw [hframe, clearBlock_coef]
  have hadd : BlockFrame t { addDiff m ch b.diff t with k := 1 } := rfl
  have hall : BlockFrame s { addDiff m ch b.diff t with k := 1 } := (hclear.trans hframe.block).trans hadd
  have hsame := hall.sameCoded
  obtain ⟨u, hloop, hframe', hpred', hbit', hk', hcoef'⟩ := decodeAcUnits_of_acAt (m := m) (us := b.ac) (q := q)
    (s := { addDiff m ch b.diff t with k := 1 }) (j := j) (ch := ch) (by rw [hsame.cid, hch]) hfits
    (show (1 : BitVec 7).toNat ≤ 64 by decide)
    (by
      rw [hsame.taSel, show bitPos { addDiff m ch b.diff t with k := 1 } = r from hbit]
      exact hsame.acAt hac)
  refine ⟨u, ?_, hall.trans hframe', hbit', hk', ?_, fun a => ?_⟩
  · rw [decodeBlockOf_of_channel hch, hdecode, Flow.bind_cont]
    exact hloop
  · rw [hpred', ← hpred]
    rfl
  · rw [hcoef', ← acWritten_or_dc, ← hcoef, ← hpred]
    exact congrArg (Option.or _) (Memory.get?_set ..)

end Sys2Proof.Machine

namespace Sys2Proof.Proofs

open Sys2Proof.Machine

/-- Settles O36: by induction on the units, one pass of the loop for each. -/
theorem decodeAcUnits : Obligations.DecodeAcUnits := by
  unfold Obligations.DecodeAcUnits
  intro s m j ch us q hch hfits hk hac
  obtain ⟨u, hdecode, hframe, hpred, hbit, hku, hcoef⟩ := decodeAcUnits_of_acAt (m := m.toNat) hch hfits hk hac
  refine ⟨u, by rw [exec_decodeAc, hdecode, Flow.toOutcome_cont], hbit, hku, fun n hn => ?_, fun a ha => ?_, ?_⟩
  · rw [hcoef, acWritten_inside _ _ _ _ hn]
    cases acStored s.k.toNat us n <;> rfl
  · rw [hcoef, acWritten_outside _ _ _ _ ha, Option.none_or]
  · unfold BlockFrame at hframe
    rwa [hpred] at hframe

/-- Settles O37: the block is zeroed, then its DC unit and its AC units are decoded. -/
theorem decodeCodedBlock : Obligations.DecodeCodedBlock := by
  unfold Obligations.DecodeCodedBlock
  intro s m j ch b q hch hfits hblock
  obtain ⟨u, hdecode, hframe, hbit, hk, hpred, hcoef⟩ := decodeBlockOf_of_blockAt (m := m.toNat) hch hfits hblock
  refine ⟨u, by rw [exec_decodeBlock, hdecode, Flow.toOutcome_cont], hbit, hk, hpred, fun n hn => ?_, fun a ha => ?_, hframe⟩
  · rw [hcoef, blockWritten_inside _ _ _ _ hn, Option.some_or]
  · rw [hcoef, blockWritten_outside _ _ _ _ ha, Option.none_or]

end Sys2Proof.Proofs
end

section
/-! Coded MCUs and images (spec R111, R230 to R232): DECODE_MCU block by block and ENTROPY MCU by MCU. -/

namespace Sys2Proof.Machine

/-! The components of a scan (spec R143 check 3). -/

theorem cid_le_ncomp {s : State} (h : IdsOk s) {j : Fin 3} (hj : j.val < ncomp s) : cid s j ≤ ncomp s := by
  have := h j hj
  simp only [BadId, not_or] at this
  omega

theorem cid_pos {s : State} (h : IdsOk s) {j : Fin 3} (hj : j.val < ncomp s) : 1 ≤ cid s j := by
  have := h j hj
  simp only [BadId, not_or] at this
  omega

/-- Two slots of a scan feed different channels. -/
theorem cid_injective {s : State} (h : IdsOk s) {i j : Fin 3} (hi : i.val < ncomp s) (hj : j.val < ncomp s)
    (heq : cid s i = cid s j) : i = j := by
  have hbad : ∀ {i j : Fin 3}, j.val < ncomp s → cid s i = cid s j → ¬i < j := fun hj heq hlt =>
    h _ hj (.inr (.inr ⟨_, hlt, heq⟩))
  rcases lt_trichotomy i j with hlt | rfl | hlt
  · exact absurd hlt (hbad hj heq)
  · rfl
  · exact absurd hlt (hbad hi heq.symm)

theorem ncomp_le_three {s : State} (h : CountOk s) : ncomp s ≤ 3 := by
  unfold CountOk at h
  omega

theorem ncomp_pos {s : State} (h : CountOk s) : 0 < ncomp s := by
  unfold CountOk at h
  omega

/-- Every slot of a scan feeds a channel below the component count. -/
theorem exists_channel {s : State} (hcount : CountOk s) (hids : IdsOk s) {j : Fin 3} (hj : j.val < ncomp s) :
    ∃ ch : Fin 3, ch.val < ncomp s ∧ cid s j = ch.val + 1 := by
  have h1 := cid_pos hids hj
  have h2 := cid_le_ncomp hids hj
  have h3 := ncomp_le_three hcount
  exact ⟨⟨cid s j - 1, by omega⟩, by simp only; omega, by simp only; omega⟩

/-! One block for each slot. -/

/-- The block of slot number `n`, as the loop of DECODE_MCU performs it (spec R231). -/
def mcuBlock (m n : Nat) (s : State) : Flow Unit :=
  match slotOf n with
  | none => .stop .noSlot
  | some j => decodeBlockOf m j { s with slot := j }

theorem mcuBlock_of_slot (m : Nat) (j : Fin 3) (s : State) : mcuBlock m j.val s = decodeBlockOf m j { s with slot := j } := by
  rw [mcuBlock, slotOf_val]

theorem decodeMcuOf_eq (m : Nat) (s : State) :
    decodeMcuOf m s = (Flow.forEach (List.range (ncomp s)) (mcuBlock m) s).bind fun _ s =>
      .cont () { s with mcucnt := s.mcucnt + 1 } := rfl

/-- An index of COEF lies in the block of channel `ch` of MCU `m`. -/
def InBlock (m : Nat) (ch : Fin 3) (a : Nat) : Prop := coefIndex m ch.val 0 ≤ a ∧ a < coefIndex m ch.val 64

theorem inBlock_coefIndex {m n : Nat} (ch : Fin 3) (hn : n < 64) : InBlock m ch (coefIndex m ch.val n) := by
  have h0 := coefIndex_add m ch.val n
  have h64 := coefIndex_add m ch.val 64
  constructor <;> omega

/-- Blocks of different channels do not overlap. -/
theorem inBlock_unique {m m' a : Nat} {ch ch' : Fin 3} (h : InBlock m ch a) (h' : InBlock m' ch' a) : ch = ch' := by
  unfold InBlock coefIndex at *
  omega

theorem blockWritten_of_not_inBlock {m a : Nat} {ch : Fin 3} (h : ¬InBlock m ch a) (b : Block) (dc : BitVec 16) :
    blockWritten m ch.val b dc a = none := if_neg h

/-- What decoding the coded blocks `bs` of the slots from number `n` on leaves in `u`, started in `s`. -/
structure BlocksDone (m n : Nat) (bs : List Block) (s u : State) : Prop where
  frame : McuFrame s u
  mcucnt : u.mcucnt = s.mcucnt
  pred : ∀ (j ch : Fin 3) (b : Block), n ≤ j.val → bs[j.val - n]? = some b → cid s j = ch.val + 1 →
    u.dcpred[ch] = s.dcpred[ch] + b.diff
  coef : ∀ (j ch : Fin 3) (b : Block), n ≤ j.val → bs[j.val - n]? = some b → cid s j = ch.val + 1 →
    ∀ i, i < 64 → Memory.get? u.coef (coefIndex m ch.val i) = some (b.coefficient (s.dcpred[ch] + b.diff) i)
  otherPred : ∀ ch : Fin 3, (∀ j : Fin 3, n ≤ j.val → j.val < n + bs.length → cid s j ≠ ch.val + 1) →
    u.dcpred[ch] = s.dcpred[ch]
  otherCoef : ∀ a, (∀ j ch : Fin 3, n ≤ j.val → j.val < n + bs.length → cid s j = ch.val + 1 → ¬InBlock m ch a) →
    Memory.get? u.coef a = Memory.get? s.coef a

theorem blocksDone_nil (m n : Nat) (s : State) : BlocksDone m n [] s s where
  frame := McuFrame.refl s
  mcucnt := rfl
  pred := fun _ _ _ _ hb => by simp at hb
  coef := fun _ _ _ _ hb => by simp at hb
  otherPred := fun _ _ => rfl
  otherCoef := fun _ _ => rfl

theorem getElem_set_dcpred (v : Vector (BitVec 16) 3) (i j : Fin 3) (x : BitVec 16) :
    (v.set i x)[j] = if i = j then x else v[j] := by
  simp only [Fin.getElem_fin, Vector.getElem_set, Fin.ext_iff]

/-- The block of a slot, then those of the later slots. -/
theorem blocksDone_cons {m n : Nat} {j ch : Fin 3} {b : Block} {bs : List Block} {s v u : State} (hj : j.val = n)
    (hch : cid s j = ch.val + 1) (hdistinct : ∀ i : Fin 3, n < i.val → i.val < n + (bs.length + 1) → cid s i ≠ cid s j)
    (hframe : McuFrame s v) (hcnt : v.mcucnt = s.mcucnt) (hpred : v.dcpred = s.dcpred.set ch (s.dcpred[ch] + b.diff))
    (hcoef : ∀ a, Memory.get? v.coef a =
      (blockWritten m ch.val b (s.dcpred[ch] + b.diff) a).or (Memory.get? s.coef a))
    (hrest : BlocksDone m (n + 1) bs v u) : BlocksDone m n (b :: bs) s u := by
  have hcid : ∀ i, cid v i = cid s i := hframe.sameCoded.cid
  have hother : ∀ {i ch' : Fin 3}, n < i.val → i.val < n + (bs.length + 1) → cid s i = ch'.val + 1 → ch ≠ ch' := by
    rintro i ch' hlow hhigh hi rfl
    exact hdistinct i hlow hhigh (by rw [hi, hch])
  have hlater : ∀ i : Fin 3, n ≤ i.val → i = j ∨ n < i.val := fun i hi => by
    rcases Nat.eq_or_lt_of_le hi with heq | hlt
    · exact .inl (Fin.ext (by omega))
    · exact .inr hlt
  have hlast : ∀ i : Fin 3, n < i.val → ∀ {b'}, (b :: bs)[i.val - n]? = some b' →
      bs[i.val - (n + 1)]? = some b' ∧ i.val < n + (bs.length + 1) := fun i hlow b' hb => by
    rw [show i.val - n = i.val - (n + 1) + 1 by omega, List.getElem?_cons_succ] at hb
    have := (List.getElem?_eq_some_iff.mp hb).1
    exact ⟨hb, by omega⟩
  refine ⟨hframe.trans hrest.frame, by rw [hrest.mcucnt, hcnt], ?_, ?_, ?_, ?_⟩
  · intro i ch' b' hi hb hci
    rcases hlater i hi with rfl | hlow
    · obtain rfl : ch = ch' := Fin.ext (by omega)
      obtain rfl : b = b' := by simpa [hj] using hb
      rw [hrest.otherPred ch fun i hlow hhigh => ?_, hpred, getElem_set_dcpred, if_pos rfl]
      rw [hcid, ← hch]
      exact hdistinct i (by omega) (by omega)
    · obtain ⟨hb, hhigh⟩ := hlast i hlow hb
      rw [hrest.pred i ch' b' (by omega) hb (by rw [hcid, hci]), hpred, getElem_set_dcpred, if_neg (hother hlow hhigh hci)]
  · intro i ch' b' hi hb hci k hk
    rcases hlater i hi with rfl | hlow
    · obtain rfl : ch = ch' := Fin.ext (by omega)
      obtain rfl : b = b' := by simpa [hj] using hb
      rw [hrest.otherCoef _ fun i ch' hlow hhigh hci hin => ?_, hcoef, blockWritten_inside _ _ _ _ hk, Option.some_or]
      rw [hcid] at hci
      exact hother (by omega) (by omega) hci (inBlock_unique (inBlock_coefIndex ch hk) hin)
    · obtain ⟨hb, hhigh⟩ := hlast i hlow hb
      rw [hrest.coef i ch' b' (by omega) hb (by rw [hcid, hci]) k hk, hpred, getElem_set_dcpred,
        if_neg (hother hlow hhigh hci)]
  · intro ch' hno
    rw [hrest.otherPred ch' fun i hlow hhigh => by rw [hcid]; exact hno i (by omega) (by rw [List.length_cons]; omega),
      hpred, getElem_set_dcpred, if_neg]
    rintro rfl
    exact hno j (by omega) (by rw [List.length_cons]; omega) hch
  · intro a hno
    rw [hrest.otherCoef a fun i ch' hlow hhigh hci => hno i ch' (by omega) (by rw [List.length_cons]; omega)
      (by rw [← hcid, hci]), hcoef, blockWritten_of_not_inBlock, Option.none_or]
    exact hno j ch (by omega) (by rw [List.length_cons]; omega) hch

/-- The loop over the slots from number `n` on (spec R231). -/
theorem forEach_mcuBlock_of_blocksAt {m n : Nat} {bs : List Block} {s : State} {q : Nat} (hcount : CountOk s) (hids : IdsOk s)
    (hlen : n + bs.length ≤ ncomp s) (hfits : bs.all Block.fits = true) (h : BlocksAt s n bs (bitPos s) q) :
    ∃ u, Flow.forEach (List.range' n bs.length) (mcuBlock m) s = .cont () u ∧ bitPos u = q ∧ BlocksDone m n bs s u := by
  induction bs generalizing n s with
  | nil => exact ⟨s, rfl, h.symm, blocksDone_nil m n s⟩
  | cons b bs ih =>
    obtain ⟨j, r, rfl, hblock, hblocks⟩ := h
    rw [List.all_cons, Bool.and_eq_true] at hfits
    rw [List.length_cons] at hlen
    obtain ⟨ch, -, hch⟩ := exists_channel hcount hids (j := j) (by omega)
    have hslot : McuFrame s { s with slot := j } := rfl
    obtain ⟨v, hdecode, hframe, hbit, -, hpred, hcoef⟩ := decodeBlockOf_of_blockAt (m := m) (s := { s with slot := j }) hch
      hfits.1 (hslot.sameCoded.blockAt hblock)
    have hall : McuFrame s v := hslot.trans hframe.mcu
    have hsame := hall.sameCoded
    have hcnt : v.mcucnt = s.mcucnt := by
      unfold BlockFrame at hframe
      rw [hframe]
    obtain ⟨u, hloop, hbit', hdone⟩ := ih (s := v) (n := j.val + 1)
      (by unfold CountOk; rw [hsame.ncomp]; exact hcount)
      (by unfold IdsOk BadId; simp only [hsame.ncomp, hsame.cid]; exact hids) (by rw [hsame.ncomp]; omega) hfits.2
      (by rw [hbit]; exact hsame.blocksAt hblocks)
    refine ⟨u, ?_, hbit', blocksDone_cons rfl hch (fun i hlow hhigh heq => ?_) hall hcnt hpred hcoef hdone⟩
    · rw [List.length_cons, List.range'_succ, Flow.forEach_cons, mcuBlock_of_slot, hdecode, Flow.bind_cont, hloop]
    · have := cid_injective hids (by omega) (by omega) heq
      omega

theorem exec_decodeMcu (m : Word) (s : State) : exec (.decodeMcu m) s = (decodeMcuOf m.toNat s).toOutcome := rfl

/-- DECODE_MCU on the coded blocks of an MCU. -/
theorem decodeMcuOf_of_blocksAt {m : Nat} {bs : List Block} {s : State} {q : Nat} (hcount : CountOk s) (hids : IdsOk s)
    (hfits : mcuFits s bs = true) (h : BlocksAt s 0 bs (bitPos s) q) :
    ∃ u, decodeMcuOf m s = .cont () { u with mcucnt := s.mcucnt + 1 } ∧ bitPos u = q ∧ BlocksDone m 0 bs s u := by
  rw [mcuFits, Bool.and_eq_true, beq_iff_eq] at hfits
  obtain ⟨hlen, hfits⟩ := hfits
  obtain ⟨u, hloop, hbit, hdone⟩ := forEach_mcuBlock_of_blocksAt (m := m) hcount hids (by omega) hfits h
  refine ⟨u, ?_, hbit, hdone⟩
  rw [decodeMcuOf_eq, List.range_eq_range', ← hlen, hloop, Flow.bind_cont, hdone.mcucnt]

/-! Restart (spec R230). -/

/-- A coded block has a bit at its beginning. -/
theorem blockAt_lt {s : State} {j : Fin 3} {b : Block} {p q : Nat} (h : BlockAt s j b p q) : p < 8 * s.cleanlen.toNat := by
  obtain ⟨r, ⟨len, first, code, hword, hbits, -⟩, -⟩ := h
  obtain ⟨-, h1, -⟩ := firstHit_of_codeWord hword
  have hne : bitsOf len code ≠ [] := by
    rw [Ne, bitsOf_eq_nil]
    omega
  have := bitsAt_lt (bitsAt_append.mp hbits).1 hne
  rw [bitsOf_length] at this
  omega

/-- RESTART moves to the next byte boundary, where there is one. -/
theorem bitPos_restartAction {s : State} (h : (bitPos s + 7) / 8 * 8 < 2 ^ 35) :
    bitPos (restartAction s) = (bitPos s + 7) / 8 * 8 := by
  show bitPos (alignCursor s) = _
  by_cases hbi : s.bi = 0
  · have h0 : s.bi.toNat = 0 := by rw [hbi]; rfl
    rw [alignCursor_of_aligned hbi]
    unfold bitPos at *
    omega
  · have h0 : s.bi.toNat ≠ 0 := fun h0 => hbi (BitVec.eq_of_toNat_eq h0)
    rw [alignCursor_of_not_aligned hbi]
    unfold bitPos at *
    have hstep : (s.bp + 1).toNat = s.bp.toNat + 1 := by
      rw [BitVec.toNat_add]
      simp
      omega
    show 8 * (s.bp + 1).toNat + 0 = _
    rw [hstep]
    omega

theorem entropyFrame_restartAction (s : State) : EntropyFrame s (restartAction s) := by
  unfold EntropyFrame restartAction alignCursor
  split <;> rfl

/-- The state in which the blocks of MCU `m` begin (spec R230, R232). -/
def enterMcu (m : Nat) (s : State) : State :=
  if restartBefore s m then restartAction { s with mcu := BitVec.ofNat 32 m } else { s with mcu := BitVec.ofNat 32 m }

theorem entropyMcu_eq (m : Nat) (s : State) : entropyMcu m s = decodeMcuOf m (enterMcu m s) := rfl

theorem enterMcu_of_due {m : Nat} {s : State} (h : RestartDue s m) :
    enterMcu m s = restartAction { s with mcu := BitVec.ofNat 32 m } := if_pos (restartBefore_iff.mpr h)

theorem enterMcu_of_not_due {m : Nat} {s : State} (h : ¬RestartDue s m) :
    enterMcu m s = { s with mcu := BitVec.ofNat 32 m } := if_neg (restartBefore_iff.not.mpr h)

/-- Entering an MCU keeps everything but the cursor, the predictors and `mcu`. -/
structure McuEntered (m : Nat) (s u : State) : Prop where
  frame : EntropyFrame s u
  phase : u.phase = s.phase
  coef : u.coef = s.coef
  mcucnt : u.mcucnt = s.mcucnt
  pred : ∀ ch : Fin 3, u.dcpred[ch] = if RestartDue s m then 0 else s.dcpred[ch]

theorem mcuEntered (m : Nat) (s : State) : McuEntered m s (enterMcu m s) := by
  have hmcu : EntropyFrame s { s with mcu := BitVec.ofNat 32 m } := rfl
  by_cases h : RestartDue s m
  · rw [enterMcu_of_due h]
    refine ⟨hmcu.trans (entropyFrame_restartAction _), by simp [restartAction], by simp [restartAction],
      by simp [restartAction], fun ch => ?_⟩
    rw [if_pos h, restartAction]
    fin_cases ch <;> rfl
  · rw [enterMcu_of_not_due h]
    exact ⟨hmcu, rfl, rfl, rfl, fun ch => by rw [if_neg h]⟩

theorem bitPos_enterMcu {m p : Nat} {s : State} {bs : List Block} {r : Nat} (hne : bs ≠ []) (hp : bitPos s = p)
    (h : BlocksAt s 0 bs (if RestartDue s m then (p + 7) / 8 * 8 else p) r) :
    bitPos (enterMcu m s) = if RestartDue s m then (p + 7) / 8 * 8 else p := by
  subst hp
  obtain ⟨b, bs, rfl⟩ := List.exists_cons_of_ne_nil hne
  obtain ⟨j, r', -, hblock, -⟩ := h
  have hlt := blockAt_lt hblock
  by_cases hdue : RestartDue s m
  · rw [if_pos hdue] at hlt ⊢
    rw [enterMcu_of_due hdue]
    exact bitPos_restartAction (s := { s with mcu := BitVec.ofNat 32 m }) (show (bitPos s + 7) / 8 * 8 < 2 ^ 35 by omega)
  · rw [if_neg hdue, enterMcu_of_not_due hdue]
    rfl

/-! The predictors over an image. -/

/-- The predictor of slot number `j` after `m` MCUs, before a restart action. -/
def predAfter (s : State) (mcus : List (List Block)) (j : Nat) (p : BitVec 16) : Nat → BitVec 16
  | 0 => p
  | m + 1 => predBefore s mcus j p m + ((mcus[m]?.bind fun bs => bs[j]?).map Block.diff).getD 0

theorem predBefore_eq (s : State) (mcus : List (List Block)) (j : Nat) (p : BitVec 16) (m : Nat) :
    predBefore s mcus j p m = if RestartDue s m then 0 else predAfter s mcus j p m := by
  cases m with
  | zero => rw [if_neg (by simp [RestartDue]), predBefore, predAfter]
  | succ m => rfl

theorem predAfter_succ {s : State} {mcus : List (List Block)} {j m : Nat} {p : BitVec 16} {bs : List Block} {b : Block}
    (hbs : mcus[m]? = some bs) (hb : bs[j]? = some b) : predAfter s mcus j p (m + 1) = predBefore s mcus j p m + b.diff := by
  rw [predAfter, hbs, Option.bind_some, hb]
  rfl

/-! The loop over the MCUs. -/

/-- What the first `m` MCUs of a coded image leave in `u`, started in `s`. -/
structure McusDone (s : State) (mcus : List (List Block)) (q m : Nat) (u : State) : Prop where
  frame : EntropyFrame s u
  phase : u.phase = s.phase
  mcucnt : u.mcucnt = s.mcucnt + BitVec.ofNat 32 m
  stream : McusAt s m (mcus.drop m) (bitPos u) q
  coef : ∀ (i : Nat) (bs : List Block) (j ch : Fin 3) (b : Block), i < m → mcus[i]? = some bs → bs[j.val]? = some b →
    cid s j = ch.val + 1 → ∀ n, n < 64 → Memory.get? u.coef (coefIndex i ch.val n) =
      some (b.coefficient (predBefore s mcus j.val s.dcpred[ch] i + b.diff) n)
  pred : ∀ j ch : Fin 3, j.val < ncomp s → cid s j = ch.val + 1 → u.dcpred[ch] = predAfter s mcus j.val s.dcpred[ch] m
  otherPred : ∀ ch : Fin 3, ncomp s ≤ ch.val →
    u.dcpred[ch] = if 0 < restartInterval s ∧ restartInterval s < m then 0 else s.dcpred[ch]
  later : ∀ a, coefIndex m 0 0 ≤ a → Memory.get? u.coef a = Memory.get? s.coef a
  otherCoef : ∀ i ch n, ncomp s ≤ ch → ch < 3 → n < 64 →
    Memory.get? u.coef (coefIndex i ch n) = Memory.get? s.coef (coefIndex i ch n)

theorem mcusDone_zero {s : State} {mcus : List (List Block)} {q : Nat} (h : McusAt s 0 mcus (bitPos s) q) :
    McusDone s mcus q 0 s where
  frame := EntropyFrame.refl s
  phase := rfl
  mcucnt := by simp
  stream := h
  coef := fun _ _ _ _ _ hi => absurd hi (Nat.not_lt_zero _)
  pred := fun _ _ _ _ => rfl
  otherPred := fun _ _ => by rw [if_neg (by omega)]
  later := fun _ _ => rfl
  otherCoef := fun _ _ _ _ _ _ => rfl

/-- A restart has come before MCU `m` or an earlier one exactly where the interval is at most `m`. -/
theorem restart_seen_succ (s : State) (m : Nat) (x : BitVec 16) :
    (if RestartDue s m then 0 else if 0 < restartInterval s ∧ restartInterval s < m then 0 else x) =
      if 0 < restartInterval s ∧ restartInterval s < m + 1 then 0 else x := by
  by_cases hdue : RestartDue s m
  · have hle : restartInterval s ≤ m := Nat.le_of_dvd hdue.2.1 (Nat.dvd_of_mod_eq_zero hdue.2.2)
    rw [if_pos hdue, if_pos ⟨hdue.1, by omega⟩]
  · rw [if_neg hdue]
    have hiff : (0 < restartInterval s ∧ restartInterval s < m) ↔ 0 < restartInterval s ∧ restartInterval s < m + 1 := by
      refine ⟨fun ⟨h0, h⟩ => ⟨h0, by omega⟩, fun ⟨h0, h⟩ => ⟨h0, ?_⟩⟩
      by_contra hge
      have heq : restartInterval s = m := by omega
      exact hdue ⟨h0, by omega, by rw [heq, Nat.mod_self]⟩
    simp only [hiff]

/-- What one MCU of a coded image leaves in `v`, started in `u`; the slots feed the channels as in `s`. -/
structure McuDone (s : State) (bs : List Block) (m r : Nat) (u v : State) : Prop where
  frame : EntropyFrame u v
  phase : v.phase = u.phase
  mcucnt : v.mcucnt = u.mcucnt + 1
  pos : bitPos v = r
  coef : ∀ (j ch : Fin 3) (b : Block), bs[j.val]? = some b → cid s j = ch.val + 1 → ∀ n, n < 64 →
    Memory.get? v.coef (coefIndex m ch.val n) =
      some (b.coefficient ((if RestartDue s m then 0 else u.dcpred[ch]) + b.diff) n)
  otherCoef : ∀ a, (∀ ch : Fin 3, ch.val < ncomp s → ¬InBlock m ch a) → Memory.get? v.coef a = Memory.get? u.coef a
  pred : ∀ (j ch : Fin 3) (b : Block), bs[j.val]? = some b → cid s j = ch.val + 1 →
    v.dcpred[ch] = (if RestartDue s m then 0 else u.dcpred[ch]) + b.diff
  otherPred : ∀ ch : Fin 3, ncomp s ≤ ch.val → v.dcpred[ch] = if RestartDue s m then 0 else u.dcpred[ch]

/-- One MCU of ENTROPY on its coded blocks: the restart action where it is due, then DECODE_MCU. -/
theorem entropyMcu_of_blocksAt {s u : State} {bs : List Block} {m r : Nat} (hcount : CountOk s) (hids : IdsOk s)
    (hfits : mcuFits s bs = true) (hframe : EntropyFrame s u)
    (hblocks : BlocksAt s 0 bs (if RestartDue s m then (bitPos u + 7) / 8 * 8 else bitPos u) r) :
    ∃ v, entropyMcu m u = .cont () v ∧ McuDone s bs m r u v := by
  have hsame := hframe.sameCoded
  have hdueiff : ∀ i, RestartDue u i ↔ RestartDue s i := fun i => by
    unfold RestartDue
    rw [hsame.restartInterval]
  have hlen : bs.length = ncomp s := by
    rw [mcuFits, Bool.and_eq_true, beq_iff_eq] at hfits
    exact hfits.1
  have hne : bs ≠ [] := by
    rw [← List.length_pos_iff, hlen]
    exact ncomp_pos hcount
  have henter := mcuEntered m u
  have hsame' := (hframe.trans henter.frame).sameCoded
  have hpos := bitPos_enterMcu (m := m) (s := u) hne rfl (by simp only [hdueiff]; exact hsame.blocksAt hblocks)
  simp only [hdueiff] at hpos
  obtain ⟨v, hdecode, hbit, hdone⟩ := decodeMcuOf_of_blocksAt (m := m) (s := enterMcu m u)
    (by unfold CountOk; rw [hsame'.ncomp]; exact hcount)
    (by unfold IdsOk BadId; simp only [hsame'.ncomp, hsame'.cid]; exact hids)
    (by unfold mcuFits at *; rw [hsame'.ncomp]; exact hfits) (by rw [hpos]; exact hsame'.blocksAt hblocks)
  have hbefore : ∀ ch : Fin 3, (enterMcu m u).dcpred[ch] = if RestartDue s m then 0 else u.dcpred[ch] := fun ch => by
    rw [henter.pred]
    simp only [hdueiff]
  have hother : ∀ (ch : Fin 3), ncomp s ≤ ch.val → ∀ j : Fin 3, j.val < 0 + bs.length → cid s j ≠ ch.val + 1 :=
    fun ch hch j hj heq => by
      have := cid_le_ncomp hids (j := j) (by omega)
      omega
  refine ⟨_, by rw [entropyMcu_eq, hdecode], ⟨?_, ?_, ?_, ?_, ?_, ?_, ?_, ?_⟩⟩
  · exact (henter.frame.trans hdone.frame.entropy).trans rfl
  · have hmcu := hdone.frame
    unfold McuFrame at hmcu
    exact (congrArg State.phase hmcu).trans henter.phase
  · show (enterMcu m u).mcucnt + 1 = _
    rw [henter.mcucnt]
  · exact hbit
  · intro j ch b hb hch n hn
    show Memory.get? v.coef _ = _
    rw [hdone.coef j ch b (Nat.zero_le _) hb (by rw [hsame'.cid, hch]) n hn, hbefore]
  · intro a ha
    show Memory.get? v.coef a = _
    rw [hdone.otherCoef a fun j ch _ hj hch => ?_, henter.coef]
    rw [hsame'.cid] at hch
    have := cid_le_ncomp hids (j := j) (by omega)
    exact ha ch (by omega)
  · intro j ch b hb hch
    show v.dcpred[ch] = _
    rw [hdone.pred j ch b (Nat.zero_le _) hb (by rw [hsame'.cid, hch]), hbefore]
  · intro ch hch
    show v.dcpred[ch] = _
    rw [hdone.otherPred ch fun j _ hj => by rw [hsame'.cid]; exact hother ch hch j hj, hbefore]

/-- One more MCU. -/
theorem mcusDone_succ {s u : State} {mcus : List (List Block)} {q m : Nat} (hcount : CountOk s) (hids : IdsOk s)
    (hm : m < mcus.length) (hfits : mcuFits s mcus[m] = true) (h : McusDone s mcus q m u) :
    ∃ v, entropyMcu m u = .cont () v ∧ McusDone s mcus q (m + 1) v := by
  have hstream := h.stream
  rw [List.drop_eq_getElem_cons hm] at hstream
  obtain ⟨r, hblocks, hrest⟩ := hstream
  obtain ⟨v, hmcu, hdone⟩ := entropyMcu_of_blocksAt hcount hids hfits h.frame hblocks
  have hlen : mcus[m].length = ncomp s := by
    rw [mcuFits, Bool.and_eq_true, beq_iff_eq] at hfits
    exact hfits.1
  have hpred : ∀ j ch : Fin 3, j.val < ncomp s → cid s j = ch.val + 1 →
      (if RestartDue s m then 0 else u.dcpred[ch]) = predBefore s mcus j.val s.dcpred[ch] m := fun j ch hj hch => by
    rw [h.pred j ch hj hch, predBefore_eq]
  refine ⟨v, hmcu, ⟨h.frame.trans hdone.frame, hdone.phase.trans h.phase, ?_, by rw [hdone.pos]; exact hrest, ?_, ?_, ?_, ?_,
    ?_⟩⟩
  · rw [hdone.mcucnt, h.mcucnt, BitVec.add_assoc, show (1 : Word) = BitVec.ofNat 32 1 from rfl, ← BitVec.ofNat_add]
  · intro i bs j ch b hi hbs hb hch n hn
    rcases Nat.lt_or_eq_of_le (Nat.le_of_lt_succ hi) with hless | rfl
    · rw [hdone.otherCoef _ fun ch' _ hin => ?_, h.coef i bs j ch b hless hbs hb hch n hn]
      unfold InBlock coefIndex at hin
      omega
    · obtain rfl : mcus[i] = bs := by
        rw [List.getElem?_eq_getElem hm] at hbs
        exact Option.some.inj hbs
      have hj : j.val < ncomp s := by
        rw [← hlen]
        exact (List.getElem?_eq_some_iff.mp hb).1
      rw [hdone.coef j ch b hb hch n hn, hpred j ch hj hch]
  · intro j ch hj hch
    have hb : mcus[m][j.val]? = some (mcus[m][j.val]'(by omega)) := List.getElem?_eq_getElem _
    rw [predAfter_succ (List.getElem?_eq_getElem hm) hb, hdone.pred j ch _ hb hch, hpred j ch hj hch]
  · intro ch hch
    rw [hdone.otherPred ch hch, h.otherPred ch hch, restart_seen_succ]
  · intro a ha
    rw [hdone.otherCoef a fun ch _ hin => ?_, h.later a (by unfold coefIndex at *; omega)]
    unfold InBlock coefIndex at *
    omega
  · intro i ch n hch h3 hn
    rw [hdone.otherCoef _ fun ch' hch' hin => ?_, h.otherCoef i ch n hch h3 hn]
    have hsame := inBlock_unique (inBlock_coefIndex (m := i) ⟨ch, h3⟩ hn) hin
    subst hsame
    exact absurd hch' (by simpa using hch)

theorem forEach_entropyMcu {s : State} {mcus : List (List Block)} {q : Nat} (hcount : CountOk s) (hids : IdsOk s)
    (hfits : ∀ bs, bs ∈ mcus → mcuFits s bs = true) (h : McusAt s 0 mcus (bitPos s) q) {m : Nat} (hm : m ≤ mcus.length) :
    ∃ u, Flow.forEach (List.range m) entropyMcu s = .cont () u ∧ McusDone s mcus q m u := by
  induction m with
  | zero => exact ⟨s, rfl, mcusDone_zero h⟩
  | succ m ih =>
    obtain ⟨u, hloop, hdone⟩ := ih (by omega)
    obtain ⟨v, hmcu, hdone'⟩ := mcusDone_succ hcount hids hm (hfits _ (List.getElem_mem hm)) hdone
    refine ⟨v, ?_, hdone'⟩
    rw [List.range_succ, Flow.forEach_append, hloop, Flow.bind_cont, Flow.forEach_cons, hmcu]
    rfl

theorem exec_entropy (s : State) : exec .entropy s = (entropyPhase s).toOutcome := rfl

end Sys2Proof.Machine

namespace Sys2Proof.Proofs

open Sys2Proof.Machine

/-- Settles O38: by induction on the slots; the ids differ, so no block touches the predictor or the coefficients of another. -/
theorem decodeCodedMcu : Obligations.DecodeCodedMcu := by
  unfold Obligations.DecodeCodedMcu
  intro s m bs q hcount hids hfits hblocks
  obtain ⟨u, hdecode, hbit, hdone⟩ := decodeMcuOf_of_blocksAt (m := m.toNat) hcount hids hfits hblocks
  have hlen : bs.length = ncomp s := by
    rw [mcuFits, Bool.and_eq_true, beq_iff_eq] at hfits
    exact hfits.1
  refine ⟨{ u with mcucnt := s.mcucnt + 1 }, by rw [exec_decodeMcu, hdecode, Flow.toOutcome_cont], hbit, rfl, ?_, ?_, ?_, ?_⟩
  · intro j ch b hb hch
    exact ⟨hdone.pred j ch b (Nat.zero_le _) hb hch, hdone.coef j ch b (Nat.zero_le _) hb hch⟩
  · intro ch hch
    refine hdone.otherPred ch fun j _ hj heq => ?_
    have := cid_le_ncomp hids (j := j) (by omega)
    omega
  · intro a ha
    refine hdone.otherCoef a fun j ch _ hj heq hin => ?_
    have := cid_le_ncomp hids (j := j) (by omega)
    unfold InBlock coefIndex at *
    omega
  · exact hdone.frame.trans rfl

/-- Settles O40: by induction on the MCUs, each DECODE_MCU behind the restart action where it is due. -/
theorem entropyDecodesImage : Obligations.EntropyDecodesImage := by
  unfold Obligations.EntropyDecodesImage
  intro s mcus q hcount hids hlen hfits hmcus
  obtain ⟨u, hloop, hdone⟩ := forEach_entropyMcu hcount hids hfits hmcus (Nat.le_refl _)
  rw [hlen] at hloop hdone
  have hall : EntropyFrame s { u with phase := .recon } := hdone.frame.trans rfl
  refine ⟨{ u with phase := .recon }, ?_, rfl, ?_, hdone.mcucnt, ?_, ?_, hdone.otherPred, hdone.later, hdone.otherCoef, hall⟩
  · rw [exec_entropy, entropyPhase, hloop, Flow.bind_cont, Flow.toOutcome_cont]
  · have hstream := hdone.stream
    rw [List.drop_eq_nil_of_le (by omega)] at hstream
    exact Eq.symm hstream
  · intro m bs j ch b hbs hb hch
    exact hdone.coef m bs j ch b (by rw [← hlen]; exact (List.getElem?_eq_some_iff.mp hbs).1) hbs hb hch
  · intro m bs j ch b hm hbs hb hch
    have hj : j.val < ncomp s := by
      have hmem := hfits bs (List.mem_of_getElem? hbs)
      rw [mcuFits, Bool.and_eq_true, beq_iff_eq] at hmem
      rw [← hmem.1]
      exact (List.getElem?_eq_some_iff.mp hb).1
    rw [← predAfter_succ hbs hb, hm]
    exact hdone.pred j ch hj hch

end Sys2Proof.Proofs
end

section
/-! SCAN (spec R160 to R169): what one round of its loop does with the token at the input cursor, and from it the whole phase, its
run as single tokens, and what it depends on. -/

namespace Sys2Proof.Machine

/-! The token at the input cursor. -/

/-- The bytes of the input sequence that are left. -/
abbrev bytesLeft (s : State) : List Byte := s.input.drop s.ip.toNat

/-- The token that the bytes left begin with. -/
abbrev nextToken (s : State) : Instr := decodeToken (bytesLeft s)

/-- A token has been passed: the input cursor is behind it, and at most one byte is appended to CLEAN. -/
structure TokenPassed (s u : State) : Prop where
  frame : u = { s with clean := u.clean, cleanlen := u.cleanlen, ip := u.ip }
  ip_lt : s.ip.toNat < u.ip.toNat
  ip_le : u.ip.toNat ≤ s.input.length
  clean : u.clean = s.clean ∧ u.cleanlen = s.cleanlen ∨
    ∃ v, u.clean = Memory.set s.clean s.cleanlen.toNat v ∧ u.cleanlen = s.cleanlen + 1

/-- A token that SCAN goes on behind: it is passed, or CLEAN is full, or the cursor would pass 2^32 - 1 (log 13). -/
def Passes (s : State) (f : Flow Unit) : Prop :=
  (∃ u, f = .cont () u ∧ TokenPassed s u) ∨ f = raise .capClean s.ip 0 s ∨
    2 ^ 32 ≤ s.input.length ∧ f = .refuse .inputCursorOverflow

/-- A token that ends SCAN without a fault: the phase changes, or the cursor would pass 2^32 - 1. -/
def EndsScan (s : State) (f : Flow Unit) : Prop :=
  s.ip.toNat + 2 ≤ s.input.length ∧ (s.ip.toNat + 2 < 2 ^ 32 ∧ f = .cont () { s with ip := s.ip + 2, phase := .entropy } ∨
    2 ^ 32 ≤ s.input.length ∧ f = .refuse .inputCursorOverflow)

/-- A token that faults, or is refused where its position is past 2^32 - 1. -/
def FaultsScan (s : State) (f : Flow Unit) : Prop :=
  (∃ c pos val, f = raise c pos val s) ∨ 2 ^ 32 ≤ s.input.length ∧ f = .refuse .inputCursorOverflow

theorem toNat_add_ofNat {x : Word} {n : Nat} (h : x.toNat + n < 2 ^ 32) : (x + BitVec.ofNat 32 n).toNat = x.toNat + n := by
  rw [BitVec.toNat_add, BitVec.toNat_ofNat]
  omega

/-- A move of the input cursor that stays in the sequence, behind an append or not. -/
theorem passes_advanceIp {s t : State} {n : Nat} (hn : 0 < n) (hlen : s.ip.toNat + n ≤ s.input.length)
    (hframe : t = { s with clean := t.clean, cleanlen := t.cleanlen })
    (hclean : t.clean = s.clean ∧ t.cleanlen = s.cleanlen ∨
      ∃ v, t.clean = Memory.set s.clean s.cleanlen.toNat v ∧ t.cleanlen = s.cleanlen + 1) :
    Passes s (advanceIp n t) := by
  have hip : t.ip = s.ip := by rw [hframe]
  obtain ⟨hfits, heq⟩ | ⟨hpast, heq⟩ := advanceIp_cases n t
  · rw [hip] at hfits
    have hmoved := toNat_add_ofNat hfits
    refine .inl ⟨_, heq, ⟨?_, ?_, ?_, hclean⟩⟩
    · rw [hframe]
    · show s.ip.toNat < (t.ip + BitVec.ofNat 32 n).toNat
      rw [hip]
      omega
    · show (t.ip + BitVec.ofNat 32 n).toNat ≤ _
      rw [hip]
      omega
  · rw [hip] at hpast
    exact .inr (.inr ⟨by omega, heq⟩)

theorem passes_append {s : State} {v : Byte} {n : Nat} (hn : 0 < n) (hlen : s.ip.toNat + n ≤ s.input.length) :
    Passes s ((appendClean v s).bind fun _ s => advanceIp n s) := by
  obtain ⟨-, heq⟩ | ⟨-, heq⟩ := appendClean_cases v s
  · rw [heq, Flow.bind_cont]
    exact passes_advanceIp hn hlen rfl (.inr ⟨v, rfl, rfl⟩)
  · rw [heq, Flow.bind_ended]
    exact .inr (.inl rfl)

theorem faultsScan_endin (s : State) : FaultsScan s (tokenEndin s) := by
  by_cases hlen : s.input.length < 2 ^ 32
  · exact .inl ⟨_, _, _, tokenEndin_of_lt hlen⟩
  · exact .inr ⟨by omega, if_pos (by omega)⟩

theorem bytesLeft_length {s : State} {l : List Byte} (h : bytesLeft s = l) (hne : l ≠ []) :
    s.ip.toNat + l.length = s.input.length := by
  have hlen := congrArg List.length h
  have hpos := List.length_pos_iff.mpr hne
  rw [List.length_drop] at hlen
  omega

/-! The loop by the bytes that are left. -/

theorem scanLoop_of_data {s : State} {b : Byte} {rest : List Byte} (h : bytesLeft s = b :: rest) (hb : b ≠ 0xFF) (n : Nat) :
    scanLoop (n + 1) s = (tokenData b s).bind fun _ s => scanLoop n s := by
  simp only [scanLoop, h]
  exact if_pos hb

theorem scanLoop_of_marker {s : State} {m : Byte} {rest : List Byte} (h : bytesLeft s = 0xFF :: m :: rest) (n : Nat) :
    scanLoop (n + 1) s =
      if m = 0x00 then (tokenStuff s).bind fun _ s => scanLoop n s
      else if 0xD0 ≤ m.toNat ∧ m.toNat ≤ 0xD7 then (tokenRst s).bind fun _ s => scanLoop n s
      else if m = 0xD9 then tokenEoi s
      else if m = 0xFF then (tokenFill s).bind fun _ s => scanLoop n s
      else tokenBadmark m s := by
  simp only [scanLoop, h]
  exact if_neg (not_not_intro rfl)

theorem scanLoop_of_missing {s : State} (h : bytesLeft s = [] ∨ bytesLeft s = [0xFF]) (n : Nat) :
    scanLoop n s = byteMissing s := by
  cases n with
  | zero => rfl
  | succ n =>
    rcases h with h | h
    · simp only [scanLoop, h]
    · simp only [scanLoop, h]
      exact if_neg (not_not_intro rfl)

/-- Where the end is signalled, a missing byte is ENDIN. -/
theorem byteMissing_of_there {s : State} (hthere : tokenThere s = true) (h : bytesLeft s = [] ∨ bytesLeft s = [0xFF]) :
    byteMissing s = tokenEndin s := by
  obtain ⟨-, heq⟩ | ⟨hend, -⟩ := byteMissing_cases s
  · exact heq
  · rw [tokenThere_eq_false.mpr ⟨hend, h⟩] at hthere
    cases hthere

/-- Nothing follows a token that does not end the phase. -/
theorem sequence_of_token {i : Instr}
    (h : i = .stuff ∨ i = .fill ∨ i = .endin ∨ (∃ b, i = .data b) ∨ (∃ n, i = .rstN n) ∨ ∃ m, i = .badmark m) (u : State) :
    sequence i u = .next u := by
  by_cases hbusy : u.state = .busy
  · rcases h with rfl | rfl | rfl | ⟨b, rfl⟩ | ⟨n, rfl⟩ | ⟨m, rfl⟩ <;> exact if_neg (not_not_intro hbusy)
  · exact sequence_of_not_busy i hbusy

/-- One round of SCAN on a token that is there: SCAN goes on behind it, or it ends SCAN, with or without a fault. -/
theorem scan_round {s : State} (hthere : tokenThere s = true) :
    ∃ f, exec (nextToken s) s = f.toOutcome ∧
      (Passes s f ∧ s.ip.toNat < s.input.length ∧ (∀ u, sequence (nextToken s) u = .next u) ∧
          (∀ n, scanLoop (n + 1) s = f.bind fun _ u => scanLoop n u) ∨
        EndsScan s f ∧ nextToken s = .eoi ∧ (∀ n, scanLoop (n + 1) s = f) ∨
        FaultsScan s f ∧ (∀ u, sequence (nextToken s) u = .next u) ∧
          ∀ n, s.input.length ≤ s.ip.toNat + n → scanLoop n s = f) := by
  have hendin : bytesLeft s = [] ∨ bytesLeft s = [0xFF] → nextToken s = .endin →
      ∃ f, exec (nextToken s) s = f.toOutcome ∧
        FaultsScan s f ∧ (∀ u, sequence (nextToken s) u = .next u) ∧ ∀ n, scanLoop n s = f := by
    intro hleft htok
    rw [htok]
    exact ⟨tokenEndin s, rfl, faultsScan_endin s, sequence_of_token (by simp), fun n => by
      rw [scanLoop_of_missing hleft, byteMissing_of_there hthere hleft]⟩
  cases hleft : bytesLeft s with
  | nil =>
    obtain ⟨f, hexec, hfault, hseq, hloop⟩ := hendin (.inl hleft) (by rw [nextToken, hleft]; rfl)
    exact ⟨f, hexec, .inr (.inr ⟨hfault, hseq, fun n _ => hloop n⟩)⟩
  | cons b rest =>
    have hlen := bytesLeft_length hleft (by simp)
    rw [List.length_cons] at hlen
    by_cases hb : b = 0xFF
    · subst hb
      cases rest with
      | nil =>
        obtain ⟨f, hexec, hfault, hseq, hloop⟩ := hendin (.inr hleft) (by rw [nextToken, hleft]; rfl)
        exact ⟨f, hexec, .inr (.inr ⟨hfault, hseq, fun n _ => hloop n⟩)⟩
      | cons m rest =>
        rw [List.length_cons] at hlen
        have htok : nextToken s = decodeMarker m := by rw [nextToken, hleft, decodeToken_marker]
        have hround := scanLoop_of_marker hleft
        rw [htok]
        unfold decodeMarker
        by_cases h0 : m = 0x00
        · simp only [if_pos h0] at hround ⊢
          exact ⟨tokenStuff s, rfl, .inl ⟨passes_append (by decide) (by omega), by omega, sequence_of_token (by simp), hround⟩⟩
        simp only [if_neg h0] at hround ⊢
        by_cases hrst : 0xD0 ≤ m.toNat ∧ m.toNat ≤ 0xD7
        · simp only [if_pos hrst] at hround ⊢
          exact ⟨tokenRst s, rfl, .inl ⟨passes_advanceIp (by decide) (by omega) rfl (.inl ⟨rfl, rfl⟩), by omega,
            sequence_of_token (by simp), hround⟩⟩
        simp only [if_neg hrst] at hround ⊢
        by_cases heoi : m = 0xD9
        · simp only [if_pos heoi] at hround ⊢
          refine ⟨tokenEoi s, rfl, .inr (.inl ⟨⟨by omega, ?_⟩, trivial, hround⟩)⟩
          obtain ⟨hfits, heq⟩ | ⟨hpast, heq⟩ := advanceIp_cases 2 s
          · exact .inl ⟨hfits, by rw [tokenEoi, heq]; rfl⟩
          · exact .inr ⟨by omega, by rw [tokenEoi, heq]; rfl⟩
        simp only [if_neg heoi] at hround ⊢
        by_cases hfill : m = 0xFF
        · simp only [if_pos hfill] at hround ⊢
          exact ⟨tokenFill s, rfl, .inl ⟨passes_advanceIp (by decide) (by omega) rfl (.inl ⟨rfl, rfl⟩), by omega,
            sequence_of_token (by simp), hround⟩⟩
        simp only [if_neg hfill] at hround ⊢
        refine ⟨tokenBadmark m s, rfl, .inr (.inr ⟨?_, sequence_of_token (by simp), fun n hn => ?_⟩)⟩
        · by_cases hfits : s.ip.toNat + 1 < 2 ^ 32
          · exact .inl ⟨_, _, _, tokenBadmark_of_lt hfits⟩
          · exact .inr ⟨by omega, if_pos (by omega)⟩
        · obtain ⟨n, rfl⟩ : ∃ n', n = n' + 1 := ⟨n - 1, by omega⟩
          exact hround n
    · have htok : nextToken s = .data b := by rw [nextToken, hleft, decodeToken_data hb]
      rw [htok]
      exact ⟨tokenData b s, rfl, .inl ⟨passes_append (by decide) (by omega), by omega, sequence_of_token (by simp),
        scanLoop_of_data hleft hb⟩⟩

/-- SCAN waits: a byte is missing, and the end is not signalled (spec R385). -/
theorem scanLoop_of_waiting {s : State} (hwait : tokenThere s = false) (n : Nat) : scanLoop n s = .ended s := by
  obtain ⟨hend, hleft⟩ := tokenThere_eq_false.mp hwait
  rw [scanLoop_of_missing hleft]
  obtain ⟨hend', -⟩ | ⟨-, heq⟩ := byteMissing_cases s
  · rw [hend] at hend'
    cases hend'
  · exact heq

theorem exec_scan (s : State) : exec .scan s = (scanPhase s).toOutcome := rfl

/-! The whole phase. -/

theorem tokenThere_of_end {s : State} (hend : s.inputEnd = true) : tokenThere s = true := by
  rw [tokenThere, hend, Bool.true_or]

theorem TokenPassed.input {s u : State} (h : TokenPassed s u) : u.input = s.input := by rw [h.frame]

theorem TokenPassed.inputEnd {s u : State} (h : TokenPassed s u) : u.inputEnd = s.inputEnd := by rw [h.frame]

theorem TokenPassed.state {s u : State} (h : TokenPassed s u) : u.state = s.state := by rw [h.frame]

theorem TokenPassed.phase {s u : State} (h : TokenPassed s u) : u.phase = s.phase := by rw [h.frame]

/-- How SCAN ends: in ENTROPY, or in a fault. -/
def ScanEnded (s u : State) : Prop := u.phase = .entropy ∧ u.state = s.state ∨ u.phase = .none ∧ u.state = .error

theorem scanLoop_ends {n : Nat} {s : State} (hlen : s.input.length < 2 ^ 32) (hend : s.inputEnd = true)
    (hn : s.input.length ≤ s.ip.toNat + n) : ∃ u, (scanLoop n s).toOutcome = .next u ∧ ScanEnded s u := by
  induction n generalizing s with
  | zero =>
    obtain ⟨f, -, ⟨-, hmore, -⟩ | ⟨⟨hmore, -⟩, -⟩ | ⟨hfault, -, hloop⟩⟩ := scan_round (tokenThere_of_end hend)
    · omega
    · omega
    · rw [hloop 0 hn]
      obtain ⟨c, pos, val, rfl⟩ | ⟨hpast, -⟩ := hfault
      · exact ⟨_, rfl, .inr ⟨rfl, rfl⟩⟩
      · omega
  | succ n ih =>
    obtain ⟨f, -, ⟨hpass, hmore, -, hloop⟩ | ⟨⟨hmore, hends⟩, -, hloop⟩ | ⟨hfault, -, hloop⟩⟩ :=
      scan_round (tokenThere_of_end hend)
    · rw [hloop n]
      obtain ⟨u, rfl, hu⟩ | rfl | ⟨hpast, -⟩ := hpass
      · have hip := hu.ip_lt
        obtain ⟨v, hv, hended⟩ := ih (s := u) (by rw [hu.input]; exact hlen) (by rw [hu.inputEnd, hend])
          (by rw [hu.input]; omega)
        refine ⟨v, hv, ?_⟩
        rwa [ScanEnded, hu.state] at hended
      · exact ⟨_, rfl, .inr ⟨rfl, rfl⟩⟩
      · omega
    · rw [hloop n]
      obtain ⟨-, rfl⟩ | ⟨hpast, -⟩ := hends
      · exact ⟨_, rfl, .inl ⟨rfl, rfl⟩⟩
      · omega
    · rw [hloop _ hn]
      obtain ⟨c, pos, val, rfl⟩ | ⟨hpast, -⟩ := hfault
      · exact ⟨_, rfl, .inr ⟨rfl, rfl⟩⟩
      · omega

/-! Stuffed bytes (spec R162, R163). -/

/-- The bytes with a 0x00 behind every 0xFF. -/
def stuffed (bytes : List Byte) : List Byte := bytes.flatMap fun b => if b = 0xFF then [0xFF, 0x00] else [b]

theorem stuffed_cons_of_ne {b : Byte} (hb : b ≠ 0xFF) (bytes : List Byte) : stuffed (b :: bytes) = b :: stuffed bytes := by
  rw [stuffed, List.flatMap_cons, if_neg hb]
  rfl

theorem stuffed_cons_ff (bytes : List Byte) : stuffed (0xFF :: bytes) = 0xFF :: 0x00 :: stuffed bytes := rfl

theorem Memory.setRange_succ {α : Type} (m : Memory α) (base n : Nat) (f : Nat → α) :
    Memory.setRange m base (n + 1) f = Memory.setRange (Memory.set m base (f 0)) (base + 1) n fun i => f (i + 1) := by
  unfold Memory.setRange
  rw [List.range_succ_eq_map, List.map_cons, List.map_map, Memory.setAll_cons]
  simp only [Nat.add_zero]
  congr 1
  refine List.map_congr_left fun i _ => ?_
  simp only [Function.comp_apply, Nat.succ_eq_add_one]
  rw [Nat.add_assoc, Nat.add_comm 1 i]

/-- The state after SCAN of the stuffed bytes and EOI. -/
def destuffed (bytes : List Byte) (s : State) : State :=
  { s with
    clean := Memory.setRange s.clean s.cleanlen.toNat bytes.length fun n => bytes.getD n 0
    cleanlen := s.cleanlen + BitVec.ofNat 32 bytes.length
    ip := s.ip + BitVec.ofNat 32 ((stuffed bytes).length + 2)
    phase := .entropy }

theorem passByte_cleanlen (v : Byte) (d : Nat) {s : State} (h : s.cleanlen.toNat + 1 < 2 ^ 32) :
    (passByte v d s).cleanlen.toNat = s.cleanlen.toNat + 1 := toNat_add_ofNat h

theorem passByte_ip (v : Byte) {d : Nat} {s : State} (h : s.ip.toNat + d < 2 ^ 32) :
    (passByte v d s).ip.toNat = s.ip.toNat + d := toNat_add_ofNat h

/-- SCAN of one more byte: it is passed first. -/
theorem destuffed_cons {b : Byte} {bytes l : List Byte} {s : State} (hl : stuffed (b :: bytes) = l ++ stuffed bytes)
    (hroom : s.cleanlen.toNat + 1 < 2 ^ 32) : destuffed bytes (passByte b l.length s) = destuffed (b :: bytes) s := by
  have hcl := passByte_cleanlen b l.length hroom
  have hclean : (destuffed bytes (passByte b l.length s)).clean = (destuffed (b :: bytes) s).clean := by
    show Memory.setRange (Memory.set s.clean s.cleanlen.toNat b) _ _ _ = Memory.setRange s.clean _ (bytes.length + 1) _
    rw [hcl, Memory.setRange_succ]
    rfl
  have hlen : (destuffed bytes (passByte b l.length s)).cleanlen = (destuffed (b :: bytes) s).cleanlen := by
    show s.cleanlen + 1 + _ = s.cleanlen + BitVec.ofNat 32 (bytes.length + 1)
    rw [BitVec.add_assoc, show (1 : Word) = BitVec.ofNat 32 1 from rfl, ← BitVec.ofNat_add, Nat.add_comm 1]
  have hip : (destuffed bytes (passByte b l.length s)).ip = (destuffed (b :: bytes) s).ip := by
    show s.ip + _ + _ = s.ip + BitVec.ofNat 32 ((stuffed (b :: bytes)).length + 2)
    rw [hl, List.length_append, BitVec.add_assoc, ← BitVec.ofNat_add, Nat.add_assoc]
  unfold destuffed at *
  dsimp only at hclean hlen hip
  rw [hclean, hlen, hip]
  rfl

theorem bytesLeft_passByte {b : Byte} {s : State} {l l' : List Byte} (hfits : s.ip.toNat + l.length < 2 ^ 32)
    (h : bytesLeft s = l ++ l') : bytesLeft (passByte b l.length s) = l' := by
  rw [bytesLeft, passByte_ip b hfits, ← List.drop_drop]
  show (bytesLeft s).drop _ = _
  rw [h, List.drop_left]

/-- One round over a stuffed byte: DATA or STUFF. -/
theorem scanLoop_stuffed_cons {b : Byte} {bytes rest : List Byte} {s : State} (n : Nat)
    (hleft : bytesLeft s = stuffed (b :: bytes) ++ rest) (hlen : s.input.length < 2 ^ 32)
    (hroom : ∀ cap, s.params.cleanCap = some cap → s.cleanlen.toNat < cap) :
    ∃ l, 0 < l.length ∧ stuffed (b :: bytes) = l ++ stuffed bytes ∧
      scanLoop (n + 1) s = scanLoop n (passByte b l.length s) := by
  by_cases hb : b = 0xFF
  · subst hb
    have htotal := bytesLeft_length hleft (by rw [stuffed_cons_ff]; simp)
    rw [stuffed_cons_ff] at hleft htotal
    simp only [List.length_append, List.length_cons] at htotal
    have hloop := scanLoop_of_marker (rest := stuffed bytes ++ rest) hleft n
    rw [if_pos rfl, tokenStuff_of_room hroom (by omega)] at hloop
    exact ⟨[0xFF, 0x00], by decide, stuffed_cons_ff bytes, hloop⟩
  · have htotal := bytesLeft_length hleft (by rw [stuffed_cons_of_ne hb]; simp)
    rw [stuffed_cons_of_ne hb] at hleft htotal
    simp only [List.length_append, List.length_cons] at htotal
    have hloop := scanLoop_of_data (rest := stuffed bytes ++ rest) hleft hb n
    rw [tokenData_of_room hroom (by omega)] at hloop
    exact ⟨[b], by simp, stuffed_cons_of_ne hb bytes, hloop⟩

theorem scanLoop_stuffed {bytes rest : List Byte} {s : State} {n : Nat}
    (hleft : bytesLeft s = stuffed bytes ++ ([0xFF, 0xD9] ++ rest)) (hlen : s.input.length < 2 ^ 32)
    (hroom : s.cleanlen.toNat + bytes.length < 2 ^ 32)
    (hcap : ∀ cap, s.params.cleanCap = some cap → s.cleanlen.toNat + bytes.length ≤ cap)
    (hn : s.input.length ≤ s.ip.toNat + n) : scanLoop n s = .cont () (destuffed bytes s) := by
  have htotal := bytesLeft_length hleft (by simp)
  simp only [List.length_append, List.length_cons, List.length_nil] at htotal
  obtain ⟨n, rfl⟩ : ∃ n', n = n' + 1 := ⟨n - 1, by omega⟩
  induction bytes generalizing s n with
  | nil =>
    have hloop : scanLoop (n + 1) s = tokenEoi s := scanLoop_of_marker (rest := rest) hleft n
    rw [hloop, tokenEoi, advanceIp_of_lt (by omega), Flow.bind_cont]
    simp [destuffed, stuffed, Memory.setRange]
  | cons b bytes ih =>
    rw [List.length_cons] at hroom hcap
    obtain ⟨l, hpos, hl, hloop⟩ := scanLoop_stuffed_cons n hleft hlen fun cap h => by
      have := hcap cap h
      omega
    rw [hl, List.length_append] at htotal
    rw [hl, List.append_assoc] at hleft
    have hfits : s.ip.toNat + l.length < 2 ^ 32 := by omega
    have hip := passByte_ip b hfits
    have hcl := passByte_cleanlen b l.length (s := s) (by omega)
    obtain ⟨n, rfl⟩ : ∃ n', n = n' + 1 := ⟨n - 1, by omega⟩
    have hinput : (passByte b l.length s).input = s.input := rfl
    rw [hloop, ih (s := passByte b l.length s) (bytesLeft_passByte hfits hleft) hlen (by omega)
      (fun cap h => by rw [hcl]; have := hcap cap h; omega) (by rw [hinput]; omega) n (by rw [hinput]; omega),
      destuffed_cons hl (by omega)]

/-! Runs of several steps. -/

theorem steps_zero (s : State) : steps 0 s = .next s := rfl

theorem coreRun_succ (M : Host.Core) (n : Nat) (s : M.State) :
    (∀ u, M.step s = .next u → M.run (n + 1) s = M.run n u) ∧
      (∀ e, M.step s = .fault e → M.run (n + 1) s = .fault e) ∧
      ∀ r, M.step s = .refused r → M.run (n + 1) s = .refused r := by
  refine ⟨fun u h => ?_, fun e h => ?_, fun r h => ?_⟩ <;> simp only [Host.Core.run, h]

theorem steps_succ (n : Nat) (s : State) : steps (n + 1) s = thenDo (step s) (steps n) := by
  obtain ⟨hnext, hfault, hrefused⟩ := coreRun_succ Sys2Proof.core n s
  cases h : step s with
  | next u => exact hnext u h
  | fault e => exact hfault e h
  | refused r => exact hrefused r h

theorem steps_succ_of_next {n : Nat} {s u : State} (h : step s = .next u) : steps (n + 1) s = steps n u := by
  rw [steps_succ, h, thenDo_next]

theorem steps_one (s : State) : steps 1 s = step s := by
  rw [steps_succ]
  cases step s <;> rfl

theorem step_of_no_host {s : State} (h : s.hostq = []) : step s = runStep s := by rw [step, h]

theorem runStep_of_fetch {s : State} {i : Instr} (hbusy : s.state = .busy) (hfetch : fetch s = .instr i) :
    runStep s = thenDo (exec i s) (sequence i) := by rw [runStep, hbusy, hfetch]

theorem runStep_of_wait {s : State} (hbusy : s.state = .busy) (hfetch : fetch s = .wait) : runStep s = .next s := by
  rw [runStep, hbusy, hfetch]

/-! SCAN as single tokens (spec R392). -/

theorem fetch_of_waiting {s : State} (hphase : s.phase = .scan) (hwait : tokenThere s = false) : fetch s = .wait := by
  rw [fetch, hphase]
  simp [fetchScan, hwait]

theorem fetch_token {s : State} (hphase : s.phase = .scan) (hgrain : s.params.grain ≠ .phase) (hthere : tokenThere s = true) :
    fetch s = .instr (nextToken s) := by
  rw [fetch, hphase]
  simp only [fetchScan, hthere, Bool.not_true, Bool.false_eq_true, if_false]
  cases hg : s.params.grain with
  | phase => exact absurd hg hgrain
  | unit | part | block | mcu => rfl

theorem sequence_scan_of_not_entropy {u : State} (h : u.phase ≠ .entropy ∨ u.state ≠ .busy) :
    sequence .scan u = .next u := by
  by_cases hbusy : u.state = .busy
  · have hphase : u.phase ≠ .entropy := by
      rcases h with h | h
      · exact h
      · exact absurd hbusy h
    simp [sequence, hphase]
  · exact sequence_of_not_busy _ hbusy

theorem thenDo_sequence_raise {α : Type} (i : Instr) (c : Cause) (pos : Word) (val : BitVec 16) (s : State) :
    thenDo (raise c pos val s : Flow α).toOutcome (sequence i) = .next (faultEntry c pos val s) := by
  rw [Flow.toOutcome_raise, thenDo_next, sequence_of_not_busy]
  simp [faultEntry]

/-- A state of SCAN in which no host action and no coarse step interferes. -/
structure Scanning (s : State) : Prop where
  busy : s.state = .busy
  phase : s.phase = .scan
  host : s.hostq = []
  grain : s.params.grain ≠ .phase

theorem TokenPassed.scanning {s u : State} (h : TokenPassed s u) (hs : Scanning s) : Scanning u := by
  have hframe := h.frame
  refine ⟨by rw [hframe]; exact hs.busy, by rw [hframe]; exact hs.phase, by rw [hframe]; exact hs.host, ?_⟩
  rw [hframe]
  exact hs.grain

theorem Scanning.step_token {s : State} (h : Scanning s) (hthere : tokenThere s = true) :
    step s = thenDo (exec (nextToken s) s) (sequence (nextToken s)) := by
  rw [step_of_no_host h.host, runStep_of_fetch h.busy (fetch_token h.phase h.grain hthere)]

theorem scanLoop_eq_steps {n : Nat} {s : State} (hs : Scanning s) (hn : s.input.length ≤ s.ip.toNat + n) :
    ∃ k, k ≤ s.input.length - s.ip.toNat + 1 ∧ steps k s = thenDo (scanLoop n s).toOutcome (sequence .scan) := by
  induction n generalizing s with
  | zero =>
    cases hthere : tokenThere s with
    | false =>
      refine ⟨0, Nat.zero_le _, ?_⟩
      rw [scanLoop_of_waiting hthere, Flow.toOutcome_ended, thenDo_next,
        sequence_scan_of_not_entropy (.inl (by rw [hs.phase]; decide)), steps_zero]
    | true =>
      obtain ⟨f, hexec, ⟨-, hmore, -⟩ | ⟨⟨hmore, -⟩, -⟩ | ⟨hfault, hseq, hloop⟩⟩ := scan_round hthere
      · omega
      · omega
      · refine ⟨1, by omega, ?_⟩
        rw [steps_one, hs.step_token hthere, hexec, hloop 0 hn]
        obtain ⟨c, pos, val, rfl⟩ | ⟨-, rfl⟩ := hfault
        · rw [thenDo_sequence_raise, thenDo_sequence_raise]
        · rfl
  | succ n ih =>
    cases hthere : tokenThere s with
    | false =>
      refine ⟨0, Nat.zero_le _, ?_⟩
      rw [scanLoop_of_waiting hthere, Flow.toOutcome_ended, thenDo_next,
        sequence_scan_of_not_entropy (.inl (by rw [hs.phase]; decide)), steps_zero]
    | true =>
      have hstep := hs.step_token hthere
      obtain ⟨f, hexec, ⟨hpass, hmore, hseq, hloop⟩ | ⟨⟨hmore, hends⟩, htok, hloop⟩ | ⟨hfault, hseq, hloop⟩⟩ :=
        scan_round hthere
      · rw [hloop n]
        obtain ⟨u, rfl, hu⟩ | rfl | ⟨-, rfl⟩ := hpass
        · have hip := hu.ip_lt
          obtain ⟨k, hk, hsteps⟩ := ih (hu.scanning hs) (by rw [hu.input]; omega)
          rw [hu.input] at hk
          refine ⟨k + 1, by omega, ?_⟩
          rw [steps_succ_of_next (u := u) (by rw [hstep, hexec, Flow.toOutcome_cont, thenDo_next, hseq]), hsteps,
            Flow.bind_cont]
        · refine ⟨1, by omega, ?_⟩
          rw [steps_one, hstep, hexec, Flow.bind_raise, thenDo_sequence_raise, thenDo_sequence_raise]
        · refine ⟨1, by omega, ?_⟩
          rw [steps_one, hstep, hexec]
          rfl
      · refine ⟨1, by omega, ?_⟩
        rw [steps_one, hstep, hexec, hloop n, htok]
        obtain ⟨-, rfl⟩ | ⟨-, rfl⟩ := hends
        · rfl
        · rfl
      · refine ⟨1, by omega, ?_⟩
        rw [steps_one, hstep, hexec, hloop _ hn]
        obtain ⟨c, pos, val, rfl⟩ | ⟨-, rfl⟩ := hfault
        · rw [thenDo_sequence_raise, thenDo_sequence_raise]
        · rfl

/-! What SCAN depends on. -/

/-- The same state with other configuration and tables. -/
def reconfigure (fd fc ts : Word) (sc : Vector Word 3) (q : Memory (BitVec 16)) (ho hs : Memory Byte) (s : State) : State :=
  { s with framedim := fd, framecfg := fc, tabset := ts, scancomp := sc, qtab := q, hoff := ho, hsym := hs }

/-- The state in which an operation goes on or ends, changed by `g`. -/
def Flow.mapState {α : Type} (g : State → State) : Flow α → Flow α
  | .cont a s => .cont a (g s)
  | .ended s => .ended (g s)
  | .stop e => .stop e
  | .refuse r => .refuse r

theorem Flow.toOutcome_mapState {α : Type} (g : State → State) (x : Flow α) :
    (x.mapState g).toOutcome = thenDo x.toOutcome fun u => .next (g u) := by
  cases x <;> rfl

theorem Flow.bind_mapState {α β : Type} (g : State → State) (x : Flow α) (f : α → State → Flow β)
    (hf : ∀ a s, f a (g s) = (f a s).mapState g) : (x.mapState g).bind f = (x.bind f).mapState g := by
  cases x with
  | cont a s => exact hf a s
  | ended s => rfl
  | stop e => rfl
  | refuse r => rfl

section
variable (fd fc ts : Word) (sc : Vector Word 3) (q : Memory (BitVec 16)) (ho hs : Memory Byte)

theorem advanceIp_reconfigure (n : Nat) (s : State) :
    advanceIp n (reconfigure fd fc ts sc q ho hs s) = (advanceIp n s).mapState (reconfigure fd fc ts sc q ho hs) := by
  obtain ⟨hfits, heq⟩ | ⟨hpast, heq⟩ := advanceIp_cases n s
  · rw [heq]
    exact advanceIp_of_lt (s := reconfigure fd fc ts sc q ho hs s) hfits
  · rw [heq]
    exact if_pos hpast

theorem appendClean_reconfigure (v : Byte) (s : State) :
    appendClean v (reconfigure fd fc ts sc q ho hs s) = (appendClean v s).mapState (reconfigure fd fc ts sc q ho hs) := by
  obtain ⟨hroom, heq⟩ | ⟨⟨cap, hcap, hfull⟩, heq⟩ := appendClean_cases v s
  · rw [heq]
    exact appendClean_of_room (s := reconfigure fd fc ts sc q ho hs s) hroom
  · rw [heq]
    exact appendClean_of_full (s := reconfigure fd fc ts sc q ho hs s) hcap hfull

theorem append_advance_reconfigure (v : Byte) (n : Nat) (s : State) :
    ((appendClean v (reconfigure fd fc ts sc q ho hs s)).bind fun _ s => advanceIp n s) =
      ((appendClean v s).bind fun _ s => advanceIp n s).mapState (reconfigure fd fc ts sc q ho hs) := by
  rw [appendClean_reconfigure, Flow.bind_mapState _ _ _ fun _ s => advanceIp_reconfigure fd fc ts sc q ho hs n s]

theorem tokenEoi_reconfigure (s : State) :
    tokenEoi (reconfigure fd fc ts sc q ho hs s) = (tokenEoi s).mapState (reconfigure fd fc ts sc q ho hs) := by
  unfold tokenEoi
  rw [advanceIp_reconfigure, Flow.bind_mapState _ _ _ fun _ _ => rfl]

theorem tokenBadmark_reconfigure (m : Byte) (s : State) :
    tokenBadmark m (reconfigure fd fc ts sc q ho hs s) = (tokenBadmark m s).mapState (reconfigure fd fc ts sc q ho hs) := by
  by_cases hfits : s.ip.toNat + 1 < 2 ^ 32
  · rw [tokenBadmark_of_lt hfits]
    exact tokenBadmark_of_lt (s := reconfigure fd fc ts sc q ho hs s) hfits
  · have hpast : 2 ^ 32 ≤ s.ip.toNat + 1 := by omega
    rw [tokenBadmark, tokenBadmark, if_pos hpast]
    exact if_pos hpast

theorem tokenEndin_reconfigure (s : State) :
    tokenEndin (reconfigure fd fc ts sc q ho hs s) = (tokenEndin s).mapState (reconfigure fd fc ts sc q ho hs) := by
  by_cases hfits : s.input.length < 2 ^ 32
  · rw [tokenEndin_of_lt hfits]
    exact tokenEndin_of_lt (s := reconfigure fd fc ts sc q ho hs s) hfits
  · have hpast : 2 ^ 32 ≤ s.input.length := by omega
    rw [tokenEndin, tokenEndin, if_pos hpast]
    exact if_pos hpast

theorem byteMissing_reconfigure (s : State) :
    byteMissing (reconfigure fd fc ts sc q ho hs s) = (byteMissing s).mapState (reconfigure fd fc ts sc q ho hs) := by
  obtain ⟨hend, heq⟩ | ⟨hend, heq⟩ := byteMissing_cases s
  · rw [heq, ← tokenEndin_reconfigure]
    exact if_pos hend
  · rw [heq]
    exact if_neg (by rw [show (reconfigure fd fc ts sc q ho hs s).inputEnd = s.inputEnd from rfl, hend]; decide)

theorem scanLoop_reconfigure (n : Nat) (s : State) :
    scanLoop n (reconfigure fd fc ts sc q ho hs s) = (scanLoop n s).mapState (reconfigure fd fc ts sc q ho hs) := by
  induction n generalizing s with
  | zero => exact byteMissing_reconfigure fd fc ts sc q ho hs s
  | succ n ih =>
    have hgo : ∀ x : Flow Unit, ((x.mapState (reconfigure fd fc ts sc q ho hs)).bind fun _ s => scanLoop n s) =
        (x.bind fun _ s => scanLoop n s).mapState (reconfigure fd fc ts sc q ho hs) := fun x =>
      Flow.bind_mapState _ x _ fun _ s => ih s
    unfold scanLoop
    rw [show (reconfigure fd fc ts sc q ho hs s).input.drop (reconfigure fd fc ts sc q ho hs s).ip.toNat =
      s.input.drop s.ip.toNat from rfl]
    split
    · exact byteMissing_reconfigure fd fc ts sc q ho hs s
    · split
      · rw [tokenData, append_advance_reconfigure, hgo, tokenData]
      · split
        · exact byteMissing_reconfigure fd fc ts sc q ho hs s
        · split
          · rw [tokenStuff, append_advance_reconfigure, hgo, tokenStuff]
          · split
            · rw [tokenRst, advanceIp_reconfigure, hgo, tokenRst]
            · split
              · exact tokenEoi_reconfigure fd fc ts sc q ho hs s
              · split
                · rw [tokenFill, advanceIp_reconfigure, hgo, tokenFill]
                · exact tokenBadmark_reconfigure fd fc ts sc q ho hs _ s

end

end Sys2Proof.Machine

namespace Sys2Proof.Proofs

open Sys2Proof.Machine

/-- Settles O25: each round takes a token or ends the phase; over stuffed bytes every round is DATA or STUFF, up to EOI. -/
theorem scanDestuffs : Obligations.ScanDestuffs := by
  unfold Obligations.ScanDestuffs
  refine ⟨fun s hlen hend => ?_, fun s bytes rest hleft hlen hroom hcap => ?_⟩
  · exact scanLoop_ends hlen hend (by omega)
  · rw [List.append_assoc] at hleft
    rw [exec_scan, scanPhase, scanLoop_stuffed (bytes := bytes) hleft hlen hroom hcap (by omega)]
    rfl

/-- Settles O26: by induction on the rounds of the loop, one step for each token. -/
theorem scanIsItsTokens : Obligations.ScanIsItsTokens := by
  unfold Obligations.ScanIsItsTokens
  intro s hbusy hphase hhost hgrain
  exact scanLoop_eq_steps ⟨hbusy, hphase, hhost, hgrain⟩ (by omega)

/-- Settles O27: no round of the loop looks at configuration or tables. -/
theorem scanReadsOnlyInput : Obligations.ScanReadsOnlyInput := by
  unfold Obligations.ScanReadsOnlyInput
  intro s fd fc ts sc q ho hs
  have hscan := scanLoop_reconfigure fd fc ts sc q ho hs (s.input.length - s.ip.toNat) s
  rw [exec_scan, exec_scan, scanPhase, scanPhase]
  exact (congrArg Flow.toOutcome hscan).trans (Flow.toOutcome_mapState _ _)

end Sys2Proof.Proofs
end

section
/-! What every operation of ENTROPY keeps, on any tables and any data (spec R220 to R233): its frame, the cursor that never moves
back, the coefficients that stay written; and the bound on the bits of a block. -/

namespace Sys2Proof.Machine

/-! Operations that end in a fault at worst. -/

/-- The operation goes on in a state with `P`, or raises a fault in one with `F`; it stops only where `ok` does not hold, and it is
never refused. -/
def Flow.Ends {α : Type} (ok : Prop) (F P : State → Prop) : Flow α → Prop
  | .cont _ s => P s
  | .ended u => ∃ t c pos val, F t ∧ u = faultEntry c pos val t
  | .stop _ => ¬ok
  | .refuse _ => False

/-- The same with one property for both. -/
abbrev Flow.Upto {α : Type} (ok : Prop) (P : State → Prop) (x : Flow α) : Prop := Flow.Ends ok P P x

theorem Flow.ends_raise {α : Type} {ok : Prop} {F P : State → Prop} {c : Cause} {pos : Word} {val : BitVec 16} {s : State}
    (h : F s) : Flow.Ends ok F P (raise c pos val s : Flow α) := ⟨s, c, pos, val, h, rfl⟩

theorem Flow.Ends.mono {α : Type} {ok ok' : Prop} {F F' P P' : State → Prop} {x : Flow α} (hx : Flow.Ends ok F P x)
    (hok : ok' → ok) (hF : ∀ u, F u → F' u) (hP : ∀ u, P u → P' u) : Flow.Ends ok' F' P' x := by
  cases x with
  | cont _ u => exact hP u hx
  | ended u =>
    obtain ⟨t, c, pos, val, ht, hu⟩ := hx
    exact ⟨t, c, pos, val, hF t ht, hu⟩
  | stop e => exact fun h' => hx (hok h')
  | refuse r => exact hx

theorem Flow.Ends.upto {α : Type} {ok ok' : Prop} {P Q : State → Prop} {x : Flow α} (hx : Flow.Upto ok P x) (hok : ok' → ok)
    (h : ∀ u, P u → Q u) : Flow.Upto ok' Q x := hx.mono hok h h

theorem Flow.Ends.bind {α β : Type} {ok : Prop} {F F' P Q : State → Prop} {x : Flow α} {f : α → State → Flow β}
    (hx : Flow.Ends ok F P x) (hfault : ∀ u, F u → F' u) (hf : ∀ a u, P u → Flow.Ends ok F' Q (f a u)) :
    Flow.Ends ok F' Q (x.bind f) := by
  cases x with
  | cont a u => exact hf a u hx
  | ended u =>
    obtain ⟨t, c, pos, val, ht, hu⟩ := hx
    exact ⟨t, c, pos, val, hfault t ht, hu⟩
  | stop e => exact hx
  | refuse r => exact hx

/-- A loop over 0..n-1 whose body takes `P i` to `P (i + 1)`. -/
theorem Flow.Ends.forEach_range {ok : Prop} {F : State → Prop} {P : Nat → State → Prop} {n : Nat} {f : Nat → State → Flow Unit}
    (hf : ∀ i, i < n → ∀ u, P i u → Flow.Ends ok F (P (i + 1)) (f i u)) {s : State} (hs : P 0 s) :
    Flow.Ends ok F (P n) (Flow.forEach (List.range n) f s) := by
  induction n with
  | zero => exact hs
  | succ n ih =>
    rw [List.range_succ, Flow.forEach_append]
    refine (ih fun i hi => hf i (by omega)).bind (fun _ => id) fun _ u hu => ?_
    exact (hf n (by omega) u hu).bind (fun _ => id) fun _ _ hv => hv

/-- The state after an instruction: `P` holds of it, or it is the fault entry of a state with `F`. -/
theorem Flow.Ends.of_toOutcome {α : Type} {ok : Prop} {F P : State → Prop} {x : Flow α} (hx : Flow.Ends ok F P x) {u : State}
    (h : x.toOutcome = .next u) : P u ∨ ∃ t c pos val, F t ∧ u = faultEntry c pos val t := by
  cases x with
  | cont a t =>
    cases h
    exact .inl hx
  | ended t =>
    cases h
    exact .inr hx
  | stop e => cases h
  | refuse r => cases h

/-! Reading bits. -/

/-- Reading at most `n` bits: the fields it writes, and how far the cursor goes. -/
structure BitStep (n : Nat) (s u : State) : Prop where
  frame : BitFrame s u
  pos_le : bitPos s ≤ bitPos u
  pos_bound : bitPos u ≤ bitPos s + n
  inside : bitPos s ≤ 8 * s.cleanlen.toNat → bitPos u ≤ 8 * s.cleanlen.toNat

theorem bitStep_consume {n : Nat} {s : State} {w : List Bool} (h : NextBits s w) (hn : w.length ≤ n) :
    BitStep n s (consume w s) := by
  have hpos := bitPos_consume_of_nextBits h
  refine ⟨rfl, by omega, by omega, fun hin => ?_⟩
  rcases nextBits_bound h with rfl | hle
  · rwa [consume_nil]
  · omega

theorem BitStep.then_bits {n : Nat} {s u v : State} (h : BitStep n s u) (hframe : BitFrame u v) (hpos : bitPos v = bitPos u) :
    BitStep n s v :=
  ⟨h.frame.trans hframe, by rw [hpos]; exact h.pos_le, by rw [hpos]; exact h.pos_bound, fun hin => by
    rw [hpos]; exact h.inside hin⟩

theorem upto_huffDecode (ok : Prop) (c : HClass) (t : BitVec 2) (s : State) :
    Flow.Upto ok (BitStep 16 s) (huffDecode c t s) := by
  obtain ⟨w, hnext, hlen, ⟨-, -, heq⟩ | heq | heq⟩ := huffDecode_cases c t s
  · rw [heq]
    exact (bitStep_consume hnext hlen).then_bits rfl rfl
  · rw [heq]
    exact Flow.ends_raise ((bitStep_consume hnext hlen).then_bits rfl rfl)
  · rw [heq]
    exact Flow.ends_raise ((bitStep_consume hnext hlen).then_bits rfl rfl)

theorem upto_receiveExtend (ok : Prop) (n : Nat) (s : State) : Flow.Upto ok (BitStep n s) (receiveExtend n s) := by
  obtain ⟨w, hlen, hnext, heq⟩ | ⟨w, hlen, hnext, heq⟩ := receiveExtend_cases n s
  · rw [heq]
    exact (bitStep_consume hnext (Nat.le_of_eq hlen)).then_bits rfl rfl
  · rw [heq]
    exact Flow.ends_raise (bitStep_consume hnext (Nat.le_of_lt hlen))

/-! Decoding. -/

/-- What decoding does to the cursor and the coefficients: a cursor that is not past the clean bytes moves forward and not past
them, and what is written stays written. -/
structure Decodes (s u : State) : Prop where
  inside : bitPos s ≤ 8 * s.cleanlen.toNat → bitPos s ≤ bitPos u ∧ bitPos u ≤ 8 * s.cleanlen.toNat
  cleanlen : u.cleanlen = s.cleanlen
  wf : Memory.wf s.coef = true → Memory.wf u.coef = true
  listed : ∀ a, Listed s.coef a → Listed u.coef a

theorem Decodes.refl (s : State) : Decodes s s := ⟨fun hin => ⟨Nat.le_refl _, hin⟩, rfl, id, fun _ => id⟩

theorem Decodes.trans {s u v : State} (h : Decodes s u) (h' : Decodes u v) : Decodes s v where
  inside hin := by
    have hlen := h.cleanlen
    obtain ⟨hle, hin⟩ := h.inside hin
    obtain ⟨hle', hin'⟩ := h'.inside (by rw [hlen]; exact hin)
    rw [hlen] at hin'
    exact ⟨hle.trans hle', hin'⟩
  cleanlen := h'.cleanlen.trans h.cleanlen
  wf := h'.wf ∘ h.wf
  listed a := h'.listed a ∘ h.listed a

/-- Operations that leave the cursor and the coefficients alone. -/
theorem Decodes.of_same {s u : State} (hpos : bitPos u = bitPos s) (hlen : u.cleanlen = s.cleanlen) (hcoef : u.coef = s.coef) :
    Decodes s u :=
  ⟨fun hin => by rw [hpos]; exact ⟨Nat.le_refl _, hin⟩, hlen, fun h => by rw [hcoef]; exact h, fun a h => by
    rw [hcoef]; exact h⟩

theorem Memory.listed_set {α : Type} {m : Memory α} {a : Nat} (h : Listed m a) (b : Nat) (v : α) :
    Listed (Memory.set m b v) a := by
  unfold Listed at *
  rw [Memory.get?_set]
  split
  · rfl
  · exact h

theorem Memory.listed_setRange {α : Type} {m : Memory α} {a : Nat} (h : Listed m a) (base n : Nat) (f : Nat → α) :
    Listed (Memory.setRange m base n f) a := by
  unfold Listed at *
  rw [Memory.get?_setRange]
  split
  · rfl
  · exact h

/-- Operations that store one coefficient and leave the cursor alone. -/
theorem Decodes.of_set {s u : State} {a : Nat} {v : BitVec 16} (hpos : bitPos u = bitPos s) (hlen : u.cleanlen = s.cleanlen)
    (hcoef : u.coef = Memory.set s.coef a v) : Decodes s u :=
  ⟨fun hin => by rw [hpos]; exact ⟨Nat.le_refl _, hin⟩, hlen, fun h => by rw [hcoef]; exact Memory.wf_set h a v,
    fun b h => by rw [hcoef]; exact Memory.listed_set h a v⟩

/-- Decoding within a block, of at most `n` bits. -/
structure BlockStep (n : Nat) (s u : State) : Prop extends Decodes s u where
  frame : BlockFrame s u
  pos_le : bitPos s ≤ bitPos u
  pos_bound : bitPos u ≤ bitPos s + n

theorem BlockStep.trans {n m : Nat} {s u v : State} (h : BlockStep n s u) (h' : BlockStep m u v) : BlockStep (n + m) s v := by
  have hbound := h'.pos_bound
  exact ⟨h.toDecodes.trans h'.toDecodes, h.frame.trans h'.frame, h.pos_le.trans h'.pos_le, by have := h.pos_bound; omega⟩

theorem BlockStep.le {n m : Nat} {s u : State} (h : BlockStep n s u) (hnm : n ≤ m) : BlockStep m s u :=
  ⟨h.toDecodes, h.frame, h.pos_le, h.pos_bound.trans (by omega)⟩

theorem BitStep.block {n : Nat} {s u : State} (h : BitStep n s u) : BlockStep n s u := by
  have hframe := h.frame
  unfold BitFrame at hframe
  exact ⟨⟨fun hin => ⟨h.pos_le, h.inside hin⟩, by rw [hframe], fun hwf => by rw [hframe]; exact hwf, fun a hl => by
    rw [hframe]; exact hl⟩, h.frame.block, h.pos_le, h.pos_bound⟩

theorem blockStep_of_set {s u : State} {a : Nat} {v : BitVec 16} (hframe : BlockFrame s u) (hpos : bitPos u = bitPos s)
    (hcoef : u.coef = Memory.set s.coef a v) : BlockStep 0 s u :=
  ⟨Decodes.of_set hpos hframe.sameCoded.cleanlen hcoef, hframe, Nat.le_of_eq hpos.symm, Nat.le_of_eq hpos⟩

theorem blockStep_of_same {s u : State} (hframe : BlockFrame s u) (hpos : bitPos u = bitPos s) (hcoef : u.coef = s.coef) :
    BlockStep 0 s u :=
  ⟨Decodes.of_same hpos hframe.sameCoded.cleanlen hcoef, hframe, Nat.le_of_eq hpos.symm, Nat.le_of_eq hpos⟩

/-- The slot feeds a channel. -/
def HasChannel (s : State) (j : Fin 3) : Prop := ∃ ch : Fin 3, cid s j = ch.val + 1

theorem SameCoded.hasChannel {s u : State} (h : SameCoded s u) (j : Fin 3) : HasChannel u j ↔ HasChannel s j := by
  unfold HasChannel
  rw [h.cid]

theorem channelOf_of_not_hasChannel {s : State} {j : Fin 3} (h : ¬HasChannel s j) : channelOf s j = none := by
  cases hc : channelOf s j with
  | none => rfl
  | some ch => exact absurd ⟨ch, channelOf_eq_some.mp hc⟩ h

theorem upto_dcCategory (m : Nat) (j : Fin 3) (n : Nat) (s : State) :
    Flow.Upto (HasChannel s j) (BlockStep n s) (dcCategory m j n s) := by
  by_cases hch : HasChannel s j
  · obtain ⟨ch, hcid⟩ := hch
    rw [dcCategory, channelOf_eq_some.mpr hcid]
    refine (upto_receiveExtend _ n s).bind (fun u hu => hu.block) fun v u hu => ?_
    have hset : BlockStep 0 u (setCoef m ch.val 0 (wrap16 (u.dcpred[ch].toInt + v))
        (setPred ch (wrap16 (u.dcpred[ch].toInt + v)) u)) := blockStep_of_set rfl rfl rfl
    exact (hu.block.trans hset).le (Nat.le_refl n)
  · rw [dcCategory, channelOf_of_not_hasChannel hch]
    exact hch

theorem upto_decodeDcUnit (m : Nat) (j : Fin 3) (s : State) :
    Flow.Upto (HasChannel s j) (BlockStep 27 s) (decodeDcUnit m j s) := by
  refine (upto_huffDecode _ _ _ s).bind (fun u hu => hu.block.le (by decide)) fun y u hu => ?_
  by_cases hy : 11 < y.toNat
  · rw [if_pos hy]
    exact Flow.ends_raise (hu.block.le (by decide))
  · rw [if_neg hy]
    exact (upto_dcCategory m j y.toNat u).upto (hu.frame.sameCoded.hasChannel j).mpr fun v hv =>
      (hu.block.trans hv).le (by omega)

theorem upto_acRunSize (m : Nat) (j : Fin 3) (r n : Nat) (s : State) :
    Flow.Upto (HasChannel s j) (BlockStep n s) (acRunSize m j r n s) := by
  unfold acRunSize
  split
  · exact Flow.ends_raise ((blockStep_of_same (BlockFrame.refl s) rfl rfl).le (Nat.zero_le n))
  · have hmove : BlockStep 0 s { s with k := s.k + BitVec.ofNat 7 r } := blockStep_of_same rfl rfl rfl
    by_cases hch : HasChannel s j
    · obtain ⟨ch, hcid⟩ := hch
      rw [channelOf_eq_some.mpr hcid]
      refine (upto_receiveExtend _ n { s with k := s.k + BitVec.ofNat 7 r }).bind (fun u hu => (hmove.trans hu.block).le (by omega))
        fun v u hu => ?_
      have hset : BlockStep 0 u { setCoef m ch.val u.k.toNat (BitVec.ofInt 16 v) u with k := u.k + 1 } :=
        blockStep_of_set rfl rfl rfl
      exact ((hmove.trans hu.block).trans hset).le (by omega)
    · rw [channelOf_of_not_hasChannel hch]
      exact hch

theorem upto_acZrl (ok : Prop) (s : State) : Flow.Upto ok (BlockStep 0 s) (acZrl s) := by
  unfold acZrl
  split
  · exact Flow.ends_raise (blockStep_of_same (BlockFrame.refl s) rfl rfl)
  · exact blockStep_of_same rfl rfl rfl

theorem upto_acLoop (m : Nat) (j : Fin 3) (n : Nat) (s : State) :
    Flow.Upto (HasChannel s j) (BlockStep (n * 31) s) (acLoop m j n s) := by
  induction n generalizing s with
  | zero => exact blockStep_of_same (BlockFrame.refl s) rfl rfl
  | succ n ih =>
    have hgo : ∀ {u : State}, BlockStep 31 s u → Flow.Upto (HasChannel s j) (BlockStep ((n + 1) * 31) s) (acLoop m j n u) :=
      fun {u} hu => (ih u).upto (hu.frame.sameCoded.hasChannel j).mpr fun v hv => (hu.trans hv).le (by omega)
    unfold acLoop
    split
    · exact (blockStep_of_same (BlockFrame.refl s) rfl rfl).le (by omega)
    · refine (upto_huffDecode _ _ _ s).bind (fun u hu => hu.block.le (by omega)) fun rs u hu => ?_
      split
      · exact (hu.block.trans (blockStep_of_same (u := { u with upc := .blockEnd }) rfl rfl rfl)).le (by omega)
      · split
        · exact (upto_acZrl _ u).bind (fun v hv => (hu.block.trans hv).le (by omega)) fun _ v hv =>
            hgo ((hu.block.trans hv).le (by omega))
        · have hsize : (rs.extractLsb' 0 4).toNat < 16 := (rs.extractLsb' 0 4).isLt
          exact ((upto_acRunSize m j _ _ u).upto (hu.frame.sameCoded.hasChannel j).mpr fun _ => id).bind
            (fun v hv => (hu.block.trans hv).le (by omega)) fun _ v hv => hgo ((hu.block.trans hv).le (by omega))

/-- The 64 coefficients of a block are written. -/
theorem coefListed_of_decodes {s u : State} {m ch : Nat} (h : Decodes s u) (hs : CoefListed s m ch) : CoefListed u m ch :=
  fun n hn => h.listed _ (hs n hn)

theorem coefListed_clearBlock (m ch : Nat) (s : State) : CoefListed (clearBlock m ch s) m ch := by
  intro n hn
  have h0 := coefIndex_add m ch n
  have h64 := coefIndex_add m ch 64
  rw [clearBlock_coef, Listed, get?_zeroBlock, if_pos (by omega)]
  rfl

theorem blockStep_clearBlock (m ch : Nat) (s : State) : BlockStep 0 s (clearBlock m ch s) := by
  have hpos := bitPos_clearBlock m ch s
  have hcoef : (clearBlock m ch s).coef = Memory.setRange s.coef (coefIndex m ch 0) 64 fun _ => 0 := by
    rw [clearBlock_coef, zeroBlock]
  refine ⟨⟨fun hin => by rw [hpos]; exact ⟨Nat.le_refl _, hin⟩, (blockFrame_clearBlock m ch s).sameCoded.cleanlen,
    fun h => ?_, fun a h => ?_⟩, blockFrame_clearBlock m ch s, Nat.le_of_eq hpos.symm, Nat.le_of_eq hpos⟩
  · rw [hcoef]
    exact Memory.wf_setRange h ..
  · rw [hcoef]
    exact Memory.listed_setRange h ..

/-- DECODE_BLOCK: its frame and bound, and all coefficients of the block are written, also where a fault ends it (spec R220,
R233 (c)). -/
theorem upto_decodeBlockOf (m : Nat) (j : Fin 3) (s : State) :
    Flow.Upto (HasChannel s j) (fun u => BlockStep 1980 s u ∧ CoefListed u m (cid s j - 1)) (decodeBlockOf m j s) := by
  by_cases hch : HasChannel s j
  · obtain ⟨ch, hcid⟩ := hch
    have hclear := blockStep_clearBlock m ch.val s
    have hlisted : ∀ {u : State}, Decodes (clearBlock m ch.val s) u → CoefListed u m (cid s j - 1) := fun hu => by
      rw [hcid]
      exact coefListed_of_decodes hu (coefListed_clearBlock m ch.val s)
    rw [decodeBlockOf_of_channel hcid]
    refine ((upto_decodeDcUnit m j _).upto (hclear.frame.sameCoded.hasChannel j).mpr fun _ => id).bind
      (fun u hu => ⟨(hclear.trans hu).le (by decide), hlisted hu.toDecodes⟩) fun _ u hu => ?_
    have hmove : BlockStep 0 u { u with k := 1 } := blockStep_of_same rfl rfl rfl
    have hall := (hclear.trans hu).trans hmove
    exact (upto_acLoop m j 63 { u with k := 1 }).upto (hall.frame.sameCoded.hasChannel j).mpr fun v hv =>
      ⟨(hall.trans hv).le (by decide), hlisted ((hu.trans hmove).toDecodes.trans hv.toDecodes)⟩
  · rw [decodeBlockOf, channelOf_of_not_hasChannel hch]
    exact hch

/-! MCUs. -/

theorem BlockFrame.slot {s u : State} (h : BlockFrame s u) : u.slot = s.slot := by
  unfold BlockFrame at h
  rw [h]

/-- Decoding an MCU: the slot stays below the component count. -/
structure McuStep (s u : State) : Prop extends Decodes s u where
  frame : McuFrame s u
  slot : s.slot.val < ncomp s → u.slot.val < ncomp s

theorem McuStep.refl (s : State) : McuStep s s := ⟨Decodes.refl s, rfl, id⟩

theorem McuStep.trans {s u v : State} (h : McuStep s u) (h' : McuStep u v) : McuStep s v := by
  have hncomp := h.frame.sameCoded.ncomp
  have hslot := h'.slot
  rw [hncomp] at hslot
  exact ⟨h.toDecodes.trans h'.toDecodes, h.frame.trans h'.frame, hslot ∘ h.slot⟩

theorem BlockStep.mcu {n : Nat} {s u : State} (h : BlockStep n s u) : McuStep s u :=
  ⟨h.toDecodes, h.frame.mcu, fun hin => by rw [h.frame.slot]; exact hin⟩

/-- The slots below the component count exist and feed channels. -/
def SlotsOk (s : State) : Prop := ncomp s ≤ 3 ∧ ∀ j : Fin 3, j.val < ncomp s → HasChannel s j

theorem SameCoded.slotsOk {s u : State} (h : SameCoded s u) : SlotsOk u ↔ SlotsOk s := by
  unfold SlotsOk
  simp only [h.ncomp, h.hasChannel]

theorem slotsOk_of_launch {s : State} (hcount : CountOk s) (hids : IdsOk s) : SlotsOk s :=
  ⟨ncomp_le_three hcount, fun _ hj => (exists_channel hcount hids hj).imp fun _ h => h.2⟩

theorem upto_mcuBlock (m n : Nat) (s : State) (hn : n < ncomp s) :
    Flow.Upto (SlotsOk s) (fun u => McuStep s u ∧ ∀ h : n < 3, BlockWritten u m ⟨n, h⟩) (mcuBlock m n s) := by
  by_cases h3 : n < 3
  · have hslot : McuStep s { s with slot := ⟨n, h3⟩ } := ⟨Decodes.of_same rfl rfl rfl, rfl, fun _ => hn⟩
    have hblock : mcuBlock m n s = decodeBlockOf m ⟨n, h3⟩ { s with slot := ⟨n, h3⟩ } := mcuBlock_of_slot m ⟨n, h3⟩ s
    rw [hblock]
    refine (upto_decodeBlockOf m ⟨n, h3⟩ { s with slot := ⟨n, h3⟩ }).upto (fun hok => hok.2 _ hn) fun u hu => ?_
    refine ⟨hslot.trans hu.1.mcu, ?_⟩
    intro h
    rw [BlockWritten, hu.1.frame.sameCoded.cid ⟨n, h⟩]
    exact hu.2
  · rw [mcuBlock, slotOf, dif_neg h3]
    exact fun hok => h3 (by have := hok.1; omega)

theorem BlockWritten.of_decodes {s u : State} {m : Nat} {j : Fin 3} (hw : BlockWritten s m j) (h : Decodes s u)
    (hsame : SameCoded s u) : BlockWritten u m j := by
  rw [BlockWritten, hsame.cid]
  exact coefListed_of_decodes h hw

/-- DECODE_MCU: its frame, and the blocks of all slots are written where no fault ends it (spec R231). -/
theorem ends_decodeMcuOf (m : Nat) (s : State) :
    Flow.Ends (SlotsOk s) (McuStep s) (fun u => McuStep s u ∧ ∀ j : Fin 3, j.val < ncomp s → BlockWritten u m j)
      (decodeMcuOf m s) := by
  have hcount : ∀ u : State, McuStep u { u with mcucnt := u.mcucnt + 1 } := fun u => ⟨Decodes.of_same rfl rfl rfl, rfl, id⟩
  rw [decodeMcuOf_eq]
  refine (Flow.Ends.forEach_range (P := fun n u => McuStep s u ∧ ∀ j : Fin 3, j.val < n → BlockWritten u m j)
    (fun n hn u hu => ?_) ⟨McuStep.refl s, fun j hj => absurd hj (Nat.not_lt_zero _)⟩).bind (fun _ => id) fun _ u hu => ?_
  · have hsame := hu.1.frame.sameCoded
    refine (upto_mcuBlock m n u (by rw [hsame.ncomp]; exact hn)).mono hsame.slotsOk.mpr (fun v hv => hu.1.trans hv.1) fun v hv =>
      ⟨hu.1.trans hv.1, fun j hj => ?_⟩
    rcases Nat.lt_or_eq_of_le (Nat.le_of_lt_succ hj) with hless | heq
    · exact (hu.2 j hless).of_decodes hv.1.toDecodes hv.1.frame.sameCoded
    · subst heq
      exact hv.2 j.isLt
  · exact ⟨hu.1.trans (hcount u), fun j hj => (hu.2 j hj).of_decodes (hcount u).toDecodes (hcount u).frame.sameCoded⟩

/-! The phase. -/

/-- The ENTROPY phase. -/
structure EntropyStep (s u : State) : Prop extends Decodes s u where
  frame : EntropyFrame s u

theorem EntropyStep.refl (s : State) : EntropyStep s s := ⟨Decodes.refl s, rfl⟩

theorem EntropyStep.trans {s u v : State} (h : EntropyStep s u) (h' : EntropyStep u v) : EntropyStep s v :=
  ⟨h.toDecodes.trans h'.toDecodes, h.frame.trans h'.frame⟩

theorem McuStep.entropy {s u : State} (h : McuStep s u) : EntropyStep s u := ⟨h.toDecodes, h.frame.entropy⟩

theorem BlockStep.entropy {n : Nat} {s u : State} (h : BlockStep n s u) : EntropyStep s u := h.mcu.entropy

theorem BitStep.entropy {n : Nat} {s u : State} (h : BitStep n s u) : EntropyStep s u := h.block.entropy

/-- RESTART moves the cursor to a byte boundary, and not past the clean bytes. -/
theorem entropyStep_restartAction (s : State) : EntropyStep s (restartAction s) := by
  refine ⟨⟨fun hin => ?_, by simp [restartAction], fun h => by simpa [restartAction] using h, fun a h => by
    simpa [restartAction] using h⟩, entropyFrame_restartAction s⟩
  have hpos : bitPos (restartAction s) = (bitPos s + 7) / 8 * 8 := bitPos_restartAction (by omega)
  omega

theorem entropyStep_enterMcu (m : Nat) (s : State) : EntropyStep s (enterMcu m s) := by
  have hmcu : EntropyStep s { s with mcu := BitVec.ofNat 32 m } := ⟨Decodes.of_same rfl rfl rfl, rfl⟩
  unfold enterMcu
  split
  · exact hmcu.trans (entropyStep_restartAction _)
  · exact hmcu

theorem BlockWritten.of_step {s u : State} {m : Nat} {j : Fin 3} (hw : BlockWritten s m j) (h : EntropyStep s u) :
    BlockWritten u m j := hw.of_decodes h.toDecodes h.frame.sameCoded

theorem ends_entropyMcu (m : Nat) (s : State) :
    Flow.Ends (SlotsOk s) (EntropyStep s) (fun u => EntropyStep s u ∧ ∀ j : Fin 3, j.val < ncomp s → BlockWritten u m j)
      (entropyMcu m s) := by
  have henter := entropyStep_enterMcu m s
  have hsame := henter.frame.sameCoded
  rw [entropyMcu_eq]
  refine (ends_decodeMcuOf m (enterMcu m s)).mono hsame.slotsOk.mpr (fun u hu => henter.trans hu.entropy) fun u hu =>
    ⟨henter.trans hu.1.entropy, fun j hj => hu.2 j (by rw [hsame.ncomp]; exact hj)⟩

/-- The blocks of the MCUs below `m` are written. -/
def McusWritten (s : State) (m : Nat) (u : State) : Prop :=
  EntropyStep s u ∧ ∀ i (j : Fin 3), i < m → j.val < ncomp s → BlockWritten u i j

theorem McusWritten.trans {s u v : State} {m : Nat} (h : McusWritten s m u) (h' : EntropyStep u v) : McusWritten s m v :=
  ⟨h.1.trans h', fun i j hi hj => (h.2 i j hi hj).of_step h'⟩

/-- ENTROPY: its frame, and all blocks of all MCUs are written where no fault ends it (spec R232). -/
theorem ends_entropyPhase (s : State) :
    Flow.Ends (SlotsOk s) (EntropyStep s) (McusWritten s (nMcu s)) (entropyPhase s) := by
  have hphase : ∀ u : State, EntropyStep u { u with phase := .recon } := fun u => ⟨Decodes.of_same rfl rfl rfl, rfl⟩
  refine (Flow.Ends.forEach_range (P := McusWritten s) (fun n _ u hu => ?_)
    ⟨EntropyStep.refl s, fun i j hi => absurd hi (Nat.not_lt_zero i)⟩).bind (fun _ => id) fun _ u hu => hu.trans (hphase u)
  have hsame := hu.1.frame.sameCoded
  refine (ends_entropyMcu n u).mono hsame.slotsOk.mpr (fun v hv => hu.1.trans hv) fun v hv =>
    ⟨hu.1.trans hv.1, fun i j hi hj => ?_⟩
  rcases Nat.lt_or_eq_of_le (Nat.le_of_lt_succ hi) with hless | rfl
  · exact (hu.2 i j hless hj).of_step hv.1
  · exact hv.2 j (by rw [hsame.ncomp]; exact hj)

end Sys2Proof.Machine

namespace Sys2Proof.Proofs

open Sys2Proof.Machine

/-- Settles O41: 27 bits for the DC unit, 31 for each of the at most 63 AC units. -/
theorem blockBitBound : Obligations.BlockBitBound := by
  unfold Obligations.BlockBitBound
  intro s u m j hexec
  rw [exec_decodeBlock] at hexec
  obtain ⟨hstep, -⟩ | ⟨t, c, pos, val, ⟨hstep, -⟩, rfl⟩ := (upto_decodeBlockOf m.toNat j s).of_toOutcome hexec
  · exact ⟨hstep.pos_le, hstep.pos_bound⟩
  · exact ⟨hstep.pos_le, hstep.pos_bound⟩

end Sys2Proof.Proofs
end

section
/-! START (spec R142 to R144): the checks of a launch one by one, from what the statements say about it, and both outcomes. -/

namespace Sys2Proof.Machine

/-! The slots of the scan. -/

theorem mem_usedSlots {s : State} {j : Fin 3} : j ∈ usedSlots s ↔ j.val < ncomp s := by
  unfold usedSlots
  rw [List.mem_filterMap]
  constructor
  · rintro ⟨n, hn, hslot⟩
    unfold slotOf at hslot
    split at hslot
    · cases hslot
      exact List.mem_range.mp hn
    · cases hslot
  · exact fun hj => ⟨j.val, List.mem_range.mpr hj, slotOf_val j⟩

theorem usedSlots_of_countOk {s : State} (h : CountOk s) :
    ncomp s = 1 ∧ usedSlots s = [0] ∨ ncomp s = 3 ∧ usedSlots s = [0, 1, 2] := by
  unfold usedSlots
  rcases h with h | h
  · exact .inl ⟨h, by rw [h]; rfl⟩
  · exact .inr ⟨h, by rw [h]; rfl⟩

/-- A check of the slots in order passes where it passes at each of them. -/
theorem findSome?_usedSlots_none {α : Type} {s : State} {f : Fin 3 → Option α} (h : ∀ j : Fin 3, j.val < ncomp s → f j = none) :
    (usedSlots s).findSome? f = none :=
  List.findSome?_eq_none_iff.mpr fun j hj => h j (mem_usedSlots.mp hj)

/-- The first slot at which a check fails decides. -/
theorem findSome?_usedSlots_some {α : Type} {s : State} (hcount : CountOk s) {f : Fin 3 → Option α} {j : Fin 3} {x : α}
    (hj : j.val < ncomp s) (hbefore : ∀ i : Fin 3, i < j → f i = none) (hx : f j = some x) :
    (usedSlots s).findSome? f = some x := by
  obtain ⟨hn, hslots⟩ | ⟨-, hslots⟩ := usedSlots_of_countOk hcount
  · obtain rfl : j = 0 := Fin.ext (by simp only [Fin.val_zero]; omega)
    rw [hslots, List.findSome?_cons, hx]
  · rw [hslots]
    match j with
    | 0 => rw [List.findSome?_cons, hx]
    | 1 => rw [List.findSome?_cons, hbefore 0 (by decide), List.findSome?_cons, hx]
    | 2 =>
      rw [List.findSome?_cons, hbefore 0 (by decide), List.findSome?_cons, hbefore 1 (by decide), List.findSome?_cons, hx]

/-! Checks 1 to 3 and 6. -/

theorem checkCount_of_countOk {s : State} (h : CountOk s) : checkCount s = none := by
  unfold CountOk at h
  rw [checkCount, if_neg (by omega), if_neg (by omega)]

theorem checkDims_of_dimsOk {s : State} (h : DimsOk s) : checkDims s = none := by
  rw [checkDims, if_neg h.1, if_neg h.2]

/-- Check 3 at a slot, as the statements put it. -/
theorem idOk_iff {s : State} {j : Fin 3} (hj : j.val < ncomp s) : idOk s j = true ↔ ¬BadId s j := by
  have hearlier : ((usedSlots s).all fun i => !(i.val < j.val && cid s i == cid s j)) = true ↔
      ∀ i : Fin 3, i < j → cid s i ≠ cid s j := by
    simp only [List.all_eq_true, mem_usedSlots, Bool.not_eq_true', Bool.and_eq_false_iff, decide_eq_false_iff_not,
      beq_eq_false_iff_ne]
    refine ⟨fun h i hij => (h i ?_).resolve_left (not_not_intro hij), fun h i _ => ?_⟩
    · exact lt_trans hij hj
    · rw [or_iff_not_imp_left, not_not]
      exact h i
  unfold idOk BadId
  rw [Bool.and_eq_true, Bool.and_eq_true, hearlier, bne_iff_ne, decide_eq_true_eq]
  push Not
  exact and_assoc

theorem checkIds_of_idsOk {s : State} (h : IdsOk s) : checkIds s = none :=
  findSome?_usedSlots_none fun j hj => if_pos ((idOk_iff hj).mpr (h j hj))

theorem checkIds_of_badId {s : State} (hcount : CountOk s) {j : Fin 3} (hj : j.val < ncomp s)
    (hbefore : ∀ i : Fin 3, i < j → ¬BadId s i) (hbad : BadId s j) :
    checkIds s = some (.cfgCompid, BitVec.ofNat 16 j.val) :=
  findSome?_usedSlots_some hcount hj (fun i hi => if_pos ((idOk_iff (lt_trans hi hj)).mpr (hbefore i hi)))
    (if_neg fun hok => (idOk_iff hj).mp hok hbad)

theorem checkCapacity_of_capacityOk {s : State} (h : CapacityOk s) : checkCapacity s = none := by
  unfold checkCapacity
  cases hcap : s.params.coefCap with
  | none => rfl
  | some cap => exact if_neg (not_lt.mpr (h cap hcap))

theorem checkCapacity_of_exceeded {s : State} {cap : Nat} (hcap : s.params.coefCap = some cap) (h : cap < nMcu s) :
    checkCapacity s = some (.capCoef, 0) := by
  rw [checkCapacity, hcap]
  exact if_pos h

/-! Check 4. -/

theorem unsetTable_of_setOk {s : State} {j : Fin 3} (h : SetOk s j) : unsetTable s j = none := by
  obtain ⟨hq, hdc, hac⟩ := h
  simp [unsetTable, hq, hdc, hac]

theorem checkSet_of_setOk {s : State} (h : ∀ j : Fin 3, j.val < ncomp s → SetOk s j) : checkSet s = none :=
  findSome?_usedSlots_none fun j hj => unsetTable_of_setOk (h j hj)

/-- The fields of ERRVAL side by side: the slot, the class bit, the table (spec R322). -/
theorem slot_or_table (j : Fin 3) (t : BitVec 2) :
    j.val <<< 8 ||| t.toNat = 256 * j.val + t.toNat ∧ j.val <<< 8 ||| 0x10 ||| t.toNat = 256 * j.val + 16 + t.toNat := by
  revert j t
  decide

theorem checkSet_of_unset {s : State} (hcount : CountOk s) {j : Fin 3} (hj : j.val < ncomp s)
    (hbefore : ∀ i : Fin 3, i < j → SetOk s i) {x : Cause × BitVec 16} (hx : unsetTable s j = some x) : checkSet s = some x :=
  findSome?_usedSlots_some hcount hj (fun i hi => unsetTable_of_setOk (hbefore i hi)) hx

/-! Check 5. -/

/-- Check 5 of a table whose offsets are written. -/
theorem offsetsOk_iff {s : State} {c : HClass} {t : BitVec 2} {off : Nat → Nat}
    (hlisted : ∀ n, n ≤ 16 → off n < 256 ∧ Memory.get? s.hoff (hoffIndex c t n) = some (BitVec.ofNat 8 (off n))) (base : Nat) :
    offsetsOk s base c t = true ↔ off 0 = 0 ∧ (∀ n, n < 16 → off n ≤ off (n + 1)) ∧ off 16 ≤ 162 := by
  have hread : ∀ site n, n ≤ 16 → hoffAt s site c t n = off n := fun site n hn => by
    obtain ⟨hlt, hget⟩ := hlisted n hn
    rw [hoffAt, Memory.read_of_get? hget, BitVec.toNat_ofNat, Nat.mod_eq_of_lt hlt]
  have hrise : ((List.range 16).all fun i =>
        decide (hoffAt s (base + 2 * i + 1) c t i ≤ hoffAt s (base + 2 * i + 2) c t (i + 1))) = true ↔
      ∀ n, n < 16 → off n ≤ off (n + 1) := by
    simp only [List.all_eq_true, List.mem_range, decide_eq_true_eq]
    refine forall₂_congr fun n hn => ?_
    rw [hread _ n (by omega), hread _ (n + 1) (by omega), Int.ofNat_le]
  unfold offsetsOk
  rw [Bool.and_eq_true, Bool.and_eq_true, hrise, hread _ 0 (by omega), hread _ 16 (by omega), beq_iff_eq, decide_eq_true_eq,
    and_assoc]
  norm_cast

theorem offsetsOk_of_offsetsAre {s : State} {c : HClass} {t : BitVec 2} {off : Nat → Nat} (h : OffsetsAre s c t off)
    (base : Nat) : offsetsOk s base c t = true := by
  have hread := fun site n (hn : n ≤ 16) => hoffAt_of_offsets h site hn
  have hlt : ∀ n, n ≤ 16 → off n < 256 := fun n hn => by
    have hval := hread 0 n hn
    rw [hoffAt] at hval
    have := (Memory.read s.hoff (Config.freeHoff s.draws (256 * 0 + hoffIndex c t n)) (hoffIndex c t n)).isLt
    omega
  exact (offsetsOk_iff (fun n hn => ⟨hlt n hn, h.listed n hn⟩) base).mpr ⟨h.start, h.rising, h.bound⟩

theorem offsetsOk_of_offsetsBad {s : State} {c : HClass} {t : BitVec 2} {off : Nat → Nat} (h : OffsetsBad s c t off)
    (base : Nat) : offsetsOk s base c t = false := by
  rw [← Bool.not_eq_true, offsetsOk_iff h.listed base]
  rintro ⟨hstart, hrise, hbound⟩
  rcases h.bad with h0 | ⟨n, hn, hfall⟩ | h16
  · exact h0 hstart
  · exact absurd (hrise n hn) (by omega)
  · omega

theorem badTable_of_tablesOk {s : State} {j : Fin 3} (h : TablesOk s j) : badTable s j = none := by
  obtain ⟨⟨dc, hdc⟩, ⟨ac, hac⟩⟩ := h
  simp [badTable, offsetsOk_of_offsetsAre hdc, offsetsOk_of_offsetsAre hac]

theorem checkTables_of_tablesOk {s : State} (h : ∀ j : Fin 3, j.val < ncomp s → TablesOk s j) : checkTables s = none :=
  findSome?_usedSlots_none fun j hj => badTable_of_tablesOk (h j hj)

theorem checkTables_of_bad {s : State} (hcount : CountOk s) {j : Fin 3} (hj : j.val < ncomp s)
    (hbefore : ∀ i : Fin 3, i < j → TablesOk s i) {x : Cause × BitVec 16} (hx : badTable s j = some x) :
    checkTables s = some x :=
  findSome?_usedSlots_some hcount hj (fun i hi => badTable_of_tablesOk (hbefore i hi)) hx

/-! All checks together. -/

theorem validate_of_launchOk {s : State} (h : LaunchOk s) : validate s = none := by
  rw [validate, checkCount_of_countOk h.count, checkDims_of_dimsOk h.dims, checkIds_of_idsOk h.ids, checkSet_of_setOk h.set,
    checkTables_of_tablesOk h.tables, checkCapacity_of_capacityOk h.capacity]
  rfl

/-- The first check that fails decides (spec R143). -/
theorem validate_of_launchFault {s : State} {code : BitVec 8} {val : BitVec 16} (h : LaunchFault s code val) :
    ∃ c, validate s = some (c, val) ∧ causeCode c = code := by
  unfold validate
  cases h with
  | cmyk h =>
    have hcheck : checkCount s = some (.unsupCmyk, 4) := if_pos h
    exact ⟨.unsupCmyk, by rw [hcheck]; rfl, rfl⟩
  | count h1 h3 h4 =>
    have hcheck : checkCount s = some (.cfgNcomp, BitVec.ofNat 16 (ncomp s)) := by
      rw [checkCount, if_neg h4, if_pos ⟨h1, h3⟩]
    exact ⟨.cfgNcomp, by rw [hcheck]; rfl, rfl⟩
  | width hcount hw =>
    have hcheck : checkDims s = some (.cfgDim, 0) := if_pos hw
    exact ⟨.cfgDim, by rw [checkCount_of_countOk hcount, hcheck]; rfl, rfl⟩
  | height hcount hw hh =>
    have hcheck : checkDims s = some (.cfgDim, 1) := by rw [checkDims, if_neg hw, if_pos hh]
    exact ⟨.cfgDim, by rw [checkCount_of_countOk hcount, hcheck]; rfl, rfl⟩
  | ids j hcount hdims hj hbefore hbad =>
    refine ⟨.cfgCompid, ?_, rfl⟩
    rw [checkCount_of_countOk hcount, checkDims_of_dimsOk hdims, checkIds_of_badId hcount hj hbefore hbad]
    rfl
  | quant j hcount hdims hids hj hbefore hq =>
    have hunset : unsetTable s j = some (.cfgQunset, BitVec.ofNat 16 (256 * j.val + (tqSel s j).toNat)) := by
      simp [unsetTable, hq]
    refine ⟨.cfgQunset, ?_, rfl⟩
    rw [checkCount_of_countOk hcount, checkDims_of_dimsOk hdims, checkIds_of_idsOk hids,
      checkSet_of_unset hcount hj hbefore hunset, (slot_or_table ..).1]
    rfl
  | dc j hcount hdims hids hj hbefore hq hdc =>
    have hunset : unsetTable s j = some (.cfgDcunset, BitVec.ofNat 16 (256 * j.val + (tdSel s j).toNat)) := by
      simp [unsetTable, hq, hdc]
    refine ⟨.cfgDcunset, ?_, rfl⟩
    rw [checkCount_of_countOk hcount, checkDims_of_dimsOk hdims, checkIds_of_idsOk hids,
      checkSet_of_unset hcount hj hbefore hunset, (slot_or_table ..).1]
    rfl
  | ac j hcount hdims hids hj hbefore hq hdc hac =>
    have hunset : unsetTable s j = some (.cfgAcunset, BitVec.ofNat 16 (256 * j.val + (taSel s j).toNat)) := by
      simp [unsetTable, hq, hdc, hac]
    refine ⟨.cfgAcunset, ?_, rfl⟩
    rw [checkCount_of_countOk hcount, checkDims_of_dimsOk hdims, checkIds_of_idsOk hids,
      checkSet_of_unset hcount hj hbefore hunset, (slot_or_table ..).1]
    rfl
  | dcTable j off hcount hdims hids hset hj hbefore hbad =>
    have htable : badTable s j = some (.cfgHtable, BitVec.ofNat 16 (256 * j.val + (tdSel s j).toNat)) := by
      simp [badTable, offsetsOk_of_offsetsBad hbad]
    refine ⟨.cfgHtable, ?_, rfl⟩
    rw [checkCount_of_countOk hcount, checkDims_of_dimsOk hdims, checkIds_of_idsOk hids, checkSet_of_setOk hset,
      checkTables_of_bad hcount hj hbefore htable, (slot_or_table ..).1]
    rfl
  | acTable j good off hcount hdims hids hset hj hbefore hgood hbad =>
    have htable : badTable s j = some (.cfgHtable, BitVec.ofNat 16 (256 * j.val + 16 + (taSel s j).toNat)) := by
      simp [badTable, offsetsOk_of_offsetsAre hgood, offsetsOk_of_offsetsBad hbad]
    refine ⟨.cfgHtable, ?_, rfl⟩
    rw [checkCount_of_countOk hcount, checkDims_of_dimsOk hdims, checkIds_of_idsOk hids, checkSet_of_setOk hset,
      checkTables_of_bad hcount hj hbefore htable, (slot_or_table ..).2]
    rfl
  | capacity cap hcount hdims hids hset htables hcap hover =>
    refine ⟨.capCoef, ?_, rfl⟩
    rw [checkCount_of_countOk hcount, checkDims_of_dimsOk hdims, checkIds_of_idsOk hids, checkSet_of_setOk hset,
      checkTables_of_tablesOk htables, checkCapacity_of_exceeded hcap hover]
    rfl

/-- The checks look at configuration, tables and parameters, which clearing the run registers leaves alone. -/
theorem validate_clearRun (s : State) : validate (clearRun s) = validate s := rfl

/-- The registers that START has cleared read as cleared in the fault record too. -/
theorem faultEntry_clearRun (c : Cause) (pos : Word) (val : BitVec 16) (s : State) :
    faultEntry c pos val (clearRun s) =
      { clearRun s with
        errcode := causeCode c, errpos := pos, errval := val, phase := .none, state := .error, upc := .idle
        draws := s.draws + 1 } := by
  have hblk : errblkWord (clearRun s) = 0 := by simp [errblkWord]
  unfold faultEntry
  rw [hblk, clearRun_mcu, ite_self]
  rfl

/-- START outside a run: the first failing check is recorded, or the run begins. -/
theorem startCommand_of_not_busy {s : State} (hstopped : s.state ≠ .busy) :
    (∃ c v, validate s = some (c, v) ∧ startCommand s = faultEntry c 0 v (clearRun s)) ∨
      validate s = none ∧
        startCommand s = { takeInput (bumpDraws (clearRun s)) with state := .busy, phase := .scan, upc := .token } := by
  obtain ⟨hbusy, -⟩ | ⟨-, h⟩ := startCommand_cases s
  · exact absurd hbusy hstopped
  · rwa [validate_clearRun] at h

end Sys2Proof.Machine

namespace Sys2Proof.Proofs

open Sys2Proof.Machine

/-- Settles O7: every check passes, so that the run begins. -/
theorem startAccepted : Obligations.StartAccepted := by
  unfold Obligations.StartAccepted
  intro s hstopped hlaunch
  obtain ⟨c, v, hfault, -⟩ | ⟨-, hstart⟩ := startCommand_of_not_busy hstopped
  · rw [validate_of_launchOk hlaunch] at hfault
    cases hfault
  · rw [exec_start, hstart]
    rfl

/-- Settles O8: the first check that fails is the one `validate` reports. -/
theorem startRefused : Obligations.StartRefused := by
  unfold Obligations.StartRefused
  refine ⟨fun s code val hstopped hlaunch => ?_, fun s hstopped => ⟨startCommand s, exec_start s, ?_⟩⟩
  · obtain ⟨c, hvalidate, rfl⟩ := validate_of_launchFault hlaunch
    obtain ⟨c', v, hfault, hstart⟩ | ⟨hpass, -⟩ := startCommand_of_not_busy hstopped
    · rw [hvalidate] at hfault
      cases hfault
      rw [exec_start, hstart, faultEntry_clearRun]
      rfl
    · rw [hvalidate] at hpass
      cases hpass
  · obtain ⟨c, v, -, hstart⟩ | ⟨-, hstart⟩ := startCommand_of_not_busy hstopped
    · rw [hstart, faultEntry_clearRun]
      exact ⟨.inr rfl, rfl, rfl, rfl, rfl⟩
    · rw [hstart]
      exact ⟨.inl rfl, rfl, rfl, rfl, rfl⟩

end Sys2Proof.Proofs
end

section
/-! The register port (spec R30 to R53, R140, R145) by word index, the interrupt output and STATUS, what the host does in a step, and
which instruction stands at each position of a run. -/

namespace Sys2Proof.Machine

/-! The register map. -/

/-- The windows of the table memories and the reserved words (spec R49, R53). -/
theorem portWord_of_ge {a : Fin 3072} (h : 23 ≤ a.val) :
    portWord a =
      if a.val < 256 then .reserved
      else if a.val < 512 then .qtab (a.val - 256)
      else if a.val < 768 then (if (a.val - 512) % 32 < 17 then .hoff (a.val - 512) else .reserved)
      else if a.val < 1024 then .reserved
      else if (a.val - 1024) % 256 < 162 then .hsym (a.val - 1024)
      else .reserved := by
  obtain ⟨a, ha⟩ := a
  obtain ⟨n, rfl⟩ : ∃ n, a = n + 23 := ⟨a - 23, by simp only at h; omega⟩
  rfl

theorem portWord_qtab {a : Fin 3072} (h : 256 ≤ a.val) (h' : a.val < 512) : portWord a = .qtab (a.val - 256) := by
  rw [portWord_of_ge (by omega), if_neg (by omega), if_pos h']

theorem portWord_hoff {a : Fin 3072} (h : 512 ≤ a.val) (h' : a.val < 768) (hin : (a.val - 512) % 32 < 17) :
    portWord a = .hoff (a.val - 512) := by
  rw [portWord_of_ge (by omega), if_neg (by omega), if_neg (by omega), if_pos h', if_pos hin]

theorem portWord_hsym {a : Fin 3072} (h : 1024 ≤ a.val) (hin : (a.val - 1024) % 256 < 162) :
    portWord a = .hsym (a.val - 1024) := by
  rw [portWord_of_ge (by omega), if_neg (by omega), if_neg (by omega), if_neg (by omega), if_neg (by omega), if_pos hin]

/-- The words between and behind the registers and windows. -/
theorem portWord_reserved {a : Fin 3072}
    (h : 23 ≤ a.val ∧ a.val < 256 ∨ 768 ≤ a.val ∧ a.val < 1024 ∨ (512 ≤ a.val ∧ a.val < 768 ∧ 17 ≤ (a.val - 512) % 32) ∨
      1024 ≤ a.val ∧ 162 ≤ (a.val - 1024) % 256) : portWord a = .reserved := by
  rw [portWord_of_ge (by omega)]
  rcases h with h | h | h | h
  · rw [if_pos h.2]
  · rw [if_neg (by omega), if_neg (by omega), if_neg (by omega), if_pos h.2]
  · rw [if_neg (by omega), if_neg (by omega), if_pos h.2.1, if_neg (by omega)]
  · rw [if_neg (by omega), if_neg (by omega), if_neg (by omega), if_neg (by omega), if_neg (by omega)]

theorem portWord_scancomp {a : Fin 3072} {j : Fin 3} (h : a.val = 11 + j.val) : portWord a = .scancomp j := by
  obtain rfl : a = ⟨11 + j.val, (Nat.add_lt_add_left j.isLt 11).trans (by decide)⟩ := Fin.ext h
  revert j
  decide

theorem portWord_dcpred {a : Fin 3072} {c : Fin 3} (h : a.val = 20 + c.val) : portWord a = .dcpred c := by
  obtain rfl : a = ⟨20 + c.val, (Nat.add_lt_add_left c.isLt 20).trans (by decide)⟩ := Fin.ext h
  revert c
  decide

theorem portWord_eq_cmd {a : Fin 3072} (h : a.val = 1) : portWord a = .cmd := by
  obtain rfl : a = 1 := Fin.ext h
  rfl

/-- The registers below the windows that the host cannot write. -/
theorem portWord_readOnly_register {n : Nat} (hn : n < 23) (h : n = 0 ∨ n = 2 ∨ 4 ≤ n ∧ n ≤ 8 ∨ 15 ≤ n) :
    portWritable (portWord ⟨n, by omega⟩) = false ∧ portWord ⟨n, by omega⟩ ≠ .cmd := by
  revert h
  revert n
  decide

/-- Read-only and reserved words (spec R140, R141). -/
theorem portWord_readOnly {a : Fin 3072}
    (h : a.val = 0 ∨ a.val = 2 ∨ 4 ≤ a.val ∧ a.val ≤ 8 ∨ 15 ≤ a.val ∧ a.val < 256 ∨ 768 ≤ a.val ∧ a.val < 1024 ∨
      512 ≤ a.val ∧ a.val < 768 ∧ 17 ≤ (a.val - 512) % 32 ∨ 1024 ≤ a.val ∧ 162 ≤ (a.val - 1024) % 256) :
    portWritable (portWord a) = false ∧ portWord a ≠ .cmd := by
  by_cases hregister : a.val < 23
  · exact portWord_readOnly_register hregister (by omega)
  · rw [portWord_reserved (by omega)]
    exact ⟨rfl, by simp⟩

theorem portWord_ne_cmd {a : Fin 3072} (h : a.val ≠ 1) : portWord a ≠ .cmd := by
  by_cases hregister : a.val < 23
  · have hall : ∀ n : Fin 23, n.val ≠ 1 → portWord ⟨n.val, n.isLt.trans (by decide)⟩ ≠ .cmd := by decide
    exact hall ⟨a.val, hregister⟩ h
  · rw [portWord_of_ge (by omega)]
    split_ifs <;> simp

/-! Port accesses. -/

theorem exec_write (a : Fin 3072) (v : Word) (s : State) : exec (.write a v) s = .next (portWrite a v s) := rfl

theorem exec_read (a : Fin 3072) (s : State) :
    exec (.read a) s = .next { s with rdata := portValue s (portWord a), draws := s.draws + 1 } := rfl

theorem portWrite_of_ignored {a : Fin 3072} {s : State} (hcmd : portWord a ≠ .cmd)
    (h : portWritable (portWord a) = false ∨ s.state = .busy) (v : Word) : portWrite a v s = { s with wign := true } := by
  obtain ⟨hcmd', -⟩ | ⟨-, -, heq⟩ | ⟨-, hwritable, hstopped, -⟩ := portWrite_cases a v s
  · exact absurd hcmd' hcmd
  · exact heq
  · rcases h with h | h
    · rw [hwritable] at h
      cases h
    · exact absurd h hstopped

theorem portWrite_of_stored {a : Fin 3072} {s : State} {p : PortWord} (hp : portWord a = p) (hwritable : portWritable p = true)
    (hstopped : s.state ≠ .busy) (v : Word) : portWrite a v s = portStore p v s := by
  subst hp
  obtain ⟨hcmd, -⟩ | ⟨-, h, -⟩ | ⟨-, -, -, heq⟩ := portWrite_cases a v s
  · rw [hcmd] at hwritable
    cases hwritable
  · rcases h with h | h
    · rw [hwritable] at h
      cases h
    · exact absurd h hstopped
  · exact heq

/-- A write to CMD is the command its word stands for (spec R32). -/
theorem command_eq_exec (v : Word) (s : State) : exec (decodeCmd v) s = .next (command v s) := by
  unfold decodeCmd command
  split
  · rfl
  · split <;> rfl

/-! STATUS. -/

/-- The fields of STATUS, whatever STATE is. -/
theorem statusWord_fields (c : Fin 4) (w i : Bool) :
    (BitVec.ofNat 32 (c.val + 16 * w.toNat + 256 * i.toNat)).extractLsb' 0 2 = BitVec.ofNat 2 c.val ∧
      (BitVec.ofNat 32 (c.val + 16 * w.toNat + 256 * i.toNat)).getLsbD 4 = w ∧
      (BitVec.ofNat 32 (c.val + 16 * w.toNat + 256 * i.toNat)).getLsbD 8 = i ∧
      ∀ n : Fin 32, n = 2 ∨ n = 3 ∨ 5 ≤ n ∧ n ≤ 7 ∨ 9 ≤ n →
        (BitVec.ofNat 32 (c.val + 16 * w.toNat + 256 * i.toNat)).getLsbD n.val = false := by
  revert c w i
  decide

theorem runStateCode_lt (r : RunState) : runStateCode r < 4 := by
  cases r <;> decide

/-! Which instruction stands at a position. -/

theorem tokenThere_iff {s : State} :
    tokenThere s = true ↔ s.inputEnd = true ∨ s.input.drop s.ip.toNat ≠ [] ∧ s.input.drop s.ip.toNat ≠ [0xFF] := by
  rw [← Bool.not_eq_false, tokenThere_eq_false, not_and_or, not_or, Bool.not_eq_false]

theorem fetch_scan {s : State} (hphase : s.phase = .scan) (hgrain : s.params.grain = .phase) (hthere : tokenThere s = true) :
    fetch s = .instr .scan := by
  rw [fetch, hphase]
  simp [fetchScan, hthere, hgrain]

theorem fetch_entropy {s : State} (hphase : s.phase = .entropy) : fetch s = fetchEntropy s := by rw [fetch, hphase]

theorem fetch_recon {s : State} (hphase : s.phase = .recon) : fetch s = fetchRecon s := by rw [fetch, hphase]

theorem fetchEntropy_code {s : State} (hupc : s.upc = .code) : fetchEntropy s = .instr (fetchAtCode s) := by
  rw [fetchEntropy, hupc]

theorem fetchEntropy_symbol {s : State} (hupc : s.upc = .symbol) :
    fetchEntropy s = .instr (if s.k = 0 then decodeDcSym s.sym else decodeAcSym s.sym) := by rw [fetchEntropy, hupc]

theorem fetchEntropy_restartDue {s : State} (hupc : s.upc = .restartDue) : fetchEntropy s = .instr .restart := by
  rw [fetchEntropy, hupc]

theorem fetchAtCode_unit {s : State} (hgrain : s.params.grain = .unit) : fetchAtCode s = fetchCode s := by
  rw [fetchAtCode, hgrain]

theorem fetchCode_of_instr {s : State} {i : Instr}
    (h : decodeCode (codeCount s (selectedTable s).1 (selectedTable s).2) (peekBits 16 s) = .instr i) : fetchCode s = i := by
  rw [fetchCode, h]

theorem fetchCode_of_reject {s : State} {r : Reject}
    (h : decodeCode (codeCount s (selectedTable s).1 (selectedTable s).2) (peekBits 16 s) = .reject r) :
    fetchCode s = .huffdec (selectedTable s).1 (selectedTable s).2 := by
  rw [fetchCode, h]

theorem fetchRecon_dequant {s : State} {ch : Fin 3} {tq : BitVec 2} (hupc : s.upc = .dequant ch) (hgrain : s.params.grain = .unit)
    (htq : tqOf s ch = some tq) : fetchRecon s = .instr (.dequant s.mcu ch tq) := by
  rw [fetchRecon, hupc]
  dsimp only
  rw [hgrain]
  dsimp only
  rw [fetchDequant, htq]

theorem fetchRecon_idct {s : State} {ch : Fin 3} (hupc : s.upc = .idct ch) : fetchRecon s = .instr (.idct ch) := by
  rw [fetchRecon, hupc]

theorem fetchRecon_colour {s : State} {i : Fin 64} (hupc : s.upc = .colour i) :
    fetchRecon s = .instr (if ncomp s = 3 then .ycc2rgb (sampAt s 0 i.val) (sampAt s 1 i.val) (sampAt s 2 i.val)
      else .gray (sampAt s 0 i.val)) := by rw [fetchRecon, hupc]

theorem fetchRecon_store {s : State} {i : Fin 64} (hupc : s.upc = .store i) :
    fetchRecon s = .instr (.storepix s.mcu i (rgbAt s 0 i.val) (rgbAt s 1 i.val) (rgbAt s 2 i.val)) := by
  rw [fetchRecon, hupc]

theorem runStep_of_stopped {s : State} (hstopped : s.state ≠ .busy) : runStep s = .next s := by
  obtain ⟨-, heq⟩ | ⟨hbusy, -⟩ := runStep_cases s
  · exact heq
  · exact absurd hbusy hstopped

end Sys2Proof.Machine

namespace Sys2Proof.Proofs

open Sys2Proof.Machine

/-- Settles O11: the register map says what stands at the word, and `portWrite` what is done with it. -/
theorem writeRegister : Obligations.WriteRegister := by
  unfold Obligations.WriteRegister
  intro a v s
  refine ⟨fun h => ?_, fun h => ?_, fun h hbusy => ?_, fun hstopped => ?_⟩
  · obtain ⟨hread, hcmd⟩ := portWord_readOnly h
    rw [exec_write, portWrite_of_ignored hcmd (.inl hread)]
  · rw [exec_write, command_eq_exec, portWrite, if_pos (portWord_eq_cmd h)]
  · rw [exec_write, portWrite_of_ignored (portWord_ne_cmd h) (.inr hbusy)]
  have hstore : ∀ p, portWord a = p → portWritable p = true → exec (.write a v) s = .next (portStore p v s) :=
    fun p hp hwritable => by rw [exec_write, portWrite_of_stored hp hwritable hstopped]
  refine ⟨fun h => ?_, fun h => ?_, fun h => ?_, fun j h => ?_, fun h => ?_, fun h h' => ?_, fun h h' hin => ?_, fun h hin => ?_⟩
  · obtain rfl : a = 3 := Fin.ext h
    exact hstore .irqen rfl rfl
  · obtain rfl : a = 9 := Fin.ext h
    exact hstore .framedim rfl rfl
  · obtain rfl : a = 10 := Fin.ext h
    exact hstore .framecfg rfl rfl
  · exact hstore (.scancomp j) (portWord_scancomp h) rfl
  · obtain rfl : a = 14 := Fin.ext h
    exact hstore .tabset rfl rfl
  · exact hstore _ (portWord_qtab h h') rfl
  · exact hstore _ (portWord_hoff h h' hin) rfl
  · exact hstore _ (portWord_hsym h hin) rfl

/-- Settles O12: the word read is `portValue` of what stands there. -/
theorem readRegister : Obligations.ReadRegister := by
  unfold Obligations.ReadRegister
  intro a s
  refine ⟨portValue s (portWord a), exec_read a s, ?_⟩
  have hfixed : ∀ {n : Fin 3072}, a.val = n.val → portValue s (portWord a) = portValue s (portWord n) := fun h => by
    rw [Fin.ext h]
  have hreserved : ∀ {p}, portWord a = p → portValue s (portWord a) = portValue s p := fun h => by rw [h]
  refine ⟨fun h => hfixed (n := 0) h, fun h => hfixed (n := 1) h, fun h => hfixed (n := 3) h, fun h => hfixed (n := 4) h,
    fun h => hfixed (n := 5) h, fun h => hfixed (n := 6) h, fun h => hfixed (n := 7) h, fun h => hfixed (n := 8) h,
    fun h => hfixed (n := 9) h, fun h => hfixed (n := 10) h, fun j h => hreserved (portWord_scancomp h),
    fun h => hfixed (n := 14) h, fun h => hfixed (n := 15) h, fun h => hfixed (n := 16) h, fun h => hfixed (n := 17) h,
    fun h => hfixed (n := 18) h, fun h => hfixed (n := 19) h, fun c h => hreserved (portWord_dcpred h),
    fun h => hreserved (portWord_reserved (h.imp_right .inl)), fun x h h' hx => ?_, fun x h h' hin hx => ?_,
    fun h h' hout => hreserved (portWord_reserved (.inr (.inr (.inl ⟨h, h', hout⟩)))), fun x h hin hx => ?_,
    fun h hout => hreserved (portWord_reserved (.inr (.inr (.inr ⟨h, hout⟩))))⟩
  · rw [portWord_qtab h h', portValue, Memory.read_of_get? hx]
  · rw [portWord_hoff h h' hin, portValue, Memory.read_of_get? hx]
  · rw [portWord_hsym h hin, portValue, Memory.read_of_get? hx]

/-- Settles O13: `irq` is that test. -/
theorem interruptLevel : Obligations.InterruptLevel := by
  unfold Obligations.InterruptLevel
  intro s
  simp [irq, ieDone, ieErr]

/-- Settles O14: the three fields do not overlap. -/
theorem statusRegister : Obligations.StatusRegister := by
  unfold Obligations.StatusRegister
  intro s
  obtain ⟨hstate, hwign, hirq, hzero⟩ := statusWord_fields ⟨runStateCode s.state, runStateCode_lt s.state⟩ s.wign (irq s)
  refine ⟨statusWord s, exec_read 2 s, fun h => ?_, fun h => ?_, fun h => ?_, fun h => ?_, hwign, hirq, fun n hn => ?_⟩
  · rw [statusWord, hstate, h]
    rfl
  · rw [statusWord, hstate, h]
    rfl
  · rw [statusWord, hstate, h]
    rfl
  · rw [statusWord, hstate, h]
    rfl
  · by_cases h32 : n < 32
    · exact hzero ⟨n, h32⟩ (by simp only [Fin.ext_iff, Fin.le_def]; exact hn)
    · exact BitVec.getLsbD_of_ge _ _ (by omega)

/-- Settles O5: `fetch` at each position. -/
theorem stepRunsInstruction : Obligations.StepRunsInstruction := by
  unfold Obligations.StepRunsInstruction
  refine ⟨fun s n e rest h => by rw [step, h], fun s h => step_of_no_host h, fun s hbusy => ?_⟩
  have hrun : ∀ {i}, fetch s = .instr i → runStep s = thenDo (exec i s) (sequence i) := runStep_of_fetch hbusy
  refine ⟨fun hphase hend hleft => ?_, fun hphase hthere hgrain => ?_, fun hphase hthere hgrain => ?_, fun hphase hupc => ?_,
    fun i hphase hupc hgrain hcode => ?_, fun r hphase hupc hgrain hcode => ?_, fun hphase hupc hk => ?_,
    fun hphase hupc hk => ?_, fun ch tq hphase hupc hgrain htq => ?_, fun ch hphase hupc => ?_,
    fun i hphase hupc hgray => ?_, fun i hphase hupc hcolour => ?_, fun i hphase hupc => ?_⟩
  · exact runStep_of_wait hbusy (fetch_of_waiting hphase (tokenThere_eq_false.mpr ⟨hend, hleft⟩))
  · exact hrun (fetch_token hphase hgrain (tokenThere_iff.mpr hthere))
  · exact hrun (fetch_scan hphase hgrain (tokenThere_iff.mpr hthere))
  · exact hrun (by rw [fetch_entropy hphase, fetchEntropy_restartDue hupc])
  · exact hrun (by rw [fetch_entropy hphase, fetchEntropy_code hupc, fetchAtCode_unit hgrain, fetchCode_of_instr hcode])
  · exact hrun (by rw [fetch_entropy hphase, fetchEntropy_code hupc, fetchAtCode_unit hgrain, fetchCode_of_reject hcode])
  · exact hrun (by rw [fetch_entropy hphase, fetchEntropy_symbol hupc, if_pos hk])
  · exact hrun (by rw [fetch_entropy hphase, fetchEntropy_symbol hupc, if_neg hk])
  · exact hrun (by rw [fetch_recon hphase, fetchRecon_dequant hupc hgrain htq])
  · exact hrun (by rw [fetch_recon hphase, fetchRecon_idct hupc])
  · exact hrun (by rw [fetch_recon hphase, fetchRecon_colour hupc, if_neg hgray])
  · exact hrun (by rw [fetch_recon hphase, fetchRecon_colour hupc, if_pos hcolour])
  · exact hrun (by rw [fetch_recon hphase, fetchRecon_store hupc])

/-- Settles O6: the step performs the host action that is due, as `hostStep` says. -/
theorem hostActions : Obligations.HostActions := by
  unfold Obligations.HostActions
  have hdue : ∀ (s : State) (rest : List (Nat × HostEvent)) (e : HostEvent),
      step { s with hostq := (0, e) :: rest } = hostStep e { s with hostq := rest } := fun s rest e => rfl
  refine ⟨fun s rest v => hdue s rest _, fun s rest a v ha => ?_, fun s rest a => hdue s rest _,
    fun s rest bytes last hstopped => ?_, fun s rest bytes last hbusy => ?_, fun s rest bytes last hopen => ?_,
    fun s rest bytes last hend => ?_, fun s hstopped hq => ?_, fun s rest n e hstopped => ?_⟩
  · have hwrite : decodeWrite a v = .write a v := if_neg ha
    rw [hdue, hostStep, hwrite]
  · exact if_neg hstopped
  · exact if_pos hbusy
  · exact if_neg (by simp [hopen])
  · exact if_pos hend
  · rw [step_of_no_host hq, runStep_of_stopped hstopped]
  · exact runStep_of_stopped (s := { s with hostq := (n, e) :: rest }) hstopped

end Sys2Proof.Proofs
end

section
/-! The block as single units (spec R220 to R229, R392): DECODE_BLOCK does not look at the position, so that the run of its code
words and symbols does the same. -/

namespace Sys2Proof.Machine

/-! Operations that do not look at the position. -/

/-- The state at another position. -/
def setUpc (p : Upc) (s : State) : State := { s with upc := p }

/-- The state in which an operation goes on, at another position. -/
def Flow.withUpc {α : Type} (p : Upc) : Flow α → Flow α
  | .cont a s => .cont a (setUpc p s)
  | .ended s => .ended s
  | .stop e => .stop e
  | .refuse r => .refuse r

theorem Flow.bind_withUpc {α β : Type} {p : Upc} {x x' : Flow α} (hx : x' = x.withUpc p) {f : α → State → Flow β}
    (hf : ∀ a s, f a (setUpc p s) = (f a s).withUpc p) : x'.bind f = (x.bind f).withUpc p := by
  subst hx
  cases x with
  | cont a s => exact hf a s
  | ended s => rfl
  | stop e => rfl
  | refuse r => rfl

theorem nextBit_setUpc (p : Upc) (s : State) : nextBit (setUpc p s) = (nextBit s).withUpc p := by
  obtain ⟨hend, heq⟩ | ⟨hthere, heq⟩ := nextBit_cases s
  · rw [heq]
    exact nextBit_of_end (s := setUpc p s) hend
  · obtain ⟨hend, -⟩ | ⟨-, heq'⟩ := nextBit_cases (setUpc p s)
    · exact absurd hend (Nat.not_le.mpr hthere)
    · rw [heq, heq', advanceBit_eq_consume, advanceBit_eq_consume]
      rfl

theorem huffRounds_setUpc (p : Upc) (c : HClass) (t : BitVec 2) (n len code : Nat) (first : Int) (s : State) :
    huffRounds c t n len code first (setUpc p s) = (huffRounds c t n len code first s).withUpc p := by
  induction n generalizing len code first s with
  | zero => rfl
  | succ n ih =>
    rw [huffRounds, huffRounds]
    refine Flow.bind_withUpc (nextBit_setUpc p { s with len := BitVec.ofNat 5 len, first := BitVec.ofInt 25 first })
      fun b u => ?_
    have hcount : codeCount (setUpc p u) c t len = codeCount u c t len := rfl
    rw [hcount]
    split
    · rfl
    · exact ih (len + 1) (2 * code + b.toNat) ((first + codeCount u c t len) * 2)
        { u with
          code := BitVec.ofNat 16 (2 * code + b.toNat)
          first := BitVec.ofInt 25 ((first + codeCount u c t len) * 2) }

theorem huffDecode_setUpc (p : Upc) (c : HClass) (t : BitVec 2) (s : State) :
    huffDecode c t (setUpc p s) = (huffDecode c t s).withUpc p :=
  Flow.bind_withUpc (huffRounds_setUpc p c t 16 1 0 0 { s with code := 0 }) fun _ _ => rfl

theorem takeBits_setUpc (p : Upc) (n v : Nat) (s : State) : takeBits n v (setUpc p s) = (takeBits n v s).withUpc p := by
  induction n generalizing v s with
  | zero => rfl
  | succ n ih => exact Flow.bind_withUpc (nextBit_setUpc p s) fun b u => ih ..

theorem receiveExtend_setUpc (p : Upc) (n : Nat) (s : State) : receiveExtend n (setUpc p s) = (receiveExtend n s).withUpc p :=
  Flow.bind_withUpc (Flow.bind_withUpc (takeBits_setUpc p n 0 s) fun _ _ => rfl) fun _ _ => rfl

theorem dcCategory_setUpc (p : Upc) (m : Nat) (j : Fin 3) (n : Nat) (s : State) :
    dcCategory m j n (setUpc p s) = (dcCategory m j n s).withUpc p := by
  rw [dcCategory, dcCategory, channelOf_congr (u := setUpc p s) (s := s) rfl]
  cases channelOf s j with
  | none => rfl
  | some ch => exact Flow.bind_withUpc (receiveExtend_setUpc p n s) fun _ _ => rfl

theorem acRunSize_setUpc (p : Upc) (m : Nat) (j : Fin 3) (r n : Nat) (s : State) :
    acRunSize m j r n (setUpc p s) = (acRunSize m j r n s).withUpc p := by
  unfold acRunSize
  rw [show (setUpc p s).k = s.k from rfl, channelOf_congr (u := setUpc p s) (s := s) rfl]
  split
  · rfl
  · cases channelOf s j with
    | none => rfl
    | some ch => exact Flow.bind_withUpc (receiveExtend_setUpc p n { s with k := s.k + BitVec.ofNat 7 r }) fun _ _ => rfl

theorem acZrl_setUpc (p : Upc) (s : State) : acZrl (setUpc p s) = (acZrl s).withUpc p := by
  unfold acZrl
  rw [show (setUpc p s).k = s.k from rfl]
  split <;> rfl

theorem Flow.withUpc_eq_cont {α : Type} {p : Upc} {x : Flow α} {a : α} {u : State} (h : x.withUpc p = .cont a u) :
    ∃ v, x = .cont a v ∧ u = setUpc p v := by
  cases x with
  | cont b v =>
    cases h
    exact ⟨v, rfl, rfl⟩
  | ended v => cases h
  | stop e => cases h
  | refuse r => cases h

theorem Flow.withUpc_eq_ended {α : Type} {p : Upc} {x : Flow α} {u : State} (h : x.withUpc p = .ended u) : x = .ended u := by
  cases x with
  | cont b v => cases h
  | ended v =>
    cases h
    rfl
  | stop e => cases h
  | refuse r => cases h

/-! Symbols. -/

/-- A DC symbol of the block of slot `j` in MCU `m` (spec R221, R222). -/
def dcUnitSymbol (m : Nat) (j : Fin 3) (y : Byte) (s : State) : Flow Unit :=
  if 11 < y.toNat then dcBad y s else dcCategory m j y.toNat s

/-- An AC symbol of the block of slot `j` in MCU `m` that does not end the block (spec R225 to R227). -/
def acUnitSymbol (m : Nat) (j : Fin 3) (y : Byte) (s : State) : Flow Unit :=
  if y = 0xF0 then acZrl s else acRunSize m j (y.extractLsb' 4 4).toNat (y.extractLsb' 0 4).toNat s

theorem decodeDcUnit_eq (m : Nat) (j : Fin 3) (s : State) :
    decodeDcUnit m j s = (huffDecode .dc (tdSel s j) s).bind fun y s => dcUnitSymbol m j y s := rfl

theorem acLoop_succ {m : Nat} {j : Fin 3} {s : State} (hk : s.k.toNat ≤ 63) (n : Nat) :
    acLoop m j (n + 1) s = (huffDecode .ac (taSel s j) s).bind fun y s =>
      if y = 0x00 then acEob s else (acUnitSymbol m j y s).bind fun _ s => acLoop m j n s := by
  rw [acLoop, if_neg (by omega)]
  congr 1
  funext y u
  unfold acUnitSymbol
  split
  · rfl
  · split <;> rfl

theorem acLoop_of_full {m : Nat} {j : Fin 3} {s : State} (hk : 63 < s.k.toNat) (n : Nat) : acLoop m j n s = .cont () s := by
  cases n with
  | zero => rfl
  | succ n => rw [acLoop, if_pos hk]

theorem dcUnitSymbol_setUpc (p : Upc) (m : Nat) (j : Fin 3) (y : Byte) (s : State) :
    dcUnitSymbol m j y (setUpc p s) = (dcUnitSymbol m j y s).withUpc p := by
  unfold dcUnitSymbol
  split
  · rfl
  · exact dcCategory_setUpc p m j y.toNat s

theorem acUnitSymbol_setUpc (p : Upc) (m : Nat) (j : Fin 3) (y : Byte) (s : State) :
    acUnitSymbol m j y (setUpc p s) = (acUnitSymbol m j y s).withUpc p := by
  unfold acUnitSymbol
  split
  · exact acZrl_setUpc p s
  · exact acRunSize_setUpc p m j _ _ s

theorem upto_dcUnitSymbol (m : Nat) (j : Fin 3) (y : Byte) (s : State) :
    Flow.Upto (HasChannel s j) (BlockStep 11 s) (dcUnitSymbol m j y s) := by
  unfold dcUnitSymbol
  split
  · exact Flow.ends_raise ((blockStep_of_same (BlockFrame.refl s) rfl rfl).le (by decide))
  · exact (upto_dcCategory m j y.toNat s).upto id fun u hu => hu.le (by omega)

theorem upto_acUnitSymbol (m : Nat) (j : Fin 3) (y : Byte) (s : State) :
    Flow.Upto (HasChannel s j) (BlockStep 15 s) (acUnitSymbol m j y s) := by
  unfold acUnitSymbol
  split
  · exact (upto_acZrl _ s).upto id fun u hu => hu.le (by decide)
  · have hsize : (y.extractLsb' 0 4).toNat < 16 := (y.extractLsb' 0 4).isLt
    exact (upto_acRunSize m j _ _ s).upto id fun u hu => hu.le (by omega)

theorem decodeDcSym_of_lt {y : Byte} (hy : y.toNat < 12) : decodeDcSym y = dcSymbol ⟨y.toNat, hy⟩ := by
  unfold decodeDcSym
  generalize y.toNat = n at hy
  interval_cases n <;> rfl

theorem exec_decodeDcSym (y : Byte) (s : State) :
    exec (decodeDcSym y) s = (dcUnitSymbol s.mcu.toNat s.slot y s).toOutcome := by
  by_cases hy : 11 < y.toNat
  · rw [decodeDcSym_dcbad hy, exec_dcbad, dcUnitSymbol, if_pos hy]
  · rw [decodeDcSym_of_lt (by omega), exec_dcSymbol, dcUnitSymbol, if_neg hy]

theorem sequence_dcSymbol {u : State} (hbusy : u.state = .busy) (n : Fin 12) : sequence (dcSymbol n) u = afterDc u := by
  match n with
  | 0 | 1 | 2 | 3 | 4 | 5 | 6 | 7 | 8 | 9 | 10 | 11 => exact if_neg (not_not_intro hbusy)

/-- What follows a DC symbol that raises no fault. -/
theorem sequence_decodeDcSym {y : Byte} (hy : ¬11 < y.toNat) {u : State} (hbusy : u.state = .busy) :
    sequence (decodeDcSym y) u = afterDc u := by
  rw [decodeDcSym_of_lt (by omega), sequence_dcSymbol hbusy]

theorem exec_decodeAcSym {y : Byte} (hy : y ≠ 0x00) (s : State) :
    exec (decodeAcSym y) s = (acUnitSymbol s.mcu.toNat s.slot y s).toOutcome := by
  unfold decodeAcSym acUnitSymbol
  dsimp only
  rw [if_neg hy]
  by_cases hzrl : y = 0xF0
  · rw [if_pos hzrl, if_pos hzrl, exec_zrl]
  · rw [if_neg hzrl, if_neg hzrl]
    by_cases hsize : y.extractLsb' 0 4 = 0
    · rw [if_neg (not_not_intro hsize), exec_acr0, hsize]
      rfl
    · rw [if_pos hsize, exec_acrs]

theorem exec_decodeAcSym_eob (s : State) : exec (decodeAcSym 0x00) s = .next (setUpc .blockEnd s) := rfl

theorem sequence_decodeAcSym (y : Byte) {u : State} (hbusy : u.state = .busy) : sequence (decodeAcSym y) u = afterAc u := by
  unfold decodeAcSym
  dsimp only
  split_ifs <;> exact if_neg (not_not_intro hbusy)

/-! How the loops go on. -/

theorem beginBlock_setUpc (p : Upc) (n : Nat) (s : State) : beginBlock n (setUpc p s) = beginBlock n s := by
  unfold beginBlock
  cases slotOf n with
  | none => rfl
  | some slot =>
    dsimp only
    rw [channelOf_congr (u := setUpc p s) (s := s) rfl]
    cases channelOf s slot with
    | none => rfl
    | some ch => dsimp only [setUpc, zeroBlock]

theorem nextMcu_setUpc (p : Upc) (m : Nat) (s : State) : nextMcu m (setUpc p s) = nextMcu m s := by
  unfold nextMcu beginMcu
  rw [show nMcu (setUpc p s) = nMcu s from rfl, show restartBefore (setUpc p s) m = restartBefore s m from rfl]
  split
  · split
    · rfl
    · exact beginBlock_setUpc p 0 { s with mcu := BitVec.ofNat 32 m }
  · rfl

theorem finishBlock_setUpc (p : Upc) (s : State) : finishBlock (setUpc p s) = finishBlock s := by
  unfold finishBlock
  rw [show (setUpc p s).slot = s.slot from rfl, show ncomp (setUpc p s) = ncomp s from rfl]
  split
  · exact beginBlock_setUpc p _ s
  · exact nextMcu_setUpc p _ { s with mcucnt := s.mcucnt + 1 }

theorem afterAc_of_full {s : State} (h : s.upc = .blockEnd ∨ 63 < s.k.toNat) : afterAc s = finishBlock s := if_pos h

theorem afterAc_of_open {s : State} (hupc : s.upc ≠ .blockEnd) (hk : s.k.toNat ≤ 63) : afterAc s = .next (setUpc .code s) :=
  if_neg (by rw [not_or]; exact ⟨hupc, by omega⟩)

theorem BitFrame.k {s u : State} (h : BitFrame s u) : u.k = s.k := by
  unfold BitFrame at h
  rw [h]

/-! The run of a block at granularity `unit`. -/

/-- A run at granularity `unit` with no host action stands in the block of slot `j` of MCU `m`. -/
structure InUnits (m : Nat) (j : Fin 3) (s : State) : Prop where
  busy : s.state = .busy
  phase : s.phase = .entropy
  host : s.hostq = []
  grain : s.params.grain = .unit
  mcu : s.mcu.toNat = m
  slot : s.slot = j

theorem InUnits.setUpc {m : Nat} {j : Fin 3} {s : State} (h : InUnits m j s) (p : Upc) : InUnits m j (setUpc p s) :=
  ⟨h.busy, h.phase, h.host, h.grain, h.mcu, h.slot⟩

theorem InUnits.of_frame {m : Nat} {j : Fin 3} {s u : State} (h : InUnits m j s) (hframe : BlockFrame s u) : InUnits m j u := by
  unfold BlockFrame at hframe
  rw [hframe]
  exact ⟨h.busy, h.phase, h.host, h.grain, h.mcu, h.slot⟩

theorem exec_fetchCode (s : State) :
    exec (fetchCode s) s = (huffDecode (selectedTable s).1 (selectedTable s).2 s).toOutcome := by
  cases hdecode : decodeCode (codeCount s (selectedTable s).1 (selectedTable s).2) (peekBits 16 s) with
  | reject r => rw [fetchCode_of_reject hdecode, exec_huffdec]
  | instr i =>
    obtain ⟨w, rest, hpeek, hhit, hlen, hi⟩ := decodeCode_eq_instr hdecode
    have hnext := (nextBits_peekBits 16 s).1
    rw [hpeek] at hnext
    rw [fetchCode_of_instr hdecode, hi, exec_hc_of_firstHit (nextBits_append.mp hnext).1 hhit hlen, exec_huffdec]

theorem sequence_fetchCode (s : State) {u : State} (hbusy : u.state = .busy) :
    sequence (fetchCode s) u = .next (setUpc .symbol u) := by
  cases hdecode : decodeCode (codeCount s (selectedTable s).1 (selectedTable s).2) (peekBits 16 s) with
  | reject r =>
    rw [fetchCode_of_reject hdecode]
    exact if_neg (not_not_intro hbusy)
  | instr i =>
    obtain ⟨w, rest, -, -, -, hi⟩ := decodeCode_eq_instr hdecode
    rw [fetchCode_of_instr hdecode, hi]
    exact if_neg (not_not_intro hbusy)

/-- A fault has ended the run: nothing follows. -/
theorem thenDo_sequence_faultEntry (i : Instr) (c : Cause) (pos : Word) (val : BitVec 16) (s : State) :
    sequence i (faultEntry c pos val s) = .next (faultEntry c pos val s) :=
  sequence_of_not_busy i (by simp)

/-- One step at a code position: the code word, with its symbol latched, or its fault. -/
theorem step_code {m : Nat} {j : Fin 3} {s : State} (hs : InUnits m j s) (hupc : s.upc = .code) :
    (∃ y u, huffDecode (selectedTable s).1 (selectedTable s).2 s = .cont y u ∧ u.sym = y ∧ BitFrame s u ∧
        step s = .next (setUpc .symbol u)) ∨
      ∃ c pos val u, huffDecode (selectedTable s).1 (selectedTable s).2 s = raise c pos val u ∧
        step s = .next (faultEntry c pos val u) := by
  have hstep : step s = thenDo (exec (fetchCode s) s) (sequence (fetchCode s)) := by
    rw [step_of_no_host hs.host, runStep_of_fetch hs.busy]
    rw [fetch_entropy hs.phase, fetchEntropy_code hupc, fetchAtCode_unit hs.grain]
  rw [exec_fetchCode] at hstep
  have hfault : ∀ {c pos val u}, huffDecode (selectedTable s).1 (selectedTable s).2 s = raise c pos val u →
      step s = .next (faultEntry c pos val u) := fun heq => by
    rw [hstep, heq, Flow.toOutcome_raise, thenDo_next, thenDo_sequence_faultEntry]
  obtain ⟨w, -, -, ⟨-, -, heq⟩ | heq | heq⟩ := huffDecode_cases (selectedTable s).1 (selectedTable s).2 s
  · refine .inl ⟨_, _, heq, rfl, rfl, ?_⟩
    rw [hstep, heq, Flow.toOutcome_cont, thenDo_next]
    exact sequence_fetchCode s hs.busy
  · exact .inr ⟨_, _, _, _, heq, hfault heq⟩
  · exact .inr ⟨_, _, _, _, heq, hfault heq⟩

/-- One step at a symbol position. -/
theorem step_symbol {m : Nat} {j : Fin 3} {s : State} (hs : InUnits m j s) (hupc : s.upc = .symbol) :
    step s = if s.k = 0 then thenDo (exec (decodeDcSym s.sym) s) (sequence (decodeDcSym s.sym))
      else thenDo (exec (decodeAcSym s.sym) s) (sequence (decodeAcSym s.sym)) := by
  rw [step_of_no_host hs.host, runStep_of_fetch hs.busy (by rw [fetch_entropy hs.phase, fetchEntropy_symbol hupc])]
  split <;> rfl

/-- An AC symbol that does not end the block moves `k` on. -/
theorem acUnitSymbol_k {m : Nat} {j : Fin 3} {y : Byte} {s u : State} {a : Unit} (h : acUnitSymbol m j y s = .cont a u) :
    s.k.toNat < u.k.toNat ∧ u.k.toNat ≤ 64 := by
  have hk := s.k.isLt
  unfold acUnitSymbol at h
  split at h
  · unfold acZrl at h
    split at h
    · cases h
    · cases h
      have hnext : (s.k + 16).toNat = s.k.toNat + 16 := by
        rw [BitVec.toNat_add]
        simp
        omega
      show s.k.toNat < (s.k + 16).toNat ∧ (s.k + 16).toNat ≤ 64
      omega
  · generalize (y.extractLsb' 4 4).toNat = r at h
    generalize (y.extractLsb' 0 4).toNat = n at h
    unfold acRunSize at h
    split at h
    · cases h
    · cases hch : channelOf s j with
      | none =>
        rw [hch] at h
        cases h
      | some ch =>
        rw [hch] at h
        obtain ⟨w, -, -, heq⟩ | ⟨w, -, -, heq⟩ := receiveExtend_cases n { s with k := s.k + BitVec.ofNat 7 r }
        · dsimp only at h
          rw [heq, Flow.bind_cont] at h
          cases h
          have hnext : (s.k + BitVec.ofNat 7 r + 1).toNat = s.k.toNat + r + 1 := by
            rw [BitVec.toNat_add, BitVec.toNat_add, BitVec.toNat_ofNat]
            simp
            omega
          show s.k.toNat < (s.k + BitVec.ofNat 7 r + 1).toNat ∧ (s.k + BitVec.ofNat 7 r + 1).toNat ≤ 64
          omega
        · dsimp only at h
          rw [heq] at h
          cases h

/-- The code word of a unit in single steps: its symbol is latched, or its fault ends the run. -/
theorem steps_code {m : Nat} {j : Fin 3} {s : State} (hs : InUnits m j s) {c : HClass} {t : BitVec 2}
    (htable : selectedTable s = (c, t)) :
    (∃ y u, huffDecode c t s = .cont y u ∧ u.sym = y ∧ u.k = s.k ∧ InUnits m j u ∧
        step (setUpc .code s) = .next (setUpc .symbol u)) ∨
      ∃ u, huffDecode c t s = .ended u ∧ u.state ≠ .busy ∧ step (setUpc .code s) = .next u := by
  have htable' : selectedTable (setUpc .code s) = (c, t) := htable
  obtain ⟨y, u, hdecode, hsym, hframe, hstep⟩ | ⟨ca, pos, val, u, hdecode, hstep⟩ := step_code (hs.setUpc .code) rfl
  · rw [htable', huffDecode_setUpc] at hdecode
    obtain ⟨v, hv, rfl⟩ := Flow.withUpc_eq_cont hdecode
    have hunits : InUnits m j (setUpc .code v) := (hs.setUpc .code).of_frame hframe.block
    exact .inl ⟨y, v, hv, hsym, hframe.k, ⟨hunits.busy, hunits.phase, hunits.host, hunits.grain, hunits.mcu, hunits.slot⟩, hstep⟩
  · rw [htable', huffDecode_setUpc] at hdecode
    exact .inr ⟨_, Flow.withUpc_eq_ended hdecode, by simp, hstep⟩

/-- A block that is complete goes on as DECODE_BLOCK does. -/
theorem sequence_decodeBlock {s : State} (hbusy : s.state = .busy) (m : Word) (j : Fin 3) :
    sequence (.decodeBlock m j) s = finishBlock s := if_neg (not_not_intro hbusy)

/-- EOB completes the block. -/
theorem step_eob {m : Nat} {j : Fin 3} {u : State} (hu : InUnits m j u) (hk : u.k ≠ 0) (hsym : u.sym = 0x00) :
    step (setUpc .symbol u) = finishBlock (setUpc .blockEnd u) := by
  have hk' : (setUpc .symbol u).k ≠ 0 := hk
  have hsym' : (setUpc .symbol u).sym = 0x00 := hsym
  rw [step_symbol (hu.setUpc .symbol) rfl, if_neg hk', hsym', exec_decodeAcSym_eob, thenDo_next,
    sequence_decodeAcSym _ (by exact hu.busy), afterAc_of_full (.inl rfl)]
  rfl

/-- Any other AC symbol does what it does in the loop, and the loop goes on unless a fault has ended the run. -/
theorem step_acSymbol {m : Nat} {j : Fin 3} {u : State} (hu : InUnits m j u) (hk : u.k ≠ 0) (hsym : u.sym ≠ 0x00) :
    step (setUpc .symbol u) =
      match acUnitSymbol m j u.sym u with
      | .cont _ v => afterAc (setUpc .symbol v)
      | .ended v => .next v
      | .stop e => .fault e
      | .refuse r => .refused r := by
  have hk' : (setUpc .symbol u).k ≠ 0 := hk
  have hexec : exec (decodeAcSym u.sym) (setUpc .symbol u) = ((acUnitSymbol m j u.sym u).withUpc .symbol).toOutcome := by
    rw [exec_decodeAcSym hsym, ← acUnitSymbol_setUpc, (hu.setUpc .symbol).mcu, (hu.setUpc .symbol).slot]
  have hupto := upto_acUnitSymbol m j u.sym u
  rw [step_symbol (hu.setUpc .symbol) rfl, if_neg hk', show (setUpc .symbol u).sym = u.sym from rfl, hexec]
  cases hsymbol : acUnitSymbol m j u.sym u with
  | cont a v =>
    rw [hsymbol] at hupto
    exact sequence_decodeAcSym _ (hu.of_frame hupto.frame).busy
  | ended v =>
    rw [hsymbol] at hupto
    obtain ⟨t, c, pos, val, -, rfl⟩ := hupto
    exact thenDo_sequence_faultEntry ..
  | stop e => rfl
  | refuse r => rfl

/-- The loop is left where position 63 is filled. -/
theorem steps_acLoop_of_full {m : Nat} {j : Fin 3} {s : State} (hs : InUnits m j s) (hk : 63 < s.k.toNat) (n : Nat) (M : Word) :
    ∃ N, thenDo (afterAc (setUpc .symbol s)) (steps N) =
      thenDo (acLoop m j n s).toOutcome (sequence (.decodeBlock M j)) := by
  refine ⟨0, ?_⟩
  rw [acLoop_of_full hk, Flow.toOutcome_cont, thenDo_next, sequence_decodeBlock hs.busy,
    afterAc_of_full (s := setUpc .symbol s) (.inr hk), finishBlock_setUpc]
  cases finishBlock s <;> rfl

/-- From a symbol that has been performed to the end of the block: the steps of the AC loop (spec R229). -/
theorem steps_acLoop {m : Nat} {j : Fin 3} {n : Nat} {s : State} (hs : InUnits m j s) (h0 : 0 < s.k.toNat)
    (hn : 64 ≤ s.k.toNat + n) (M : Word) :
    ∃ N, thenDo (afterAc (setUpc .symbol s)) (steps N) =
      thenDo (acLoop m j n s).toOutcome (sequence (.decodeBlock M j)) := by
  induction n generalizing s with
  | zero => exact steps_acLoop_of_full hs (by omega) 0 M
  | succ n ih =>
    by_cases hk : 63 < s.k.toNat
    · exact steps_acLoop_of_full hs hk (n + 1) M
    have hne : s.k ≠ 0 := fun h => by simp [h] at h0
    have htable : selectedTable s = (.ac, taSel s j) := by rw [selectedTable_of_ac hne, hs.slot]
    rw [afterAc_of_open (s := setUpc .symbol s) (by simp [setUpc]) (Nat.le_of_not_lt hk), acLoop_succ (Nat.le_of_not_lt hk)]
    show ∃ N, steps N (setUpc .code s) = _
    obtain ⟨y, u, hdecode, rfl, hku, hu, hstep⟩ | ⟨u, hdecode, hstopped, hstep⟩ := steps_code hs htable
    · have hneu : u.k ≠ 0 := by rwa [hku]
      have hsteps : ∀ N, steps (N + 2) (setUpc .code s) = thenDo (step (setUpc .symbol u)) (steps N) := fun N => by
        rw [steps_succ_of_next hstep, steps_succ]
      rw [hdecode, Flow.bind_cont]
      by_cases hy : u.sym = 0x00
      · refine ⟨2, (hsteps 0).trans ?_⟩
        rw [step_eob hu hneu hy, if_pos hy, acEob, Flow.toOutcome_cont, thenDo_next, sequence_decodeBlock (by exact hu.busy)]
        show thenDo (finishBlock (setUpc .blockEnd u)) (steps 0) = finishBlock (setUpc .blockEnd u)
        cases finishBlock (setUpc .blockEnd u) <;> rfl
      · rw [if_neg hy]
        have hsymbol := step_acSymbol hu hneu hy
        have hupto := upto_acUnitSymbol m j u.sym u
        cases hx : acUnitSymbol m j u.sym u with
        | cont a v =>
          rw [hx] at hsymbol hupto
          obtain ⟨hlt, -⟩ := acUnitSymbol_k hx
          rw [hku] at hlt
          obtain ⟨N, hN⟩ := ih (hu.of_frame hupto.frame) (by omega) (by omega)
          exact ⟨N + 2, by rw [hsteps, hsymbol, hN, Flow.bind_cont]⟩
        | ended v =>
          rw [hx] at hsymbol hupto
          obtain ⟨t, c, pos, val, -, rfl⟩ := hupto
          refine ⟨2, (hsteps 0).trans ?_⟩
          rw [hsymbol, Flow.bind_ended, Flow.toOutcome_ended, thenDo_next, thenDo_next, thenDo_sequence_faultEntry]
          rfl
        | stop e =>
          rw [hx] at hsymbol
          exact ⟨2, (hsteps 0).trans (by rw [hsymbol]; rfl)⟩
        | refuse r =>
          rw [hx] at hsymbol
          exact ⟨2, (hsteps 0).trans (by rw [hsymbol]; rfl)⟩
    · refine ⟨1, ?_⟩
      rw [hdecode, Flow.bind_ended, Flow.toOutcome_ended, thenDo_next, sequence_of_not_busy _ hstopped, steps_one, hstep]

/-- The DC symbol of a block, and then the AC loop begins, unless a fault has ended the run. -/
theorem step_dcSymbol {m : Nat} {j : Fin 3} {u : State} (hu : InUnits m j u) (hk : u.k = 0) :
    step (setUpc .symbol u) =
      match dcUnitSymbol m j u.sym u with
      | .cont _ v => .next (setUpc .code { v with k := 1 })
      | .ended v => .next v
      | .stop e => .fault e
      | .refuse r => .refused r := by
  have hk' : (setUpc .symbol u).k = 0 := hk
  have hexec : exec (decodeDcSym u.sym) (setUpc .symbol u) = ((dcUnitSymbol m j u.sym u).withUpc .symbol).toOutcome := by
    rw [exec_decodeDcSym, (hu.setUpc .symbol).mcu, (hu.setUpc .symbol).slot, ← dcUnitSymbol_setUpc]
  have hupto := upto_dcUnitSymbol m j u.sym u
  rw [step_symbol (hu.setUpc .symbol) rfl, if_pos hk', show (setUpc .symbol u).sym = u.sym from rfl, hexec]
  cases hsymbol : dcUnitSymbol m j u.sym u with
  | cont a v =>
    rw [hsymbol] at hupto
    have hy : ¬11 < u.sym.toNat := fun hy => by
      rw [dcUnitSymbol, if_pos hy] at hsymbol
      cases hsymbol
    exact sequence_decodeDcSym hy (hu.of_frame hupto.frame).busy
  | ended v =>
    rw [hsymbol] at hupto
    obtain ⟨t, c, pos, val, -, rfl⟩ := hupto
    exact thenDo_sequence_faultEntry ..
  | stop e => rfl
  | refuse r => rfl

/-- The block from its beginning: the DC unit, then the AC loop (spec R220). -/
theorem steps_decodeBlock {m : Nat} {j : Fin 3} {s : State} (hs : InUnits m j s) (hk : s.k = 0) (M : Word) :
    ∃ N, steps N (setUpc .code s) =
      thenDo ((decodeDcUnit m j s).bind fun _ s => decodeAcUnits m j { s with k := 1 }).toOutcome
        (sequence (.decodeBlock M j)) := by
  have htable : selectedTable s = (.dc, tdSel s j) := by rw [selectedTable_of_dc hk, hs.slot]
  rw [decodeDcUnit_eq]
  obtain ⟨y, u, hdecode, rfl, hku, hu, hstep⟩ | ⟨u, hdecode, hstopped, hstep⟩ := steps_code hs htable
  · have hsteps : ∀ N, steps (N + 2) (setUpc .code s) = thenDo (step (setUpc .symbol u)) (steps N) := fun N => by
      rw [steps_succ_of_next hstep, steps_succ]
    rw [hdecode, Flow.bind_cont]
    have hsymbol := step_dcSymbol hu (by rw [hku, hk])
    have hupto := upto_dcUnitSymbol m j u.sym u
    cases hx : dcUnitSymbol m j u.sym u with
    | cont a v =>
      rw [hx] at hsymbol hupto
      have hv : InUnits m j { v with k := 1 } :=
        (hu.of_frame hupto.frame).of_frame (show BlockFrame v { v with k := 1 } from rfl)
      obtain ⟨N, hN⟩ := steps_acLoop (n := 63) hv (show 0 < (1 : BitVec 7).toNat by decide)
        (show 64 ≤ (1 : BitVec 7).toNat + 63 by decide) M
      rw [afterAc_of_open (s := setUpc .symbol { v with k := 1 }) (by simp [setUpc]) (show (1 : BitVec 7).toNat ≤ 63 by decide)]
        at hN
      refine ⟨N + 2, ?_⟩
      rw [hsteps, hsymbol, Flow.bind_cont]
      exact hN
    | ended v =>
      rw [hx] at hsymbol hupto
      obtain ⟨t, c, pos, val, -, rfl⟩ := hupto
      refine ⟨2, (hsteps 0).trans ?_⟩
      rw [hsymbol, Flow.bind_ended, Flow.toOutcome_ended, thenDo_next, thenDo_next, thenDo_sequence_faultEntry]
      rfl
    | stop e =>
      rw [hx] at hsymbol
      exact ⟨2, (hsteps 0).trans (by rw [hsymbol]; rfl)⟩
    | refuse r =>
      rw [hx] at hsymbol
      exact ⟨2, (hsteps 0).trans (by rw [hsymbol]; rfl)⟩
  · refine ⟨1, ?_⟩
    rw [hdecode, Flow.bind_ended, Flow.bind_ended, Flow.toOutcome_ended, thenDo_next, sequence_of_not_busy _ hstopped, steps_one,
      hstep]

theorem setUpc_clearBlock (m ch : Nat) (j : Fin 3) (s : State) :
    setUpc .code (clearBlock m ch { s with slot := j }) = { zeroBlock m ch s with slot := j, k := 0, upc := .code } := by
  unfold clearBlock
  dsimp only [setUpc, zeroBlock]

theorem clearBlock_k (m ch : Nat) (s : State) : (clearBlock m ch s).k = 0 := by
  unfold clearBlock
  dsimp only

end Sys2Proof.Machine

namespace Sys2Proof.Proofs

open Sys2Proof.Machine

/-- Settles O42: one step for each code word and symbol, by induction on the passes of the AC loop. -/
theorem blockIsItsUnits : Obligations.BlockIsItsUnits := by
  unfold Obligations.BlockIsItsUnits
  intro s b j hbusy hphase hhost hgrain hbegin
  obtain ⟨slot, ch, hslot, hch, heq⟩ | ⟨-, heq⟩ | ⟨-, heq⟩ := beginBlock_cases j.val s
  · rw [slotOf_val] at hslot
    cases hslot
    rw [hbegin] at heq
    cases heq
    have hs : InUnits s.mcu.toNat j { s with slot := j } := ⟨hbusy, hphase, hhost, hgrain, rfl, rfl⟩
    obtain ⟨N, hN⟩ := steps_decodeBlock (hs.of_frame (blockFrame_clearBlock s.mcu.toNat ch.val _)) (clearBlock_k ..) s.mcu
    refine ⟨N, ?_⟩
    rw [← setUpc_clearBlock, hN, exec_decodeBlock,
      decodeBlockOf_of_channel (s := { s with slot := j }) (channelOf_eq_some.mp hch)]
  · rw [hbegin] at heq
    cases heq
  · rw [hbegin] at heq
    cases heq

end Sys2Proof.Proofs
end

section
/-! Dequantizer, inverse DCT, colour conversion and placement (spec R251, R252, R268 to R271, R291 to R297): each operation of RECON
on its own. -/

namespace Sys2Proof.Machine

/-! DEQUANT. -/

theorem exec_dequant (m : Word) (ch : Fin 3) (tq : BitVec 2) (s : State) :
    exec (.dequant m ch tq) s = .next (dequantBlock m.toNat ch.val tq s) := rfl

/-- ZZ is a bijection on 0..63 (spec R251). -/
theorem zz_idxOf : ∀ n, n < 64 → zzTable.idxOf n < 64 ∧ zz (zzTable.idxOf n) = n := by decide

theorem exists_zz (n : Nat) (hn : n < 64) : ∃ k, k < 64 ∧ zz k = n := ⟨_, zz_idxOf n hn⟩

theorem zz_lt : ∀ k, k < 64 → zz k < 64 := by decide

theorem nodup_zz : ((List.range 64).map zz).Nodup := by decide

theorem dequantBlock_frame (m ch : Nat) (tq : BitVec 2) (s : State) :
    dequantBlock m ch tq s = { s with dq := (dequantBlock m ch tq s).dq, draws := s.draws + 1 } := by
  dsimp only [dequantBlock, bumpDraws]

theorem map_fst_dequantBlock (m ch : Nat) (tq : BitVec 2) (s : State) :
    ((List.range 64).map fun k => (zz k, dequantized m ch tq s k)).map Prod.fst = (List.range 64).map zz := by
  rw [List.map_map]
  rfl

theorem get?_dq_dequantBlock (m ch : Nat) (tq : BitVec 2) (s : State) {k : Nat} (hk : k < 64) :
    Memory.get? (dequantBlock m ch tq s).dq (zz k) = some (dequantized m ch tq s k) := by
  dsimp only [dequantBlock]
  refine Memory.get?_setAll_of_mem _ ?_ (List.mem_map.mpr ⟨k, List.mem_range.mpr hk, rfl⟩)
  rw [map_fst_dequantBlock]
  exact nodup_zz

theorem get?_dq_dequantBlock_outside (m ch : Nat) (tq : BitVec 2) (s : State) {a : Nat} (ha : 64 ≤ a) :
    Memory.get? (dequantBlock m ch tq s).dq a = Memory.get? s.dq a := by
  dsimp only [dequantBlock]
  refine Memory.get?_setAll_of_not_mem _ _ ?_
  rw [map_fst_dequantBlock, List.mem_map]
  rintro ⟨k, hk, rfl⟩
  exact absurd (zz_lt k (List.mem_range.mp hk)) (Nat.not_lt.mpr ha)

theorem listed_dq_dequantBlock (m ch : Nat) (tq : BitVec 2) (s : State) {n : Nat} (hn : n < 64) :
    Listed (dequantBlock m ch tq s).dq n := by
  obtain ⟨k, hk, rfl⟩ := exists_zz n hn
  exact Option.isSome_of_eq_some (get?_dq_dequantBlock m ch tq s hk)

/-- A listed entry reads as the value the statements name. -/
theorem Memory.read_of_listed {α : Type} {m : Memory α} {a : Nat} (h : Listed m a) (free d : α) :
    Memory.read m free a = (Memory.get? m a).getD d := by
  obtain ⟨v, hv⟩ := Option.isSome_iff_exists.mp h
  rw [Memory.read_of_get? hv, hv, Option.getD_some]

/-- The product of a 16-bit coefficient and a 16-bit table entry fits 32 bits (spec R252). -/
theorem toInt_ofInt_product (c q : BitVec 16) : (BitVec.ofInt 32 (c.toInt * q.toNat)).toInt = c.toInt * q.toNat := by
  have hlow : -2 ^ 15 ≤ c.toInt := BitVec.le_toInt c
  have hhigh : c.toInt < 2 ^ 15 := BitVec.toInt_lt
  have hq := q.isLt
  refine BitVec.toInt_ofInt_eq_self (by decide) ?_ ?_
  · calc (-2 ^ (32 - 1) : Int) ≤ -2 ^ 15 * q.toNat := by omega
      _ ≤ c.toInt * q.toNat := Int.mul_le_mul_of_nonneg_right hlow (by omega)
  · calc c.toInt * q.toNat ≤ (2 ^ 15 - 1) * q.toNat := Int.mul_le_mul_of_nonneg_right (by omega) (by omega)
      _ < 2 ^ (32 - 1) := by omega

/-- Where coefficient and table are written, DQ holds their exact product. -/
theorem dqInt_dequantBlock {m ch : Nat} {tq : BitVec 2} {s : State} (hcoef : CoefListed s m ch) (hquant : QuantListed s tq)
    {k : Nat} (hk : k < 64) : dqInt (dequantBlock m ch tq s) (zz k) = coefInt s m ch k * quantNat s tq (zz k) := by
  rw [dqInt, get?_dq_dequantBlock m ch tq s hk, Option.getD_some, dequantized, coefAt, qtabAt,
    Memory.read_of_listed (hcoef k hk) _ 0, Memory.read_of_listed (hquant (zz k) (zz_lt k hk)) _ 0, toInt_ofInt_product]
  rfl

/-! IDCT. -/

theorem exec_idct (ch : Fin 3) (s : State) : exec (.idct ch) s = .next (idctBlock ch.val s) := rfl

/-- The magnitudes of a row of M add up to 21641 (spec R267). -/
theorem sum8_idctM_bound {n : Nat} (hn : n < 8) {d : Nat → Int} {b : Int} (h : ∀ u, u < 8 → -b ≤ d u ∧ d u ≤ b) :
    -(21641 * b) ≤ sum8 (fun u => idctM n u * d u) ∧ sum8 (fun u => idctM n u * d u) ≤ 21641 * b := by
  have h0 := h 0 (by decide)
  have h1 := h 1 (by decide)
  have h2 := h 2 (by decide)
  have h3 := h 3 (by decide)
  have h4 := h 4 (by decide)
  have h5 := h 5 (by decide)
  have h6 := h 6 (by decide)
  have h7 := h 7 (by decide)
  interval_cases n <;> simp [sum8, idctM, idctTable] <;> omega

/-- The first pass is exact in 47 bits (spec R268). -/
theorem toInt_passOne {dq : Nat → Int} (hdq : ∀ i, i < 64 → -2 ^ 31 ≤ dq i ∧ dq i ≤ 2 ^ 31) {v x : Nat} (hv : v < 8)
    (hx : x < 8) :
    (passOne dq v x).toInt = sum8 fun u => idctM x u * dq (8 * v + u) := by
  have hbound := sum8_idctM_bound hx (d := fun u => dq (8 * v + u)) fun u hu => hdq (8 * v + u) (by omega)
  exact BitVec.toInt_ofInt_eq_self (by decide) (by omega) (by omega)

theorem sum8_congr {f g : Nat → Int} (h : ∀ n, n < 8 → f n = g n) : sum8 f = sum8 g := by
  unfold sum8
  rw [h 0 (by decide), h 1 (by decide), h 2 (by decide), h 3 (by decide), h 4 (by decide), h 5 (by decide), h 6 (by decide),
    h 7 (by decide)]

/-- The second pass is exact in 61 bits, and both together are the 64-term sum (spec R269). -/
theorem toInt_passTwo {dq : Nat → Int} (hdq : ∀ i, i < 64 → -2 ^ 31 ≤ dq i ∧ dq i ≤ 2 ^ 31) {y x : Nat} (hy : y < 8)
    (hx : x < 8) :
    (passTwo dq y x).toInt = sum8 fun v => sum8 fun u => idctM y v * idctM x u * dq (8 * v + u) := by
  have hbound := sum8_idctM_bound hy (d := fun v => (passOne dq v x).toInt) (b := 21641 * 2 ^ 31) fun v hv => by
    rw [toInt_passOne hdq hv hx]
    exact sum8_idctM_bound hx fun u hu => hdq (8 * v + u) (by omega)
  refine (BitVec.toInt_ofInt_eq_self (by decide) (by omega) (by omega)).trans (sum8_congr fun v hv => ?_)
  rw [toInt_passOne hdq hv hx]
  unfold sum8
  ring

theorem dqAt_of_listed {s : State} {x i : Nat} (h : Listed s.dq i) : dqAt s x i = dqInt s i := by
  rw [dqAt, Memory.read_of_listed h _ 0, dqInt]

theorem dqInt_bound (s : State) (i : Nat) : -2 ^ 31 ≤ dqInt s i ∧ dqInt s i ≤ 2 ^ 31 := by
  have hlow : -2 ^ 31 ≤ dqInt s i := BitVec.le_toInt _
  have hhigh : dqInt s i < 2 ^ 31 := BitVec.toInt_lt
  omega

theorem passTwo_congr {dq dq' : Nat → Int} (h : ∀ i, i < 64 → dq i = dq' i) (y x : Nat) : passTwo dq y x = passTwo dq' y x := by
  unfold passTwo passOne
  refine congrArg _ (sum8_congr fun v hv => ?_)
  rw [sum8_congr (f := fun u => idctM x u * dq (8 * v + u)) (g := fun u => idctM x u * dq' (8 * v + u)) fun u hu => by
    rw [h _ (by omega)]]

/-- The outputs of both passes, for every position of the block. -/
theorem get?_out_idctPasses (s : State) {n : Nat} (hn : n < 64) :
    Memory.get? (idctPasses s).out n = some (outValue (dqAt s (n % 8)) (n / 8) (n % 8)) := by
  dsimp only [idctPasses]
  rw [Memory.get?_setRange, if_pos (by omega), Nat.sub_zero]

theorem idctBlock_frame (ch : Nat) (s : State) :
    idctBlock ch s =
      { s with
        t := (idctBlock ch s).t, acc := (idctBlock ch s).acc, out := (idctBlock ch s).out, samp := (idctBlock ch s).samp
        draws := s.draws + 2 } := by
  dsimp only [idctBlock, levelShift, idctPasses, bumpDraws]

theorem listed_samp_idctBlock (ch : Nat) (s : State) {n : Nat} (hn : n < 64) : Listed (idctBlock ch s).samp (64 * ch + n) :=
  listed_samp_levelShift ch _ hn

theorem get?_samp_idctBlock_outside (ch : Nat) (s : State) {a : Nat} (ha : a < 64 * ch ∨ 64 * ch + 64 ≤ a) :
    Memory.get? (idctBlock ch s).samp a = Memory.get? s.samp a := by
  rw [idctBlock, get?_samp_levelShift_outside ch _ ha, idctPasses_samp]

/-- Where DQ is written, the sample is the direct sum (spec R269, R271). -/
theorem get?_samp_idctBlock (ch : Nat) {s : State} (hdq : ∀ n, n < 64 → Listed s.dq n) {n : Nat} (hn : n < 64) :
    Memory.get? (idctBlock ch s).samp (64 * ch + n) = some (sampleOf (dqInt s) (n / 8) (n % 8)) := by
  rw [idctBlock, get?_samp_levelShift_of_out ch hn (get?_out_idctPasses s hn), outValue,
    passTwo_congr (fun i hi => dqAt_of_listed (hdq i hi)), roundOut,
    toInt_passTwo (fun i _ => dqInt_bound s i) (by omega) (by omega)]
  rfl

/-! Colour conversion. -/

theorem toNat_clampByte (x : Int) : ((clampByte x).toNat : Int) = clamp x 0 255 := by
  have hrange : 0 ≤ clamp x 0 255 ∧ clamp x 0 255 ≤ 255 := by
    unfold clamp
    split_ifs <;> omega
  rw [clampByte, BitVec.toNat_ofInt]
  omega

/-- A multiple of a million passes through the rounding (spec R294). -/
theorem toNat_roundMillionths (y : Nat) (c : Int) :
    ((roundMillionths (1000000 * y + c)).toNat : Int) = clamp (y + fdiv (c + 500000) 1000000) 0 255 := by
  have hshift : fdiv (1000000 * y + c + 500000) 1000000 = y + fdiv (c + 500000) 1000000 := by
    unfold fdiv
    rw [add_assoc, Int.add_comm, Int.add_mul_ediv_left _ _ (by decide), Int.add_comm]
  rw [roundMillionths, toNat_clampByte, hshift]

theorem exec_ycc2rgb (y cb cr : Byte) (s : State) : exec (.ycc2rgb y cb cr) s = .next { s with pixel := yccToRgb y cb cr } := rfl

theorem exec_gray (y : Byte) (s : State) : exec (.gray y) s = .next { s with pixel := grayToRgb y } := rfl

/-! Placement. -/

/-- The MCU of the pixel in row `y`, column `x` (spec R297). -/
def mcuAt (s : State) (y x : Nat) : Nat := y / 8 * mcuCols s + x / 8

/-- The place of that pixel in its MCU. -/
def placeAt (y x : Nat) : Nat := 8 * (y % 8) + x % 8

theorem le_ceil8 (n : Nat) : n ≤ 8 * ceil8 n := by
  unfold ceil8
  omega

theorem placeAt_lt (y x : Nat) : placeAt y x < 64 := by
  unfold placeAt
  omega

theorem mcuAt_lt {s : State} {y x : Nat} (hy : y < 8 * mcuRows s) (hx : x < 8 * mcuCols s) : mcuAt s y x < nMcu s := by
  have hcol : x / 8 < mcuCols s := by omega
  have hrow : y / 8 + 1 ≤ mcuRows s := by omega
  calc y / 8 * mcuCols s + x / 8 < (y / 8 + 1) * mcuCols s := by rw [Nat.succ_mul]; omega
    _ ≤ mcuRows s * mcuCols s := Nat.mul_le_mul_right _ hrow
    _ = nMcu s := Nat.mul_comm ..

/-- Row and column of the pixel at that place are those it was found from. -/
theorem pixel_mcuAt {s : State} {y x : Nat} (hx : x < 8 * mcuCols s) :
    pixelRow s (mcuAt s y x) (placeAt y x) = y ∧ pixelCol s (mcuAt s y x) (placeAt y x) = x := by
  have hcol : x / 8 < mcuCols s := by omega
  have hdiv : (y / 8 * mcuCols s + x / 8) / mcuCols s = y / 8 := by
    rw [Nat.mul_comm, Nat.mul_add_div (by omega), Nat.div_eq_of_lt hcol, Nat.add_zero]
  have hmod : (y / 8 * mcuCols s + x / 8) % mcuCols s = x / 8 := by
    rw [Nat.mul_comm, Nat.mul_add_mod, Nat.mod_eq_of_lt hcol]
  unfold pixelRow pixelCol mcuAt placeAt
  rw [hdiv, hmod]
  omega

/-- The place of a pixel is determined by its row and column. -/
theorem mcuAt_pixel {s : State} {m i : Nat} (hi : i < 64) :
    mcuAt s (pixelRow s m i) (pixelCol s m i) = m ∧ placeAt (pixelRow s m i) (pixelCol s m i) = i := by
  have hdiv := Nat.div_add_mod m (mcuCols s)
  unfold mcuAt placeAt pixelRow pixelCol
  rw [show (8 * (m / mcuCols s) + i / 8) / 8 = m / mcuCols s by omega, show (8 * (m % mcuCols s) + i % 8) / 8 = m % mcuCols s by omega]
  rw [Nat.mul_comm] at hdiv
  omega

theorem pixel_in_grid {s : State} {m i : Nat} (hm : m < nMcu s) (hi : i < 64) :
    pixelRow s m i < 8 * mcuRows s ∧ pixelCol s m i < 8 * mcuCols s := by
  have hpos : 0 < mcuCols s := by
    rcases Nat.eq_zero_or_pos (mcuCols s) with h | h
    · rw [nMcu, h, Nat.zero_mul] at hm
      omega
    · exact h
  have hrow : m / mcuCols s < mcuRows s := Nat.div_lt_of_lt_mul hm
  have hcol := Nat.mod_lt m hpos
  unfold pixelRow pixelCol
  omega

end Sys2Proof.Machine

namespace Sys2Proof.Proofs

open Sys2Proof.Machine

/-- Settles O43: ZZ is a bijection, so that each entry is written once. -/
theorem dequantBlock : Obligations.DequantBlock := by
  unfold Obligations.DequantBlock
  refine ⟨exists_zz, fun s m ch tq => ⟨Machine.dequantBlock m.toNat ch.val tq s, exec_dequant m ch tq s,
    dequantBlock_frame m.toNat ch.val tq s, fun n hn => listed_dq_dequantBlock _ _ _ _ hn,
    fun a ha => get?_dq_dequantBlock_outside _ _ _ _ ha, fun hcoef hquant k hk => dqInt_dequantBlock hcoef hquant hk⟩⟩

/-- Settles O44: neither pass loses a bit, so that both together are the one sum. -/
theorem inverseTransform : Obligations.InverseTransform := by
  unfold Obligations.InverseTransform
  refine fun s ch => ⟨idctBlock ch.val s, exec_idct ch s, idctBlock_frame ch.val s, fun n hn => listed_samp_idctBlock _ _ hn,
    fun a ha => get?_samp_idctBlock_outside _ _ ha, fun hdq y x hy hx => ?_⟩
  rw [get?_samp_idctBlock ch.val hdq (show 8 * y + x < 64 by omega), show (8 * y + x) / 8 = y by omega,
    show (8 * y + x) % 8 = x by omega]

/-- Settles O46: the millions of Y pass through the rounding. -/
theorem colourConversion : Obligations.ColourConversion := by
  unfold Obligations.ColourConversion
  refine ⟨fun s y cb cr => rfl, fun s y => rfl, fun s u y cb cr hexec => ?_⟩
  rw [exec_ycc2rgb] at hexec
  cases hexec
  refine ⟨toNat_roundMillionths y.toNat _, ?_, toNat_roundMillionths y.toNat _⟩
  have hsum : (1000000 * y.toNat - 344136 * (cb.toNat - 128) - 714136 * (cr.toNat - 128) : Int) =
      1000000 * y.toNat + (-344136 * (cb.toNat - 128) - 714136 * (cr.toNat - 128)) := by ring
  rw [← toNat_roundMillionths, ← hsum]
  rfl

/-- Settles O48: the MCU and the place in it are the quotient and the remainder of row and column. -/
theorem placementBijection : Obligations.PlacementBijection := by
  unfold Obligations.PlacementBijection
  refine fun s => ⟨le_ceil8 _, le_ceil8 _, fun m i hm hi => pixel_in_grid hm hi, fun y x hy hx => ?_⟩
  obtain ⟨hrow, hcol⟩ := pixel_mcuAt (y := y) hx
  refine ⟨(mcuAt s y x, placeAt y x), ⟨mcuAt_lt hy hx, placeAt_lt y x, hrow, hcol⟩, fun p' _ hi hrow' hcol' => ?_⟩
  obtain ⟨hmcu, hplace⟩ := mcuAt_pixel (s := s) (m := p'.1) hi
  rw [hrow', hcol'] at hmcu hplace
  rw [hmcu, hplace]

end Sys2Proof.Proofs
end

section
/-! The RECON phase (spec R252, R253, R270, R291 to R300): what every operation of it keeps, on any state, the pixels it stores where
coefficients and tables are written, and the reset input in the middle of it (spec R371). -/

namespace Sys2Proof.Machine

/-! Operations that raise no fault. -/

/-- The operation goes on, in a state with `P`; it stops only where `ok` does not hold, and it neither ends the run nor is refused. -/
def Flow.Goes {α : Type} (ok : Prop) (P : State → Prop) : Flow α → Prop
  | .cont _ s => P s
  | .ended _ => False
  | .stop _ => ¬ok
  | .refuse _ => False

theorem Flow.Goes.mono {α : Type} {ok ok' : Prop} {P Q : State → Prop} {x : Flow α} (hx : Flow.Goes ok P x) (hok : ok' → ok)
    (h : ∀ u, P u → Q u) : Flow.Goes ok' Q x := by
  cases x with
  | cont _ u => exact h u hx
  | ended u => exact hx
  | stop e => exact fun h' => hx (hok h')
  | refuse r => exact hx

theorem Flow.Goes.bind {α β : Type} {ok : Prop} {P Q : State → Prop} {x : Flow α} {f : α → State → Flow β}
    (hx : Flow.Goes ok P x) (hf : ∀ a u, P u → Flow.Goes ok Q (f a u)) : Flow.Goes ok Q (x.bind f) := by
  cases x with
  | cont a u => exact hf a u hx
  | ended u => exact hx
  | stop e => exact hx
  | refuse r => exact hx

/-- A loop over 0..n-1 whose body takes `P i` to `P (i + 1)`. -/
theorem Flow.Goes.forEach_range {ok : Prop} {P : Nat → State → Prop} {n : Nat} {f : Nat → State → Flow Unit}
    (hf : ∀ i, i < n → ∀ u, P i u → Flow.Goes ok (P (i + 1)) (f i u)) {s : State} (hs : P 0 s) :
    Flow.Goes ok (P n) (Flow.forEach (List.range n) f s) := by
  induction n with
  | zero => exact hs
  | succ n ih =>
    rw [List.range_succ, Flow.forEach_append]
    refine (ih fun i hi => hf i (by omega)).bind fun _ u hu => ?_
    exact (hf n (by omega) u hu).bind fun _ _ hv => hv

theorem Flow.Goes.exists_cont {α : Type} {ok : Prop} {P : State → Prop} {x : Flow α} (hx : Flow.Goes ok P x) (hok : ok) :
    ∃ a u, x = .cont a u ∧ P u := by
  cases x with
  | cont a u => exact ⟨a, u, rfl, hx⟩
  | ended u => exact hx.elim
  | stop e => exact absurd hok hx
  | refuse r => exact hx.elim

theorem Flow.Goes.of_toOutcome {α : Type} {ok : Prop} {P : State → Prop} {x : Flow α} (hx : Flow.Goes ok P x) {u : State}
    (h : x.toOutcome = .next u) : (∃ a, x = .cont a u) ∧ P u := by
  cases x with
  | cont a t =>
    cases h
    exact ⟨⟨a, rfl⟩, hx⟩
  | ended t => exact hx.elim
  | stop e => cases h
  | refuse r => cases h

/-! Frames. -/

/-- The fields that RECON writes before it ends. -/
def ReconFrame (s u : State) : Prop :=
  u = { s with
    mcu := u.mcu, dq := u.dq, t := u.t, acc := u.acc, out := u.out, samp := u.samp, rgb := u.rgb, pixel := u.pixel, pix := u.pix
    draws := u.draws }

theorem ReconFrame.refl (s : State) : ReconFrame s s := rfl

theorem ReconFrame.trans {s u v : State} (hu : ReconFrame s u) (hv : ReconFrame u v) : ReconFrame s v := by
  unfold ReconFrame at *
  rw [hv, hu]

/-- The buffers of a block and PIX are in their canonical form. -/
structure BuffersWf (s : State) : Prop where
  dq : Memory.wf s.dq = true
  t : Memory.wf s.t = true
  out : Memory.wf s.out = true
  samp : Memory.wf s.samp = true
  rgb : Memory.wf s.rgb = true
  pix : Memory.wf s.pix = true

/-- What every operation of RECON keeps. -/
structure ReconStep (s u : State) : Prop where
  frame : ReconFrame s u
  wf : BuffersWf s → BuffersWf u
  outside : ∀ a, 3 * width s * height s ≤ a → Memory.get? u.pix a = Memory.get? s.pix a

theorem ReconFrame.width {s u : State} (h : ReconFrame s u) : Machine.width u = Machine.width s := by
  unfold ReconFrame at h
  rw [h]
  rfl

theorem ReconFrame.height {s u : State} (h : ReconFrame s u) : Machine.height u = Machine.height s := by
  unfold ReconFrame at h
  rw [h]
  rfl

theorem ReconFrame.ncomp {s u : State} (h : ReconFrame s u) : Machine.ncomp u = Machine.ncomp s := by
  unfold ReconFrame at h
  rw [h]
  rfl

theorem ReconFrame.scancomp {s u : State} (h : ReconFrame s u) : u.scancomp = s.scancomp := by
  unfold ReconFrame at h
  rw [h]

theorem ReconFrame.coef {s u : State} (h : ReconFrame s u) : u.coef = s.coef := by
  unfold ReconFrame at h
  rw [h]

theorem ReconFrame.qtab {s u : State} (h : ReconFrame s u) : u.qtab = s.qtab := by
  unfold ReconFrame at h
  rw [h]

theorem ReconStep.refl (s : State) : ReconStep s s := ⟨rfl, id, fun _ _ => rfl⟩

theorem ReconStep.trans {s u v : State} (h : ReconStep s u) (h' : ReconStep u v) : ReconStep s v :=
  ⟨h.frame.trans h'.frame, h'.wf ∘ h.wf, fun a ha => by
    rw [h'.outside a (by rw [h.frame.width, h.frame.height]; exact ha), h.outside a ha]⟩

/-- What every operation within an MCU keeps. -/
structure ReconMcuStep (s u : State) : Prop extends ReconStep s u where
  mcu : u.mcu = s.mcu

theorem ReconMcuStep.refl (s : State) : ReconMcuStep s s := ⟨ReconStep.refl s, rfl⟩

theorem ReconMcuStep.trans {s u v : State} (h : ReconMcuStep s u) (h' : ReconMcuStep u v) : ReconMcuStep s v :=
  ⟨h.toReconStep.trans h'.toReconStep, h'.mcu.trans h.mcu⟩

/-- An operation that does not write PIX. -/
theorem reconMcuStep_of_pix {s u : State} (hframe : ReconFrame s u) (hwf : BuffersWf s → BuffersWf u) (hpix : u.pix = s.pix)
    (hmcu : u.mcu = s.mcu) : ReconMcuStep s u := ⟨⟨hframe, hwf, fun a _ => by rw [hpix]⟩, hmcu⟩

/-! One channel. -/

/-- DEQUANT and IDCT of a channel (spec R298). -/
def sampleBlock (m ch : Nat) (tq : BitVec 2) (s : State) : State := idctBlock ch (dequantBlock m ch tq s)

theorem reconMcuStep_dequantBlock (m ch : Nat) (tq : BitVec 2) (s : State) : ReconMcuStep s (dequantBlock m ch tq s) := by
  refine reconMcuStep_of_pix ?_ (fun h => ?_) (dequantBlock_pix ..) (dequantBlock_mcu ..)
  · unfold ReconFrame
    dsimp only [dequantBlock, bumpDraws]
  · refine ⟨?_, ?_, ?_, ?_, ?_, ?_⟩
    · dsimp only [dequantBlock]
      exact Memory.wf_setAll h.dq _
    · rw [dequantBlock_t]
      exact h.t
    · rw [dequantBlock_out]
      exact h.out
    · rw [dequantBlock_samp]
      exact h.samp
    · rw [dequantBlock_rgb]
      exact h.rgb
    · rw [dequantBlock_pix]
      exact h.pix

theorem reconMcuStep_idctPasses (s : State) : ReconMcuStep s (idctPasses s) := by
  refine reconMcuStep_of_pix ?_ (fun h => ?_) (idctPasses_pix ..) (idctPasses_mcu ..)
  · unfold ReconFrame
    dsimp only [idctPasses, bumpDraws]
  · refine ⟨?_, ?_, ?_, ?_, ?_, ?_⟩
    · rw [idctPasses_dq]
      exact h.dq
    · dsimp only [idctPasses]
      exact Memory.wf_setRange h.t ..
    · dsimp only [idctPasses]
      exact Memory.wf_setRange h.out ..
    · rw [idctPasses_samp]
      exact h.samp
    · rw [idctPasses_rgb]
      exact h.rgb
    · rw [idctPasses_pix]
      exact h.pix

theorem reconMcuStep_levelShift (ch : Nat) (s : State) : ReconMcuStep s (levelShift ch s) := by
  refine reconMcuStep_of_pix ?_ (fun h => ?_) (levelShift_pix ..) (levelShift_mcu ..)
  · unfold ReconFrame
    dsimp only [levelShift, bumpDraws]
  · refine ⟨?_, ?_, ?_, ?_, ?_, ?_⟩
    · rw [levelShift_dq]
      exact h.dq
    · rw [levelShift_t]
      exact h.t
    · rw [levelShift_out]
      exact h.out
    · dsimp only [levelShift]
      exact Memory.wf_setRange h.samp ..
    · rw [levelShift_rgb]
      exact h.rgb
    · rw [levelShift_pix]
      exact h.pix

theorem reconMcuStep_idctBlock (ch : Nat) (s : State) : ReconMcuStep s (idctBlock ch s) :=
  (reconMcuStep_idctPasses s).trans (reconMcuStep_levelShift ch _)

theorem reconMcuStep_sampleBlock (m ch : Nat) (tq : BitVec 2) (s : State) : ReconMcuStep s (sampleBlock m ch tq s) :=
  (reconMcuStep_dequantBlock m ch tq s).trans (reconMcuStep_idctBlock ch _)

/-- The component count is one that a run has, and every channel has a slot that feeds it. -/
def ChannelsFed (s : State) : Prop := ∀ n, n < ncomp s → ∃ ch : Fin 3, ch.val = n ∧ ∃ tq, tqOf s ch = some tq

theorem reconChannel_of_tqOf {m : Nat} {ch : Fin 3} {tq : BitVec 2} {s : State} (htq : tqOf s ch = some tq) :
    reconChannel m ch.val s = .cont () (sampleBlock m ch.val tq s) := by
  unfold reconChannel
  rw [slotOf_val]
  dsimp only
  rw [htq]
  rfl

theorem tqOf_congr {s u : State} (hcomp : ncomp u = ncomp s) (hscan : u.scancomp = s.scancomp) (ch : Fin 3) :
    tqOf u ch = tqOf s ch := by
  have hsel : tqSel u = tqSel s := by
    funext j
    rw [tqSel, tqSel, scancompOf, scancompOf, hscan]
  unfold tqOf usedSlots
  rw [hcomp, hsel]
  simp only [channelOf_congr hscan]

theorem ReconFrame.tqOf {s u : State} (h : ReconFrame s u) (ch : Fin 3) : Machine.tqOf u ch = Machine.tqOf s ch :=
  tqOf_congr h.ncomp h.scancomp ch

/-- Without a slot for the channel the model stops (log 15). -/
theorem reconChannel_cases (m n : Nat) (s : State) :
    (∃ ch : Fin 3, ∃ tq, ch.val = n ∧ tqOf s ch = some tq ∧ reconChannel m n s = .cont () (sampleBlock m ch.val tq s)) ∨
      ∃ e, reconChannel m n s = .stop e ∧ ¬∃ ch : Fin 3, ch.val = n ∧ ∃ tq, tqOf s ch = some tq := by
  by_cases hn : n < 3
  · cases htq : tqOf s ⟨n, hn⟩ with
    | some tq => exact .inl ⟨⟨n, hn⟩, tq, rfl, htq, reconChannel_of_tqOf (ch := ⟨n, hn⟩) htq⟩
    | none =>
      refine .inr ⟨.noChannel, ?_, ?_⟩
      · unfold reconChannel
        rw [slotOf_of_lt hn]
        dsimp only
        rw [htq]
      · rintro ⟨ch, rfl, tq, h⟩
        rw [htq] at h
        cases h
  · refine .inr ⟨.noSlot, ?_, fun ⟨ch, hch, _⟩ => hn (hch ▸ ch.isLt)⟩
    unfold reconChannel
    rw [slotOf, dif_neg hn]

theorem goes_reconChannel {m n : Nat} {s u : State} (hn : n < ncomp s) (hu : ReconMcuStep s u) :
    Flow.Goes (ChannelsFed s) (ReconMcuStep s) (reconChannel m n u) := by
  obtain ⟨ch, tq, -, -, heq⟩ | ⟨e, heq, hno⟩ := reconChannel_cases m n u
  · rw [heq]
    exact hu.trans (reconMcuStep_sampleBlock m ch.val tq u)
  · rw [heq]
    intro hfed
    obtain ⟨ch, hch, tq, htq⟩ := hfed n hn
    exact hno ⟨ch, hch, tq, by rw [hu.frame.tqOf]; exact htq⟩

/-! Pixels. -/

theorem keepPixel_rgb (i : Nat) (s : State) :
    (keepPixel i s).rgb = Memory.setAll s.rgb [(i, s.pixel.r), (64 + i, s.pixel.g), (128 + i, s.pixel.b)] := rfl

theorem reconMcuStep_keepPixel (i : Nat) (s : State) : ReconMcuStep s (keepPixel i s) :=
  reconMcuStep_of_pix rfl (fun h => ⟨h.dq, h.t, h.out, h.samp, Memory.wf_setAll h.rgb _, h.pix⟩) rfl rfl

theorem reconMcuStep_setPixel (p : Rgb) (s : State) : ReconMcuStep s { s with pixel := p } :=
  reconMcuStep_of_pix rfl (fun h => ⟨h.dq, h.t, h.out, h.samp, h.rgb, h.pix⟩) rfl rfl

theorem reconMcuStep_bumpDraws (s : State) : ReconMcuStep s (bumpDraws s) :=
  reconMcuStep_of_pix rfl (fun h => ⟨h.dq, h.t, h.out, h.samp, h.rgb, h.pix⟩) rfl rfl

theorem reconStep_setMcu (m : Word) (s : State) : ReconStep s { s with mcu := m } :=
  ⟨rfl, fun h => ⟨h.dq, h.t, h.out, h.samp, h.rgb, h.pix⟩, fun _ _ => rfl⟩

theorem reconMcuStep_convertPixel (i : Nat) (s : State) : ReconMcuStep s (convertPixel i s) :=
  (reconMcuStep_setPixel _ s).trans (reconMcuStep_keepPixel i _)

/-- The pixel lies in the image. -/
def InImage (s : State) (m i : Nat) : Prop := pixelRow s m i < height s ∧ pixelCol s m i < width s

/-- The number of a pixel in PIX, row by row (spec R57). -/
def pixelNumber (s : State) (m i : Nat) : Nat := pixelRow s m i * width s + pixelCol s m i

/-- The three bytes of a pixel in PIX. -/
def rgbByte (p : Rgb) (c : Nat) : Byte := if c = 0 then p.r else if c = 1 then p.g else p.b

/-- STOREPIX writes the three bytes of the pixel, where it lies in the image (spec R295). -/
theorem get?_pix_storePixel (m i : Nat) (p : Rgb) (s : State) (a : Nat) :
    (InImage s m i → a / 3 = pixelNumber s m i → Memory.get? (storePixel m i p s).pix a = some (rgbByte p (a % 3))) ∧
      (¬(InImage s m i ∧ a / 3 = pixelNumber s m i) → Memory.get? (storePixel m i p s).pix a = Memory.get? s.pix a) := by
  by_cases hin : InImage s m i
  · have hpix : Memory.get? (storePixel m i p s).pix a =
        if a = pixOffset s (pixelRow s m i) (pixelCol s m i) + 2 then some p.b
        else if a = pixOffset s (pixelRow s m i) (pixelCol s m i) + 1 then some p.g
        else if a = pixOffset s (pixelRow s m i) (pixelCol s m i) then some p.r
        else Memory.get? s.pix a := by
      rw [storePixel_of_inside hin.1 hin.2]
      simp only [Memory.setAll_cons, Memory.setAll_nil, Memory.get?_set]
    have hoffset : pixOffset s (pixelRow s m i) (pixelCol s m i) = 3 * pixelNumber s m i := rfl
    rw [hpix, hoffset]
    constructor
    · intro _ ha
      obtain hc | hc | hc : a % 3 = 0 ∨ a % 3 = 1 ∨ a % 3 = 2 := by omega
      · rw [if_neg (by omega), if_neg (by omega), if_pos (by omega), hc]
        rfl
      · rw [if_neg (by omega), if_pos (by omega), hc]
        rfl
      · rw [if_pos (by omega), hc]
        rfl
    · intro hno
      have ha : a / 3 ≠ pixelNumber s m i := fun ha => hno ⟨hin, ha⟩
      rw [if_neg (by omega), if_neg (by omega), if_neg (by omega)]
  · refine ⟨fun h => absurd h hin, fun _ => ?_⟩
    rw [storePixel_of_outside (by unfold InImage at hin; omega)]

/-- A pixel of the image has its bytes below the size of the image. -/
theorem pixelNumber_lt {s : State} {m i : Nat} (h : InImage s m i) : pixelNumber s m i < width s * height s := by
  obtain ⟨hrow, hcol⟩ := h
  calc pixelRow s m i * width s + pixelCol s m i < (pixelRow s m i + 1) * width s := by rw [Nat.succ_mul]; omega
    _ ≤ height s * width s := Nat.mul_le_mul_right _ hrow
    _ = width s * height s := Nat.mul_comm ..

theorem reconMcuStep_storePixel (m i : Nat) (p : Rgb) (s : State) : ReconMcuStep s (storePixel m i p s) := by
  refine ⟨⟨?_, fun h => ?_, fun a ha => (get?_pix_storePixel m i p s a).2 fun ⟨hin, hnum⟩ => ?_⟩, storePixel_mcu ..⟩
  · obtain ⟨a, -, heq⟩ | ⟨-, heq⟩ := storePixel_cases m i p s
    · rw [heq]
      rfl
    · rw [heq]
      exact ReconFrame.refl s
  · obtain ⟨a, -, heq⟩ | ⟨-, heq⟩ := storePixel_cases m i p s
    · rw [heq]
      exact ⟨h.dq, h.t, h.out, h.samp, h.rgb, Memory.wf_setAll h.pix _⟩
    · rw [heq]
      exact h
  · have := pixelNumber_lt hin
    rw [Nat.mul_assoc] at ha
    omega

/-! One MCU and the phase, on any state. -/

theorem goes_reconMcuOf (m : Nat) (s : State) : Flow.Goes (ChannelsFed s) (ReconMcuStep s) (reconMcuOf m s) := by
  refine (Flow.Goes.forEach_range (P := fun _ => ReconMcuStep s) (fun n hn u hu => goes_reconChannel hn hu)
    (ReconMcuStep.refl s)).bind fun _ u hu => ?_
  refine (Flow.Goes.forEach_range (P := fun _ => ReconMcuStep s) (f := fun i s => .cont () (convertPixel i s))
    (fun i _ v hv => hv.trans (reconMcuStep_convertPixel i v)) hu).bind fun _ v hv => ?_
  exact Flow.Goes.forEach_range (P := fun _ => ReconMcuStep s) (f := fun i s => .cont () (storePixel m i (rgbPixel s i) s))
    (fun i _ w hw => hw.trans (reconMcuStep_storePixel m i _ w)) (hv.trans (reconMcuStep_bumpDraws v))

theorem ReconStep.channelsFed {s u : State} (h : ReconStep s u) : ChannelsFed u ↔ ChannelsFed s := by
  unfold ChannelsFed
  simp only [h.frame.ncomp, h.frame.tqOf]

/-- RECON ends in DONE, or the model stops. -/
theorem goes_reconPhase (s : State) :
    Flow.Goes (ChannelsFed s) (fun u => ∃ v, ReconStep s v ∧ u = finishRun v) (reconPhase s) := by
  refine (Flow.Goes.forEach_range (P := fun _ => ReconStep s) (fun m _ u hu => ?_) (ReconStep.refl s)).bind
    fun _ u hu => ⟨u, hu, rfl⟩
  have hmcu := hu.trans (reconStep_setMcu (BitVec.ofNat 32 m) u)
  exact (goes_reconMcuOf m _).mono hmcu.channelsFed.mpr fun v hv => hmcu.trans hv.toReconStep

theorem exec_reconMcu (m : Word) (s : State) : exec (.reconMcu m) s = (reconMcuOf m.toNat s).toOutcome := rfl

theorem exec_recon (s : State) : exec .recon s = (reconPhase s).toOutcome := rfl

/-! The reset input (spec R371). -/

theorem reconDone_of_cont {s u : State} (h : reconPhase s = .cont () u) : reconDone s = u := by rw [reconDone, h]

/-- The state RECON leaves is the one `reconDone` names. -/
theorem reconDone_of_exec {s v : State} (h : exec .recon s = .next v) : reconDone s = v := by
  rw [exec_recon] at h
  obtain ⟨⟨a, heq⟩, -⟩ := (goes_reconPhase s).of_toOutcome h
  exact reconDone_of_cont heq

theorem pixAfterReset_of_not_recon {s : State} (h : s.state ≠ .busy ∨ s.phase ≠ .recon) : pixAfterReset s = s.pix :=
  if_neg (by rwa [not_and_or])

/-- In the RECON phase each byte of the image is new or old, and no other byte is written. -/
theorem get?_pixAfterReset (s : State) (a : Nat) :
    (3 * width s * height s ≤ a → Memory.get? (pixAfterReset s) a = Memory.get? s.pix a) ∧
      (s.state = .busy → s.phase = .recon → a < 3 * width s * height s →
        Memory.get? (pixAfterReset s) a = Memory.get? s.pixOld a ∨
          Memory.get? (pixAfterReset s) a = Memory.get? (pixFinal s) a) := by
  unfold pixAfterReset
  by_cases hrecon : s.state = .busy ∧ s.phase = .recon
  · rw [if_pos hrecon, get?_mixPix]
    refine ⟨fun ha => if_neg (by omega), fun _ _ ha => ?_⟩
    rw [if_pos ha]
    cases Config.freePixDone s.draws a
    · exact .inl rfl
    · exact .inr rfl
  · rw [if_neg hrecon]
    exact ⟨fun _ => rfl, fun hbusy hphase => absurd ⟨hbusy, hphase⟩ hrecon⟩

end Sys2Proof.Machine

namespace Sys2Proof.Proofs

open Sys2Proof.Machine

/-- Settles O15: the reset state with the environment kept; PIX mixes the old bytes and those that the rest of RECON would
store. -/
theorem resetValues : Obligations.ResetValues := by
  unfold Obligations.ResetValues
  refine ⟨by decide, fun s rest => ⟨resetInput { s with hostq := rest }, rfl, rfl, fun h => ?_, fun a ha => ?_,
    fun v hbusy hphase hexec a ha => ?_⟩⟩
  · exact pixAfterReset_of_not_recon (s := { s with hostq := rest }) h
  · exact (get?_pixAfterReset { s with hostq := rest } a).1 ha
  · rw [← reconDone_of_exec hexec]
    exact (get?_pixAfterReset { s with hostq := rest } a).2 hbusy hphase ha

end Sys2Proof.Proofs
end

section
/-! The pixels of RECON (spec R252, R253, R269 to R271, R291 to R300): where coefficients and tables are written, every pixel of the
image is the reference pixel. -/

namespace Sys2Proof.Machine

/-! The table of a channel (spec R253). -/

/-- Each channel of a scan is fed by a slot, and its table is the one of the statements. -/
theorem tqOf_of_launch {s : State} (hcount : CountOk s) (hids : IdsOk s) {ch : Fin 3} (hch : ch.val < ncomp s) :
    tqOf s ch = some (channelTable s ch.val) := by
  have hfeeds : ∀ j : Fin 3, (channelOf s j == some ch) = decide (cid s j = ch.val + 1) := fun j => by
    rw [Bool.eq_iff_iff, beq_iff_eq, decide_eq_true_eq]
    exact channelOf_eq_some
  have hrange : ∀ j : Fin 3, j.val < ncomp s → 1 ≤ cid s j ∧ cid s j ≤ ncomp s := fun j hj =>
    ⟨cid_pos hids hj, cid_le_ncomp hids hj⟩
  unfold tqOf channelTable
  simp only [hfeeds]
  obtain ⟨hn, hslots⟩ | ⟨hn, hslots⟩ := usedSlots_of_countOk hcount
  · have h0 := hrange 0 (by rw [hn]; decide)
    rw [hslots, if_pos (by omega), List.find?_cons_of_pos (by simpa using by omega)]
    rfl
  · have h0 := hrange 0 (by rw [hn]; decide)
    have h1 := hrange 1 (by rw [hn]; decide)
    have h2 := hrange 2 (by rw [hn]; decide)
    have h01 : cid s 0 ≠ cid s 1 := fun h => absurd (cid_injective hids (by rw [hn]; decide) (by rw [hn]; decide) h) (by decide)
    have h02 : cid s 0 ≠ cid s 2 := fun h => absurd (cid_injective hids (by rw [hn]; decide) (by rw [hn]; decide) h) (by decide)
    have h12 : cid s 1 ≠ cid s 2 := fun h => absurd (cid_injective hids (by rw [hn]; decide) (by rw [hn]; decide) h) (by decide)
    rw [hslots]
    by_cases hc0 : cid s 0 = ch.val + 1
    · rw [if_pos hc0, List.find?_cons_of_pos (by simpa using hc0)]
      rfl
    · rw [if_neg hc0, List.find?_cons_of_neg (by simpa using hc0)]
      by_cases hc1 : cid s 1 = ch.val + 1
      · rw [if_pos hc1, List.find?_cons_of_pos (by simpa using hc1)]
        rfl
      · rw [if_neg hc1, List.find?_cons_of_neg (by simpa using hc1), List.find?_cons_of_pos (by simpa using by omega)]
        rfl

theorem channelsFed_of_launch {s : State} (hcount : CountOk s) (hids : IdsOk s) : ChannelsFed s := fun n hn =>
  have h3 := ncomp_le_three hcount
  ⟨⟨n, by omega⟩, rfl, _, tqOf_of_launch hcount hids (ch := ⟨n, by omega⟩) hn⟩

/-! The samples of an MCU. -/

theorem sampleOf_congr {f g : Nat → Int} (h : ∀ n, n < 64 → f n = g n) {y x : Nat} : sampleOf f y x = sampleOf g y x := by
  unfold sampleOf
  rw [sum8_congr fun v hv => sum8_congr fun u hu => by rw [h (8 * v + u) (by omega)]]

/-- What RECON reads of the state it starts in: every coefficient and table entry it needs is written. -/
def ReconReads (s : State) (m : Nat) : Prop :=
  ∀ ch, ch < ncomp s → CoefListed s m ch ∧ QuantListed s (channelTable s ch)

/-- DEQUANT and IDCT of a channel give its reference samples (spec R252, R269). -/
theorem get?_samp_sampleBlock {s u : State} (hframe : ReconFrame s u) {m ch : Nat} (hcoef : CoefListed s m ch)
    (hquant : QuantListed s (channelTable s ch)) {i : Nat} (hi : i < 64) :
    Memory.get? (sampleBlock m ch (channelTable s ch) u).samp (64 * ch + i) = some (referenceSample s m ch (i / 8) (i % 8)) := by
  have hcoef' : CoefListed u m ch := fun n hn => by
    rw [hframe.coef]
    exact hcoef n hn
  have hquant' : QuantListed u (channelTable s ch) := fun n hn => by
    rw [hframe.qtab]
    exact hquant n hn
  rw [sampleBlock, get?_samp_idctBlock ch (fun n hn => listed_dq_dequantBlock _ _ _ _ hn) hi, referenceSample]
  refine congrArg some (sampleOf_congr fun n hn => ?_)
  obtain ⟨hk, hzz⟩ := zz_idxOf n hn
  have hdq := dqInt_dequantBlock hcoef' hquant' hk
  rw [hzz] at hdq
  rw [hdq, coefInt, coefInt, quantNat, quantNat, hframe.coef, hframe.qtab]

theorem get?_samp_sampleBlock_outside (m ch : Nat) (tq : BitVec 2) (u : State) {a : Nat} (ha : a < 64 * ch ∨ 64 * ch + 64 ≤ a) :
    Memory.get? (sampleBlock m ch tq u).samp a = Memory.get? u.samp a := by
  rw [sampleBlock, get?_samp_idctBlock_outside ch _ ha, dequantBlock_samp]

theorem sampleBlock_pix (m ch : Nat) (tq : BitVec 2) (u : State) : (sampleBlock m ch tq u).pix = u.pix := by
  rw [sampleBlock, idctBlock, levelShift_pix, idctPasses_pix, dequantBlock_pix]

/-- The reference samples of the channels below `n` of MCU `m` are in SAMP; PIX is still `p`. -/
structure SamplesDone (s : State) (p : Memory Byte) (m n : Nat) (u : State) : Prop where
  step : ReconStep s u
  pix : u.pix = p
  samples : ∀ ch i, ch < n → i < 64 → Memory.get? u.samp (64 * ch + i) = some (referenceSample s m ch (i / 8) (i % 8))

theorem goes_samples {s u : State} {m : Nat} (hcount : CountOk s) (hids : IdsOk s) (hreads : ReconReads s m)
    (hu : ReconStep s u) :
    Flow.Goes True (SamplesDone s u.pix m (ncomp s)) (Flow.forEach (List.range (ncomp u)) (reconChannel m) u) := by
  rw [hu.frame.ncomp]
  refine Flow.Goes.forEach_range (fun n hn v hv => ?_) ⟨hu, rfl, fun ch i h => absurd h (Nat.not_lt_zero _)⟩
  have h3 := ncomp_le_three hcount
  have hframe := hv.step.frame
  obtain ⟨hcoef, hquant⟩ := hreads n hn
  rw [show reconChannel m n v = .cont () (sampleBlock m n (channelTable s n) v) from
    reconChannel_of_tqOf (ch := ⟨n, by omega⟩) (by rw [hframe.tqOf]; exact tqOf_of_launch hcount hids hn)]
  refine ⟨hv.step.trans (reconMcuStep_sampleBlock ..).toReconStep, (sampleBlock_pix ..).trans hv.pix, fun ch i hch hi => ?_⟩
  rcases Nat.lt_or_eq_of_le (Nat.le_of_lt_succ hch) with hless | rfl
  · rw [get?_samp_sampleBlock_outside _ _ _ _ (by omega)]
    exact hv.samples ch i hless hi
  · exact get?_samp_sampleBlock hframe hcoef hquant hi

/-! The pixels of an MCU. -/

theorem sampAt_of_get? {s : State} {ch i : Nat} {v : Byte} (h : Memory.get? s.samp (64 * ch + i) = some v) :
    sampAt s ch i = v := Memory.read_of_get? h _

theorem rgbAt_of_get? {s : State} {ch i : Nat} {v : Byte} (h : Memory.get? s.rgb (64 * ch + i) = some v) : rgbAt s ch i = v :=
  Memory.read_of_get? h _

/-- The pixel kept is in the buffer RGB, the others stay. -/
theorem get?_rgb_keepPixel (i : Nat) (s : State) {c n : Nat} (hc : c < 3) (hi : i < 64) (hn : n < 64) :
    Memory.get? (keepPixel i s).rgb (64 * c + n) =
      if n = i then some (rgbByte s.pixel c) else Memory.get? s.rgb (64 * c + n) := by
  rw [keepPixel_rgb]
  simp only [Memory.setAll_cons, Memory.setAll_nil, Memory.get?_set]
  by_cases hni : n = i
  · subst hni
    rw [if_pos rfl]
    obtain rfl | rfl | rfl : c = 0 ∨ c = 1 ∨ c = 2 := by omega
    · rw [if_neg (by omega), if_neg (by omega), if_pos (by omega)]
      rfl
    · rw [if_neg (by omega), if_pos (by omega)]
      rfl
    · rw [if_pos (by omega)]
      rfl
  · rw [if_neg hni, if_neg (by omega), if_neg (by omega), if_neg (by omega)]

theorem convertPixel_rgb (i : Nat) (s : State) :
    convertPixel i s = keepPixel i
      { s with
        pixel := if ncomp s = 3 then yccToRgb (sampAt s 0 i) (sampAt s 1 i) (sampAt s 2 i) else grayToRgb (sampAt s 0 i) } := rfl

/-- The reference pixels below `n` of MCU `m` are in RGB, and the samples in SAMP. -/
structure PixelsDone (s : State) (p : Memory Byte) (m n : Nat) (u : State) : Prop extends SamplesDone s p m (ncomp s) u where
  pixels : ∀ c i, c < 3 → i < n → Memory.get? u.rgb (64 * c + i) = some (rgbByte (referencePixel s m i) c)

/-- The colour conversion of pixel `i` gives the reference pixel (spec R291, R292). -/
theorem convertedPixel_eq {s u : State} {p : Memory Byte} {m : Nat} (hcount : CountOk s) (hu : SamplesDone s p m (ncomp s) u)
    {i : Nat} (hi : i < 64) :
    (if ncomp u = 3 then yccToRgb (sampAt u 0 i) (sampAt u 1 i) (sampAt u 2 i) else grayToRgb (sampAt u 0 i)) =
      referencePixel s m i := by
  have hsamp : ∀ ch, ch < ncomp s → sampAt u ch i = referenceSample s m ch (i / 8) (i % 8) := fun ch hch =>
    sampAt_of_get? (hu.samples ch i hch hi)
  rw [hu.step.frame.ncomp, referencePixel, hsamp 0 (ncomp_pos hcount)]
  by_cases h3 : ncomp s = 3
  · rw [if_pos h3, if_pos h3, hsamp 1 (by omega), hsamp 2 (by omega)]
  · rw [if_neg h3, if_neg h3]

theorem goes_convert {s u : State} {p : Memory Byte} {m : Nat} (hcount : CountOk s) (hu : SamplesDone s p m (ncomp s) u) :
    Flow.Goes True (PixelsDone s p m 64) (Flow.forEach (List.range 64) (fun i s => .cont () (convertPixel i s)) u) := by
  refine Flow.Goes.forEach_range (f := fun i s => .cont () (convertPixel i s)) (fun i hi v hv => ?_)
    ⟨hu, fun c n _ h => absurd h (Nat.not_lt_zero _)⟩
  have hpixel := convertedPixel_eq hcount hv.toSamplesDone hi
  refine ⟨⟨hv.step.trans (reconMcuStep_convertPixel i v).toReconStep, hv.pix, hv.samples⟩, fun c n hc hn => ?_⟩
  rw [convertPixel_rgb, get?_rgb_keepPixel i _ hc hi (by omega), hpixel]
  split
  · rename_i hni
    rw [hni]
  · exact hv.pixels c n hc (by omega)

/-! PIX. -/

theorem ReconFrame.mcuCols {s u : State} (h : ReconFrame s u) : Machine.mcuCols u = Machine.mcuCols s := by
  rw [Machine.mcuCols, Machine.mcuCols, h.width]

theorem ReconFrame.inImage {s u : State} (h : ReconFrame s u) (m i : Nat) : InImage u m i ↔ InImage s m i := by
  unfold InImage pixelRow pixelCol
  rw [h.mcuCols, h.width, h.height]

theorem ReconFrame.pixelNumber {s u : State} (h : ReconFrame s u) (m i : Nat) :
    Machine.pixelNumber u m i = Machine.pixelNumber s m i := by
  unfold Machine.pixelNumber pixelRow pixelCol
  rw [h.mcuCols, h.width]

/-- A pixel of the image is found from its number. -/
theorem pixelNumber_injective {s : State} {m m' i i' : Nat} (hi : i < 64) (hi' : i' < 64) (hin : InImage s m i)
    (hin' : InImage s m' i') (h : pixelNumber s m i = pixelNumber s m' i') : m = m' ∧ i = i' := by
  have hdiv : ∀ {m i}, InImage s m i →
      pixelNumber s m i / width s = pixelRow s m i ∧ pixelNumber s m i % width s = pixelCol s m i :=
    fun hin => by
      rw [pixelNumber, Nat.mul_comm, Nat.mul_add_div (by have := hin.2; omega), Nat.mul_add_mod, Nat.div_eq_of_lt hin.2,
        Nat.mod_eq_of_lt hin.2]
      exact ⟨rfl, rfl⟩
  obtain ⟨hrow, hcol⟩ := hdiv hin
  obtain ⟨hrow', hcol'⟩ := hdiv hin'
  rw [h, hrow'] at hrow
  rw [h, hcol'] at hcol
  obtain ⟨hm, hplace⟩ := mcuAt_pixel (s := s) (m := m) hi
  obtain ⟨hm', hplace'⟩ := mcuAt_pixel (s := s) (m := m') hi'
  rw [← hrow, ← hcol] at hm hplace
  exact ⟨hm.symm.trans hm', hplace.symm.trans hplace'⟩

/-- A set of pixels, by MCU and place, has been stored with its reference values, and no other byte of PIX has changed. -/
structure Stored (s : State) (done : Nat → Nat → Prop) (u : State) : Prop where
  inside : ∀ m i a, done m i → i < 64 → InImage s m i → a / 3 = pixelNumber s m i →
    Memory.get? u.pix a = some (rgbByte (referencePixel s m i) (a % 3))
  outside : ∀ a, (∀ m i, done m i → i < 64 → InImage s m i → a / 3 ≠ pixelNumber s m i) →
    Memory.get? u.pix a = Memory.get? s.pix a

/-- One more pixel is stored. -/
theorem Stored.storePixel {s u : State} {done : Nat → Nat → Prop} (h : Stored s done u) (hframe : ReconFrame s u) {m i : Nat}
    (hi : i < 64) : Stored s (fun m' i' => done m' i' ∨ m' = m ∧ i' = i) (storePixel m i (referencePixel s m i) u) := by
  have hstore := get?_pix_storePixel m i (referencePixel s m i) u
  simp only [hframe.inImage, hframe.pixelNumber] at hstore
  refine ⟨fun m' i' a hdone hi' hin ha => ?_, fun a hno => ?_⟩
  · by_cases hnew : m' = m ∧ i' = i
    · obtain ⟨rfl, rfl⟩ := hnew
      exact (hstore a).1 hin ha
    · rw [(hstore a).2 fun ⟨hin', ha'⟩ => hnew (pixelNumber_injective hi' hi hin hin' (by rw [← ha, ha']))]
      exact h.inside m' i' a (hdone.resolve_right hnew) hi' hin ha
  · rw [(hstore a).2 fun ⟨hin, ha⟩ => hno m i (.inr ⟨rfl, rfl⟩) hi hin ha]
    exact h.outside a fun m' i' hdone => hno m' i' (.inl hdone)

theorem Stored.mono {s u : State} {done done' : Nat → Nat → Prop} (h : Stored s done u)
    (hiff : ∀ m i, i < 64 → (done m i ↔ done' m i)) : Stored s done' u :=
  ⟨fun m i a hdone hi => h.inside m i a ((hiff m i hi).mpr hdone) hi, fun a hno => h.outside a fun m i hdone hi =>
    hno m i ((hiff m i hi).mp hdone) hi⟩

theorem rgbPixel_of_get? {u : State} {i : Nat} {p : Rgb}
    (h : ∀ c, c < 3 → Memory.get? u.rgb (64 * c + i) = some (rgbByte p c)) : rgbPixel u i = p := by
  rw [rgbPixel, rgbAt_of_get? (h 0 (by decide)), rgbAt_of_get? (h 1 (by decide)), rgbAt_of_get? (h 2 (by decide))]
  rfl

/-- The pixels below `n` of MCU `m` are stored on top of those of the set `done`, from the buffer RGB. -/
structure McuStored (s : State) (done : Nat → Nat → Prop) (m n : Nat) (u : State) : Prop where
  step : ReconStep s u
  pixels : ∀ i, i < 64 → rgbPixel u i = referencePixel s m i
  stored : Stored s (fun m' i => done m' i ∨ m' = m ∧ i < n) u

/-- RECON_MCU stores the reference pixels of its MCU, on top of what has been stored (spec R299). -/
theorem goes_reconMcu {s u : State} {m : Nat} {done : Nat → Nat → Prop} (hcount : CountOk s) (hids : IdsOk s)
    (hreads : ReconReads s m) (hu : ReconStep s u) (hstored : Stored s done u) :
    Flow.Goes True (McuStored s done m 64) (reconMcuOf m u) := by
  refine (goes_samples hcount hids hreads hu).bind fun _ v hv => ?_
  refine (goes_convert hcount hv).bind fun _ w hw => ?_
  refine Flow.Goes.forEach_range (f := fun i s => .cont () (storePixel m i (rgbPixel s i) s)) (fun i hi x hx => ?_)
    ⟨hw.step.trans (reconMcuStep_bumpDraws w).toReconStep, fun i hi => rgbPixel_of_get? fun c hc => hw.pixels c i hc hi, ?_⟩
  · have hrgb : ∀ n, rgbPixel (storePixel m i (rgbPixel x i) x) n = rgbPixel x n := fun n => by
      simp only [rgbPixel, rgbAt, storePixel_rgb, storePixel_draws]
    refine ⟨hx.step.trans (reconMcuStep_storePixel ..).toReconStep, fun n hn => (hrgb n).trans (hx.pixels n hn), ?_⟩
    rw [hx.pixels i hi]
    refine (hx.stored.storePixel hx.step.frame hi).mono fun m' i' _ => ?_
    rw [or_assoc, ← and_or_left, Nat.lt_succ_iff_lt_or_eq]
  · have hpix : (bumpDraws w).pix = u.pix := hw.pix
    exact ⟨fun m' i a hdone hi hin ha => by rw [hpix]; exact hstored.inside m' i a (hdone.resolve_right (by omega)) hi hin ha,
      fun a hno => by rw [hpix]; exact hstored.outside a fun m' i hdone => hno m' i (.inl hdone)⟩

theorem stored_none (s : State) : Stored s (fun _ _ => False) s := ⟨fun _ _ _ h => h.elim, fun _ _ => rfl⟩

/-- RECON stores the MCUs one after the other (spec R300, R301). -/
theorem goes_recon {s : State} (hcount : CountOk s) (hids : IdsOk s) (hreads : ∀ m, m < nMcu s → ReconReads s m) :
    Flow.Goes True (fun u => ∃ v, ReconStep s v ∧ Stored s (fun m _ => m < nMcu s) v ∧ u = finishRun v) (reconPhase s) := by
  refine (Flow.Goes.forEach_range (P := fun n u => ReconStep s u ∧ Stored s (fun m _ => m < n) u) (fun m hm u hu => ?_)
    ⟨ReconStep.refl s, (stored_none s).mono fun m i _ => by simp⟩).bind fun _ u hu => ⟨u, hu.1, hu.2, rfl⟩
  have hmcu : ReconStep s { u with mcu := BitVec.ofNat 32 m } := hu.1.trans (reconStep_setMcu _ u)
  refine (goes_reconMcu hcount hids (hreads m hm) hmcu (done := fun m' _ => m' < m) ⟨hu.2.inside, hu.2.outside⟩).mono id
    fun v hv => ⟨hv.step, hv.stored.mono fun m' i hi => ?_⟩
  omega

/-- A pixel stored, byte by byte. -/
theorem Stored.pixel {s u : State} {done : Nat → Nat → Prop} (h : Stored s done u) {m i : Nat} (hdone : done m i) (hi : i < 64)
    (hin : InImage s m i) :
    Memory.get? u.pix (3 * pixelNumber s m i) = some (referencePixel s m i).r ∧
      Memory.get? u.pix (3 * pixelNumber s m i + 1) = some (referencePixel s m i).g ∧
      Memory.get? u.pix (3 * pixelNumber s m i + 2) = some (referencePixel s m i).b := by
  have hbyte : ∀ c, c < 3 → Memory.get? u.pix (3 * pixelNumber s m i + c) = some (rgbByte (referencePixel s m i) c) :=
    fun c hc => by
      rw [h.inside m i _ hdone hi hin (by omega), show (3 * pixelNumber s m i + c) % 3 = c by omega]
  exact ⟨hbyte 0 (by decide), hbyte 1 (by decide), hbyte 2 (by decide)⟩

end Sys2Proof.Machine

namespace Sys2Proof.Proofs

open Sys2Proof.Machine

/-- Settles O49: samples, then pixels, then stores; different pixels have different numbers in PIX. -/
theorem reconMcuPixels : Obligations.ReconMcuPixels := by
  unfold Obligations.ReconMcuPixels
  intro s m hcount hids hreads
  obtain ⟨_, u, hcont, hstored⟩ := (goes_reconMcu hcount hids hreads (ReconStep.refl s) (stored_none s)).exists_cont trivial
  have hstep := goes_reconMcuOf m.toNat s
  rw [hcont] at hstep
  refine ⟨u, by rw [exec_reconMcu, hcont, Flow.toOutcome_cont], fun i hi hrow hcol => ?_, fun a hno => ?_, ?_⟩
  · exact hstored.stored.pixel (.inr ⟨rfl, hi⟩) hi ⟨hrow, hcol⟩
  · refine hstored.stored.outside a fun m' i hdone hi hin => ?_
    obtain ⟨rfl, -⟩ := hdone.resolve_left id
    exact hno i hi hin.1 hin.2
  · have hframe := hstep.frame
    unfold ReconFrame at hframe
    rwa [hstep.mcu] at hframe

/-- Settles O50: every pixel of the image belongs to one MCU. -/
theorem reconFillsImage : Obligations.ReconFillsImage := by
  unfold Obligations.ReconFillsImage
  intro s hcount hids hreads
  obtain ⟨_, _, hcont, v, hstep, hstored, rfl⟩ :=
    (goes_recon hcount hids fun m hm ch hch => hreads m ch hm hch).exists_cont trivial
  refine ⟨finishRun v, by rw [exec_recon, hcont, Flow.toOutcome_cont], rfl, rfl, fun y x hy hx => ?_, fun a ha => ?_, ?_⟩
  · have hy' : y < 8 * mcuRows s := hy.trans_le (le_ceil8 _)
    have hx' : x < 8 * mcuCols s := hx.trans_le (le_ceil8 _)
    obtain ⟨hrow, hcol⟩ := pixel_mcuAt (y := y) hx'
    have hpixel := hstored.pixel (mcuAt_lt hy' hx') (placeAt_lt y x) (by unfold InImage; rw [hrow, hcol]; exact ⟨hy, hx⟩)
    rwa [pixelNumber, hrow, hcol] at hpixel
  · exact hstep.outside a ha
  · have hframe := hstep.frame
    unfold ReconFrame at hframe
    unfold finishRun
    dsimp only
    rw [hframe]

end Sys2Proof.Proofs
end

section
/-! What one step of ENTROPY does (spec R220 to R232): a fault, a position further on with the blocks behind it written, or the
beginning of RECON. -/

namespace Sys2Proof.Machine

/-! Outcomes. -/

/-- The step has a next state, with `P`; without one `ok` does not hold. -/
def Leads (ok : Prop) (P : State → Prop) : Host.Outcome State Fault Refusal → Prop
  | .next u => P u
  | .fault _ => ¬ok
  | .refused _ => ¬ok

theorem Leads.mono {ok ok' : Prop} {P Q : State → Prop} {x : Host.Outcome State Fault Refusal} (hx : Leads ok P x)
    (hok : ok' → ok) (h : ∀ u, P u → Q u) : Leads ok' Q x := by
  cases x with
  | next u => exact h u hx
  | fault e => exact fun h' => hx (hok h')
  | refused r => exact fun h' => hx (hok h')

theorem Leads.of_next {ok : Prop} {P : State → Prop} {x : Host.Outcome State Fault Refusal} {u : State} (hx : Leads ok P x)
    (h : x = .next u) : P u := by
  rw [h] at hx
  exact hx

theorem Leads.exists_next {ok : Prop} {P : State → Prop} {x : Host.Outcome State Fault Refusal} (hx : Leads ok P x) (hok : ok) :
    ∃ u, x = .next u ∧ P u := by
  cases x with
  | next u => exact ⟨u, rfl, hx⟩
  | fault e => exact absurd hok hx
  | refused r => exact absurd hok hx

/-- An instruction and how the loops go on after it; after a fault nothing follows. -/
theorem Flow.Ends.thenDo {α : Type} {ok : Prop} {F P Q : State → Prop} {x : Flow α} {i : Instr} (hx : Flow.Ends ok F P x)
    (hgo : ∀ t, P t → Leads ok Q (sequence i t)) (hfault : ∀ t c pos val, F t → Q (faultEntry c pos val t)) :
    Leads ok Q (Machine.thenDo x.toOutcome (sequence i)) := by
  cases x with
  | cont _ t => exact hgo t hx
  | ended u =>
    obtain ⟨t, c, pos, val, ht, rfl⟩ := hx
    rw [show (Flow.ended _ : Flow α).toOutcome = .next _ from rfl, thenDo_next, thenDo_sequence_faultEntry]
    exact hfault t c pos val ht
  | stop e => exact hx
  | refuse r => exact hx.elim

theorem Flow.Ends.and_cont {α : Type} {ok : Prop} {F P Q : State → Prop} {x : Flow α} (hx : Flow.Ends ok F P x)
    (h : ∀ a u, x = .cont a u → Q u) : Flow.Ends ok F (fun u => P u ∧ Q u) x := by
  cases x with
  | cont a u => exact ⟨hx, h a u rfl⟩
  | ended u => exact hx
  | stop e => exact hx
  | refuse r => exact hx

/-! The position in ENTROPY. -/

/-- A number of the place in the order of MCUs and blocks: block `j` of MCU `m` has 4*m + j + 1, the restart action before MCU
`m` has 4*m. -/
def stage (s : State) : Nat := 4 * s.mcu.toNat + if s.upc = .restartDue then 0 else s.slot.val + 1

/-- A number of the place within the block: the code word and then the symbol of each coefficient. -/
def unitRank (s : State) : Nat := 2 * s.k.toNat + if s.upc = .symbol then 1 else 0

/-- The place in ENTROPY. It grows with every step. -/
def entropyRank (s : State) : Nat := 256 * stage s + unitRank s

/-- The blocks that have begun are written. -/
def BlocksBegun (s : State) : Prop := ∀ m (j : Fin 3), j.val < ncomp s → 4 * m + j.val + 1 ≤ stage s → BlockWritten s m j

/-- The position is one of ENTROPY. -/
def EntropyPosition (s : State) : Prop :=
  s.mcu.toNat < nMcu s ∧ s.slot.val < ncomp s ∧ (s.upc = .restartDue ∨ (s.upc = .code ∨ s.upc = .symbol) ∧ s.k.toNat ≤ 63)

theorem unitRank_lt (s : State) : unitRank s < 256 := by
  have hk := s.k.isLt
  unfold unitRank
  split <;> omega

/-- ENTROPY goes on, further on than before. -/
structure EntropyOn (s u : State) : Prop where
  step : EntropyStep s u
  phase : u.phase = .entropy
  position : EntropyPosition s → EntropyPosition u
  written : BlocksBegun s → BlocksBegun u
  rank : entropyRank s < entropyRank u

/-- What a step of ENTROPY leads to. -/
inductive EntropyNext (s : State) : State → Prop
  | fault {t : State} (c : Cause) (pos : Word) (val : BitVec 16) : EntropyStep s t → EntropyNext s (faultEntry c pos val t)
  | on {u : State} : EntropyOn s u → EntropyNext s u
  | recon {t : State} : EntropyStep s t →
      (BlocksBegun s → ∀ m (j : Fin 3), j.val < ncomp s → m < nMcu s → BlockWritten t m j) →
        EntropyNext s (beginRecon t)

theorem EntropyStep.nMcu {s u : State} (h : EntropyStep s u) : Machine.nMcu u = Machine.nMcu s := by
  have hframe := h.frame
  unfold EntropyFrame at hframe
  rw [hframe]
  rfl

theorem EntropyStep.ncomp {s u : State} (h : EntropyStep s u) : Machine.ncomp u = Machine.ncomp s := h.frame.sameCoded.ncomp

theorem EntropyStep.state {s u : State} (h : EntropyStep s u) : u.state = s.state := by
  have hframe := h.frame
  unfold EntropyFrame at hframe
  rw [hframe]

theorem entropyStep_setUpc (p : Upc) (s : State) : EntropyStep s (setUpc p s) := ⟨Decodes.of_same rfl rfl rfl, rfl⟩

/-- Where no step of ENTROPY stops. -/
def EntropyReady (s : State) : Prop := SlotsOk s ∧ EntropyPosition s

theorem EntropyStep.ready {s t : State} (h : EntropyStep s t) (hs : EntropyReady s) : SlotsOk t ∧ 0 < Machine.ncomp t :=
  ⟨h.frame.sameCoded.slotsOk.mpr hs.1, by rw [h.ncomp]; exact Nat.zero_lt_of_lt hs.2.2.1⟩

/-! Beginning a block. -/

/-- Block `n` of MCU `m` begins: its coefficients are cleared, and the code position follows. -/
structure BeginsBlock (m n : Nat) (t u : State) : Prop where
  step : EntropyStep t u
  phase : u.phase = t.phase
  mcu : u.mcu.toNat = m
  upc : u.upc = .code
  k : u.k = 0
  slot : u.slot.val = n
  written : BlockWritten u m u.slot

/-- The restart action before MCU `m` is next. -/
structure AwaitsRestart (m : Nat) (t u : State) : Prop where
  step : EntropyStep t u
  phase : u.phase = t.phase
  mcu : u.mcu.toNat = m
  upc : u.upc = .restartDue
  slot : u.slot = t.slot
  later : 0 < m

theorem BeginsBlock.of_mcu {m n : Nat} {w : Word} {t u : State} (h : BeginsBlock m n { t with mcu := w } u) : BeginsBlock m n t u :=
  ⟨(⟨Decodes.of_same rfl rfl rfl, rfl⟩ : EntropyStep t { t with mcu := w }).trans h.step, h.phase, h.mcu, h.upc, h.k, h.slot,
    h.written⟩

theorem nMcu_le (s : State) : nMcu s ≤ 2 ^ 26 := by
  have hcols : mcuCols s ≤ 2 ^ 13 := by
    have := (s.framedim.extractLsb' 0 16).isLt
    unfold mcuCols ceil8 width
    omega
  have hrows : mcuRows s ≤ 2 ^ 13 := by
    have := (s.framedim.extractLsb' 16 16).isLt
    unfold mcuRows ceil8 height
    omega
  calc nMcu s ≤ 2 ^ 13 * 2 ^ 13 := Nat.mul_le_mul hcols hrows
    _ = 2 ^ 26 := by norm_num

theorem slotOf_eq_some {n : Nat} {j : Fin 3} (h : slotOf n = some j) : j.val = n := by
  unfold slotOf at h
  split at h
  · rw [← Option.some.inj h]
  · cases h

theorem leads_beginBlock {m n : Nat} {t : State} (hm : t.mcu.toNat = m) :
    Leads (SlotsOk t ∧ n < ncomp t) (BeginsBlock m n t) (beginBlock n t) := by
  obtain ⟨j, ch, hj, hch, heq⟩ | ⟨hslot, heq⟩ | ⟨⟨j, hj, hch⟩, heq⟩ := beginBlock_cases n t
  · rw [heq, hm, ← setUpc_clearBlock]
    have hclear := blockStep_clearBlock m ch.val { t with slot := j }
    have hframe := hclear.frame
    have hstep : EntropyStep t (setUpc .code (clearBlock m ch.val { t with slot := j })) :=
      (⟨Decodes.of_same rfl rfl rfl, rfl⟩ : EntropyStep t { t with slot := j }).trans
        (hclear.entropy.trans (entropyStep_setUpc .code _))
    have hcid := hstep.frame.sameCoded.cid j
    rw [channelOf_eq_some.mp hch] at hcid
    unfold BlockFrame at hframe
    have hslot : (setUpc .code (clearBlock m ch.val { t with slot := j })).slot = j := by rw [setUpc, hframe]
    refine ⟨hstep, by rw [setUpc, hframe], by rw [setUpc, hframe]; exact hm, rfl, clearBlock_k .., ?_, ?_⟩
    · rw [hslot]
      exact slotOf_eq_some hj
    · rw [BlockWritten, hslot, hcid]
      exact coefListed_clearBlock m ch.val { t with slot := j }
  · rw [heq]
    rintro ⟨hok, hn⟩
    rw [slotOf_of_lt (hn.trans_le hok.1)] at hslot
    cases hslot
  · rw [heq]
    rintro ⟨hok, hn⟩
    obtain ⟨ch, hch'⟩ := hok.2 j (by rw [slotOf_eq_some hj]; exact hn)
    rw [channelOf_eq_some.mpr hch'] at hch
    cases hch

/-- MCU `m` is next: its restart action or its first block, or RECON where there is no such MCU. -/
theorem leads_nextMcu (m : Nat) (t : State) :
    Leads (SlotsOk t ∧ 0 < ncomp t)
      (fun u => m < nMcu t ∧ (BeginsBlock m 0 t u ∨ AwaitsRestart m t u) ∨ nMcu t ≤ m ∧ u = beginRecon t) (nextMcu m t) := by
  have hsize := nMcu_le t
  by_cases hm : m < nMcu t
  · have hword : (BitVec.ofNat 32 m).toNat = m := by rw [BitVec.toNat_ofNat, Nat.mod_eq_of_lt (by omega)]
    have hset : EntropyStep t { t with mcu := BitVec.ofNat 32 m } := ⟨Decodes.of_same rfl rfl rfl, rfl⟩
    rw [nextMcu, if_pos hm, beginMcu]
    by_cases hdue : restartBefore t m = true
    · rw [if_pos hdue]
      exact .inl ⟨hm, .inr ⟨⟨Decodes.of_same rfl rfl rfl, rfl⟩, rfl, hword, rfl, rfl, (restartBefore_iff.mp hdue).2.1⟩⟩
    · rw [if_neg hdue]
      exact (leads_beginBlock (t := { t with mcu := BitVec.ofNat 32 m }) hword).mono
        (fun hok => ⟨hset.frame.sameCoded.slotsOk.mpr hok.1, hok.2⟩) fun u hu => .inl ⟨hm, .inl hu.of_mcu⟩
  · rw [nextMcu, if_neg hm]
    exact .inr ⟨by omega, rfl⟩

/-! The place after it. -/

theorem stage_code {s : State} (h : s.upc ≠ .restartDue) : stage s = 4 * s.mcu.toNat + s.slot.val + 1 := by
  rw [stage, if_neg h, Nat.add_assoc]

theorem stage_restartDue {s : State} (h : s.upc = .restartDue) : stage s = 4 * s.mcu.toNat := by
  rw [stage, if_pos h, Nat.add_zero]

theorem entropyRank_of_stage {s u : State} (h : stage s < stage u) : entropyRank s < entropyRank u := by
  have hs := unitRank_lt s
  unfold entropyRank
  omega

theorem BlocksBegun.of_step {s u : State} (h : BlocksBegun s) (hstep : EntropyStep s u) (hstage : stage u ≤ stage s) :
    BlocksBegun u := fun m j hj hm => (h m j (by rw [← hstep.ncomp]; exact hj) (by omega)).of_step hstep

theorem BeginsBlock.entropyOn {m n : Nat} {s t u : State} (h : BeginsBlock m n t u) (hstep : EntropyStep s t)
    (hphase : t.phase = .entropy) (hin : EntropyPosition s → m < nMcu s ∧ n < ncomp s) (hstage : stage s < 4 * m + n + 1)
    (hbegun : BlocksBegun s → ∀ i (j : Fin 3), j.val < ncomp s → 4 * i + j.val < 4 * m + n → BlockWritten t i j) :
    EntropyOn s u := by
  have hto := hstep.trans h.step
  have hu : stage u = 4 * m + n + 1 := by rw [stage_code (by rw [h.upc]; decide), h.mcu, h.slot]
  refine ⟨hto, h.phase.trans hphase, fun hs => ⟨?_, ?_, .inr ⟨.inl h.upc, by rw [h.k]; decide⟩⟩, fun hs i j hj hi => ?_,
    entropyRank_of_stage (by omega)⟩
  · rw [h.mcu, hto.nMcu]
    exact (hin hs).1
  · rw [h.slot, hto.ncomp]
    exact (hin hs).2
  · have hn := u.slot.isLt
    rw [h.slot] at hn
    rw [hto.ncomp] at hj
    by_cases hsame : 4 * i + j.val = 4 * m + n
    · obtain rfl : i = m := by omega
      obtain rfl : j = u.slot := Fin.ext (by rw [h.slot]; omega)
      exact h.written
    · exact (hbegun hs i j hj (by omega)).of_step h.step

theorem AwaitsRestart.entropyOn {m : Nat} {s t u : State} (h : AwaitsRestart m t u) (hstep : EntropyStep s t)
    (hphase : t.phase = .entropy) (hslot : EntropyPosition s → t.slot.val < ncomp s) (hm : m < nMcu t) (hstage : stage s < 4 * m)
    (hbegun : BlocksBegun s → ∀ i (j : Fin 3), j.val < ncomp s → i < m → BlockWritten t i j) : EntropyOn s u := by
  have hto := hstep.trans h.step
  have hu : stage u = 4 * m := by rw [stage_restartDue h.upc, h.mcu]
  refine ⟨hto, h.phase.trans hphase, fun hs => ⟨?_, ?_, .inl h.upc⟩, fun hs i j hj hi => ?_, entropyRank_of_stage (by omega)⟩
  · rw [h.mcu, h.step.nMcu]
    exact hm
  · rw [h.slot, hto.ncomp]
    exact hslot hs
  · rw [hto.ncomp] at hj
    exact (hbegun hs i j hj (by omega)).of_step h.step

/-- The MCUs below `m` are done. -/
theorem leads_entropyNext_nextMcu {m : Nat} {s t : State} (hstep : EntropyStep s t) (hphase : t.phase = .entropy)
    (hslot : EntropyPosition s → t.slot.val < ncomp s) (hstage : stage s < 4 * m)
    (hbegun : BlocksBegun s → ∀ i (j : Fin 3), j.val < ncomp s → i < m → BlockWritten t i j) :
    Leads (EntropyReady s) (EntropyNext s) (nextMcu m t) := by
  refine (leads_nextMcu m t).mono hstep.ready fun u hu => ?_
  obtain ⟨hm, hblock | hrestart⟩ | ⟨hm, rfl⟩ := hu
  · rw [hstep.nMcu] at hm
    exact .on (hblock.entropyOn hstep hphase (fun hs => ⟨hm, Nat.zero_lt_of_lt hs.2.1⟩) (by omega) fun hs i j hj hi =>
      hbegun hs i j hj (by omega))
  · exact .on (hrestart.entropyOn hstep hphase hslot hm hstage hbegun)
  · rw [hstep.nMcu] at hm
    exact .recon hstep fun hs i j hj hi => hbegun hs i j hj (by omega)

/-- The block is complete. -/
theorem leads_entropyNext_finishBlock {s t : State} (hstep : EntropyStep s t) (hphase : t.phase = .entropy)
    (hmcu : t.mcu = s.mcu) (hslot : t.slot = s.slot) (hupc : s.upc ≠ .restartDue) :
    Leads (EntropyReady s) (EntropyNext s) (finishBlock t) := by
  have hstage := stage_code hupc
  have hbegun : BlocksBegun s → ∀ i (j : Fin 3), j.val < ncomp s → 4 * i + j.val + 1 ≤ stage s → BlockWritten t i j :=
    fun hs i j hj hi => (hs i j hj hi).of_step hstep
  by_cases hnext : t.slot.val + 1 < ncomp t
  · rw [finishBlock, if_pos hnext]
    rw [hslot, hstep.ncomp] at hnext
    refine (leads_beginBlock (congrArg BitVec.toNat hmcu)).mono
      (fun hok => ⟨hstep.frame.sameCoded.slotsOk.mpr hok.1, by rw [hslot, hstep.ncomp]; exact hnext⟩) fun u hu =>
      .on (hu.entropyOn hstep hphase (fun hs => ⟨hs.1, by rw [hslot]; exact hnext⟩) (by rw [hslot]; omega) fun hs i j hj hi =>
        hbegun hs i j hj ?_)
    rw [hslot] at hi
    omega
  · rw [finishBlock, if_neg hnext, congrArg BitVec.toNat hmcu]
    rw [hslot, hstep.ncomp] at hnext
    have hcount : EntropyStep s { t with mcucnt := t.mcucnt + 1 } := hstep.trans ⟨Decodes.of_same rfl rfl rfl, rfl⟩
    have hlt := s.slot.isLt
    refine leads_entropyNext_nextMcu hcount hphase (fun hs => ?_) (by omega) fun hs i j hj hi => hbegun hs i j hj (by omega)
    show t.slot.val < ncomp s
    rw [hslot]
    exact hs.2.1

/-! One step. -/

/-- A code word or a symbol within a block. -/
theorem BlockStep.entropyOn {n : Nat} {s t : State} {p : Upc} (h : BlockStep n s t) (hphase : s.phase = .entropy)
    (hupc : s.upc = .code ∨ s.upc = .symbol) (hp : p = .code ∨ p = .symbol)
    (hk : s.k.toNat ≤ 63 → t.k.toNat ≤ 63) (hrank : unitRank s < unitRank (setUpc p t)) : EntropyOn s (setUpc p t) := by
  have hto : EntropyStep s (setUpc p t) := h.entropy.trans (entropyStep_setUpc p t)
  have hframe := h.frame
  unfold BlockFrame at hframe
  have hmcu : (setUpc p t).mcu = s.mcu := by rw [setUpc, hframe]
  have hslot : (setUpc p t).slot = s.slot := h.frame.slot
  have hs : s.upc ≠ .restartDue := by rcases hupc with h | h <;> rw [h] <;> decide
  have hu : (setUpc p t).upc ≠ .restartDue := by rcases hp with rfl | rfl <;> simp [setUpc]
  have hstage : stage (setUpc p t) = stage s := by rw [stage_code hs, stage_code hu, hmcu, hslot]
  refine ⟨hto, ?_, fun ⟨hm, hj, hpos⟩ => ⟨?_, ?_, .inr ⟨hp, hk ?_⟩⟩, fun hb => hb.of_step hto hstage.le, ?_⟩
  · rw [setUpc, hframe]
    exact hphase
  · rw [hmcu, hto.nMcu]
    exact hm
  · rw [hslot, hto.ncomp]
    exact hj
  · rcases hpos with hpos | hpos
    · exact absurd hpos hs
    · exact hpos.2
  · rw [entropyRank, entropyRank, hstage]
    omega

theorem unitRank_of_code {s : State} (h : s.upc = .code) : unitRank s = 2 * s.k.toNat := by
  rw [unitRank, h]
  rfl

theorem unitRank_of_symbol {s : State} (h : s.upc = .symbol) : unitRank s = 2 * s.k.toNat + 1 := by
  rw [unitRank, h]
  rfl

theorem EntropyReady.hasChannel {s : State} (h : EntropyReady s) : HasChannel s s.slot := h.1.2 s.slot h.2.2.1

theorem leads_fetchCode {s : State} (hbusy : s.state = .busy) (hphase : s.phase = .entropy) (hupc : s.upc = .code) :
    Leads (EntropyReady s) (EntropyNext s) (thenDo (exec (fetchCode s) s) (sequence (fetchCode s))) := by
  rw [exec_fetchCode]
  refine (upto_huffDecode _ _ _ s).thenDo (fun t ht => ?_) fun t c pos val ht => .fault c pos val ht.entropy
  rw [sequence_fetchCode s (ht.entropy.state.trans hbusy)]
  have hk := ht.frame.k
  refine .on (ht.block.entropyOn hphase (.inl hupc) (.inr rfl) (by rw [hk]; exact id) ?_)
  rw [unitRank_of_code hupc, unitRank_of_symbol (s := setUpc .symbol t) rfl, show (setUpc .symbol t).k = s.k from hk]
  omega

theorem leads_afterDc {n : Nat} {s t : State} (ht : BlockStep n s t) (hphase : s.phase = .entropy)
    (hupc : s.upc = .code ∨ s.upc = .symbol) (hk : s.k = 0) : Leads (EntropyReady s) (EntropyNext s) (afterDc t) := by
  have hto : BlockStep (n + 0) s { t with k := 1 } := ht.trans (blockStep_of_same rfl rfl rfl)
  refine .on (hto.entropyOn (p := .code) hphase hupc (.inl rfl) (fun _ => (by decide : (1 : BitVec 7).toNat ≤ 63)) ?_)
  rw [unitRank_of_code (s := setUpc .code { t with k := 1 }) rfl, unitRank, hk]
  show _ < 2 * (1 : BitVec 7).toNat
  split <;> decide

theorem leads_decodeDc {s : State} (hbusy : s.state = .busy) (hphase : s.phase = .entropy) (hupc : s.upc = .code)
    (hk : s.k = 0) :
    Leads (EntropyReady s) (EntropyNext s)
      (thenDo (exec (.decodeDc s.mcu s.slot) s) (sequence (.decodeDc s.mcu s.slot))) := by
  rw [exec_decodeDc]
  refine ((upto_decodeDcUnit _ _ s).upto EntropyReady.hasChannel fun _ => id).thenDo (fun t ht => ?_) fun t c pos val ht =>
    .fault c pos val ht.entropy
  rw [show sequence (.decodeDc s.mcu s.slot) t = afterDc t from if_neg (not_not_intro (ht.entropy.state.trans hbusy))]
  exact leads_afterDc ht hphase (.inl hupc) hk

theorem leads_dcSym {s : State} (hbusy : s.state = .busy) (hphase : s.phase = .entropy) (hupc : s.upc = .symbol)
    (hk : s.k = 0) :
    Leads (EntropyReady s) (EntropyNext s) (thenDo (exec (decodeDcSym s.sym) s) (sequence (decodeDcSym s.sym))) := by
  rw [exec_decodeDcSym]
  have hcont : ∀ a u, dcUnitSymbol s.mcu.toNat s.slot s.sym s = .cont a u → ¬11 < s.sym.toNat := fun a u h hy => by
    rw [dcUnitSymbol, if_pos hy] at h
    cases h
  refine (((upto_dcUnitSymbol _ _ _ s).upto EntropyReady.hasChannel fun _ => id).and_cont hcont).thenDo
    (fun t ht => ?_) fun t c pos val ht => .fault c pos val ht.entropy
  rw [sequence_decodeDcSym ht.2 (ht.1.entropy.state.trans hbusy)]
  exact leads_afterDc ht.1 hphase (.inr hupc) hk

/-- A block whose last operation is done. -/
theorem BlockStep.leads_finishBlock {n : Nat} {s t : State} (ht : BlockStep n s t) (hphase : s.phase = .entropy)
    (hupc : s.upc ≠ .restartDue) : Leads (EntropyReady s) (EntropyNext s) (finishBlock t) := by
  have hframe := ht.frame
  unfold BlockFrame at hframe
  exact leads_entropyNext_finishBlock ht.entropy (by rw [hframe]; exact hphase) (by rw [hframe]) ht.frame.slot hupc

theorem acUnitSymbol_upc {m : Nat} {j : Fin 3} {y : Byte} {s u : State} {a : Unit} (h : acUnitSymbol m j y s = .cont a u) :
    u.upc = s.upc := by
  have heq := acUnitSymbol_setUpc s.upc m j y s
  rw [show setUpc s.upc s = s from rfl] at heq
  rw [heq] at h
  obtain ⟨v, -, rfl⟩ := Flow.withUpc_eq_cont h
  rfl

theorem leads_acSym {s : State} (hbusy : s.state = .busy) (hphase : s.phase = .entropy) (hupc : s.upc = .symbol) :
    Leads (EntropyReady s) (EntropyNext s) (thenDo (exec (decodeAcSym s.sym) s) (sequence (decodeAcSym s.sym))) := by
  have hopen : s.upc ≠ .restartDue := by rw [hupc]; decide
  by_cases hsym : s.sym = 0x00
  · rw [hsym, exec_decodeAcSym_eob, thenDo_next, sequence_decodeAcSym (u := setUpc .blockEnd s) _ hbusy,
      afterAc_of_full (.inl rfl), finishBlock_setUpc]
    exact (blockStep_of_same (BlockFrame.refl s) rfl rfl).leads_finishBlock hphase hopen
  · rw [exec_decodeAcSym hsym]
    refine (((upto_acUnitSymbol _ _ _ s).upto EntropyReady.hasChannel fun _ => id).and_cont
      (Q := fun u => s.k.toNat < u.k.toNat ∧ u.upc = .symbol) ?_).thenDo (fun t ⟨ht, hk, ht'⟩ => ?_) fun t c pos val ht =>
        .fault c pos val ht.entropy
    · intro a u hcont
      exact ⟨(acUnitSymbol_k hcont).1, (acUnitSymbol_upc hcont).trans hupc⟩
    rw [sequence_decodeAcSym _ (ht.entropy.state.trans hbusy)]
    by_cases hfull : 63 < t.k.toNat
    · rw [afterAc_of_full (.inr hfull)]
      exact ht.leads_finishBlock hphase hopen
    · rw [afterAc_of_open (by rw [ht']; decide) (by omega)]
      refine .on (ht.entropyOn hphase (.inr hupc) (.inl rfl) (fun _ => by omega) ?_)
      rw [unitRank_of_symbol hupc, unitRank_of_code (s := setUpc .code t) rfl]
      show _ < 2 * t.k.toNat
      omega

theorem leads_decodeAc {s : State} (hbusy : s.state = .busy) (hphase : s.phase = .entropy) (hupc : s.upc = .code) :
    Leads (EntropyReady s) (EntropyNext s)
      (thenDo (exec (.decodeAc s.mcu s.slot) s) (sequence (.decodeAc s.mcu s.slot))) := by
  rw [exec_decodeAc]
  refine ((upto_acLoop _ _ _ s).upto EntropyReady.hasChannel fun _ => id).thenDo (fun t ht => ?_) fun t c pos val ht =>
    .fault c pos val ht.entropy
  rw [show sequence (.decodeAc s.mcu s.slot) t = finishBlock t from if_neg (not_not_intro (ht.entropy.state.trans hbusy))]
  exact ht.leads_finishBlock hphase (by rw [hupc]; decide)

theorem leads_decodeBlock {s : State} (hbusy : s.state = .busy) (hphase : s.phase = .entropy) (hupc : s.upc = .code) :
    Leads (EntropyReady s) (EntropyNext s)
      (thenDo (exec (.decodeBlock s.mcu s.slot) s) (sequence (.decodeBlock s.mcu s.slot))) := by
  rw [exec_decodeBlock]
  refine ((upto_decodeBlockOf _ _ s).upto EntropyReady.hasChannel fun _ => id).thenDo (fun t ht => ?_) fun t c pos val ht =>
    .fault c pos val ht.1.entropy
  rw [sequence_decodeBlock (ht.1.entropy.state.trans hbusy)]
  exact ht.1.leads_finishBlock hphase (by rw [hupc]; decide)

theorem leads_decodeMcu {s : State} (hbusy : s.state = .busy) (hphase : s.phase = .entropy) (hupc : s.upc = .code)
    (hslot : s.slot = 0) :
    Leads (EntropyReady s) (EntropyNext s) (thenDo (exec (.decodeMcu s.mcu) s) (sequence (.decodeMcu s.mcu))) := by
  rw [exec_decodeMcu]
  refine ((ends_decodeMcuOf s.mcu.toNat s).mono (fun hok : EntropyReady s => hok.1) (fun _ => id) fun _ => id).thenDo
    (fun t ht => ?_) fun t c pos val ht => .fault c pos val ht.entropy
  obtain ⟨ht, hwritten⟩ := ht
  have hframe := ht.frame
  unfold McuFrame at hframe
  have hmcu : t.mcu = s.mcu := by rw [hframe]
  have hstage := stage_code (s := s) (by rw [hupc]; decide)
  rw [hslot] at hstage
  rw [show sequence (.decodeMcu s.mcu) t = nextMcu (t.mcu.toNat + 1) t from if_neg (not_not_intro (ht.entropy.state.trans hbusy)),
    congrArg BitVec.toNat hmcu]
  refine leads_entropyNext_nextMcu ht.entropy (by rw [hframe]; exact hphase) (fun hs => ht.slot hs.2.1)
    (by rw [hstage]; show _ + 0 + 1 < _; omega) fun hs i j hj hi => ?_
  rcases Nat.lt_or_eq_of_le (Nat.le_of_lt_succ hi) with hless | rfl
  · exact (hs i j hj (by omega)).of_step ht.entropy
  · exact hwritten j hj

theorem leads_entropyPhase {s : State} (hbusy : s.state = .busy) :
    Leads (EntropyReady s) (EntropyNext s) (thenDo (exec .entropy s) (sequence .entropy)) := by
  rw [exec_entropy]
  refine ((ends_entropyPhase s).mono (fun hok : EntropyReady s => hok.1) (fun _ => id) fun _ => id).thenDo
    (fun t ht => ?_) fun t c pos val ht => .fault c pos val ht
  rw [show sequence .entropy t = .next (beginRecon t) from if_neg (not_not_intro (ht.1.state.trans hbusy))]
  exact .recon ht.1 fun _ m j hj hm => ht.2 m j hm hj

theorem leads_restart {s : State} (hbusy : s.state = .busy) (hphase : s.phase = .entropy) (hupc : s.upc = .restartDue) :
    Leads (EntropyReady s) (EntropyNext s) (thenDo (exec .restart s) (sequence .restart)) := by
  have hstep := entropyStep_restartAction s
  have hstage := stage_restartDue hupc
  have hmcu : (restartAction s).mcu = s.mcu := by simp [restartAction]
  rw [exec_restart, thenDo_next,
    show sequence .restart (restartAction s) = beginBlock 0 (restartAction s) from if_neg (not_not_intro (hstep.state.trans hbusy))]
  refine (leads_beginBlock (congrArg BitVec.toNat hmcu)).mono hstep.ready fun u hu =>
    .on (hu.entropyOn hstep (by simpa [restartAction] using hphase) (fun hs => ⟨hs.1, Nat.zero_lt_of_lt hs.2.1⟩) (by omega)
      fun hs i j hj hi => (hs i j hj (by omega)).of_step hstep)

/-- What a code position fetches, at every granularity. -/
theorem fetchAtCode_cases (s : State) :
    fetchAtCode s = fetchCode s ∨ s.k = 0 ∧ fetchAtCode s = .decodeDc s.mcu s.slot ∨
      fetchAtCode s = .decodeAc s.mcu s.slot ∨ fetchAtCode s = .decodeBlock s.mcu s.slot ∨
      s.slot = 0 ∧ fetchAtCode s = .decodeMcu s.mcu ∨ fetchAtCode s = .entropy := by
  unfold fetchAtCode
  cases s.params.grain with
  | unit => exact .inl rfl
  | part | block | mcu | phase =>
    dsimp only
    split_ifs with hk
    all_goals simp [*]

theorem runStep_of_stop {s : State} {e : Fault} (hbusy : s.state = .busy) (hfetch : fetch s = .stop e) :
    runStep s = .fault e := by rw [runStep, hbusy, hfetch]

/-- A step of ENTROPY. -/
theorem leads_runStep_entropy {s : State} (hbusy : s.state = .busy) (hphase : s.phase = .entropy) :
    Leads (EntropyReady s) (EntropyNext s) (runStep s) := by
  have hfetch := fetch_entropy hphase
  by_cases hcode : s.upc = .code
  · rw [fetchEntropy_code hcode] at hfetch
    rw [runStep_of_fetch hbusy hfetch]
    obtain heq | ⟨hk, heq⟩ | heq | heq | ⟨hslot, heq⟩ | heq := fetchAtCode_cases s
    all_goals rw [heq]
    · exact leads_fetchCode hbusy hphase hcode
    · exact leads_decodeDc hbusy hphase hcode hk
    · exact leads_decodeAc hbusy hphase hcode
    · exact leads_decodeBlock hbusy hphase hcode
    · exact leads_decodeMcu hbusy hphase hcode hslot
    · exact leads_entropyPhase hbusy
  by_cases hsymbol : s.upc = .symbol
  · rw [fetchEntropy_symbol hsymbol] at hfetch
    rw [runStep_of_fetch hbusy hfetch]
    by_cases hk : s.k = 0
    · rw [if_pos hk]
      exact leads_dcSym hbusy hphase hsymbol hk
    · rw [if_neg hk]
      exact leads_acSym hbusy hphase hsymbol
  by_cases hrestart : s.upc = .restartDue
  · rw [fetchEntropy_restartDue hrestart] at hfetch
    rw [runStep_of_fetch hbusy hfetch]
    exact leads_restart hbusy hphase hrestart
  · have hlost : fetch s = .stop .lostSequencer := by
      rw [hfetch, fetchEntropy]
      cases hupc : s.upc
      all_goals simp_all
    rw [runStep_of_stop hbusy hlost]
    rintro ⟨-, -, -, h | ⟨h | h, -⟩⟩ <;> contradiction

end Sys2Proof.Machine
end

section
/-! What one step of SCAN does (spec R160 to R169): it goes on behind a token or waits, faults, or ends in the first position of
ENTROPY. -/

namespace Sys2Proof.Machine

/-- The fields that SCAN writes before it ends. -/
def ScanFrame (s u : State) : Prop := u = { s with clean := u.clean, cleanlen := u.cleanlen, ip := u.ip }

theorem ScanFrame.trans {s u v : State} (h : ScanFrame s u) (h' : ScanFrame u v) : ScanFrame s v := by
  unfold ScanFrame at *
  rw [h', h]

/-- The bytes below CLEANLEN are written. -/
def CleanWritten (s : State) : Prop := ∀ a, a < s.cleanlen.toNat → Listed s.clean a

/-- Any number of tokens passed: the input cursor moves forward within the input, and with it CLEANLEN, which is never past it. -/
structure ScanStep (s u : State) : Prop where
  frame : ScanFrame s u
  ip_le : s.ip.toNat ≤ u.ip.toNat
  cleanlen : s.cleanlen.toNat ≤ s.ip.toNat → s.cleanlen.toNat ≤ u.cleanlen.toNat ∧ u.cleanlen.toNat ≤ u.ip.toNat
  wf : Memory.wf s.clean = true → Memory.wf u.clean = true
  written : CleanWritten s → CleanWritten u

theorem ScanStep.refl (s : State) : ScanStep s s := ⟨rfl, Nat.le_refl _, fun h => ⟨Nat.le_refl _, h⟩, id, id⟩

theorem ScanStep.trans {s u v : State} (h : ScanStep s u) (h' : ScanStep u v) : ScanStep s v where
  frame := h.frame.trans h'.frame
  ip_le := h.ip_le.trans h'.ip_le
  cleanlen hin := by
    obtain ⟨hle, hin'⟩ := h.cleanlen hin
    obtain ⟨hle', hin''⟩ := h'.cleanlen hin'
    exact ⟨hle.trans hle', hin''⟩
  wf := h'.wf ∘ h.wf
  written := h'.written ∘ h.written

theorem TokenPassed.scanStep {s u : State} (h : TokenPassed s u) : ScanStep s u := by
  have hlt := h.ip_lt
  have hbound := u.ip.isLt
  obtain ⟨hclean, hlen⟩ | ⟨v, hclean, hlen⟩ := h.clean
  · refine ⟨h.frame, hlt.le, fun hin => by rw [hlen]; omega, by rw [hclean]; exact id, ?_⟩
    unfold CleanWritten
    rw [hclean, hlen]
    exact id
  · have hnext : u.cleanlen.toNat = (s.cleanlen.toNat + 1) % 2 ^ 32 := by rw [hlen, BitVec.toNat_add]; rfl
    refine ⟨h.frame, hlt.le, fun hin => by omega, fun hwf => by rw [hclean]; exact Memory.wf_set hwf .., fun hs a ha => ?_⟩
    rw [hclean]
    by_cases hlast : a = s.cleanlen.toNat
    · rw [Listed, Memory.get?_set, if_pos hlast]
      rfl
    · exact Memory.listed_set (hs a (by omega)) ..

/-- EOI: the input cursor is behind it. -/
theorem scanStep_eoi {s : State} (h : s.ip.toNat + 2 < 2 ^ 32) : ScanStep s { s with ip := s.ip + 2 } := by
  have hip : (s.ip + 2).toNat = s.ip.toNat + 2 := toNat_add_ofNat h
  exact ⟨rfl, by rw [hip]; omega, fun hin => ⟨Nat.le_refl _, by rw [hip]; exact hin.trans (by omega)⟩, id, id⟩

/-- What a step of SCAN leads to. -/
inductive ScanNext (s : State) : State → Prop
  | on {u : State} : ScanStep s u → (s.inputEnd = true → s.ip.toNat < u.ip.toNat ∧ u.ip.toNat ≤ s.input.length) → ScanNext s u
  | fault {t : State} (c : Cause) (pos : Word) (val : BitVec 16) : ScanStep s t → ScanNext s (faultEntry c pos val t)
  | block {t u : State} : ScanStep s t → 0 < nMcu s → BeginsBlock 0 0 { t with phase := .entropy } u → ScanNext s u
  | recon {t : State} : ScanStep s t → nMcu s = 0 → ScanNext s (beginRecon { t with phase := .entropy })

/-- Where no step of SCAN stops. -/
def ScanReady (s : State) : Prop := s.input.length < 2 ^ 32 ∧ SlotsOk s ∧ 0 < ncomp s

theorem ScanFrame.state {s t : State} (h : ScanFrame s t) : t.state = s.state := by
  unfold ScanFrame at h
  rw [h]

theorem ScanFrame.phase {s t : State} (h : ScanFrame s t) : t.phase = s.phase := by
  unfold ScanFrame at h
  rw [h]

theorem sequence_eoi {u : State} (hbusy : u.state = .busy) : sequence .eoi u = nextMcu 0 u := if_neg (not_not_intro hbusy)

theorem sequence_scan_of_entropy {u : State} (hbusy : u.state = .busy) (hphase : u.phase = .entropy) :
    sequence .scan u = nextMcu 0 u := by
  rw [sequence, if_neg (not_not_intro hbusy)]
  exact if_pos hphase

theorem ScanFrame.nMcu {s t : State} (h : ScanFrame s t) : Machine.nMcu t = Machine.nMcu s := by
  unfold ScanFrame at h
  rw [h]
  rfl

/-- SCAN has ended: MCU 0 is next, and no restart is due before it. -/
theorem leads_scanEnd {s t : State} (h : ScanStep s t) {x : Host.Outcome State Fault Refusal}
    (hx : x = nextMcu 0 { t with phase := .entropy }) : Leads (ScanReady s) (ScanNext s) x := by
  subst hx
  have hframe := h.frame
  unfold ScanFrame at hframe
  have hok : SlotsOk s ∧ 0 < ncomp s → SlotsOk { t with phase := .entropy } ∧ 0 < ncomp { t with phase := .entropy } := by
    rw [hframe]
    exact id
  refine (leads_nextMcu 0 { t with phase := .entropy }).mono (fun hready => hok hready.2) fun u hu => ?_
  obtain ⟨hm, hblock | hrestart⟩ | ⟨hm, rfl⟩ := hu
  · exact .block h (by rw [← h.frame.nMcu]; exact hm) hblock
  · exact absurd hrestart.later (Nat.lt_irrefl 0)
  · exact .recon h (by rw [← h.frame.nMcu]; exact Nat.le_zero.mp hm)

/-- A step of SCAN over one token. -/
theorem leads_token {s : State} (hbusy : s.state = .busy) (hthere : tokenThere s = true) :
    Leads (ScanReady s) (ScanNext s) (thenDo (exec (nextToken s) s) (sequence (nextToken s))) := by
  obtain ⟨f, hexec, ⟨hpass, -, hseq, -⟩ | ⟨⟨-, hends⟩, htok, -⟩ | ⟨hfault, hseq, -⟩⟩ := scan_round hthere
  · rw [hexec]
    obtain ⟨u, rfl, hu⟩ | rfl | ⟨hpast, rfl⟩ := hpass
    · rw [Flow.toOutcome_cont, thenDo_next, hseq]
      exact .on hu.scanStep fun _ => ⟨hu.ip_lt, hu.ip_le⟩
    · rw [Flow.toOutcome_raise, thenDo_next, thenDo_sequence_faultEntry]
      exact .fault _ _ _ (ScanStep.refl s)
    · exact fun hok => absurd hok.1 (by omega)
  · rw [hexec]
    obtain ⟨hfits, rfl⟩ | ⟨hpast, rfl⟩ := hends
    · rw [Flow.toOutcome_cont, thenDo_next, htok]
      exact leads_scanEnd (scanStep_eoi hfits) (sequence_eoi (u := { s with ip := s.ip + 2, phase := .entropy }) hbusy)
    · exact fun hok => absurd hok.1 (by omega)
  · rw [hexec]
    obtain ⟨c, pos, val, rfl⟩ | ⟨hpast, rfl⟩ := hfault
    · rw [Flow.toOutcome_raise, thenDo_next, thenDo_sequence_faultEntry]
      exact .fault _ _ _ (ScanStep.refl s)
    · exact fun hok => absurd hok.1 (by omega)

/-- How the whole phase ends. -/
inductive ScanResult (s : State) : Flow Unit → Prop
  | waits {t : State} : ScanStep s t → s.inputEnd = false → ScanResult s (.ended t)
  | fault {t : State} (c : Cause) (pos : Word) (val : BitVec 16) : ScanStep s t → ScanResult s (raise c pos val t)
  | ends {t : State} : ScanStep s t → ScanResult s (.cont () { t with phase := .entropy })
  | refused (r : Refusal) : 2 ^ 32 ≤ s.input.length → ScanResult s (.refuse r)

theorem TokenPassed.scanResult {s u : State} {f : Flow Unit} (h : TokenPassed s u) (hf : ScanResult u f) : ScanResult s f := by
  cases hf with
  | waits ht hend => exact .waits (h.scanStep.trans ht) (h.inputEnd.symm.trans hend)
  | fault c pos val ht => exact .fault c pos val (h.scanStep.trans ht)
  | ends ht => exact .ends (h.scanStep.trans ht)
  | refused r hpast => exact .refused r (by rw [← h.input]; exact hpast)

theorem scanResult_scanLoop {n : Nat} {s : State} (hn : s.input.length ≤ s.ip.toNat + n) : ScanResult s (scanLoop n s) := by
  induction n generalizing s with
  | zero =>
    cases hthere : tokenThere s with
    | false =>
      rw [scanLoop_of_waiting hthere]
      exact .waits (ScanStep.refl s) (tokenThere_eq_false.mp hthere).1
    | true =>
      obtain ⟨f, -, ⟨-, hmore, -⟩ | ⟨⟨hmore, -⟩, -⟩ | ⟨hfault, -, hloop⟩⟩ := scan_round hthere
      · omega
      · omega
      · rw [hloop 0 hn]
        obtain ⟨c, pos, val, rfl⟩ | ⟨hpast, rfl⟩ := hfault
        · exact .fault _ _ _ (ScanStep.refl s)
        · exact .refused _ hpast
  | succ n ih =>
    cases hthere : tokenThere s with
    | false =>
      rw [scanLoop_of_waiting hthere]
      exact .waits (ScanStep.refl s) (tokenThere_eq_false.mp hthere).1
    | true =>
      obtain ⟨f, -, ⟨hpass, hmore, -, hloop⟩ | ⟨⟨hmore, hends⟩, -, hloop⟩ | ⟨hfault, -, hloop⟩⟩ := scan_round hthere
      · rw [hloop n]
        obtain ⟨u, rfl, hu⟩ | rfl | ⟨hpast, rfl⟩ := hpass
        · have hip := hu.ip_lt
          exact hu.scanResult (ih (by rw [hu.input]; omega))
        · exact .fault _ _ _ (ScanStep.refl s)
        · exact .refused _ hpast
      · rw [hloop n]
        obtain ⟨hfits, rfl⟩ | ⟨hpast, rfl⟩ := hends
        · exact .ends (scanStep_eoi hfits)
        · exact .refused _ hpast
      · rw [hloop _ hn]
        obtain ⟨c, pos, val, rfl⟩ | ⟨hpast, rfl⟩ := hfault
        · exact .fault _ _ _ (ScanStep.refl s)
        · exact .refused _ hpast

/-- SCAN as one step. -/
theorem leads_scanPhase {s : State} (hbusy : s.state = .busy) (hphase : s.phase = .scan) :
    Leads (ScanReady s) (ScanNext s) (thenDo (exec .scan s) (sequence .scan)) := by
  have hresult : ScanResult s (scanPhase s) := scanResult_scanLoop (by omega)
  rw [exec_scan]
  generalize scanPhase s = f at hresult
  cases hresult with
  | waits ht hend =>
    have htphase := ht.frame.phase
    rw [Flow.toOutcome_ended, thenDo_next, sequence_scan_of_not_entropy (.inl (by rw [htphase, hphase]; decide))]
    exact .on ht fun hend' => absurd (hend.symm.trans hend') (by decide)
  | fault c pos val ht =>
    rw [Flow.toOutcome_raise, thenDo_next, thenDo_sequence_faultEntry]
    exact .fault c pos val ht
  | ends ht =>
    rw [Flow.toOutcome_cont, thenDo_next]
    exact leads_scanEnd ht (sequence_scan_of_entropy (ht.frame.state.trans hbusy) rfl)
  | refused r hpast => exact fun hok => absurd hok.1 (by omega)

/-- A step of SCAN. -/
theorem leads_runStep_scan {s : State} (hbusy : s.state = .busy) (hphase : s.phase = .scan) :
    Leads (ScanReady s) (ScanNext s) (runStep s) := by
  cases hthere : tokenThere s with
  | false =>
    rw [runStep_of_wait hbusy (fetch_of_waiting hphase hthere)]
    exact .on (ScanStep.refl s) fun hend => absurd ((tokenThere_eq_false.mp hthere).1.symm.trans hend) (by decide)
  | true =>
    by_cases hgrain : s.params.grain = .phase
    · rw [runStep_of_fetch hbusy (fetch_scan hphase hgrain hthere)]
      exact leads_scanPhase hbusy hphase
    · rw [runStep_of_fetch hbusy (fetch_token hphase hgrain hthere)]
      exact leads_token hbusy hthere

end Sys2Proof.Machine
end

section
/-! What one step of RECON does (spec R250 to R300): a position further on with the buffers it reads written, or DONE. -/

namespace Sys2Proof.Machine

/-! The position in RECON. -/

/-- A place in the reconstruction of an MCU. -/
def ReconPlace (s : State) (p : Upc) : Prop :=
  (∃ ch : Fin 3, ch.val < ncomp s ∧ (p = .dequant ch ∨ p = .idct ch)) ∨ ∃ i : Fin 64, p = .colour i ∨ p = .store i

/-- The position is one of RECON. -/
def ReconPosition (s : State) : Prop := s.mcu.toNat < nMcu s ∧ ReconPlace s s.upc

/-- A number of the place within the MCU. -/
def placeRank : Upc → Nat
  | .dequant ch => 2 * ch.val
  | .idct ch => 2 * ch.val + 1
  | .colour i => 10 + i.val
  | .store i => 100 + i.val
  | .idle => 0
  | .token => 0
  | .restartDue => 0
  | .code => 0
  | .symbol => 0
  | .blockEnd => 0

theorem placeRank_lt (p : Upc) : placeRank p < 1000 := by
  cases p with
  | dequant ch | idct ch | colour i | store i =>
    dsimp only [placeRank]
    omega
  | idle | token | restartDue | code | symbol | blockEnd => exact Nat.zero_lt_succ _

/-- The place in RECON. It grows with every step. -/
def reconRank (s : State) : Nat := 1000 * s.mcu.toNat + placeRank s.upc

/-- The buffers that the place `p` is about to read are written (spec R60, U1). -/
structure BuffersWritten (s : State) (p : Upc) : Prop where
  dq : ∀ ch, p = .idct ch → ∀ n, n < 64 → Listed s.dq n
  samp : ∀ ch c : Fin 3, p = .dequant ch ∨ p = .idct ch → c < ch → ∀ n, n < 64 → Listed s.samp (64 * c.val + n)
  pixels : ∀ i : Fin 64, p = .colour i → ∀ c n, c < ncomp s → n < 64 → Listed s.samp (64 * c + n)
  rgb : ∀ i : Fin 64, p = .colour i → ∀ c n, c < 3 → n < i.val → Listed s.rgb (64 * c + n)
  stores : ∀ i : Fin 64, p = .store i → ∀ c n, c < 3 → n < 64 → Listed s.rgb (64 * c + n)

theorem buffersWritten_dequant {s : State} {ch : Fin 3}
    (hsamp : ∀ c : Fin 3, c < ch → ∀ n, n < 64 → Listed s.samp (64 * c.val + n)) : BuffersWritten s (.dequant ch) := by
  refine ⟨nofun, fun ch' c hp hc => ?_, nofun, nofun, nofun⟩
  obtain hp | hp := hp
  · cases hp
    exact hsamp c hc
  · cases hp

theorem buffersWritten_idct {s : State} {ch : Fin 3} (hdq : ∀ n, n < 64 → Listed s.dq n)
    (hsamp : ∀ c : Fin 3, c < ch → ∀ n, n < 64 → Listed s.samp (64 * c.val + n)) : BuffersWritten s (.idct ch) := by
  refine ⟨fun _ _ => hdq, fun ch' c hp hc => ?_, nofun, nofun, nofun⟩
  obtain hp | hp := hp
  · cases hp
  · cases hp
    exact hsamp c hc

theorem buffersWritten_colour {s : State} {i : Fin 64} (hsamp : ∀ c n, c < ncomp s → n < 64 → Listed s.samp (64 * c + n))
    (hrgb : ∀ c n, c < 3 → n < i.val → Listed s.rgb (64 * c + n)) : BuffersWritten s (.colour i) := by
  refine ⟨nofun, nofun, fun _ _ => hsamp, fun i' hp => ?_, nofun⟩
  cases hp
  exact hrgb

theorem buffersWritten_store {s : State} {i : Fin 64} (hrgb : ∀ c n, c < 3 → n < 64 → Listed s.rgb (64 * c + n)) :
    BuffersWritten s (.store i) := ⟨nofun, nofun, nofun, nofun, fun _ _ => hrgb⟩

/-- RECON goes on, further on than before; `upc` is the only field beyond the frame of its operations. -/
structure ReconOn (s u : State) : Prop where
  step : ReconStep s (setUpc s.upc u)
  position : 0 < ncomp s → ReconPosition s → ReconPosition u
  written : ncomp s ≤ 3 → BuffersWritten s s.upc → BuffersWritten u u.upc
  rank : ReconPosition s → reconRank s < reconRank u

/-- What a step of RECON leads to. -/
inductive ReconNext (s : State) : State → Prop
  | on {u : State} : ReconOn s u → ReconNext s u
  | finish {t : State} : ReconStep s t → ReconNext s (finishRun t)

/-- Where no step of RECON stops. -/
def ReconReady (s : State) : Prop := ChannelsFed s ∧ ReconPosition s

theorem ReconFrame.upc {s u : State} (h : ReconFrame s u) : u.upc = s.upc := by
  unfold ReconFrame at h
  rw [h]

theorem ReconFrame.state {s u : State} (h : ReconFrame s u) : u.state = s.state := by
  unfold ReconFrame at h
  rw [h]

theorem ReconFrame.nMcu {s u : State} (h : ReconFrame s u) : Machine.nMcu u = Machine.nMcu s := by
  unfold Machine.nMcu Machine.mcuCols Machine.mcuRows
  rw [h.width, h.height]

theorem ReconStep.setUpc_self {s t : State} (h : ReconStep s t) (p : Upc) : ReconStep s (setUpc s.upc (setUpc p t)) := by
  rw [show setUpc s.upc (setUpc p t) = setUpc s.upc t from rfl, ← h.frame.upc]
  exact h

/-- A step within the MCU. -/
theorem ReconMcuStep.reconOn {s t : State} {p : Upc} (h : ReconMcuStep s t) (hplace : ReconPosition s → ReconPlace s p)
    (hwritten : ncomp s ≤ 3 → BuffersWritten s s.upc → BuffersWritten t p) (hrank : placeRank s.upc < placeRank p) :
    ReconOn s (setUpc p t) := by
  have hmcu : (setUpc p t).mcu = s.mcu := h.mcu
  have hncomp : ncomp (setUpc p t) = ncomp s := h.frame.ncomp
  refine ⟨h.toReconStep.setUpc_self p, fun _ hs => ⟨?_, ?_⟩, fun hn hs => ?_, fun _ => ?_⟩
  · rw [hmcu, show nMcu (setUpc p t) = nMcu s from h.frame.nMcu]
    exact hs.1
  · rw [ReconPlace, hncomp]
    exact hplace hs
  · obtain ⟨hdq, hsamp, hpixels, hrgb, hstores⟩ := hwritten hn hs
    exact ⟨hdq, hsamp, hpixels, hrgb, hstores⟩
  · rw [reconRank, reconRank, hmcu]
    exact Nat.add_lt_add_left hrank _

/-- The MCU is done: the next one, or the end (the loop of spec R300). -/
theorem ReconMcuStep.reconNext {s t : State} (h : ReconMcuStep s t) : ReconNext s (afterReconMcu t) := by
  have hsize := nMcu_le t
  have hmcu := h.mcu
  unfold afterReconMcu
  split
  next hnext =>
    have hword : (t.mcu + 1).toNat = t.mcu.toNat + 1 := toNat_add_ofNat (n := 1) (by omega)
    have hstep : ReconStep s { t with mcu := t.mcu + 1 } := h.toReconStep.trans (reconStep_setMcu _ t)
    refine .on ⟨hstep.setUpc_self (.dequant 0), fun hncomp _ => ⟨?_, .inl ⟨0, ?_, .inl rfl⟩⟩, fun _ _ => ?_, fun _ => ?_⟩
    · show (t.mcu + 1).toNat < nMcu t
      omega
    · show (0 : Fin 3).val < ncomp t
      rw [h.frame.ncomp]
      exact hncomp
    · exact buffersWritten_dequant fun c hc => absurd hc (Nat.not_lt_zero _)
    · have hlt := placeRank_lt s.upc
      show 1000 * s.mcu.toNat + placeRank s.upc < 1000 * (t.mcu + 1).toNat + 0
      rw [hword, hmcu]
      omega
  next => exact .finish h.toReconStep

/-! The instructions of an MCU. -/

theorem ReconPosition.channel_lt {s : State} (h : ReconPosition s) {ch : Fin 3} (hupc : s.upc = .dequant ch ∨ s.upc = .idct ch) :
    ch.val < ncomp s := by
  obtain ⟨-, ⟨ch', hch, h⟩ | ⟨i, h⟩⟩ := h
  · obtain rfl : ch' = ch := by
      rcases hupc with hupc | hupc <;> rw [hupc] at h <;> simpa [eq_comm] using h
    exact hch
  · rcases hupc with hupc | hupc <;> rw [hupc] at h <;> simp at h

theorem leads_dequant {s : State} (hbusy : s.state = .busy) {ch : Fin 3} (hupc : s.upc = .dequant ch) (tq : BitVec 2) :
    Leads (ReconReady s) (ReconNext s)
      (thenDo (exec (.dequant s.mcu ch tq) s) (sequence (.dequant s.mcu ch tq))) := by
  have hstep := reconMcuStep_dequantBlock s.mcu.toNat ch.val tq s
  rw [exec_dequant, thenDo_next, show sequence (.dequant s.mcu ch tq) (dequantBlock s.mcu.toNat ch.val tq s) =
    .next (setUpc (.idct ch) (dequantBlock s.mcu.toNat ch.val tq s)) from if_neg (not_not_intro (hstep.frame.state.trans hbusy))]
  refine .on (hstep.reconOn (fun hs => .inl ⟨ch, hs.channel_lt (.inl hupc), .inr rfl⟩) (fun _ hs => ?_) ?_)
  · refine buffersWritten_idct (fun n hn => listed_dq_dequantBlock _ _ _ _ hn) fun c hc n hn => ?_
    rw [dequantBlock_samp]
    exact hs.samp ch c (.inl hupc) hc n hn
  · rw [hupc]
    exact Nat.lt_succ_self _

/-- Which place follows IDCT. -/
theorem afterIdct_cases (ch : Fin 3) (s : State) :
    (∃ next : Fin 3, next.val = ch.val + 1 ∧ next.val < ncomp s ∧ afterIdct ch s = setUpc (.dequant next) s) ∨
      (ncomp s ≤ 3 → ncomp s ≤ ch.val + 1) ∧ afterIdct ch s = setUpc (.colour 0) s := by
  unfold afterIdct
  by_cases hch : ch.val + 1 < 3
  · rw [slotOf_of_lt hch]
    by_cases hnext : ch.val + 1 < ncomp s
    · exact .inl ⟨⟨ch.val + 1, hch⟩, rfl, hnext, if_pos hnext⟩
    · exact .inr ⟨fun _ => by omega, if_neg hnext⟩
  · rw [slotOf, dif_neg hch]
    exact .inr ⟨fun h => by omega, rfl⟩

theorem leads_idct {s : State} (hbusy : s.state = .busy) {ch : Fin 3} (hupc : s.upc = .idct ch) :
    Leads (ReconReady s) (ReconNext s) (thenDo (exec (.idct ch) s) (sequence (.idct ch))) := by
  have hstep := reconMcuStep_idctBlock ch.val s
  have hncomp := hstep.frame.ncomp
  rw [exec_idct, thenDo_next, show sequence (.idct ch) (idctBlock ch.val s) = .next (afterIdct ch (idctBlock ch.val s))
    from if_neg (not_not_intro (hstep.frame.state.trans hbusy))]
  have hsamp : BuffersWritten s s.upc → ∀ c : Nat, c < ch.val + 1 → ∀ n, n < 64 →
      Listed (idctBlock ch.val s).samp (64 * c + n) := fun hs c hc n hn => by
    by_cases hsame : c = ch.val
    · subst hsame
      exact listed_samp_idctBlock _ s hn
    · rw [Listed, get?_samp_idctBlock_outside ch.val s (by omega)]
      exact hs.samp ch ⟨c, by omega⟩ (.inr hupc) (show c < ch.val by omega) n hn
  have hch := ch.isLt
  obtain ⟨next, hval, hnext, heq⟩ | ⟨hlast, heq⟩ := afterIdct_cases ch (idctBlock ch.val s)
  · rw [heq]
    refine .on (hstep.reconOn (fun _ => .inl ⟨next, by rw [← hncomp]; exact hnext, .inl rfl⟩) (fun _ hs =>
      buffersWritten_dequant fun c hc n hn => hsamp hs c.val (by rw [← hval]; exact hc) n hn) ?_)
    rw [hupc]
    dsimp only [placeRank]
    omega
  · rw [heq]
    rw [hncomp] at hlast
    refine .on (hstep.reconOn (fun _ => .inr ⟨0, .inl rfl⟩) (fun hle hs => buffersWritten_colour (fun c n hc hn => ?_)
      fun c n _ hn => absurd hn (Nat.not_lt_zero n)) ?_)
    · rw [hncomp] at hc
      exact hsamp hs c (by have := hlast hle; omega) n hn
    · rw [hupc]
      dsimp only [placeRank]
      omega

theorem Memory.listed_set_self {α : Type} (m : Memory α) (a : Nat) (v : α) : Listed (Memory.set m a v) a := by
  rw [Listed, Memory.get?_set, if_pos rfl]
  rfl

/-- The next pixel of an MCU. -/
theorem val_add_one {i : Fin 64} (hi : i ≠ 63) : (i + 1).val = i.val + 1 := by
  have hne : i.val ≠ 63 := fun h => hi (Fin.ext h)
  have hlt := i.isLt
  rw [Fin.val_add, Nat.mod_eq_of_lt]
  · rfl
  · show i.val + 1 < 64
    omega

theorem listed_rgb_keepPixel {s : State} {i a : Nat} (h : Listed s.rgb a ∨ ∃ c, c < 3 ∧ a = 64 * c + i) :
    Listed (keepPixel i s).rgb a := by
  rw [keepPixel_rgb, Memory.setAll_cons, Memory.setAll_cons, Memory.setAll_cons, Memory.setAll_nil]
  obtain h | ⟨c, hc, rfl⟩ := h
  · exact Memory.listed_set (Memory.listed_set (Memory.listed_set h ..) ..) ..
  · interval_cases c
    · exact Memory.listed_set (Memory.listed_set (by rw [Nat.mul_zero, Nat.zero_add]; exact Memory.listed_set_self ..) ..) ..
    · exact Memory.listed_set (Memory.listed_set_self ..) ..
    · exact Memory.listed_set_self ..

theorem leads_colour {s : State} {i : Fin 64} (hupc : s.upc = .colour i) {p : Rgb} {x : Instr}
    (hexec : exec x s = .next { s with pixel := p })
    (hseq : sequence x { s with pixel := p } = .next (afterColour { s with pixel := p })) :
    Leads (ReconReady s) (ReconNext s) (thenDo (exec x s) (sequence x)) := by
  rw [hexec, thenDo_next, hseq, afterColour, show ({ s with pixel := p } : State).upc = .colour i from hupc]
  have hkeep : ReconMcuStep s (keepPixel i.val { s with pixel := p }) :=
    (reconMcuStep_setPixel p s).trans (reconMcuStep_keepPixel i.val _)
  have hrgb : BuffersWritten s s.upc → ∀ c n, c < 3 → n < i.val + 1 →
      Listed (keepPixel i.val { s with pixel := p }).rgb (64 * c + n) :=
    fun hs c n hc hn => by
      refine listed_rgb_keepPixel ?_
      by_cases hlast : n = i.val
      · exact .inr ⟨c, hc, by rw [hlast]⟩
      · exact .inl (hs.rgb i hupc c n hc (by omega))
  by_cases hi : i = 63
  · dsimp only
    rw [if_pos hi]
    subst hi
    refine .on ((hkeep.trans (reconMcuStep_bumpDraws _)).reconOn (fun _ => .inr ⟨0, .inr rfl⟩)
      (fun _ hs => buffersWritten_store fun c n hc hn => hrgb hs c n hc hn) ?_)
    rw [hupc]
    decide
  · dsimp only
    rw [if_neg hi]
    have hval := val_add_one hi
    refine .on (hkeep.reconOn (p := .colour (i + 1)) (fun _ => .inr ⟨i + 1, .inl rfl⟩)
      (fun _ hs => buffersWritten_colour (fun c n hc hn => hs.pixels i hupc c n hc hn) fun c n hc hn => hrgb hs c n hc (by omega)) ?_)
    rw [hupc]
    dsimp only [placeRank]
    omega

theorem leads_store {s : State} (hbusy : s.state = .busy) {i : Fin 64} (hupc : s.upc = .store i) (r g b : Byte) :
    Leads (ReconReady s) (ReconNext s) (thenDo (exec (.storepix s.mcu i r g b) s) (sequence (.storepix s.mcu i r g b))) := by
  have hstep := reconMcuStep_storePixel s.mcu.toNat i.val { r := r, g := g, b := b } s
  rw [exec_storepix, thenDo_next, show sequence (.storepix s.mcu i r g b) (storePixel s.mcu.toNat i.val { r := r, g := g, b := b } s) =
    .next (afterStore i (storePixel s.mcu.toNat i.val { r := r, g := g, b := b } s))
      from if_neg (not_not_intro (hstep.frame.state.trans hbusy)), afterStore]
  by_cases hi : i = 63
  · rw [if_pos hi]
    exact hstep.reconNext
  · rw [if_neg hi]
    have hval := val_add_one hi
    refine .on (hstep.reconOn (p := .store (i + 1)) (fun _ => .inr ⟨i + 1, .inr rfl⟩)
      (fun _ hs => buffersWritten_store fun c n hc hn => ?_) ?_)
    · rw [storePixel_rgb]
      exact hs.stores i hupc c n hc hn
    · rw [hupc]
      dsimp only [placeRank]
      omega

/-- An operation of RECON and how the loops go on after it. -/
theorem Flow.Goes.thenDo {α : Type} {ok : Prop} {P Q : State → Prop} {x : Flow α} {i : Instr} (hx : Flow.Goes ok P x)
    (hgo : ∀ t, P t → Leads ok Q (sequence i t)) : Leads ok Q (Machine.thenDo x.toOutcome (sequence i)) := by
  cases x with
  | cont _ t => exact hgo t hx
  | ended u => exact hx.elim
  | stop e => exact hx
  | refuse r => exact hx.elim

theorem leads_reconMcu {s : State} (hbusy : s.state = .busy) :
    Leads (ReconReady s) (ReconNext s) (thenDo (exec (.reconMcu s.mcu) s) (sequence (.reconMcu s.mcu))) := by
  rw [exec_reconMcu]
  refine ((goes_reconMcuOf s.mcu.toNat s).mono (fun hok : ReconReady s => hok.1) fun _ => id).thenDo fun t ht => ?_
  rw [show sequence (.reconMcu s.mcu) t = .next (afterReconMcu t) from if_neg (not_not_intro (ht.frame.state.trans hbusy))]
  exact ht.reconNext

theorem leads_recon (s : State) : Leads (ReconReady s) (ReconNext s) (thenDo (exec .recon s) (sequence .recon)) := by
  rw [exec_recon]
  refine ((goes_reconPhase s).mono (fun hok : ReconReady s => hok.1) fun _ => id).thenDo fun t ht => ?_
  obtain ⟨v, hv, rfl⟩ := ht
  rw [sequence_of_not_busy _ (show (finishRun v).state ≠ .busy from (by decide : RunState.done ≠ .busy))]
  exact .finish hv

/-- What a DEQUANT position fetches, at every granularity. -/
theorem fetchRecon_dequant_cases {s : State} {ch : Fin 3} (hupc : s.upc = .dequant ch) :
    (∃ tq, fetchRecon s = .instr (.dequant s.mcu ch tq)) ∨ tqOf s ch = none ∧ fetchRecon s = .stop .noChannel ∨
      fetchRecon s = .instr (.reconMcu s.mcu) ∨ fetchRecon s = .instr .recon := by
  have hdequant : (∃ tq, fetchDequant s ch = .instr (.dequant s.mcu ch tq)) ∨
      tqOf s ch = none ∧ fetchDequant s ch = .stop .noChannel := by
    unfold fetchDequant
    cases tqOf s ch with
    | none => exact .inr ⟨rfl, rfl⟩
    | some tq => exact .inl ⟨tq, rfl⟩
  rw [fetchRecon, hupc]
  dsimp only
  cases s.params.grain with
  | unit =>
    dsimp only
    tauto
  | part | block | mcu | phase =>
    dsimp only
    split_ifs <;> tauto

/-- A step of RECON. -/
theorem leads_runStep_recon {s : State} (hbusy : s.state = .busy) (hphase : s.phase = .recon) :
    Leads (ReconReady s) (ReconNext s) (runStep s) := by
  have hfetch := fetch_recon hphase
  cases hupc : s.upc with
  | dequant ch =>
    obtain ⟨tq, heq⟩ | ⟨htq, heq⟩ | heq | heq := fetchRecon_dequant_cases hupc
    · rw [runStep_of_fetch hbusy (hfetch.trans heq)]
      exact leads_dequant hbusy hupc tq
    · rw [runStep_of_stop hbusy (hfetch.trans heq)]
      rintro ⟨hfed, hpos⟩
      obtain ⟨ch', hch', tq, hfound⟩ := hfed ch.val (hpos.channel_lt (.inl hupc))
      rw [Fin.ext hch', htq] at hfound
      cases hfound
    · rw [runStep_of_fetch hbusy (hfetch.trans heq)]
      exact leads_reconMcu hbusy
    · rw [runStep_of_fetch hbusy (hfetch.trans heq)]
      exact leads_recon s
  | idct ch =>
    rw [runStep_of_fetch hbusy (hfetch.trans (fetchRecon_idct hupc))]
    exact leads_idct hbusy hupc
  | colour i =>
    rw [runStep_of_fetch hbusy (hfetch.trans (fetchRecon_colour hupc))]
    split
    · exact leads_colour hupc (exec_ycc2rgb ..) (if_neg (not_not_intro hbusy))
    · exact leads_colour hupc (exec_gray ..) (if_neg (not_not_intro hbusy))
  | store i =>
    rw [runStep_of_fetch hbusy (hfetch.trans (fetchRecon_store hupc))]
    exact leads_store hbusy hupc _ _ _
  | idle | token | restartDue | code | symbol | blockEnd =>
    have hlost : fetch s = .stop .lostSequencer := by rw [hfetch, fetchRecon, hupc]
    rw [runStep_of_stop hbusy hlost]
    rintro ⟨-, -, h⟩
    simp [ReconPlace, hupc] at h

end Sys2Proof.Machine
end

section
/-! What one step of the machine does: the host's action that is due, or one step of the run; and what every step of a run keeps
(spec R82, R84, R149, R355, R385). -/

namespace Sys2Proof.Machine

/-! A step of the run. -/

/-- What a step of a run leads to. -/
inductive RunNext (s : State) : State → Prop
  | scan {u : State} : s.phase = .scan → ScanNext s u → RunNext s u
  | entropy {u : State} : s.phase = .entropy → EntropyNext s u → RunNext s u
  | recon {u : State} : s.phase = .recon → ReconNext s u → RunNext s u

/-- Where no step of a run stops. -/
structure RunReady (s : State) : Prop where
  phase : s.phase ≠ .none
  scan : s.phase = .scan → ScanReady s
  entropy : s.phase = .entropy → EntropyReady s
  recon : s.phase = .recon → ReconReady s

theorem leads_runStep {s : State} (hbusy : s.state = .busy) : Leads (RunReady s) (RunNext s) (runStep s) := by
  cases hphase : s.phase with
  | scan => exact (leads_runStep_scan hbusy hphase).mono (fun h => h.scan hphase) fun _ => .scan hphase
  | entropy => exact (leads_runStep_entropy hbusy hphase).mono (fun h => h.entropy hphase) fun _ => .entropy hphase
  | recon => exact (leads_runStep_recon hbusy hphase).mono (fun h => h.recon hphase) fun _ => .recon hphase
  | none =>
    rw [runStep_of_stop hbusy (by rw [fetch, hphase])]
    exact fun h => h.phase hphase

/-! An action of the host. -/

/-- What an action of the host leads to. -/
inductive HostNext (s : State) : HostEvent → State → Prop
  | reset : HostNext s .reset (resetInput s)
  | attached (bytes : List Byte) (last : Bool) : s.state ≠ .busy →
      HostNext s (.attach bytes last) { s with input := bytes, inputEnd := last, inputFresh := true }
  | delivered (bytes : List Byte) (last : Bool) : s.inputEnd = false →
      HostNext s (.deliver bytes last) { s with input := s.input ++ bytes, inputEnd := last }
  | read (a : Fin 3072) (w : Word) : HostNext s (.read a) { s with rdata := w, draws := s.draws + 1 }
  | ignored (a : Fin 3072) (v : Word) : HostNext s (.write a v) { s with wign := true }
  | stored (a : Fin 3072) (v : Word) (p : PortWord) : s.state ≠ .busy → HostNext s (.write a v) (portStore p v s)
  | refused (c : Cause) (val : BitVec 16) : s.state ≠ .busy → HostNext s (.write 1 1) (faultEntry c 0 val (clearRun s))
  | started : s.state ≠ .busy → CountOk s → DimsOk s → IdsOk s →
      HostNext s (.write 1 1) { takeInput (bumpDraws (clearRun s)) with state := .busy, phase := .scan, upc := .token }
  | cleared : s.state ≠ .busy → HostNext s (.write 1 2) (leaveToIdle s)

/-- Where an action of the host is not refused (log 14). -/
structure HostReady (e : HostEvent) (s : State) : Prop where
  attach : ∀ bytes last, e = .attach bytes last → s.state ≠ .busy
  deliver : ∀ bytes last, e = .deliver bytes last → s.inputEnd = false

theorem countOk_of_checkCount {s : State} (h : checkCount s = none) : CountOk s := by
  unfold checkCount at h
  split_ifs at h
  unfold CountOk
  omega

theorem dimsOk_of_checkDims {s : State} (h : checkDims s = none) : DimsOk s := by
  unfold checkDims at h
  split_ifs at h with hw hh
  exact ⟨hw, hh⟩

theorem idsOk_of_checkIds {s : State} (h : checkIds s = none) : IdsOk s := by
  intro j hj
  have hnone := List.findSome?_eq_none_iff.mp h j (mem_usedSlots.mpr hj)
  split_ifs at hnone with hok
  exact (idOk_iff hj).mp hok

theorem launch_of_validate {s : State} (h : validate s = none) : CountOk s ∧ DimsOk s ∧ IdsOk s := by
  unfold validate at h
  simp only [Option.or_eq_none_iff] at h
  exact ⟨countOk_of_checkCount h.1, dimsOk_of_checkDims h.2.1, idsOk_of_checkIds h.2.2.1⟩

theorem hostNext_startCommand (s : State) : HostNext s (.write 1 1) (startCommand s) := by
  obtain ⟨-, heq⟩ | ⟨hstopped, ⟨c, v, -, heq⟩ | ⟨hvalid, heq⟩⟩ := startCommand_cases s
  · rw [heq]
    exact .ignored 1 1
  · rw [heq]
    exact .refused c v hstopped
  · rw [heq]
    obtain ⟨hcount, hdims, hids⟩ := launch_of_validate (validate_clearRun s ▸ hvalid)
    exact .started hstopped hcount hdims hids

theorem hostNext_clearCommand (s : State) : HostNext s (.write 1 2) (clearCommand s) := by
  unfold clearCommand
  split
  · exact .ignored 1 2
  next hstopped => exact .cleared hstopped

theorem hostNext_command (v : Word) (s : State) : HostNext s (.write 1 v) (command v s) := by
  unfold command
  by_cases hstart : v = 1
  · subst hstart
    exact hostNext_startCommand s
  rw [if_neg hstart]
  by_cases hclear : v = 2
  · subst hclear
    exact hostNext_clearCommand s
  rw [if_neg hclear]
  exact .ignored 1 v

theorem leads_hostStep (e : HostEvent) (s : State) : Leads (HostReady e s) (HostNext s e) (hostStep e s) := by
  cases e with
  | write a v =>
    rw [hostStep, decodeWrite]
    by_cases ha : a = cmdIndex
    · subst ha
      rw [if_pos rfl, command_eq_exec]
      exact hostNext_command v s
    · rw [if_neg ha, exec_write]
      have hcmd : portWord a ≠ .cmd := portWord_ne_cmd fun h => ha (Fin.ext h)
      obtain ⟨hcmd', -⟩ | ⟨-, -, heq⟩ | ⟨-, -, hstopped, heq⟩ := portWrite_cases a v s
      · exact absurd hcmd' hcmd
      · rw [heq]
        exact .ignored a v
      · rw [heq]
        exact .stored a v (portWord a) hstopped
  | read a => exact .read a _
  | attach bytes last =>
    rw [hostStep, attachInput]
    split
    next hbusy => exact fun hok => hok.attach bytes last rfl hbusy
    next hstopped => exact .attached bytes last hstopped
  | deliver bytes last =>
    rw [hostStep, deliverInput]
    split
    next hend => exact fun hok => absurd ((hok.deliver bytes last rfl).symm.trans hend) (by decide)
    next hopen => exact .delivered bytes last (by simpa using hopen)
  | reset => exact .reset

/-! A step of the machine. -/

/-- What a step leads to. -/
inductive StepNext (s : State) : State → Prop
  | host {e : HostEvent} {rest : List (Nat × HostEvent)} {u : State} : s.hostq = (0, e) :: rest →
      HostNext { s with hostq := rest } e u → StepNext s u
  | run {q : List (Nat × HostEvent)} {u : State} : (∀ e, ¬Due s e) → s.state = .busy → RunNext { s with hostq := q } u →
      StepNext s u
  | stopped (q : List (Nat × HostEvent)) : (∀ e, ¬Due s e) → s.state ≠ .busy → StepNext s { s with hostq := q }

/-- Where no step stops. -/
structure StepReady (s : State) : Prop where
  host : ∀ e, Due s e → HostReady e s
  run : s.state = .busy → RunReady s

theorem leads_step_of_run {s : State} (q : List (Nat × HostEvent)) (hnone : ∀ e, ¬Due s e) :
    Leads (StepReady s) (StepNext s) (runStep { s with hostq := q }) := by
  by_cases hbusy : s.state = .busy
  · exact (leads_runStep (s := { s with hostq := q }) hbusy).mono
      (fun h => ⟨(h.run hbusy).phase, (h.run hbusy).scan, (h.run hbusy).entropy, (h.run hbusy).recon⟩) fun _ => .run hnone hbusy
  · rw [runStep_of_stopped (s := { s with hostq := q }) hbusy]
    exact .stopped q hnone hbusy

theorem leads_step (s : State) : Leads (StepReady s) (StepNext s) (step s) := by
  obtain ⟨hq, heq⟩ | ⟨e, rest, hq, heq⟩ | ⟨n, e, rest, hq, heq⟩ := step_cases s
  · have hself : { s with hostq := [] } = s := by rw [← hq]
    have h := leads_step_of_run (s := s) [] fun e ⟨rest, hdue⟩ => by
      rw [hq] at hdue
      cases hdue
    rw [heq]
    rwa [hself] at h
  · rw [heq]
    have hdue : Due s e := ⟨rest, hq⟩
    exact (leads_hostStep e { s with hostq := rest }).mono
      (fun h => ⟨(h.host e hdue).attach, (h.host e hdue).deliver⟩) fun _ => .host hq
  · rw [heq]
    refine leads_step_of_run _ fun e' ⟨rest', hdue⟩ => ?_
    rw [hq] at hdue
    cases hdue

theorem step_next {s u : State} (h : step s = .next u) : StepNext s u := (leads_step s).of_next h

/-! What every step of a run keeps. -/

/-- The fields that no step of a run writes (spec R82, R84). -/
structure RunFrame (s u : State) : Prop where
  wign : u.wign = s.wign
  irqen : u.irqen = s.irqen
  framedim : u.framedim = s.framedim
  framecfg : u.framecfg = s.framecfg
  scancomp : u.scancomp = s.scancomp
  tabset : u.tabset = s.tabset
  qtab : u.qtab = s.qtab
  hoff : u.hoff = s.hoff
  hsym : u.hsym = s.hsym
  input : u.input = s.input
  inputEnd : u.inputEnd = s.inputEnd
  inputFresh : u.inputFresh = s.inputFresh
  hostq : u.hostq = s.hostq
  params : u.params = s.params

theorem RunFrame.refl (s : State) : RunFrame s s := ⟨rfl, rfl, rfl, rfl, rfl, rfl, rfl, rfl, rfl, rfl, rfl, rfl, rfl, rfl⟩

theorem RunFrame.trans {s t u : State} (h : RunFrame s t) (h' : RunFrame t u) : RunFrame s u :=
  ⟨h'.wign.trans h.wign, h'.irqen.trans h.irqen, h'.framedim.trans h.framedim, h'.framecfg.trans h.framecfg,
    h'.scancomp.trans h.scancomp, h'.tabset.trans h.tabset, h'.qtab.trans h.qtab, h'.hoff.trans h.hoff, h'.hsym.trans h.hsym,
    h'.input.trans h.input, h'.inputEnd.trans h.inputEnd, h'.inputFresh.trans h.inputFresh, h'.hostq.trans h.hostq,
    h'.params.trans h.params⟩

theorem RunFrame.ncomp {s u : State} (h : RunFrame s u) : Machine.ncomp u = Machine.ncomp s := by
  rw [Machine.ncomp, h.framecfg, Machine.ncomp]

theorem RunFrame.width {s u : State} (h : RunFrame s u) : Machine.width u = Machine.width s := by
  rw [Machine.width, h.framedim, Machine.width]

theorem RunFrame.height {s u : State} (h : RunFrame s u) : Machine.height u = Machine.height s := by
  rw [Machine.height, h.framedim, Machine.height]

theorem RunFrame.nMcu {s u : State} (h : RunFrame s u) : Machine.nMcu u = Machine.nMcu s := by
  unfold Machine.nMcu Machine.mcuCols Machine.mcuRows
  rw [h.width, h.height]

theorem RunFrame.cid {s u : State} (h : RunFrame s u) (j : Fin 3) : Machine.cid u j = Machine.cid s j := by
  rw [Machine.cid, scancompOf, h.scancomp, Machine.cid, scancompOf]

/-- What every step of a run keeps. -/
structure RunKeeps (s u : State) : Prop where
  frame : RunFrame s u
  canonical : Canonical s → Canonical u
  outside : ∀ a, 3 * width s * height s ≤ a → Memory.get? u.pix a = Memory.get? s.pix a

theorem RunKeeps.refl (s : State) : RunKeeps s s := ⟨RunFrame.refl s, id, fun _ _ => rfl⟩

theorem RunKeeps.trans {s t u : State} (h : RunKeeps s t) (h' : RunKeeps t u) : RunKeeps s u :=
  ⟨h.frame.trans h'.frame, h'.canonical ∘ h.canonical, fun a ha => by
    rw [h'.outside a (by rw [h.frame.width, h.frame.height]; exact ha), h.outside a ha]⟩

theorem Canonical.buffers {s : State} (h : Canonical s) : BuffersWf s := ⟨h.dq, h.t, h.out, h.samp, h.rgb, h.pix⟩

theorem runKeeps_of_memories {s u : State} (hframe : RunFrame s u) (hclean : Memory.wf s.clean = true → Memory.wf u.clean = true)
    (hcoef : Memory.wf s.coef = true → Memory.wf u.coef = true) (hbuffers : BuffersWf s → BuffersWf u)
    (hold : Canonical s → Memory.wf u.pixOld = true)
    (houtside : ∀ a, 3 * width s * height s ≤ a → Memory.get? u.pix a = Memory.get? s.pix a) : RunKeeps s u := by
  refine ⟨hframe, fun h => ?_, houtside⟩
  obtain ⟨hdq, ht, hout, hsamp, hrgb, hpix⟩ := hbuffers h.buffers
  refine ⟨?_, ?_, ?_, hclean h.clean, hcoef h.coef, hdq, ht, hout, hsamp, hrgb, hpix, hold h, ?_, ?_, ?_, ?_⟩
  · rw [hframe.qtab]
    exact h.qtab
  · rw [hframe.hoff]
    exact h.hoff
  · rw [hframe.hsym]
    exact h.hsym
  · rw [hframe.irqen]
    exact h.irqen
  · rw [hframe.framecfg]
    exact h.framecfg
  · unfold scancompOf
    rw [hframe.scancomp]
    exact h.scancomp
  · rw [hframe.tabset]
    exact h.tabset

theorem EntropyFrame.runFrame {s u : State} (h : EntropyFrame s u) : RunFrame s u := by
  unfold EntropyFrame at h
  constructor <;> rw [h]

theorem ScanFrame.runFrame {s u : State} (h : ScanFrame s u) : RunFrame s u := by
  unfold ScanFrame at h
  constructor <;> rw [h]

theorem ReconFrame.runFrame {s u : State} (h : ReconFrame s u) : RunFrame s u := by
  unfold ReconFrame at h
  constructor <;> rw [h]

theorem EntropyStep.pix {s u : State} (h : EntropyStep s u) : u.pix = s.pix := by
  have hframe := h.frame
  unfold EntropyFrame at hframe
  rw [hframe]

theorem EntropyStep.keeps {s u : State} (h : EntropyStep s u) : RunKeeps s u := by
  have hframe := h.frame
  unfold EntropyFrame at hframe
  refine runKeeps_of_memories h.frame.runFrame (fun hwf => ?_) h.wf (fun hwf => ?_) (fun hwf => ?_) fun a _ => by rw [h.pix]
  · rw [hframe]
    exact hwf
  · rw [hframe]
    exact ⟨hwf.dq, hwf.t, hwf.out, hwf.samp, hwf.rgb, hwf.pix⟩
  · rw [hframe]
    exact hwf.pixOld

theorem ScanStep.pix {s u : State} (h : ScanStep s u) : u.pix = s.pix := by
  have hframe := h.frame
  unfold ScanFrame at hframe
  rw [hframe]

theorem ScanStep.keeps {s u : State} (h : ScanStep s u) : RunKeeps s u := by
  have hframe := h.frame
  unfold ScanFrame at hframe
  refine runKeeps_of_memories h.frame.runFrame h.wf (fun hwf => ?_) (fun hwf => ?_) (fun hwf => ?_) fun a _ => by rw [h.pix]
  · rw [hframe]
    exact hwf
  · rw [hframe]
    exact ⟨hwf.dq, hwf.t, hwf.out, hwf.samp, hwf.rgb, hwf.pix⟩
  · rw [hframe]
    exact hwf.pixOld

theorem ReconStep.keeps {s u : State} (h : ReconStep s u) : RunKeeps s u := by
  have hframe := h.frame
  unfold ReconFrame at hframe
  refine runKeeps_of_memories h.frame.runFrame (fun hwf => ?_) (fun hwf => ?_) h.wf (fun hwf => ?_) h.outside
  · rw [hframe]
    exact hwf
  · rw [hframe]
    exact hwf
  · rw [hframe]
    exact hwf.pixOld

theorem runKeeps_faultEntry (c : Cause) (pos : Word) (val : BitVec 16) (s : State) : RunKeeps s (faultEntry c pos val s) :=
  runKeeps_of_memories (by constructor <;> rfl) id id (fun h => ⟨h.dq, h.t, h.out, h.samp, h.rgb, h.pix⟩) (fun h => h.pixOld)
    fun _ _ => rfl

theorem runKeeps_finishRun (s : State) : RunKeeps s (finishRun s) :=
  runKeeps_of_memories (by constructor <;> rfl) id id (fun h => ⟨h.dq, h.t, h.out, h.samp, h.rgb, h.pix⟩) (fun h => h.pixOld)
    fun _ _ => rfl

theorem runKeeps_setUpc (p : Upc) (s : State) : RunKeeps s (setUpc p s) :=
  runKeeps_of_memories (by constructor <;> rfl) id id (fun h => ⟨h.dq, h.t, h.out, h.samp, h.rgb, h.pix⟩) (fun h => h.pixOld)
    fun _ _ => rfl

theorem runKeeps_setPhase (p : Phase) (s : State) : RunKeeps s { s with phase := p } :=
  runKeeps_of_memories (by constructor <;> rfl) id id (fun h => ⟨h.dq, h.t, h.out, h.samp, h.rgb, h.pix⟩) (fun h => h.pixOld)
    fun _ _ => rfl

theorem beginRecon_of_pos {s : State} (h : nMcu s ≠ 0) :
    beginRecon s = { s with phase := .recon, mcu := 0, upc := .dequant 0, pixOld := s.pix } := if_neg h

theorem beginRecon_of_empty {s : State} (h : nMcu s = 0) : beginRecon s = finishRun s := if_pos h

theorem runKeeps_beginRecon (s : State) : RunKeeps s (beginRecon s) := by
  by_cases h : nMcu s = 0
  · rw [beginRecon_of_empty h]
    exact runKeeps_finishRun s
  · rw [beginRecon_of_pos h]
    exact runKeeps_of_memories (by constructor <;> rfl) id id (fun h => ⟨h.dq, h.t, h.out, h.samp, h.rgb, h.pix⟩)
      (fun h => h.pix) fun _ _ => rfl

theorem beginRecon_pix (s : State) : (beginRecon s).pix = s.pix := by
  unfold beginRecon
  split <;> rfl

/-- RECON leaves everything but `upc` as its operations do. -/
theorem ReconOn.keeps {s u : State} (h : ReconOn s u) : RunKeeps s u := h.step.keeps.trans (runKeeps_setUpc u.upc _)

theorem RunNext.keeps {s u : State} (h : RunNext s u) : RunKeeps s u := by
  cases h with
  | scan _ h =>
    cases h with
    | on h _ => exact h.keeps
    | fault c pos val h => exact h.keeps.trans (runKeeps_faultEntry c pos val _)
    | block h _ hblock => exact (h.keeps.trans (runKeeps_setPhase _ _)).trans hblock.step.keeps
    | recon h _ => exact (h.keeps.trans (runKeeps_setPhase _ _)).trans (runKeeps_beginRecon _)
  | entropy _ h =>
    cases h with
    | fault c pos val h => exact h.keeps.trans (runKeeps_faultEntry c pos val _)
    | on h => exact h.step.keeps
    | recon h _ => exact h.keeps.trans (runKeeps_beginRecon _)
  | recon _ h =>
    cases h with
    | on h => exact h.keeps
    | finish h => exact h.keeps.trans (runKeeps_finishRun _)

theorem RunNext.pix {s u : State} (h : RunNext s u) (hphase : s.phase ≠ .recon) : u.pix = s.pix := by
  cases h with
  | scan _ h =>
    cases h with
    | on h _ => exact h.pix
    | fault c pos val h => exact h.pix
    | block h _ hblock => exact hblock.step.pix.trans h.pix
    | recon h _ => exact (beginRecon_pix _).trans h.pix
  | entropy _ h =>
    cases h with
    | fault c pos val h => exact h.pix
    | on h => exact h.step.pix
    | recon h _ => exact (beginRecon_pix _).trans h.pix
  | recon hphase' _ => exact absurd hphase' hphase

end Sys2Proof.Machine
end

section
/-! What holds of every step, in any state (spec R22, R30, R57, R80 to R84): the canonical form, the launch state of a run, PIX,
and the sticky records. -/

namespace Sys2Proof.Machine

/-! The canonical form under a reset. -/

theorem Memory.wf_iff_pairwise {α : Type} {m : Memory α} : Memory.wf m = true ↔ List.Pairwise (fun p q => p.1 < q.1) m := by
  induction m with
  | nil => simp
  | cons p m ih =>
    obtain ⟨a, v⟩ := p
    rw [Memory.wf_cons, List.pairwise_cons, ih]
    simp only [Prod.forall]

theorem wf_mixPix (done : Nat → Bool) (old new : Memory Byte) {m : Memory Byte} (h : Memory.wf m = true) (n : Nat) :
    Memory.wf (mixPix done old new m n) = true := by
  rw [Memory.wf_iff_pairwise] at h ⊢
  unfold mixPix
  refine List.pairwise_append.mpr ⟨?_, h.filter _, fun p hp q hq => ?_⟩
  · refine List.pairwise_filterMap.mpr (List.pairwise_lt_range.imp fun {a b} hab p hp q hq => ?_)
    obtain ⟨_, -, rfl⟩ := Option.map_eq_some_iff.mp hp
    obtain ⟨_, -, rfl⟩ := Option.map_eq_some_iff.mp hq
    exact hab
  · obtain ⟨a, ha, hp⟩ := List.mem_filterMap.mp hp
    obtain ⟨_, -, rfl⟩ := Option.map_eq_some_iff.mp hp
    exact (List.mem_range.mp ha).trans_le (by simpa using (List.mem_filter.mp hq).2)

theorem wf_pixAfterReset {s : State} (h : Memory.wf s.pix = true) : Memory.wf (pixAfterReset s) = true := by
  unfold pixAfterReset
  split
  · exact wf_mixPix _ _ _ h _
  · exact h

theorem canonical_reset : Canonical State.reset :=
  ⟨rfl, rfl, rfl, rfl, rfl, rfl, rfl, rfl, rfl, rfl, rfl, rfl, rfl, rfl, by decide, rfl⟩

theorem canonical_resetInput {s : State} (h : Canonical s) : Canonical (resetInput s) := by
  obtain ⟨hqtab, hhoff, hhsym, hclean, hcoef, hdq, ht, hout, hsamp, hrgb, -, hold, hirqen, hcfg, hscan, htab⟩ := canonical_reset
  exact ⟨hqtab, hhoff, hhsym, hclean, hcoef, hdq, ht, hout, hsamp, hrgb, wf_pixAfterReset h.pix, hold, hirqen, hcfg, hscan, htab⟩

/-! Port writes. -/

/-- The fields that the port writes outside a run. -/
theorem portStore_frame (p : PortWord) (v : Word) (s : State) :
    portStore p v s =
      { s with
        irqen := (portStore p v s).irqen, framedim := (portStore p v s).framedim, framecfg := (portStore p v s).framecfg
        scancomp := (portStore p v s).scancomp, tabset := (portStore p v s).tabset, qtab := (portStore p v s).qtab
        hoff := (portStore p v s).hoff, hsym := (portStore p v s).hsym } := by
  cases p <;> rfl

theorem and_and_self {n : Nat} (v m : BitVec n) : v &&& m &&& m = v &&& m := by rw [BitVec.and_assoc, BitVec.and_self]

theorem canonical_portStore {s : State} (h : Canonical s) (p : PortWord) (v : Word) : Canonical (portStore p v s) := by
  cases p with
  | irqen => exact { h with irqen := and_and_self v _ }
  | framecfg => exact { h with framecfg := and_and_self v _ }
  | tabset => exact { h with tabset := and_and_self v _ }
  | scancomp j =>
    refine { h with scancomp := fun i => ?_ }
    have hset : scancompOf (portStore (.scancomp j) v s) i = if j.val = i.val then v &&& scancompMask else scancompOf s i :=
      Vector.getElem_set (hi := j.isLt) ..
    rw [hset]
    split
    · exact and_and_self v _
    · exact h.scancomp i
  | qtab w => exact { h with qtab := Memory.wf_set h.qtab .. }
  | hoff w => exact { h with hoff := Memory.wf_set h.hoff .. }
  | hsym w => exact { h with hsym := Memory.wf_set h.hsym .. }
  | framedim => exact { h with }
  | id | cmd | status | errcode | errpos | errval | errmcu | errblk | inpos | cleanlen | mcucnt | bytepos | bitidx | dcpred c
    | reserved => exact h

theorem HostNext.canonical {s u : State} {e : HostEvent} (h : HostNext s e u) (hs : Canonical s) : Canonical u := by
  cases h with
  | reset => exact canonical_resetInput hs
  | attached | delivered | read | ignored | refused | started | cleared => exact { hs with }
  | stored a v p _ => exact canonical_portStore hs p v

theorem Canonical.withHost {s : State} (h : Canonical s) (q : List (Nat × HostEvent)) : Canonical { s with hostq := q } := { h with }

theorem StepNext.canonical {s u : State} (h : StepNext s u) (hs : Canonical s) : Canonical u := by
  cases h with
  | host _ h => exact h.canonical (hs.withHost _)
  | run _ _ h => exact h.keeps.canonical (hs.withHost _)
  | stopped q _ _ => exact hs.withHost q

/-! The host and a run. -/

/-- What the host can do while BUSY. -/
theorem HostNext.busy_cases {s u : State} {e : HostEvent} (h : HostNext s e u) (hbusy : s.state = .busy) :
    e = .reset ∧ u = resetInput s ∨
      (∃ bytes last, e = .deliver bytes last ∧ u = { s with input := s.input ++ bytes, inputEnd := last }) ∨
      (∃ w, u = { s with rdata := w, draws := s.draws + 1 }) ∨ ∃ a v, e = .write a v ∧ u = { s with wign := true } := by
  cases h with
  | reset => exact .inl ⟨rfl, rfl⟩
  | delivered bytes last _ => exact .inr (.inl ⟨bytes, last, rfl, rfl⟩)
  | read a w => exact .inr (.inr (.inl ⟨w, rfl⟩))
  | ignored a v => exact .inr (.inr (.inr ⟨a, v, rfl, rfl⟩))
  | attached _ _ hstopped => exact absurd hbusy hstopped
  | stored _ _ _ hstopped => exact absurd hbusy hstopped
  | refused _ _ hstopped => exact absurd hbusy hstopped
  | started hstopped _ _ _ => exact absurd hbusy hstopped
  | cleared hstopped => exact absurd hbusy hstopped

theorem HostNext.pix {s u : State} {e : HostEvent} (h : HostNext s e u) :
    u.pix = s.pix ∨ u = resetInput s := by
  cases h with
  | reset => exact .inr rfl
  | stored a v p _ => exact .inl (by rw [portStore_frame])
  | attached | delivered | read | ignored | refused | started | cleared => exact .inl rfl

theorem RunNext.state_of_recon {s u : State} (h : RunNext s u) (hbusy : s.state = .busy) (hphase : s.phase = .recon) :
    u.state = .busy ∨ u.state = .done := by
  cases h with
  | scan h _ => exact absurd (h.symm.trans hphase) (by decide)
  | entropy h _ => exact absurd (h.symm.trans hphase) (by decide)
  | recon _ h =>
    cases h with
    | on h => exact .inl (h.step.frame.state.trans hbusy)
    | finish _ => exact .inr rfl

theorem HostNext.write_of_wign {s u : State} {e : HostEvent} (h : HostNext s e u) (hclear : s.wign = false) (hset : u.wign = true) :
    ∃ a v, e = .write a v := by
  cases h with
  | reset => cases hset
  | attached | delivered | read => exact absurd (hset.symm.trans hclear) (by decide)
  | ignored a v | stored a v _ _ => exact ⟨a, v, rfl⟩
  | refused | started => exact ⟨1, 1, rfl⟩
  | cleared => exact ⟨1, 2, rfl⟩

theorem HostNext.cleared_of_wign {s u : State} {e : HostEvent} (h : HostNext s e u) (hset : s.wign = true)
    (hclear : u.wign = false) : e = .reset ∨ s.state ≠ .busy ∧ e = .write 1 2 := by
  cases h with
  | reset => exact .inl rfl
  | cleared hstopped => exact .inr ⟨hstopped, rfl⟩
  | ignored => cases hclear
  | stored a v p _ =>
    rw [portStore_frame] at hclear
    exact absurd (hclear.symm.trans hset) (by decide)
  | attached | delivered | read | refused | started => exact absurd (hclear.symm.trans hset) (by decide)

/-- The fault record and STATE. -/
theorem HostNext.record {s u : State} {e : HostEvent} (h : HostNext s e u) (hreset : e ≠ .reset) (hstart : e ≠ .write 1 1)
    (hclear : e ≠ .write 1 2) :
    u.state = s.state ∧ u.errcode = s.errcode ∧ u.errpos = s.errpos ∧ u.errval = s.errval ∧ u.errmcu = s.errmcu ∧
      u.errblk = s.errblk := by
  cases h with
  | reset => exact absurd rfl hreset
  | refused | started => exact absurd rfl hstart
  | cleared => exact absurd rfl hclear
  | attached | delivered | read | ignored => exact ⟨rfl, rfl, rfl, rfl, rfl, rfl⟩
  | stored a v p _ =>
    rw [portStore_frame]
    exact ⟨rfl, rfl, rfl, rfl, rfl, rfl⟩

end Sys2Proof.Machine

namespace Sys2Proof.Proofs

open Sys2Proof.Machine

/-- Settles O51: each step of the run keeps the canonical form, and the port masks what it writes. -/
theorem stepKeepsCanonical : Obligations.StepKeepsCanonical := by
  unfold Obligations.StepKeepsCanonical
  exact fun s u hs hstep => (step_next hstep).canonical hs

/-- Settles O56. -/
theorem runKeepsLaunchState : Obligations.RunKeepsLaunchState := by
  unfold Obligations.RunKeepsLaunchState
  intro s u hbusy hreset hstep
  cases step_next hstep with
  | @host e rest u hq h =>
    obtain ⟨rfl, -⟩ | ⟨bytes, last, rfl, rfl⟩ | ⟨w, rfl⟩ | ⟨a, v, -, rfl⟩ := h.busy_cases hbusy
    · exact absurd ⟨rest, hq⟩ hreset
    · exact ⟨rfl, rfl, rfl, rfl, rfl, rfl, rfl, rfl, rfl, ⟨bytes, rfl⟩, fun h => absurd ⟨rest, hq⟩ (h bytes last)⟩
    · exact ⟨rfl, rfl, rfl, rfl, rfl, rfl, rfl, rfl, rfl, ⟨[], (List.append_nil _).symm⟩, fun _ => ⟨rfl, rfl⟩⟩
    · exact ⟨rfl, rfl, rfl, rfl, rfl, rfl, rfl, rfl, rfl, ⟨[], (List.append_nil _).symm⟩, fun _ => ⟨rfl, rfl⟩⟩
  | run _ _ h =>
    have hframe := h.keeps.frame
    exact ⟨hframe.framedim, hframe.framecfg, hframe.scancomp, hframe.tabset, hframe.irqen, hframe.qtab, hframe.hoff, hframe.hsym,
      hframe.params, ⟨[], by rw [hframe.input, List.append_nil]⟩, fun _ => ⟨hframe.input, hframe.inputEnd⟩⟩
  | stopped _ _ hstopped => exact absurd hbusy hstopped

/-- Settles O57: outside RECON only a reset could touch PIX, and it does not; RECON stores inside the image and never faults. -/
theorem pixelsOnlyInRecon : Obligations.PixelsOnlyInRecon := by
  unfold Obligations.PixelsOnlyInRecon
  intro s u hstep
  cases step_next hstep with
  | @host e rest u hq h =>
    refine ⟨fun hno => ?_, fun a ha => ?_, fun hbusy _ => ?_⟩
    · obtain hpix | rfl := h.pix
      · exact hpix
      · exact pixAfterReset_of_not_recon (s := { s with hostq := rest }) (not_and_or.mp hno)
    · obtain hpix | rfl := h.pix
      · rw [hpix]
      · exact (get?_pixAfterReset { s with hostq := rest } a).1 ha
    · obtain ⟨-, rfl⟩ | ⟨bytes, last, -, rfl⟩ | ⟨w, rfl⟩ | ⟨a, v, -, rfl⟩ := h.busy_cases hbusy
      · exact (by decide : RunState.idle ≠ .error)
      all_goals exact hbusy ▸ (by decide : RunState.busy ≠ .error)
  | run _ hbusy h =>
    refine ⟨fun hno => h.pix fun hphase => hno ⟨hbusy, hphase⟩, h.keeps.outside, fun _ hphase => ?_⟩
    rcases h.state_of_recon hbusy hphase with hu | hu <;> rw [hu] <;> decide
  | stopped q _ hstopped => exact ⟨fun _ => rfl, fun _ _ => rfl, fun hbusy => absurd hbusy hstopped⟩

/-- Settles O59: by the actions of the host. -/
theorem stickyRecords : Obligations.StickyRecords := by
  unfold Obligations.StickyRecords
  intro s u hstep
  cases step_next hstep with
  | @host e rest u hq h =>
    have hdue : Due s e := ⟨rest, hq⟩
    refine ⟨fun hclear hset => ?_, fun hset hclear => ?_, fun herror hreset hstart hclear => ?_⟩
    · obtain ⟨a, v, rfl⟩ := h.write_of_wign hclear hset
      exact ⟨a, v, hdue⟩
    · obtain rfl | ⟨hstopped, rfl⟩ := h.cleared_of_wign hset hclear
      · exact .inl hdue
      · exact .inr ⟨hstopped, hdue⟩
    · have hrecord := h.record (fun he => hreset (he ▸ hdue)) (fun he => hstart (he ▸ hdue)) fun he => hclear (he ▸ hdue)
      exact ⟨hrecord.1.trans herror, hrecord.2⟩
  | run _ hbusy h =>
    have hwign := h.keeps.frame.wign
    refine ⟨fun hclear hset => ?_, fun hset hclear => ?_, fun herror => ?_⟩
    · exact absurd (hset.symm.trans (hwign.trans hclear)) (by decide)
    · exact absurd (hclear.symm.trans (hwign.trans hset)) (by decide)
    · exact absurd (hbusy.symm.trans herror) (by decide)
  | stopped q _ _ =>
    exact ⟨fun hclear hset => absurd (hset.symm.trans hclear) (by decide),
      fun hset hclear => absurd (hclear.symm.trans hset) (by decide), fun herror _ _ _ => ⟨herror, rfl, rfl, rfl, rfl, rfl⟩⟩

end Sys2Proof.Proofs
end

section
/-! The run invariant (spec R23, R26, R58, R143, R170): every step keeps it, no step stops under it, and a run only goes forward. -/

namespace Sys2Proof.Machine

/-! The position by the phase. -/

theorem positionOk_none {s : State} (h : s.phase = .none) : PositionOk s ↔ s.upc = .idle := by rw [PositionOk, h]

theorem positionOk_scan {s : State} (h : s.phase = .scan) : PositionOk s ↔ s.upc = .token ∧ s.cleanlen.toNat ≤ s.ip.toNat := by
  rw [PositionOk, h]

theorem positionOk_entropy {s : State} (h : s.phase = .entropy) : PositionOk s ↔ EntropyPosition s := by
  rw [PositionOk, h]
  rfl

theorem positionOk_recon {s : State} (h : s.phase = .recon) : PositionOk s ↔ ReconPosition s := by
  rw [PositionOk, h]
  rfl

/-! The launch. -/

/-- A launch that passed the checks on count, dimensions and ids. -/
def Launched (s : State) : Prop := CountOk s ∧ DimsOk s ∧ IdsOk s

theorem RunFrame.launched {s u : State} (h : RunFrame s u) (hs : Launched s) : Launched u := by
  obtain ⟨hcount, hdims, hids⟩ := hs
  refine ⟨?_, ?_, ?_⟩
  · rw [CountOk, h.ncomp]
    exact hcount
  · rw [DimsOk, h.width, h.height]
    exact hdims
  · unfold IdsOk BadId
    simp only [h.ncomp, h.cid]
    exact hids

theorem Launched.ncomp_pos {s : State} (h : Launched s) : 0 < ncomp s := by
  have hcount := h.1
  unfold CountOk at hcount
  omega

theorem Launched.nMcu_pos {s : State} (h : Launched s) : 0 < nMcu s := by
  obtain ⟨-, ⟨hw, hh⟩, -⟩ := h
  have hcols := le_ceil8 (width s)
  have hrows := le_ceil8 (height s)
  exact Nat.mul_pos (show 0 < ceil8 (width s) by omega) (show 0 < ceil8 (height s) by omega)

theorem Launched.slotsOk {s : State} (h : Launched s) : SlotsOk s := slotsOk_of_launch h.1 h.2.2

theorem RunInv.launched {s : State} (h : RunInv s) (hbusy : s.state = .busy) : Launched s := h.launch hbusy

/-- A state outside a run. -/
theorem runInv_stopped {u : State} (hstate : u.state ≠ .busy) (hphase : u.phase = .none) (hupc : u.upc = .idle)
    (hcursor : bitPos u ≤ 8 * u.cleanlen.toNat) : RunInv u :=
  ⟨⟨fun h => absurd h hstate, fun h => absurd hphase h⟩, fun h => absurd h hstate, fun h => absurd h hstate,
    (positionOk_none hphase).mpr hupc, hcursor⟩

/-- A state of the same run. -/
theorem RunInv.of_frame {s u : State} (h : RunInv s) (hbusy : s.state = .busy) (hframe : RunFrame s u) (hstate : u.state = .busy)
    (hphase : u.phase ≠ .none) (hposition : PositionOk u) (hcursor : bitPos u ≤ 8 * u.cleanlen.toNat) : RunInv u :=
  ⟨⟨fun _ => hphase, fun _ => hstate⟩, fun _ => hframe.launched (h.launched hbusy),
    fun _ => hframe.inputFresh.trans (h.input hbusy), hposition, hcursor⟩

/-! Forward. -/

/-- The cursors and CLEANLEN never go back, and the bit cursor is not past the clean bytes. -/
structure Forward (s u : State) : Prop where
  ip : s.ip.toNat ≤ u.ip.toNat
  pos : bitPos s ≤ bitPos u
  cleanlen : s.cleanlen.toNat ≤ u.cleanlen.toNat
  cursor : bitPos u ≤ 8 * u.cleanlen.toNat

/-- Registers other than the cursors and CLEANLEN are written. -/
theorem Forward.of_same {s t u : State} (h : Forward s t) (hip : u.ip = t.ip) (hpos : bitPos u = bitPos t)
    (hlen : u.cleanlen = t.cleanlen) : Forward s u := by
  obtain ⟨h1, h2, h3, h4⟩ := h
  rw [← hip, ← hpos, ← hlen] at *
  exact ⟨h1, h2, h3, h4⟩

theorem ScanStep.forward {s t : State} (h : ScanStep s t) (hs : RunInv s) (hphase : s.phase = .scan) : Forward s t := by
  have hframe := h.frame
  have hcursor := hs.cursor
  unfold ScanFrame at hframe
  obtain ⟨hlen, -⟩ := h.cleanlen ((positionOk_scan hphase).mp hs.position).2
  have hpos : bitPos t = bitPos s := by
    rw [hframe]
    rfl
  exact ⟨h.ip_le, hpos.ge, hlen, by omega⟩

theorem EntropyStep.forward {s t : State} (h : EntropyStep s t) (hcursor : bitPos s ≤ 8 * s.cleanlen.toNat) : Forward s t := by
  have hframe := h.frame
  unfold EntropyFrame at hframe
  obtain ⟨hle, hin⟩ := h.inside hcursor
  have hlen := h.cleanlen
  exact ⟨by rw [hframe], hle, by rw [hlen], by rw [hlen]; exact hin⟩

theorem Forward.trans {s t u : State} (h : Forward s t) (h' : Forward t u) : Forward s u :=
  ⟨h.ip.trans h'.ip, h.pos.trans h'.pos, h.cleanlen.trans h'.cleanlen, h'.cursor⟩

theorem Forward.refl {s : State} (hcursor : bitPos s ≤ 8 * s.cleanlen.toNat) : Forward s s :=
  ⟨Nat.le_refl _, Nat.le_refl _, Nat.le_refl _, hcursor⟩

theorem ReconStep.forward {s t : State} (h : ReconStep s t) (hcursor : bitPos s ≤ 8 * s.cleanlen.toNat) : Forward s t := by
  have hframe := h.frame
  unfold ReconFrame at hframe
  have hpos : bitPos t = bitPos s := by
    rw [hframe]
    rfl
  exact (Forward.refl hcursor).of_same (by rw [hframe]) hpos (by rw [hframe])

theorem Forward.beginRecon {s t : State} (h : Forward s t) : Forward s (beginRecon t) := by
  unfold Machine.beginRecon
  split <;> exact h.of_same rfl rfl rfl

theorem RunNext.forward {s u : State} (h : RunNext s u) (hs : RunInv s) : Forward s u := by
  cases h with
  | scan hphase h =>
    cases h with
    | on h _ => exact h.forward hs hphase
    | fault c pos val h => exact (h.forward hs hphase).of_same rfl rfl rfl
    | @block t u h _ hblock =>
      have ht : Forward s { t with phase := .entropy } := (h.forward hs hphase).of_same rfl rfl rfl
      exact ht.trans (hblock.step.forward ht.cursor)
    | @recon t h _ =>
      have ht : Forward s { t with phase := .entropy } := (h.forward hs hphase).of_same rfl rfl rfl
      exact ht.beginRecon
  | entropy _ h =>
    cases h with
    | fault c pos val h => exact (h.forward hs.cursor).of_same rfl rfl rfl
    | on h => exact h.step.forward hs.cursor
    | recon h _ => exact (h.forward hs.cursor).beginRecon
  | recon _ h =>
    cases h with
    | on h => exact (h.step.forward hs.cursor).of_same rfl rfl rfl
    | finish h => exact (h.forward hs.cursor).of_same rfl rfl rfl

/-! What follows a step of a run. -/

theorem phaseRank_le (p : Phase) : phaseRank p ≤ 4 := by cases p <;> decide

/-- How a step of a run ends: in the same phase or the next one, in a fault, or in DONE. -/
inductive RunEnds (s u : State) : Prop
  | on : u.state = .busy → PositionOk u → u.phase ≠ .none → phaseRank s.phase ≤ phaseRank u.phase →
      phaseRank u.phase ≤ phaseRank s.phase + 1 → RunEnds s u
  | fault : u.state = .error → u.phase = .none → u.upc = .idle → s.phase ≠ .recon → RunEnds s u
  | done : u.state = .done → u.phase = .none → u.upc = .idle → s.phase = .recon → RunEnds s u

/-- RECON begins at MCU 0. -/
theorem positionOk_beginRecon {t : State} (hncomp : 0 < ncomp t) (hn : nMcu t ≠ 0) : PositionOk (beginRecon t) := by
  rw [beginRecon_of_pos hn, positionOk_recon rfl]
  exact ⟨Nat.pos_of_ne_zero hn, .inl ⟨0, hncomp, .inl rfl⟩⟩

theorem BeginsBlock.positionOk {t u : State} (h : BeginsBlock 0 0 t u) (hphase : t.phase = .entropy) (hncomp : 0 < ncomp t)
    (hn : 0 < nMcu t) : PositionOk u := by
  rw [positionOk_entropy (h.phase.trans hphase)]
  refine ⟨?_, ?_, .inr ⟨.inl h.upc, by rw [h.k]; decide⟩⟩
  · rw [h.mcu, h.step.nMcu]
    exact hn
  · rw [h.slot, h.step.ncomp]
    exact hncomp

theorem RunNext.ends {s u : State} (h : RunNext s u) (hs : RunInv s) (hbusy : s.state = .busy) : RunEnds s u := by
  have hncomp := (hs.launched hbusy).ncomp_pos
  have hn := (hs.launched hbusy).nMcu_pos
  cases h with
  | scan hphase h =>
    have hpos := (positionOk_scan hphase).mp hs.position
    cases h with
    | on h _ =>
      have hu := h.frame.phase.trans hphase
      have hframe := h.frame
      unfold ScanFrame at hframe
      refine .on (h.frame.state.trans hbusy) ((positionOk_scan hu).mpr ⟨?_, (h.cleanlen hpos.2).2⟩) (by rw [hu]; decide)
        (by rw [hu, hphase]) (by rw [hu, hphase]; decide)
      rw [hframe]
      exact hpos.1
    | fault c pos val h => exact .fault rfl rfl rfl (by rw [hphase]; decide)
    | @block t u h _ hblock =>
      have hu : u.phase = .entropy := hblock.phase
      have hframe : RunFrame s { t with phase := .entropy } := h.frame.runFrame.trans (runKeeps_setPhase _ t).frame
      exact .on (hblock.step.state.trans (h.frame.state.trans hbusy))
        (hblock.positionOk rfl (by rw [hframe.ncomp]; exact hncomp) (by rw [hframe.nMcu]; exact hn))
        (by rw [hu]; decide) (by rw [hu, hphase]; decide) (by rw [hu, hphase]; decide)
    | recon _ hempty => omega
  | entropy hphase h =>
    have hpos := (positionOk_entropy hphase).mp hs.position
    cases h with
    | fault c pos val h => exact .fault rfl rfl rfl (by rw [hphase]; decide)
    | on h =>
      have hu := h.phase
      exact .on (h.step.state.trans hbusy) ((positionOk_entropy hu).mpr (h.position hpos)) (by rw [hu]; decide)
        (by rw [hu, hphase]) (by rw [hu, hphase]; decide)
    | @recon t h _ =>
      have ht : nMcu t ≠ 0 := by rw [h.nMcu]; omega
      have hposition := positionOk_beginRecon (by rw [h.ncomp]; exact hncomp) ht
      have hu : (beginRecon t).phase = .recon := by rw [beginRecon_of_pos ht]
      have hstate : (beginRecon t).state = t.state := by rw [beginRecon_of_pos ht]
      exact .on (hstate.trans (h.state.trans hbusy)) hposition (by rw [hu]; decide) (by rw [hu, hphase]; decide)
        (by rw [hu, hphase]; decide)
  | recon hphase h =>
    have hpos := (positionOk_recon hphase).mp hs.position
    cases h with
    | on h =>
      have hu : u.phase = .recon := by
        have hframe := h.step.frame
        unfold ReconFrame at hframe
        exact (congrArg State.phase hframe).trans hphase
      exact .on (h.step.frame.state.trans hbusy) ((positionOk_recon hu).mpr (h.position hncomp hpos)) (by rw [hu]; decide)
        (by rw [hu, hphase]) (by rw [hu, hphase]; decide)
    | finish h => exact .done rfl rfl rfl hphase

theorem RunNext.runInv {s u : State} (h : RunNext s u) (hs : RunInv s) (hbusy : s.state = .busy) : RunInv u := by
  have hcursor := (h.forward hs).cursor
  cases h.ends hs hbusy with
  | on hstate hposition hphase _ _ => exact hs.of_frame hbusy h.keeps.frame hstate hphase hposition hcursor
  | fault hstate hphase hupc _ => exact runInv_stopped (by rw [hstate]; decide) hphase hupc hcursor
  | done hstate hphase hupc _ => exact runInv_stopped (by rw [hstate]; decide) hphase hupc hcursor

/-! The host. -/

theorem RunInv.withHost {s : State} (h : RunInv s) (q : List (Nat × HostEvent)) : RunInv { s with hostq := q } := { h with }

theorem RunInv.stopped {s : State} (h : RunInv s) (hstopped : s.state ≠ .busy) : s.phase = .none ∧ s.upc = .idle := by
  have hphase : s.phase = .none := by
    by_contra hne
    exact hstopped (h.phase.mpr hne)
  exact ⟨hphase, (positionOk_none hphase).mp h.position⟩

theorem HostNext.runInv {s u : State} {e : HostEvent} (h : HostNext s e u) (hs : RunInv s) : RunInv u := by
  cases h with
  | reset => exact runInv_stopped (show RunState.idle ≠ .busy by decide) rfl rfl (Nat.zero_le _)
  | attached bytes last hstopped => exact { hs with input := fun hbusy => absurd hbusy hstopped }
  | delivered | read | ignored => exact { hs with }
  | stored a v p hstopped =>
    obtain ⟨hphase, hupc⟩ := hs.stopped hstopped
    rw [portStore_frame]
    exact runInv_stopped hstopped hphase hupc hs.cursor
  | refused => exact runInv_stopped (show RunState.error ≠ .busy by decide) rfl rfl (Nat.zero_le _)
  | started _ hcount hdims hids =>
    exact ⟨⟨fun _ => (by decide : Phase.scan ≠ .none), fun _ => rfl⟩, fun _ => ⟨hcount, hdims, hids⟩, fun _ => rfl,
      ⟨rfl, Nat.le_refl _⟩, Nat.zero_le _⟩
  | cleared => exact runInv_stopped (show RunState.idle ≠ .busy by decide) rfl rfl (Nat.zero_le _)

theorem StepNext.runInv {s u : State} (h : StepNext s u) (hs : RunInv s) : RunInv u := by
  cases h with
  | host _ h => exact h.runInv (hs.withHost _)
  | run _ hbusy h => exact h.runInv (hs.withHost _) hbusy
  | stopped q _ _ => exact hs.withHost q

/-! Progress. -/

theorem RunInv.ready {s : State} (h : RunInv s) (hbusy : s.state = .busy) (hlen : s.input.length < 2 ^ 32) : RunReady s := by
  have hlaunch := h.launched hbusy
  refine ⟨h.phase.mp hbusy, fun _ => ⟨hlen, hlaunch.slotsOk, hlaunch.ncomp_pos⟩, fun hphase => ⟨hlaunch.slotsOk, ?_⟩,
    fun hphase => ⟨channelsFed_of_launch hlaunch.1 hlaunch.2.2, ?_⟩⟩
  · exact (positionOk_entropy hphase).mp h.position
  · exact (positionOk_recon hphase).mp h.position

end Sys2Proof.Machine

namespace Sys2Proof.Proofs

open Sys2Proof.Machine

/-- Settles O53: the case of the run goes by what its step leads to, that of the host by its actions. -/
theorem stepKeepsRunInv : Obligations.StepKeepsRunInv := by
  unfold Obligations.StepKeepsRunInv
  exact fun s u hs hstep => (step_next hstep).runInv hs

/-- Settles O54. -/
theorem runNeverStops : Obligations.RunNeverStops := by
  unfold Obligations.RunNeverStops
  intro s hs hlen hattach hdeliver
  have hready : StepReady s := ⟨fun e hdue => ⟨fun bytes last he => hattach bytes last (he ▸ hdue),
    fun bytes last he => hdeliver bytes last (he ▸ hdue)⟩, fun hbusy => hs.ready hbusy hlen⟩
  obtain ⟨u, hu, -⟩ := (leads_step s).exists_next hready
  exact ⟨u, hu⟩

/-- Settles O58. -/
theorem runGoesForward : Obligations.RunGoesForward := by
  unfold Obligations.RunGoesForward
  intro s u hs hbusy hreset hstep
  cases step_next hstep with
  | @host e rest u hq h =>
    have hsame : u.state = s.state ∧ u.phase = s.phase ∧ u.ip = s.ip ∧ bitPos u = bitPos s ∧ u.cleanlen = s.cleanlen := by
      obtain ⟨rfl, -⟩ | ⟨bytes, last, -, rfl⟩ | ⟨w, rfl⟩ | ⟨a, v, -, rfl⟩ := h.busy_cases hbusy
      · exact absurd ⟨rest, hq⟩ hreset
      all_goals exact ⟨rfl, rfl, rfl, rfl, rfl⟩
    obtain ⟨hstate, hphase, hip, hpos, hlen⟩ := hsame
    rw [hstate, hphase, hip, hpos, hlen, hbusy]
    exact ⟨by decide, nofun, nofun, Nat.le_refl _, fun _ => Nat.le_succ _, Nat.le_refl _, Nat.le_refl _, Nat.le_refl _⟩
  | run _ _ h =>
    have hforward := h.forward (hs.withHost _)
    have hcursors := And.intro hforward.ip (And.intro hforward.pos hforward.cleanlen)
    cases h.ends (hs.withHost _) hbusy with
    | on hstate _ _ hle hnext =>
      rw [hstate]
      exact ⟨by decide, nofun, nofun, hle, fun _ => hnext, hcursors⟩
    | fault hstate hphase _ hrecon =>
      rw [hstate, hphase]
      exact ⟨by decide, nofun, fun _ => hrecon, phaseRank_le _, nofun, hcursors⟩
    | done hstate hphase _ hrecon =>
      rw [hstate, hphase]
      exact ⟨by decide, fun _ => hrecon, nofun, phaseRank_le _, nofun, hcursors⟩
  | stopped _ _ hstopped => exact absurd hbusy hstopped

end Sys2Proof.Proofs
end

section
/-! What a run reads has been written (spec R60, U1). -/

namespace Sys2Proof.Machine

/-- All blocks of all MCUs are written. -/
def ImageWritten (s : State) : Prop := ∀ m (j : Fin 3), j.val < ncomp s → m < nMcu s → BlockWritten s m j

/-- A block has begun exactly when the place is not before it. -/
theorem begun_iff {s : State} {m : Nat} {j : Fin 3} :
    (m < s.mcu.toNat ∨ m = s.mcu.toNat ∧ s.upc ≠ .restartDue ∧ j ≤ s.slot) ↔ 4 * m + j.val + 1 ≤ stage s := by
  have hj := j.isLt
  by_cases hupc : s.upc = .restartDue
  · rw [stage_restartDue hupc]
    simp only [hupc, ne_eq, not_true_eq_false, false_and, and_false, or_false]
    omega
  · rw [stage_code hupc, Fin.le_def]
    simp only [ne_eq, hupc, not_false_eq_true, true_and]
    omega

/-- `Written` by the phases. -/
theorem written_iff {s : State} :
    Written s ↔ CleanWritten s ∧ (s.phase = .entropy → BlocksBegun s) ∧ (s.phase = .recon → ImageWritten s) ∧
      BuffersWritten s s.upc := by
  constructor
  · intro h
    refine ⟨h.clean, fun hphase m j hj hm => h.entropy hphase m j hj (begun_iff.mpr hm), fun hphase m j hj hm =>
      h.recon hphase m j hj hm, ⟨h.dq, h.samp, h.pixels, h.rgb, h.stores⟩⟩
  · rintro ⟨hclean, hentropy, hrecon, hdq, hsamp, hpixels, hrgb, hstores⟩
    exact ⟨hclean, fun hphase m j hj hm => hentropy hphase m j hj (begun_iff.mp hm), hrecon, hdq, hsamp, hpixels, hrgb, hstores⟩

/-- A place outside RECON reads no buffer. -/
theorem buffersWritten_of_not_recon {s : State} {p : Upc}
    (h : p = .idle ∨ p = .token ∨ p = .restartDue ∨ p = .code ∨ p = .symbol) : BuffersWritten s p := by
  rcases h with rfl | rfl | rfl | rfl | rfl
  all_goals exact ⟨nofun, fun _ _ h => by simp at h, nofun, nofun, nofun⟩

/-- Outside a run only the clean bytes matter. -/
theorem written_stopped {u : State} (hphase : u.phase = .none) (hupc : u.upc = .idle) (hclean : CleanWritten u) : Written u :=
  written_iff.mpr ⟨hclean, fun h => absurd (hphase.symm.trans h) (by decide), fun h => absurd (hphase.symm.trans h) (by decide),
    buffersWritten_of_not_recon (.inl hupc)⟩

theorem written_scan {u : State} (hphase : u.phase = .scan) (hupc : u.upc = .token) (hclean : CleanWritten u) : Written u :=
  written_iff.mpr ⟨hclean, fun h => absurd (hphase.symm.trans h) (by decide), fun h => absurd (hphase.symm.trans h) (by decide),
    buffersWritten_of_not_recon (.inr (.inl hupc))⟩

theorem written_entropy {u : State} (hphase : u.phase = .entropy) (hpos : EntropyPosition u) (hclean : CleanWritten u)
    (hbegun : BlocksBegun u) : Written u := by
  refine written_iff.mpr ⟨hclean, fun _ => hbegun, fun h => absurd (hphase.symm.trans h) (by decide),
    buffersWritten_of_not_recon ?_⟩
  obtain ⟨-, -, h | ⟨h | h, -⟩⟩ := hpos <;> simp [h]

theorem CleanWritten.of_same {s u : State} (h : CleanWritten s) (hclean : u.clean = s.clean) (hlen : u.cleanlen = s.cleanlen) :
    CleanWritten u := by
  unfold CleanWritten
  rw [hclean, hlen]
  exact h

theorem EntropyStep.cleanWritten {s u : State} (h : EntropyStep s u) (hs : CleanWritten s) : CleanWritten u :=
  hs.of_same h.frame.sameCoded.clean h.frame.sameCoded.cleanlen

theorem ReconStep.cleanWritten {s u : State} (h : ReconStep s u) (hs : CleanWritten s) : CleanWritten u := by
  have hframe := h.frame
  unfold ReconFrame at hframe
  exact hs.of_same (by rw [hframe]) (by rw [hframe])

/-- RECON begins: it reads the coefficients of the whole image. -/
theorem written_beginRecon {t : State} (hn : nMcu t ≠ 0) (hclean : CleanWritten t) (himage : ImageWritten t) :
    Written (beginRecon t) := by
  rw [beginRecon_of_pos hn]
  refine written_iff.mpr ⟨hclean, nofun, fun _ => himage, buffersWritten_dequant fun c hc => absurd hc (Nat.not_lt_zero _)⟩

theorem RunNext.written {s u : State} (h : RunNext s u) (hs : RunInv s) (hbusy : s.state = .busy) (hw : Written s) : Written u := by
  have hlaunch := hs.launched hbusy
  have hn := hlaunch.nMcu_pos
  obtain ⟨hclean, hentropy, hrecon, hbuffers⟩ := written_iff.mp hw
  have hu := (h.runInv hs hbusy).position
  cases h with
  | scan hphase h =>
    have hpos := (positionOk_scan hphase).mp hs.position
    cases h with
    | on h _ =>
      have hphase' := h.frame.phase.trans hphase
      exact written_scan hphase' ((positionOk_scan hphase').mp hu).1 (h.written hclean)
    | fault c pos val h => exact written_stopped rfl rfl ((h.written hclean).of_same rfl rfl)
    | @block t u h _ hblock =>
      have hphase' : u.phase = .entropy := hblock.phase
      have ht : CleanWritten { t with phase := .entropy } := (h.written hclean).of_same rfl rfl
      refine written_entropy hphase' ((positionOk_entropy hphase').mp hu) (hblock.step.cleanWritten ht) fun m j _ hm => ?_
      rw [stage_code (by rw [hblock.upc]; decide), hblock.mcu, hblock.slot] at hm
      obtain rfl : m = 0 := by omega
      obtain rfl : j = u.slot := Fin.ext (by rw [hblock.slot]; omega)
      exact hblock.written
    | recon _ hempty => omega
  | entropy hphase h =>
    cases h with
    | fault c pos val h => exact written_stopped rfl rfl ((h.cleanWritten hclean).of_same rfl rfl)
    | on h =>
      exact written_entropy h.phase ((positionOk_entropy h.phase).mp hu) (h.step.cleanWritten hclean)
        (h.written (hentropy hphase))
    | recon h hall =>
      refine written_beginRecon (by rw [h.nMcu]; omega) (h.cleanWritten hclean) fun m j hj hm => ?_
      rw [h.ncomp] at hj
      rw [h.nMcu] at hm
      exact hall (hentropy hphase) m j hj hm
  | recon hphase h =>
    cases h with
    | on h =>
      have hframe := h.step.frame
      have hcoef : u.coef = s.coef := hframe.coef
      have hcleaned : CleanWritten u := (h.step.cleanWritten hclean).of_same rfl rfl
      have himage : ImageWritten u := fun m j hj hm n hn => by
        rw [show ncomp u = ncomp s from hframe.ncomp] at hj
        rw [show nMcu u = nMcu s from hframe.nMcu] at hm
        rw [hcoef, h.keeps.frame.cid]
        exact hrecon hphase m j hj hm n hn
      have hphase' : u.phase = .recon := by
        unfold ReconFrame at hframe
        exact (congrArg State.phase hframe).trans hphase
      exact written_iff.mpr ⟨hcleaned, fun h => absurd (hphase'.symm.trans h) (by decide), fun _ => himage,
        h.written (ncomp_le_three hlaunch.1) hbuffers⟩
    | finish h => exact written_stopped rfl rfl ((h.cleanWritten hclean).of_same rfl rfl)

theorem HostNext.written {s u : State} {e : HostEvent} (h : HostNext s e u) (hs : RunInv s) (hw : Written s) : Written u := by
  cases h with
  | reset => exact written_stopped rfl rfl fun a ha => absurd ha (Nat.not_lt_zero a)
  | attached | delivered | read | ignored => exact { hw with }
  | stored a v p hstopped =>
    obtain ⟨hphase, hupc⟩ := hs.stopped hstopped
    rw [portStore_frame]
    exact written_stopped hphase hupc hw.clean
  | refused | cleared => exact written_stopped rfl rfl fun a ha => absurd ha (Nat.not_lt_zero a)
  | started => exact written_scan rfl rfl fun a ha => absurd ha (Nat.not_lt_zero a)

theorem StepNext.written {s u : State} (h : StepNext s u) (hs : RunInv s) (hw : Written s) : Written u := by
  cases h with
  | host _ h => exact h.written (hs.withHost _) { hw with }
  | run _ hbusy h => exact h.written (hs.withHost _) hbusy { hw with }
  | stopped q _ _ => exact { hw with }

theorem runInv_reset : RunInv State.reset :=
  runInv_stopped (show RunState.idle ≠ .busy by decide) rfl rfl (Nat.zero_le _)

end Sys2Proof.Machine

namespace Sys2Proof.Proofs

open Sys2Proof.Machine

/-- Settles O52. -/
theorem resetHasInvariants : Obligations.ResetHasInvariants := by
  unfold Obligations.ResetHasInvariants
  exact ⟨canonical_reset, runInv_reset, written_stopped rfl rfl fun a ha => absurd ha (Nat.not_lt_zero a)⟩

/-- Settles O55: each step reads where an earlier one has written, by the place of the run. -/
theorem stepKeepsWritten : Obligations.StepKeepsWritten := by
  unfold Obligations.StepKeepsWritten
  exact fun s u hs hw hstep => (step_next hstep).written hs hw

end Sys2Proof.Proofs
end

section
/-! Every run ends (spec R385, R391): a number that every step of a run lowers. -/

namespace Sys2Proof.Machine

/-- An upper bound of the places of ENTROPY. -/
def entropyBound (s : State) : Nat := 1024 * nMcu s

/-- An upper bound of the places of RECON. -/
def reconBound (s : State) : Nat := 1000 * nMcu s

/-- What is left of the run: bytes of the input, then places of ENTROPY, then places of RECON. -/
def runLeft (s : State) : Nat :=
  match s.phase with
  | .scan => s.input.length - s.ip.toNat + 1 + entropyBound s + reconBound s
  | .entropy => entropyBound s - entropyRank s + reconBound s
  | .recon => reconBound s - reconRank s
  | .none => 0

theorem runLeft_scan {s : State} (h : s.phase = .scan) :
    runLeft s = s.input.length - s.ip.toNat + 1 + entropyBound s + reconBound s := by rw [runLeft, h]

theorem runLeft_entropy {s : State} (h : s.phase = .entropy) :
    runLeft s = entropyBound s - entropyRank s + reconBound s := by rw [runLeft, h]

theorem runLeft_recon {s : State} (h : s.phase = .recon) : runLeft s = reconBound s - reconRank s := by rw [runLeft, h]

theorem EntropyPosition.rank_lt {s : State} (h : EntropyPosition s) : entropyRank s < entropyBound s := by
  have hunit := unitRank_lt s
  have hslot := s.slot.isLt
  have hmcu := h.1
  have hstage : stage s ≤ 4 * s.mcu.toNat + 3 := by
    unfold stage
    split <;> omega
  unfold entropyRank entropyBound
  omega

theorem ReconPosition.rank_lt {s : State} (h : ReconPosition s) : reconRank s < reconBound s := by
  have hplace := placeRank_lt s.upc
  have hmcu := h.1
  unfold reconRank reconBound
  omega

theorem RunFrame.bounds {s u : State} (h : RunFrame s u) :
    entropyBound u = entropyBound s ∧ reconBound u = reconBound s := by
  unfold entropyBound reconBound
  rw [h.nMcu]
  exact ⟨rfl, rfl⟩

/-- Every step of a run lowers what is left of it, once the end of the input is signalled. -/
theorem RunNext.runLeft_lt {s u : State} (h : RunNext s u) (hs : RunInv s) (hbusy : s.state = .busy)
    (hend : s.phase = .scan → s.inputEnd = true) (hgoes : u.state = .busy) : runLeft u < runLeft s := by
  have hu := h.runInv hs hbusy
  have hn := (hs.launched hbusy).nMcu_pos
  obtain ⟨hentropy, hrecon⟩ := h.keeps.frame.bounds
  have hinput := h.keeps.frame.input
  cases h with
  | scan hphase h =>
    rw [runLeft_scan hphase]
    cases h with
    | on h hmoves =>
      obtain ⟨hlt, hle⟩ := hmoves (hend hphase)
      rw [runLeft_scan (h.frame.phase.trans hphase), hentropy, hrecon, hinput]
      omega
    | fault => cases hgoes
    | @block t u h _ hblock =>
      rw [runLeft_entropy hblock.phase, hentropy, hrecon]
      omega
    | recon _ hempty => omega
  | entropy hphase h =>
    have hrank := ((positionOk_entropy hphase).mp hs.position).rank_lt
    rw [runLeft_entropy hphase]
    cases h with
    | fault => cases hgoes
    | on h =>
      have hlt := h.rank
      rw [runLeft_entropy h.phase, hentropy, hrecon]
      omega
    | @recon t h _ =>
      have hphase' : (beginRecon t).phase = .recon := by rw [beginRecon_of_pos (by rw [h.nMcu]; omega)]
      rw [runLeft_recon hphase', hrecon]
      omega
  | recon hphase h =>
    have hpos := (positionOk_recon hphase).mp hs.position
    have hrank := hpos.rank_lt
    rw [runLeft_recon hphase]
    cases h with
    | on h =>
      have hlt := h.rank hpos
      have hphase' : u.phase = .recon := by
        have hframe := h.step.frame
        unfold ReconFrame at hframe
        exact (congrArg State.phase hframe).trans hphase
      rw [runLeft_recon hphase', hrecon]
      omega
    | finish => cases hgoes

theorem phase_of_rank_le {p : Phase} (h : phaseRank p ≤ 1) : p = .scan := by
  cases p with
  | scan => rfl
  | entropy | recon | none => exact absurd h (by decide)

/-- By induction on what is left of the run. -/
theorem run_ends {s : State} {n : Nat} (hleft : runLeft s < n) (hs : RunInv s) (hbusy : s.state = .busy) (hq : s.hostq = [])
    (hlen : s.input.length < 2 ^ 32) (hend : s.phase = .scan → s.inputEnd = true) :
    ∃ n u, steps n s = .next u ∧ (u.state = .done ∨ u.state = .error) := by
  induction n generalizing s with
  | zero => omega
  | succ n ih =>
    obtain ⟨u, hstep, h⟩ := (leads_runStep hbusy).exists_next (hs.ready hbusy hlen)
    rw [← step_of_no_host hq] at hstep
    have hframe := h.keeps.frame
    cases h.ends hs hbusy with
    | on hgoes _ _ hle _ =>
      have hlt := h.runLeft_lt hs hbusy hend hgoes
      obtain ⟨k, v, hsteps, hv⟩ := ih (s := u) (by omega) (h.runInv hs hbusy) hgoes (hframe.hostq.trans hq)
        (by rw [hframe.input]; exact hlen) fun hphase => by
          rw [hframe.inputEnd]
          exact hend (phase_of_rank_le (by rw [hphase] at hle; exact hle))
      exact ⟨k + 1, v, (steps_succ_of_next hstep).trans hsteps, hv⟩
    | fault hstate _ _ _ => exact ⟨1, u, (steps_one s).trans hstep, .inr hstate⟩
    | done hstate _ _ _ => exact ⟨1, u, (steps_one s).trans hstep, .inl hstate⟩

/-- SCAN waits for ever (spec R385). -/
theorem steps_waiting {s : State} (hbusy : s.state = .busy) (hphase : s.phase = .scan) (hq : s.hostq = [])
    (hwait : tokenThere s = false) (n : Nat) : steps n s = .next s := by
  have hstep : step s = .next s := by
    rw [step_of_no_host hq, runStep_of_wait hbusy (fetch_of_waiting hphase hwait)]
  induction n with
  | zero => exact steps_zero s
  | succ n ih => rw [steps_succ_of_next hstep, ih]

end Sys2Proof.Machine

namespace Sys2Proof.Proofs

open Sys2Proof.Machine

/-- Settles O60: what is left of a run becomes less with every step; while a byte lacks, the step is the identity. -/
theorem everyRunEnds : Obligations.EveryRunEnds := by
  unfold Obligations.EveryRunEnds
  exact ⟨fun s hs hbusy hq hlen hend => run_ends (Nat.lt_succ_self _) hs hbusy hq hlen hend,
    fun s n hbusy hphase hq hend hleft => steps_waiting hbusy hphase hq (tokenThere_eq_false.mpr ⟨hend, hleft⟩) n⟩

end Sys2Proof.Proofs
end
